-- ==== Sys2Proof/Word.lean ====
section
/-! DEFINITION. The word and byte types of the block and their plainest arithmetic (00_scope R6 `XLEN`, R10). -/

namespace Sys2Proof

/-- An address, a register value, a length or an operand: 32 bits, unsigned (00_scope R6, decision D2). -/
abbrev Word := BitVec 32

/-- One byte of RAM, of the packet window or of a FIFO. -/
abbrev Byte := BitVec 8

/-- Bits 15 to 0 of a bus value: all that the four bridge registers take of a write (40_register_access R136). -/
def Word.low16 (v : Word) : BitVec 16 := v.extractLsb' 0 16

/-- Bits 31 to 16 of a bus value, which the bridge registers ignore (40_register_access R136). -/
def Word.high16 (v : Word) : BitVec 16 := v.extractLsb' 16 16

/-- A bus value from its two halves. -/
def Word.ofHalves (hi lo : BitVec 16) : Word := hi ++ lo

end Sys2Proof
end

