-- ==== Sys2Proof/Config.lean ====
section
/-! DEFINITION. What an implementation fixes (the parameters of 00_scope R6) and the free values: constants with no body,
one for each kind of value the spec calls `draw` (00_scope R11). -/

namespace Sys2Proof

/-- The parameters of 00_scope R6 that the source leaves OPEN, and those this spec decides and lets a model take as
parameters. A state carries one `Config` that no step writes (log 1), so a claim about every state is a claim about
every value of every parameter. -/
structure Config where
  /-- `BRIDGE_BASE`: physical address of offset 0 of the bridge window (OPEN D3). -/
  bridgeBase : Word
  /-- `UNCACHED`, the function, as data: its values at the addresses listed here (OPEN D4; log 11). A list of pairs can
  hold any function of a 32-bit address. -/
  uncachedAt : List (Word × Word)
  /-- `UNCACHED(p)` at every other address: `p` with these three bits or-ed into bits 31 to 29. -/
  uncachedSeg : BitVec 3
  /-- `DMA_BASE`: physical address of `ram_addr` (OPEN D5). -/
  dmaBase : Word
  /-- `DMA_STATUS_BUSY_MASK`: the bits of `status`, as read, that mean "not idle" (OPEN D6). -/
  dmaBusyMask : Word
  /-- `DMA_STATUS_ARM`: the reset/arm value written to `status` (OPEN D7). -/
  dmaArm : Word
  /-- `DOM1_TIMING`: the (physical address, value) pairs INIT writes, in order (OPEN D13). -/
  dom1Timing : List (Word × Word)
  /-- `RAM_CFG_SAVE_OFF` (OPEN D14), written zero-extended (30_encoding R106). -/
  ramCfgSaveOff : BitVec 16
  /-- `CACHE_LINE` is `2 ^ lineBits` bytes: a power of two (OPEN D15; log 20). -/
  lineBits : Fin 30
  /-- `RAM_SIZE`: bytes of RAM (OPEN D10). -/
  ramSize : Nat
  /-- `RXF_ACTIVE_LOW` (OPEN D21). -/
  rxfActiveLow : Bool
  /-- `TXF_ACTIVE_LOW` (OPEN D21). -/
  txfActiveLow : Bool
  /-- `CAN_WRITE_AS_SOURCE` (decision D22: the spec's value is false). -/
  canWriteAsSource : Bool
  /-- `SCRATCH_ADDR`: cached-view address of the region INIT drains into (OPEN D23). -/
  scratchAddr : Word
  /-- `TX_FIFO_DEPTH`; `none` is the unbounded queue that 00_scope R6 admits (OPEN D20). -/
  txDepth : Option Nat
  /-- `RX_FIFO_DEPTH`; `none` is unbounded (OPEN D20). -/
  rxDepth : Option Nat
  /-- `DMA_ALIGN_OK`, first part: the number that must divide the RAM address; 1 is the spec's "true for all"
  (decision D27; log 18). -/
  alignRam : Nat
  /-- `DMA_ALIGN_OK`, second part: the number that must divide the peripheral address. -/
  alignPeriph : Nat
  /-- `DMA_ALIGN_OK`, third part: the number that must divide the length. -/
  alignLen : Nat
  deriving DecidableEq, Repr

/-- `PACKET_SIZE` (00_scope R6). -/
def packetSize : Nat := 512

/-- `POLL_LIMIT` (00_scope R6). -/
def pollLimit : BitVec 14 := 8192#14

/-- `CACHE_LINE` in bytes (00_scope R6). -/
def Config.lineSize (c : Config) : Nat := 2 ^ c.lineBits.val

/-- What 00_scope R6, 92 D6 and 20_memory R64 require of the parameters, and what makes the map of 20_memory R62 one that
names each register once: the bridge window, the DMA block and the timing registers lie below 0x20000000 and apart; RAM
is a whole number of lines in the bus space and holds the scratch region (70_reset_and_hazards R317 (b)); `UNCACHED`
keeps bits 28 to 0 of an address of the bus space. No step tests this: it is a premise of claims (log 20). -/
def Config.legal (c : Config) : Bool :=
  decide (c.bridgeBase.toNat + 0x801B < 0x20000000) &&
  decide (c.dmaBase.toNat + 0x10 < 0x20000000) &&
  decide (c.dmaBase.toNat + 0x10 < c.bridgeBase.toNat ∨ c.bridgeBase.toNat + 0x801B < c.dmaBase.toNat) &&
  c.dom1Timing.all (fun e =>
    decide (e.1.toNat < 0x20000000) &&
    decide (e.1.toNat < c.bridgeBase.toNat ∨ c.bridgeBase.toNat + 0x801B < e.1.toNat) &&
    decide (e.1.toNat < c.dmaBase.toNat ∨ c.dmaBase.toNat + 0x10 < e.1.toNat)) &&
  decide (c.dmaBusyMask ≠ 0#32) &&
  decide (c.ramSize ≤ 0x20000000) &&
  decide (c.ramSize % c.lineSize = 0) &&
  decide (c.scratchAddr.toNat + 512 ≤ 0x100000000) &&
  decide ((c.scratchAddr &&& 0x1FFFFFFF#32).toNat + 512 ≤ c.ramSize) &&
  c.uncachedAt.all (fun e => decide (e.1.toNat < 0x20000000 → e.2 &&& 0x1FFFFFFF#32 = e.1))

/-- The spec's own value of `DMA_ALIGN_OK`: true of every job (00_scope R6, 20_memory R69). -/
def Config.alignsAll (c : Config) : Prop := c.alignRam = 1 ∧ c.alignPeriph = 1 ∧ c.alignLen = 1

/-- The reference parameter set of 00_scope R6 and 95_test_vectors section 1. PRESUMED (log 2): the spec itself marks
these values as general knowledge of the family, and no rule depends on them. -/
def Config.reference : Config where
  bridgeBase := 0x1F800000
  uncachedAt := []
  uncachedSeg := 5
  dmaBase := 0x04600000
  dmaBusyMask := 0x3
  dmaArm := 0x3
  dom1Timing := [(0x04600014, 0x04), (0x04600018, 0x0C)]
  ramCfgSaveOff := 0
  lineBits := 4
  ramSize := 0x400000
  rxfActiveLow := true
  txfActiveLow := true
  canWriteAsSource := false
  scratchAddr := 0x803FFE00
  txDepth := none
  rxDepth := none
  alignRam := 1
  alignPeriph := 1
  alignLen := 1

/-! ### Free values (00_scope R11 `draw`; log 5)

Each takes the number of the transaction or move that draws (State's `draws`) and, where one move draws several values
of a kind, a slot that tells them apart. They have no body: nothing can be proved of them but their type. -/

/-- A drawn bit. -/
opaque Config.freeBit : Nat → Nat → Bool

/-- A drawn byte. -/
opaque Config.freeByte : Nat → Nat → Byte

/-- A drawn word. -/
opaque Config.freeWord : Nat → Nat → Word

/-- A drawn number. -/
opaque Config.freeNat : Nat → Nat → Nat

/-- A drawn `brg.ptr`, 0 to 512 (43_handshake R204). -/
opaque Config.freePtr : Nat → Fin 513

/-- A drawn packet window. -/
opaque Config.freeWindow : Nat → Vector Byte 512

/-- The packet window that an operation ended by `BridgeTimeout` leaves (60_exceptions R285). -/
opaque Config.freePacket : Nat → Vector Byte 512

/-- A drawn sequence of bytes. -/
opaque Config.freeBytes : Nat → Nat → List Byte

/-- A drawn list of indices. -/
opaque Config.freeNats : Nat → List Nat

/-- The contents of RAM that nothing has written: epoch 0 is what power-on left (10_state R47), each later epoch is
what a write to an unknown place left (20_memory R67, 93 U9). The second argument is the RAM byte index. -/
opaque Config.ramByte : Nat → Nat → Byte

end Sys2Proof
end

