-- ==== Sys2Proof/Syntax.lean ====
section
/-! DEFINITION. The instructions: one constructor per row of spec/opcode_table.json, 28 in all, and the shape of what an
encoded one looks like (30_encoding R100, R110 to R114, R121, R122). -/

namespace Sys2Proof

/-- The direction of a DMA job (30_encoding R113): IN is peripheral to RAM, OUT is RAM to peripheral. -/
inductive Dir where
  | incoming
  | outgoing
  deriving DecidableEq, Repr

/-- One constructor per row of the opcode table. The first 13 are the operations of 30_encoding R112; the rest are the
command words of R102 and the other pseudo-operations of R121. -/
inductive Instr where
  /-- NEW (45_init_lifecycle R260). -/
  | new
  /-- INIT (45_init_lifecycle R261). -/
  | init
  /-- READ `buf`, `len` (44_packet_transfer R232). -/
  | read (buf len : Word)
  /-- WRITE `buf`, `len` (44_packet_transfer R238). -/
  | write (buf len : Word)
  /-- RD_REG `off` (40_register_access R130). -/
  | rdReg (off : Word)
  /-- WR_REG `off`, `value` (40_register_access R131). -/
  | wrReg (off value : Word)
  /-- CACHE_WB `addr`, `len` (41_cache_coherence R153). -/
  | cacheWb (addr len : Word)
  /-- CACHE_WBINV `addr`, `len` (41_cache_coherence R154). -/
  | cacheWbinv (addr len : Word)
  /-- DMA_XFER `ram`, `periph`, `len`, `dir` (42_dma R167). -/
  | dmaXfer (ram periph len : Word) (dir : Dir)
  /-- WAIT_NOT_BUSY (43_handshake R197). -/
  | waitNotBusy
  /-- CAN_READ (43_handshake R200). -/
  | canRead
  /-- CAN_WRITE (43_handshake R201). -/
  | canWrite
  /-- DMA_WAIT_IDLE (42_dma R166). -/
  | dmaWaitIdle
  /-- `USB_CMD_RD_NOP`: the "read, no-op" command word 0xC400 (30_encoding R102). -/
  | usbCmdRdNop
  /-- `USB_CMD_RD off`: the "read + activate" command word 0xC600 | off. -/
  | usbCmdRd (off : BitVec 9)
  /-- `USB_CMD_WR_NOP`: the "write, no-op" command word 0xC000. -/
  | usbCmdWrNop
  /-- `USB_CMD_WR off`: the "write + activate" command word 0xC200 | off. -/
  | usbCmdWr (off : BitVec 9)
  /-- `KEY_UNLOCK`: 0xAA55 to KEY; the upper half of the value is ignored (45_init_lifecycle R269). -/
  | keyUnlock (ignored : BitVec 16)
  /-- `SYS_CFG_CLEAR`: 0 to SYS_CFG; the upper half is ignored (45_init_lifecycle R270). -/
  | sysCfgClear (ignored : BitVec 16)
  /-- `SAVE_OFF`: `RAM_CFG_SAVE_OFF` to RAM_CFG; the upper half is ignored (45_init_lifecycle R266). -/
  | saveOff (ignored : BitVec 16)
  /-- `USB_STATUS`: a read of USB_CFG (43_handshake R209). -/
  | usbStatus
  /-- `DMA_ARM`: `DMA_STATUS_ARM` to `status` (42_dma R174). -/
  | dmaArm
  /-- `DMA_SET_RAM`: a word to `ram_addr` (42_dma R180). -/
  | dmaSetRam (ram : Word)
  /-- `DMA_SET_PERIPH`: a masked address to `peripheral_addr`; its bits 28 to 0 (42_dma R180). -/
  | dmaSetPeriph (periph : BitVec 29)
  /-- `DMA_START_IN`: a length less one to `read_len` (42_dma R175). -/
  | dmaStartIn (lenMinus1 : Word)
  /-- `DMA_START_OUT`: a length less one to `write_len` (42_dma R175). -/
  | dmaStartOut (lenMinus1 : Word)
  /-- `DMA_STATUS`: a read of `status` (42_dma R179). -/
  | dmaStatus
  /-- `DOM1_SET i`: entry `i` of `DOM1_TIMING` (42_dma R185). -/
  | dom1Set (i : Nat)
  deriving DecidableEq, Repr

/-- The formats of the opcode table (30_encoding R122). The formats other than OPD select their register by space and
offset, which the table gives beside the value, so the format carries the offset. -/
inductive Format where
  /-- OPD: a descriptor on port CMD. -/
  | opd
  /-- CMD16: a 16-bit command word for USB_CFG. -/
  | cmd16
  /-- BRG_WR: the value written at an offset of the bridge window. -/
  | brgWr (off : Nat)
  /-- BRG_RD: a read at an offset of the bridge window. -/
  | brgRd (off : Nat)
  /-- DMA_WR: the value written at an offset of the DMA block. -/
  | dmaWr (off : Nat)
  /-- DMA_RD: a read at an offset of the DMA block. -/
  | dmaRd (off : Nat)
  /-- TIM_WR: the value written to the timing register of entry `i` of `DOM1_TIMING`. -/
  | timWr (i : Nat)
  deriving DecidableEq, Repr

/-- An encoded instruction: its format and its words, word 0 first (30_encoding R110, R114). -/
structure Request where
  fmt : Format
  words : List Word
  deriving DecidableEq, Repr

end Sys2Proof
end

