-- ==== Sys2Proof/WellFormed.lean ====
section
/-! DEFINITION. The checks on an instruction as syntax: those refusals of 60_exceptions R297 that its operands alone
decide, and the range of a DOM1_SET index. -/

namespace Sys2Proof

/-- The buffer or cache range `[addr, addr + len)` does not cross 2^32 (00_scope R13; 60_exceptions R297 (c)). -/
def rangeOk (addr len : Word) : Bool := decide (addr.toNat + len.toNat ≤ 0x100000000)

/-- A DMA_XFER moves at least one byte (42_dma R173; 60_exceptions R297 (d)). -/
def lengthOk (len : Word) : Bool := decide (len ≠ 0#32)

/-- Entry `i` of `DOM1_TIMING` exists (30_encoding R121). -/
def timingIndexOk (c : Config) (i : Nat) : Bool := decide (i < c.dom1Timing.length)

/-- The operand checks of each instruction. -/
def Instr.wellFormed (c : Config) : Instr → Bool
  | .new => true
  | .init => true
  | .read buf len => rangeOk buf len
  | .write buf len => rangeOk buf len
  | .rdReg _ => true
  | .wrReg _ _ => true
  | .cacheWb addr len => rangeOk addr len
  | .cacheWbinv addr len => rangeOk addr len
  | .dmaXfer _ _ len _ => lengthOk len
  | .waitNotBusy => true
  | .canRead => true
  | .canWrite => true
  | .dmaWaitIdle => true
  | .usbCmdRdNop => true
  | .usbCmdRd _ => true
  | .usbCmdWrNop => true
  | .usbCmdWr _ => true
  | .keyUnlock _ => true
  | .sysCfgClear _ => true
  | .saveOff _ => true
  | .usbStatus => true
  | .dmaArm => true
  | .dmaSetRam _ => true
  | .dmaSetPeriph _ => true
  | .dmaStartIn _ => true
  | .dmaStartOut _ => true
  | .dmaStatus => true
  | .dom1Set i => timingIndexOk c i

end Sys2Proof
end

