-- ==== Sys2Proof/Decode.lean ====
section
/-! DEFINITION. From encoded words to an instruction or a named rejection, and back (30_encoding R101, R102, R106, R107,
R110 to R115, R121, R122). The decoder is total; the encoder stands after it. -/

namespace Sys2Proof

/-- Why words are no instruction. -/
inductive Reject where
  /-- The descriptor ends before its last operand word (30_encoding R114). -/
  | truncated
  /-- Opcode 0xD, 0xE or 0xF (30_encoding R115). -/
  | reservedOpcode
  /-- A nonzero bit in 31 to 4 of the first word (30_encoding R115). -/
  | nonzeroHighBits
  /-- The `dir` word of DMA_XFER is neither 0 nor 1 (30_encoding R115). -/
  | badDirection
  /-- The word is none of the four commands of 30_encoding R102. -/
  | notACommandWord
  /-- No row of the table has this format at this offset or index. -/
  | noSuchRegister
  /-- The value is not the one the row writes. -/
  | notTheRowsValue
  deriving DecidableEq, Repr

/-- The `dir` operand word: 0 is IN, 1 is OUT (30_encoding R113). -/
def decodeDir (w : Word) : Option Dir :=
  if w = 0#32 then some .incoming else if w = 1#32 then some .outgoing else none

/-- The `dir` operand word of a direction. -/
def encodeDir : Dir → Word
  | .incoming => 0#32
  | .outgoing => 1#32

/-- One operand word. -/
def oneOperand (mk : Word → Instr) : List Word → Except Reject (Instr × List Word)
  | a :: rest => .ok (mk a, rest)
  | _ => .error .truncated

/-- Two operand words. -/
def twoOperands (mk : Word → Word → Instr) : List Word → Except Reject (Instr × List Word)
  | a :: b :: rest => .ok (mk a b, rest)
  | _ => .error .truncated

/-- The four operand words of DMA_XFER. -/
def dmaOperands : List Word → Except Reject (Instr × List Word)
  | ram :: periph :: len :: d :: rest =>
    match decodeDir d with
    | some dir => .ok (.dmaXfer ram periph len dir, rest)
    | none => .error .badDirection
  | _ => .error .truncated

/-- A descriptor: word 0 holds the opcode in bits 3 to 0 and zeros above; the opcode says how many words follow
(30_encoding R110, R112, R114). What stands after them is returned. -/
def decodeOpd : List Word → Except Reject (Instr × List Word)
  | [] => .error .truncated
  | w :: rest =>
    if 16 ≤ w.toNat then .error .nonzeroHighBits
    else match w.toNat with
      | 0x0 => .ok (.new, rest)
      | 0x1 => .ok (.init, rest)
      | 0x2 => twoOperands .read rest
      | 0x3 => twoOperands .write rest
      | 0x4 => oneOperand .rdReg rest
      | 0x5 => twoOperands .wrReg rest
      | 0x6 => twoOperands .cacheWb rest
      | 0x7 => twoOperands .cacheWbinv rest
      | 0x8 => dmaOperands rest
      | 0x9 => .ok (.waitNotBusy, rest)
      | 0xA => .ok (.canRead, rest)
      | 0xB => .ok (.canWrite, rest)
      | 0xC => .ok (.dmaWaitIdle, rest)
      | _ => .error .reservedOpcode

/-- Bits 8 to 0 of a command word (30_encoding R103). -/
def commandOffset (w : BitVec 16) : BitVec 9 := w.extractLsb' 0 9

/-- The four command words and no others (30_encoding R102). -/
def decodeCommand (w : BitVec 16) : Except Reject Instr :=
  if w = 0xC400#16 then .ok .usbCmdRdNop
  else if w &&& 0xFE00#16 = 0xC600#16 then .ok (.usbCmdRd (commandOffset w))
  else if w = 0xC000#16 then .ok .usbCmdWrNop
  else if w &&& 0xFE00#16 = 0xC200#16 then .ok (.usbCmdWr (commandOffset w))
  else .error .notACommandWord

/-- A row that writes one value, given the words after its format. -/
def oneValue (k : Word → Except Reject Instr) : List Word → Except Reject Instr
  | v :: _ => k v
  | [] => .error .truncated

/-- The value of a BRG_WR row (30_encoding R106, R121): its low half is the row's, its high half is ignored. -/
def decodeBridgeWrite (c : Config) (off : Nat) (v : Word) : Except Reject Instr :=
  if off = 0x8004 then
    if v.low16 = 0xAA55#16 then .ok (.keyUnlock v.high16) else .error .notTheRowsValue
  else if off = 0x8000 then
    if v.low16 = 0#16 then .ok (.sysCfgClear v.high16) else .error .notTheRowsValue
  else if off = 0x8018 then
    if v.low16 = c.ramCfgSaveOff then .ok (.saveOff v.high16) else .error .notTheRowsValue
  else .error .noSuchRegister

/-- The value of a DMA_WR row (30_encoding R107, R121). -/
def decodeDmaWrite (c : Config) (off : Nat) (v : Word) : Except Reject Instr :=
  if off = 0x10 then
    if v = c.dmaArm then .ok .dmaArm else .error .notTheRowsValue
  else if off = 0x00 then .ok (.dmaSetRam v)
  else if off = 0x04 then
    if v.toNat < 0x20000000 then .ok (.dmaSetPeriph (v.extractLsb' 0 29)) else .error .notTheRowsValue
  else if off = 0x08 then .ok (.dmaStartIn v)
  else if off = 0x0C then .ok (.dmaStartOut v)
  else .error .noSuchRegister

/-- The value of a TIM_WR row: that of entry `i` of `DOM1_TIMING` (30_encoding R108). -/
def decodeTimingWrite (c : Config) (i : Nat) (v : Word) : Except Reject Instr :=
  match c.dom1Timing[i]? with
  | some e => if v = e.2 then .ok (.dom1Set i) else .error .notTheRowsValue
  | none => .error .noSuchRegister

/-- The decoder, over every format and every list of words. A CMD16 word has no bit above 15. -/
def decode (c : Config) (r : Request) : Except Reject Instr :=
  match r.fmt with
  | .opd => (decodeOpd r.words).map (·.1)
  | .cmd16 => oneValue
      (fun v => if v.high16 = 0#16 then decodeCommand v.low16 else .error .notACommandWord) r.words
  | .brgWr off => oneValue (decodeBridgeWrite c off) r.words
  | .brgRd off => if off = 0x0004 then .ok .usbStatus else .error .noSuchRegister
  | .dmaWr off => oneValue (decodeDmaWrite c off) r.words
  | .dmaRd off => if off = 0x10 then .ok .dmaStatus else .error .noSuchRegister
  | .timWr i => oneValue (decodeTimingWrite c i) r.words

/-! ### The encoder -/

/-- The "read + activate" command word: byte-order, strobe, direction and activate flags and the offset
(30_encoding R101 to R103). -/
def commandRead (off : BitVec 9) : BitVec 16 := 0xC600#16 ||| off.setWidth 16

/-- The "write + activate" command word. -/
def commandWrite (off : BitVec 9) : BitVec 16 := 0xC200#16 ||| off.setWidth 16

/-- The "read, no-op" command word. -/
def commandReadNop : BitVec 16 := 0xC400#16

/-- The "write, no-op" command word. -/
def commandWriteNop : BitVec 16 := 0xC000#16

/-- The value DOM1_SET writes (30_encoding R121); 0 stands for an entry that is not there. -/
def timingValue (c : Config) (i : Nat) : Word := ((c.dom1Timing[i]?).map (·.2)).getD 0

/-- The words of an instruction, from the same tables (30_encoding R102, R106, R107, R110 to R113, R121). -/
def encode (c : Config) : Instr → Request
  | .new => ⟨.opd, [0x0#32]⟩
  | .init => ⟨.opd, [0x1#32]⟩
  | .read buf len => ⟨.opd, [0x2#32, buf, len]⟩
  | .write buf len => ⟨.opd, [0x3#32, buf, len]⟩
  | .rdReg off => ⟨.opd, [0x4#32, off]⟩
  | .wrReg off value => ⟨.opd, [0x5#32, off, value]⟩
  | .cacheWb addr len => ⟨.opd, [0x6#32, addr, len]⟩
  | .cacheWbinv addr len => ⟨.opd, [0x7#32, addr, len]⟩
  | .dmaXfer ram periph len dir => ⟨.opd, [0x8#32, ram, periph, len, encodeDir dir]⟩
  | .waitNotBusy => ⟨.opd, [0x9#32]⟩
  | .canRead => ⟨.opd, [0xA#32]⟩
  | .canWrite => ⟨.opd, [0xB#32]⟩
  | .dmaWaitIdle => ⟨.opd, [0xC#32]⟩
  | .usbCmdRdNop => ⟨.cmd16, [commandReadNop.setWidth 32]⟩
  | .usbCmdRd off => ⟨.cmd16, [(commandRead off).setWidth 32]⟩
  | .usbCmdWrNop => ⟨.cmd16, [commandWriteNop.setWidth 32]⟩
  | .usbCmdWr off => ⟨.cmd16, [(commandWrite off).setWidth 32]⟩
  | .keyUnlock hi => ⟨.brgWr 0x8004, [Word.ofHalves hi 0xAA55#16]⟩
  | .sysCfgClear hi => ⟨.brgWr 0x8000, [Word.ofHalves hi 0#16]⟩
  | .saveOff hi => ⟨.brgWr 0x8018, [Word.ofHalves hi c.ramCfgSaveOff]⟩
  | .usbStatus => ⟨.brgRd 0x0004, []⟩
  | .dmaArm => ⟨.dmaWr 0x10, [c.dmaArm]⟩
  | .dmaSetRam ram => ⟨.dmaWr 0x00, [ram]⟩
  | .dmaSetPeriph p => ⟨.dmaWr 0x04, [p.setWidth 32]⟩
  | .dmaStartIn n => ⟨.dmaWr 0x08, [n]⟩
  | .dmaStartOut n => ⟨.dmaWr 0x0C, [n]⟩
  | .dmaStatus => ⟨.dmaRd 0x10, []⟩
  | .dom1Set i => ⟨.timWr i, [timingValue c i]⟩

/-! ### A word of the opcode table (log 10) -/

/-- The `k`-th 32-bit word of a number whose bit 0 is the least significant bit of the first word. -/
def wordOf (w k : Nat) : Word := BitVec.ofNat 32 (w / 2 ^ (32 * k))

/-- The format of a number of at most 16 bits: the first row of the table, in the table's order, that fixes its bits and
admits it. Only CMD16 rows, KEY_UNLOCK and SYS_CFG_CLEAR have their fixed bits in 16 bits. -/
def tableFormat16 (v : Word) : Format :=
  if v.low16 = 0xAA55#16 then .brgWr 0x8004
  else if v.low16 = 0#16 then .brgWr 0x8000
  else .cmd16

/-- The format of a longer number: a descriptor if bits 31 to 4 of its first word are zero, else the first row after the
operations, in the table's order, that fixes a bit and admits the first word: KEY_UNLOCK, SYS_CFG_CLEAR, DMA_SET_PERIPH.
What is left is read as a descriptor, which the decoder refuses. -/
def tableFormat32 (v : Word) : Format :=
  if v.toNat < 16 then .opd
  else if v.low16 = 0xAA55#16 then .brgWr 0x8004
  else if v.low16 = 0#16 then .brgWr 0x8000
  else if v.toNat < 0x20000000 then .dmaWr 0x04
  else .opd

/-- The request that a number of `nbits` bits of the table stands for: five words, the longest descriptor, those above
`nbits` zero. -/
def tableRequest (nbits w : Nat) : Request :=
  let v := w % 2 ^ nbits
  let words := [wordOf v 0, wordOf v 1, wordOf v 2, wordOf v 3, wordOf v 4]
  if nbits ≤ 16 then ⟨tableFormat16 (wordOf v 0), words⟩ else ⟨tableFormat32 (wordOf v 0), words⟩

/-- The instruction the decoder reads from a word of the opcode table, with the reference parameters. -/
def decodeTableWord (nbits w : Nat) : Option Instr :=
  match decode Config.reference (tableRequest nbits w) with
  | .ok i => some i
  | .error _ => none

end Sys2Proof
end

