-- ==== Sys2Proof/Machine/State.lean ====
section
/-! DEFINITION. The state of the block (10_state), the reasons a step can stop, the state after reset, and the named
updates of each part. Fields that are the model's own and not the spec's say so. -/

namespace Sys2Proof.Machine

/-- Why the machine stops with a fault. The hardware itself has none: its one error, BridgeTimeout, is a response
(60_exceptions R280, R284). -/
inductive Fault where
  /-- Raised by a CLIENT load or store (schedule entries `cpuRead`, `cpuWrite`) of a cached-view address whose RAM byte
  index is not below `RAM_SIZE`: no such byte exists. Safe: the model stops where the chip would do something the spec
  does not say (log 19). -/
  | clientOutsideRam
  deriving DecidableEq, Repr

/-- Why the block gives a request no meaning (60_exceptions R297, a closed list; the model's additions say so). -/
inductive Refusal where
  /-- Raised by `exec` for an instruction that has no meaning yet. Safe. -/
  | notModelled (mnemonic : String)
  /-- Raised by a step whose offered words the decoder rejects (60_exceptions R297 (a); for words in the formats of the
  pseudo-operations, the model's own: log 10). Safe. -/
  | badDescriptor (why : Reject)
  /-- Raised by READ and WRITE while `seq.initialized = 0` (60_exceptions R297 (b), 45_init_lifecycle R272). Safe. -/
  | notInitialised
  /-- Raised by READ, WRITE, CACHE_WB and CACHE_WBINV on a range across 2^32 (60_exceptions R297 (c)). Safe. -/
  | rangeCrosses
  /-- Raised by DMA_XFER with `len = 0` (60_exceptions R297 (d), 42_dma R173). Safe. -/
  | zeroLength
  /-- Raised by every instruction offered while `seq.op` is not IDLE (60_exceptions R297 (e),
  70_reset_and_hazards R321). Safe. -/
  | busy
  /-- Raised by DOM1_SET with an index past the end of `DOM1_TIMING`: there is no such entry to write (the model's own
  name: log 9). Safe. -/
  | noTimingRegister
  /-- Raised by a step on a request that its placer has no operation for: CLIENT's offer of a pseudo-operation on the DMA
  block or a timing register (70_reset_and_hazards R319, 40_register_access R134), or a `bare` move of anything else
  (the model's own name: log 9). Safe. -/
  | wrongPlacer
  deriving DecidableEq, Repr

/-- `seq.op` (10_state R27): the operation port CMD accepted and has not answered. -/
inductive Op where
  | idle | new | init | read | write | rdReg | wrReg | cacheWb | cacheWbinv | dmaXfer
  | waitNotBusy | canRead | canWrite | dmaWaitIdle
  deriving DecidableEq, Repr

/-- The kinds of cache operation on port COP (00_scope R8). -/
inductive CacheKind where
  | wb
  | wbinv
  deriving DecidableEq, Repr

/-- The operands of a DMA_XFER in progress: `periph` is already masked (42_dma R167, line P_dx). -/
structure Xfer where
  ram : Word
  periph : Word
  len : Word
  dir : Dir
  deriving DecidableEq, Repr

/-- `seq.phase` (10_state R28): the labelled points of the pseudocode that stand before a transaction, with the locals
the pseudocode keeps there (log 8). -/
inductive Phase where
  /-- The idle point. -/
  | idle
  /-- P_rdreg (40_register_access R130). -/
  | rdReg (off : Word)
  /-- P_wrreg (40_register_access R131). -/
  | wrReg (off value : Word)
  /-- P_wb_l and P_wbinv_l: the line at `a`, the last line of the walk (41_cache_coherence R153, R154). -/
  | line (kind : CacheKind) (a last : Word)
  /-- P_dwi (42_dma R166). -/
  | dmaPoll
  /-- P_dx_arm (42_dma R167). -/
  | dmaArm (x : Xfer)
  /-- P_dx_ram. -/
  | dmaRam (x : Xfer)
  /-- P_dx_per. -/
  | dmaPeriph (x : Xfer)
  /-- P_dx_len. -/
  | dmaLen (x : Xfer)
  /-- P_init_tim with the loop's `i` (45_init_lifecycle R261). -/
  | initTiming (i : Nat)
  deriving DecidableEq, Repr

/-- An entry of the return stack (10_state R28): the label whose `CALL` is running, with the locals it needs after. -/
inductive Frame where
  /-- P_wnb_rd, waiting for the status word (43_handshake R197). -/
  | waitRead
  /-- P_wnb_to, waiting for the recovery write. -/
  | waitRecovery
  /-- P_canrd (43_handshake R200). -/
  | canRead
  /-- P_canwr (43_handshake R201). -/
  | canWrite
  /-- P_dx_w1 (42_dma R167). -/
  | dmaFirstWait (x : Xfer)
  /-- P_dx_w2. -/
  | dmaLastWait
  /-- P_rd_w0, with READ's operands, which the pseudocode assigns after it (44_packet_transfer R232). -/
  | readFirstWait (buf len : Word)
  /-- P_rd_cmd. -/
  | readCommand
  /-- P_rd_w. -/
  | readWait
  /-- P_rd_inv. -/
  | readInvalidate
  /-- P_rd_dma. -/
  | readDma
  /-- P_wr_arm, with WRITE's operands (44_packet_transfer R238). -/
  | writeArm (buf len : Word)
  /-- P_wr_wb. -/
  | writeBack
  /-- P_wr_dma. -/
  | writeDma
  /-- P_wr_cmd. -/
  | writeCommand
  /-- P_wr_w. -/
  | writeWait
  /-- P_init_key (45_init_lifecycle R261). -/
  | initKey
  /-- P_init_sys. -/
  | initSysCfg
  /-- P_init_chk. -/
  | initCheck
  /-- P_init_drn. -/
  | initDrain
  /-- P_init_ram. -/
  | initRamCfg
  deriving DecidableEq, Repr

/-- SEQ's registers (10_state R21 to R28). -/
structure Sequencer where
  initialized : Bool
  buf : Word
  cursor : Word
  remaining : Word
  chunk : BitVec 10
  baseOffset : BitVec 10
  poll : BitVec 14
  op : Op
  args : List Word
  phase : Phase
  /-- The return stack, top first. -/
  stack : List Frame
  deriving DecidableEq, Repr

/-- `dma.job` (10_state R36). `done` is a set of indices below `count`, held as a strictly rising list. -/
structure Job where
  dir : Dir
  ram : Word
  periph : Word
  count : BitVec 33
  done : List Nat
  deriving DecidableEq, Repr

/-- The DMA register block and its engine (10_state R30 to R37). `job` has a meaning only while `busy`. -/
structure Dma where
  ramAddr : Word
  peripheralAddr : Word
  readLen : Word
  writeLen : Word
  busy : Bool
  job : Job
  /-- `dma.timing[address]`, sorted by physical address (10_state R37). -/
  timing : List (Nat × Word)
  deriving DecidableEq, Repr

/-- `brg.dir` (10_state R44). -/
inductive BrgDir where
  | rd
  | wr
  deriving DecidableEq, Repr

/-- The bridge (10_state R38 to R45). FIFOs are oldest byte first. -/
structure Bridge where
  unlocked : Bool
  sysCfg : BitVec 16
  ramCfg : BitVec 16
  cmd : BitVec 16
  pkt : Vector Byte 512
  active : Bool
  dir : BrgDir
  ptr : Fin 513
  rxFifo : List Byte
  txFifo : List Byte
  deriving DecidableEq, Repr

/-- `mem` (10_state R47). `cells` lists the bytes that have been written, addresses strictly rising; an address it does
not list holds no written value and reads as the free value `Config.ramByte epoch address` (log 4). -/
structure Memory where
  cells : List Host.Cell
  /-- The model's own: which free contents unlisted bytes have (log 16). -/
  epoch : Nat
  deriving DecidableEq, Repr

/-- A cache line (10_state R48). -/
structure Line where
  data : List Byte
  dirty : Bool
  deriving DecidableEq, Repr

/-- HOST (10_state R46): the input `powered` and the two ghost logs, oldest byte first. -/
structure HostSide where
  powered : Bool
  sent : List Byte
  received : List Byte
  deriving DecidableEq, Repr

/-- A response on port CMD (30_encoding R111): result code, value. -/
structure Response where
  code : Word
  value : Word
  deriving DecidableEq, Repr

/-- The model's own logs of what CLIENT saw, newest first (log 24). -/
structure ClientSide where
  /-- The responses that went out on port CMD. -/
  responses : List Response
  /-- Each cached-view address CLIENT read, with the byte it got. -/
  loads : List (Word × Byte)
  deriving DecidableEq, Repr

/-- A transaction of a trace (30_encoding R109): BUSX or a cache operation. -/
inductive Transaction where
  | busRead (a v : Word)
  | busWrite (a v : Word)
  | cacheOp (kind : CacheKind) (a : Word)
  deriving DecidableEq, Repr

/-- A move of the scheduler or the environment (00_scope R7, R12; log 6). -/
inductive Event where
  /-- CLIENT places a request; SEQ accepts it and makes its first transaction. -/
  | offer (r : Request)
  /-- The one transaction of a pseudo-operation on the DMA block or a timing register, made between operations. No agent of
  the spec makes this move: CLIENT has no such operation (70_reset_and_hazards R319), and other masters are silent (R322).
  It is the model's own, so that each row of the opcode table can be run (log 9). -/
  | bare (r : Request)
  /-- SEQ makes its next transaction. -/
  | seq
  /-- The engine moves byte `i` of its job (42_dma R176). -/
  | dmaMove (i : Nat)
  /-- The engine completes its job (42_dma R178). -/
  | dmaComplete
  /-- BRG takes the step that is enabled (43_handshake R205 to R208). -/
  | bridge
  /-- CACHE evicts a line (20_memory R74). -/
  | evict (line : Nat)
  /-- HOST pushes a byte (43_handshake R219 (a)). -/
  | hostSend (b : Byte)
  /-- HOST takes a byte (43_handshake R219 (b)). -/
  | hostTake
  /-- HOST sets `powered` (43_handshake R219 (c)). -/
  | hostPower (v : Bool)
  /-- The loopback HOST's step (43_handshake R219). -/
  | hostLoopback
  /-- CLIENT reads a byte through the cached view (20_memory R72). -/
  | cpuRead (a : Word)
  /-- CLIENT writes a byte through the cached view (20_memory R73). -/
  | cpuWrite (a : Word) (b : Byte)
  deriving DecidableEq, Repr, Inhabited

/-- The moves after the listed ones, without end (log 6): 00_scope R7 lets any agent wait for ever. -/
inductive Tail where
  /-- The model's default order: the busy engine, the bridge, SEQ (log 7). -/
  | default
  /-- These moves, over and over. -/
  | cycle (first : Event) (rest : List Event)
  /-- The moves of an endless schedule nothing is known of, `Config.freeMove which`, from position `next` on. -/
  | free (which next : Nat)
  deriving DecidableEq, Repr

/-- The state of the block (10_state R20), and the model's own fields `cfg`, `client`, `trace`, `draws`, `sched`,
`tail`. -/
structure State where
  /-- The parameters; no step writes them (log 1). -/
  cfg : Config
  seq : Sequencer
  dma : Dma
  brg : Bridge
  mem : Memory
  /-- Lines by line index, indices strictly rising; an index not listed is not in the cache (10_state R48). -/
  cache : List (Nat × Line)
  host : HostSide
  client : ClientSide
  /-- SEQ's transactions, newest first (log 24). -/
  trace : List Transaction
  /-- The index of the next free values (log 5). -/
  draws : Nat
  /-- The moves to come, next first (log 6). -/
  sched : List Event
  /-- The moves after those (log 6, log 7). -/
  tail : Tail
  deriving DecidableEq, Repr

/-! ### Named updates -/

/-- The state with another sequencer. -/
def State.setSeq (s : State) (q : Sequencer) : State := { s with seq := q }
/-- The state with another DMA block. -/
def State.setDma (s : State) (d : Dma) : State := { s with dma := d }
/-- The state with another bridge. -/
def State.setBrg (s : State) (b : Bridge) : State := { s with brg := b }
/-- The state with other RAM. -/
def State.setMem (s : State) (m : Memory) : State := { s with mem := m }
/-- The state with another cache. -/
def State.setCache (s : State) (c : List (Nat × Line)) : State := { s with cache := c }
/-- The state with another HOST. -/
def State.setHost (s : State) (h : HostSide) : State := { s with host := h }
/-- The state with other CLIENT logs. -/
def State.setClient (s : State) (c : ClientSide) : State := { s with client := c }
/-- The state with another trace. -/
def State.setTrace (s : State) (t : List Transaction) : State := { s with trace := t }
/-- The state with another draw index. -/
def State.setDraws (s : State) (n : Nat) : State := { s with draws := n }
/-- The state with another schedule. -/
def State.setSched (s : State) (es : List Event) : State := { s with sched := es }
/-- The state with other moves after the listed ones. -/
def State.setTail (s : State) (l : Tail) : State := { s with tail := l }

/-! ### Reset (10_state R51, 70_reset_and_hazards R310)

The spec's reset facts are `seq.initialized = 0`, `seq.op = IDLE`, `seq.phase` at the idle point and empty ghost logs.
Every other value here is the model's (log 2, log 3, log 4): 10_state R51 leaves it unspecified. What the spec says of a
reset state, and no more, is `State.afterReset` in Safety.lean. -/

/-- SEQ after reset. -/
def Sequencer.reset : Sequencer where
  initialized := false
  buf := 0
  cursor := 0
  remaining := 0
  chunk := 0
  baseOffset := 0
  poll := 0
  op := .idle
  args := []
  phase := .idle
  stack := []

/-- The job the engine's record names after reset, while the engine is idle. -/
def Job.reset : Job where
  dir := .incoming
  ram := 0
  periph := 0
  count := 1
  done := []

/-- The DMA block after reset: idle, with every timing register of `DOM1_TIMING` at 0. -/
def Dma.reset : Dma where
  ramAddr := 0
  peripheralAddr := 0
  readLen := 0
  writeLen := 0
  busy := false
  job := Job.reset
  timing := [(0x04600014, 0), (0x04600018, 0)]

/-- The bridge after reset: locked, idle, FIFOs empty. -/
def Bridge.reset : Bridge where
  unlocked := false
  sysCfg := 0
  ramCfg := 0
  cmd := 0
  pkt := Vector.replicate 512 0
  active := false
  dir := .rd
  ptr := 0
  rxFifo := []
  txFifo := []

/-- The machine right after reset. -/
def State.reset : State where
  cfg := Config.reference
  seq := Sequencer.reset
  dma := Dma.reset
  brg := Bridge.reset
  mem := { cells := [], epoch := 0 }
  cache := []
  host := { powered := false, sent := [], received := [] }
  client := { responses := [], loads := [] }
  trace := []
  draws := 0
  sched := []
  tail := .default

end Sys2Proof.Machine
end

