-- ==== Sys2Proof/Machine/Ops.lean ====
section
/-! DEFINITION. Named operations over the parts of the state: lists sorted by key, sets of indices, RAM, the FIFOs' room,
the trace and the draws, the phase and return stack, the end of an operation and the error (60_exceptions R284). -/

namespace Sys2Proof.Machine

/-! ### Lists sorted by key (RAM, the cache, the timing registers) -/

/-- What a list holds at a key. -/
def keyGet {α : Type} (k : Nat) : List (Nat × α) → Option α
  | [] => none
  | e :: rest => if e.1 = k then some e.2 else keyGet k rest

/-- The list with a value put at a key, in key order. -/
def keySet {α : Type} (k : Nat) (v : α) : List (Nat × α) → List (Nat × α)
  | [] => [(k, v)]
  | e :: rest => if k < e.1 then (k, v) :: e :: rest else if k = e.1 then (k, v) :: rest else e :: keySet k v rest

/-- The list with nothing at a key. -/
def keyErase {α : Type} (k : Nat) : List (Nat × α) → List (Nat × α)
  | [] => []
  | e :: rest => if e.1 = k then keyErase k rest else e :: keyErase k rest

/-- Every key of the list is above `k`. -/
def keysAbove {α : Type} (k : Nat) (l : List (Nat × α)) : Bool := l.all (fun e => decide (k < e.1))

/-- The keys rise strictly. -/
def keysRising {α : Type} : List (Nat × α) → Bool
  | [] => true
  | e :: rest => keysAbove e.1 rest && keysRising rest

/-! ### Sets of indices (`dma.job.done`) -/

/-- The set with an index put in. -/
def indexInsert (i : Nat) : List Nat → List Nat
  | [] => [i]
  | j :: rest => if i < j then i :: j :: rest else if i = j then j :: rest else j :: indexInsert i rest

/-- The indices rise strictly. -/
def indicesRising : List Nat → Bool
  | [] => true
  | j :: rest => rest.all (fun k => decide (j < k)) && indicesRising rest

/-- The least index from `i` on that a strictly rising list misses. -/
def firstMissing (i : Nat) : List Nat → Nat
  | [] => i
  | j :: rest => if j = i then firstMissing (i + 1) rest else if j < i then firstMissing i rest else i

/-! ### RAM (10_state R47, 20_memory R60) -/

/-- The byte of RAM at an index: the byte written there, or the free contents of a byte nothing has written (log 4). -/
def Memory.read (m : Memory) (a : Nat) : Byte := (keyGet a m.cells).getD (Config.ramByte m.epoch a)

/-- RAM with a byte written. -/
def Memory.write (m : Memory) (a : Nat) (b : Byte) : Memory := { m with cells := keySet a b m.cells }

/-- RAM with nothing known of it: the target of a write to an unknown place (20_memory R67, 93 U9; log 16). -/
def Memory.unknown (n : Nat) : Memory := { cells := [], epoch := n + 1 }

/-- The canonical form of RAM: addresses strictly rising. An unlisted address holds no written value, so no entry can
equal what it reads as. -/
def Memory.wf (m : Memory) : Bool := keysRising m.cells

/-- `MemWrite` of one byte (00_scope R11). A byte index past `RAM_SIZE` names no byte: nothing is written (log 20). -/
def ramWrite (a : Nat) (b : Byte) (s : State) : State :=
  if a < s.cfg.ramSize then s.setMem (s.mem.write a b) else s

/-- `MemWrite` of a byte sequence. -/
def ramWriteBytes (a : Nat) : List Byte → State → State
  | [], s => s
  | b :: rest, s => ramWriteBytes (a + 1) rest (ramWrite a b s)

/-- `MemRead` of a byte sequence (00_scope R11). -/
def ramReadBytes (a n : Nat) (s : State) : List Byte := (List.range n).map (fun k => s.mem.read (a + k))

/-! ### FIFOs (10_state R45) -/

/-- A queue holds fewer bytes than its depth; an unbounded queue always does. -/
def hasRoom (depth : Option Nat) (q : List Byte) : Bool :=
  match depth with
  | none => true
  | some d => decide (q.length < d)

/-- The most of a sequence that a queue of this depth can hold. -/
def clip (depth : Option Nat) (q : List Byte) : List Byte :=
  match depth with
  | none => q
  | some d => q.take d

/-- What of a sequence still fits behind a queue. -/
def clipAfter (depth : Option Nat) (q more : List Byte) : List Byte :=
  match depth with
  | none => more
  | some d => more.take (d - q.length)

/-! ### Trace and draws -/

/-- The state with one more transaction in its trace (30_encoding R109). -/
def State.record (s : State) (t : Transaction) : State := s.setTrace (t :: s.trace)

/-- The state whose next free values are fresh (00_scope R11: two draws are independent). -/
def State.tick (s : State) : State := s.setDraws (s.draws + 1)

/-! ### Phase, return stack, start and end of an operation -/

/-- Control at a phase with a return stack: `seq.phase <- P` (00_scope R11). -/
def State.jump (s : State) (p : Phase) (k : List Frame) : State :=
  s.setSeq { s.seq with phase := p, stack := k }

/-- A descriptor accepted: the operation and its operand words latched (10_state R27). -/
def State.latch (s : State) (op : Op) (args : List Word) : State :=
  s.setSeq { s.seq with op := op, args := args }

/-- The end of an operation: `seq.op <- IDLE`, the idle point, one response out (30_encoding R111, 60_exceptions R284). -/
def answer (code value : Word) (s : State) : State :=
  (s.setSeq { s.seq with op := .idle, phase := .idle, stack := [] }).setClient
    { s.client with responses := ⟨code, value⟩ :: s.client.responses }

/-- The block's one error reaching port CMD: `Err(BridgeTimeout)`, code 1, nothing recorded (60_exceptions R281, R284 (4)).
It has no handler, no saved context and no return: SEQ waits for the next descriptor (60_exceptions R286). The recovery
write, R284 (1), has been made before by WAIT_NOT_BUSY. -/
def raiseTimeout (s : State) : State := answer 1#32 0#32 s

end Sys2Proof.Machine
end

