-- ==== Sys2Proof/Machine/Operands.lean ====
section
/-! DEFINITION. Address and operand formation: views and masks (20_memory R64 to R67), the routing of port BUS (R62), the
registers of each block (10_state R30, R38), cache lines (41_cache_coherence R151), packets (44_packet_transfer R235). -/

namespace Sys2Proof.Machine

/-! ### Views and masks -/

/-- The address in the 29-bit physical bus space: `a & 0x1FFFFFFF` (20_memory R61, R62, R66). -/
def physical (a : Word) : Word := a &&& 0x1FFFFFFF#32

/-- `UNCACHED(p)`: the address of physical address `p` in the view that bypasses the cache (20_memory R64; log 11). -/
def uncached (c : Config) (p : Word) : Word :=
  match c.uncachedAt.find? (fun e => decide (e.1 = p)) with
  | some e => e.2
  | none => p ||| (c.uncachedSeg.setWidth 32 <<< 29)

/-- `REG_ADDR(off)`; the sum is modulo 2^32 (20_memory R65). -/
def regAddr (c : Config) (off : Word) : Word := uncached c (c.bridgeBase + off)

/-- `RAM_PHYS(a)`: the RAM byte index a cached-view address or a `ram_addr` value names (20_memory R67). -/
def ramPhys (a : Word) : Nat := (physical a).toNat

/-! ### The registers and the routing of port BUS -/

/-- The five registers of the DMA block (10_state R30). -/
inductive DmaReg where
  | ramAddr | peripheralAddr | readLen | writeLen | status
  deriving DecidableEq, Repr

/-- The offset of a DMA register from `DMA_BASE` (00_scope R6, decision D5). -/
def DmaReg.offset : DmaReg → Word
  | .ramAddr => 0x00#32
  | .peripheralAddr => 0x04#32
  | .readLen => 0x08#32
  | .writeLen => 0x0C#32
  | .status => 0x10#32

/-- The address SEQ uses for a DMA register (40_register_access R134). -/
def dmaAddr (c : Config) (r : DmaReg) : Word := uncached c (c.dmaBase + r.offset)

/-- What stands at an offset of the bridge window (10_state R38, 30_encoding R118). -/
inductive BridgeReg where
  | usbCfg
  | sysCfg
  | key
  | ramCfg
  /-- USB_DAT: the packet window, 0x0400 to 0x05FF. -/
  | window
  /-- Any offset the document does not give. -/
  | other
  deriving DecidableEq, Repr

/-- The bridge register at an offset. -/
def bridgeReg (off : Nat) : BridgeReg :=
  if off = 0x0004 then .usbCfg
  else if off = 0x8000 then .sysCfg
  else if off = 0x8004 then .key
  else if off = 0x8018 then .ramCfg
  else if 0x0400 ≤ off ∧ off ≤ 0x05FF then .window
  else .other

/-- The DMA register at a distance from `DMA_BASE`, if one is there. -/
def dmaRegAt (d : Nat) : Option DmaReg :=
  if d = 0x00 then some .ramAddr
  else if d = 0x04 then some .peripheralAddr
  else if d = 0x08 then some .readLen
  else if d = 0x0C then some .writeLen
  else if d = 0x10 then some .status
  else none

/-- The target of a bus transaction (20_memory R62). -/
inductive Target where
  | dma (r : DmaReg)
  /-- The timing register at a physical address. -/
  | timing (p : Nat)
  | bridge (r : BridgeReg)
  | unmapped
  deriving DecidableEq, Repr

/-- The offset of the last byte of the bridge window (20_memory R60, R62). -/
def bridgeTop : Nat := 0x801B

/-- The rest of the routing, for an address that is no DMA register. -/
def otherTarget (c : Config) (p : Nat) : Target :=
  if c.dom1Timing.any (fun e => decide (e.1.toNat = p)) then .timing p
  else if c.bridgeBase.toNat ≤ p ∧ p ≤ c.bridgeBase.toNat + bridgeTop then .bridge (bridgeReg (p - c.bridgeBase.toNat))
  else .unmapped

/-- The target of a transaction at a bus address, by its physical address, in the order of 20_memory R62. -/
def busTarget (c : Config) (a : Word) : Target :=
  let p := ramPhys a
  if c.dmaBase.toNat ≤ p then
    match dmaRegAt (p - c.dmaBase.toNat) with
    | some r => .dma r
    | none => otherTarget c p
  else otherTarget c p

/-! ### Cache lines (20_memory R71, 41_cache_coherence R151) -/

/-- `line(a)`: the index of the line that holds a cached-view address. -/
def lineIndex (c : Config) (a : Word) : Nat := ramPhys a / c.lineSize

/-- The place of a cached-view address in its line. -/
def lineOffset (c : Config) (a : Word) : Nat := ramPhys a % c.lineSize

/-- The cached-view address of the first byte of the line that holds `a`. -/
def lineFirst (c : Config) (a : Word) : Word := BitVec.ofNat 32 (a.toNat - a.toNat % c.lineSize)

/-- The first byte of the last line that a range of `len ≥ 1` bytes touches. -/
def lineLast (c : Config) (addr len : Word) : Word := lineFirst c (addr + (len - 1#32))

/-- The next line's first byte. -/
def lineNext (c : Config) (a : Word) : Word := a + BitVec.ofNat 32 c.lineSize

/-! ### Packets (44_packet_transfer R230, R235, R237) -/

/-- `min(512, remaining)`, 10 bits. -/
def chunkOf (remaining : Word) : BitVec 10 := BitVec.ofNat 10 (min packetSize remaining.toNat)

/-- `512 - chunk`, 10 bits. -/
def baseOffsetOf (chunk : BitVec 10) : BitVec 10 := 512#10 - chunk

/-- The value of a command word with an offset field: `word | base_offset` (30_encoding R102, R103). -/
def commandValue (word : Word) (base : BitVec 10) : Word := word ||| base.setWidth 32

/-- The peripheral address of a packet, `REG_ADDR(0x0400 + base_offset)` (44_packet_transfer R237). -/
def packetAddr (c : Config) (base : BitVec 10) : Word := regAddr c (0x0400#32 + base.setWidth 32)

/-- The place in the packet window of a physical address (42_dma R177). -/
def windowIndex (c : Config) (p : Word) : Option (Fin 512) :=
  let k := p.toNat - (c.bridgeBase.toNat + 0x0400)
  if h : c.bridgeBase.toNat + 0x0400 ≤ p.toNat ∧ k < 512 then some ⟨k, h.2⟩ else none

/-- `DMA_ALIGN_OK(ram, periph, len)` (20_memory R69; log 18). With the spec's value, 1 for each part, it is true of
every job. -/
def alignOk (c : Config) (j : Job) : Bool :=
  decide (j.ram.toNat % c.alignRam = 0) && decide (j.periph.toNat % c.alignPeriph = 0) &&
    decide (j.count.toNat % c.alignLen = 0)

end Sys2Proof.Machine
end

