-- ==== Sys2Proof/Machine/Flags.lean ====
section
/-! DEFINITION. Status words: how each is composed and every test the operations make of one (43_handshake R197, R200,
R201, R209 to R212, R216; 42_dma R166, R179). The block has no condition codes (10_state R29). -/

namespace Sys2Proof.Machine

/-! ### The tests, on the word (30_encoding R104) -/

/-- ACTIVE (0x0200) is set (43_handshake R197). -/
def activeBit (w : Word) : Bool := decide (w &&& 0x0200#32 ≠ 0#32)

/-- POWERED set and RXF clear (43_handshake R200). -/
def canReadBits (w : Word) : Bool := decide (w &&& 0x1400#32 = 0x1000#32)

/-- POWERED set and TXF clear (43_handshake R201). -/
def canWriteBits (w : Word) : Bool := decide (w &&& 0x1800#32 = 0x1000#32)

/-- No bit of `DMA_STATUS_BUSY_MASK` is set: the engine is idle (42_dma R166). -/
def idleBits (mask w : Word) : Bool := decide (w &&& mask = 0#32)

/-! ### What a bus read returns -/

/-- The data of a bus read: a word, or a status word whose known bits are kept apart from its drawn bits, so that a test
of known bits can be computed (log 28). -/
inductive BusData where
  | word (v : Word)
  /-- A status word of USB_CFG: ACTIVE, RXF, TXF, POWERED, and the drawn bits (43_handshake R209). -/
  | usbStatus (active rxf txf powered : Bool) (drawn : Word)
  /-- A status word of the DMA block: busy, the mask, and the drawn word (42_dma R179). -/
  | dmaStatus (busy : Bool) (mask drawn : Word)
  deriving DecidableEq, Repr

/-- A bit of a status word. -/
def flagBit (b : Bool) (mask : Word) : Word := if b then mask else 0#32

/-- The 32 bits of the data. Status: every bit but 12 to 9 stays as drawn (43_handshake R209). DMA status: a drawn word
under the one law that its masked bits are zero exactly when the engine is idle (42_dma R179). -/
def BusData.value : BusData → Word
  | .word v => v
  | .usbStatus active rxf txf powered drawn =>
    (drawn &&& 0xFFFFE1FF#32) ||| flagBit active 0x0200#32 ||| flagBit rxf 0x0400#32 ||| flagBit txf 0x0800#32 |||
      flagBit powered 0x1000#32
  | .dmaStatus busy mask drawn =>
    if busy then (if drawn &&& mask = 0#32 then drawn ||| mask else drawn) else drawn &&& ~~~mask

/-- The ACTIVE test on data: `activeBit` of its word. -/
def BusData.activeSet : BusData → Bool
  | .usbStatus active _ _ _ _ => active
  | .word v => activeBit v
  | .dmaStatus busy mask drawn => activeBit (BusData.value (.dmaStatus busy mask drawn))

/-- The CAN_READ test on data: `canReadBits` of its word. -/
def BusData.canReadSet : BusData → Bool
  | .usbStatus _ rxf _ powered _ => powered && !rxf
  | .word v => canReadBits v
  | .dmaStatus busy mask drawn => canReadBits (BusData.value (.dmaStatus busy mask drawn))

/-- The CAN_WRITE test on data, as the spec's value of `CAN_WRITE_AS_SOURCE` has it: `canWriteBits` of its word. -/
def BusData.canWriteSet : BusData → Bool
  | .usbStatus _ _ txf powered _ => powered && !txf
  | .word v => canWriteBits v
  | .dmaStatus busy mask drawn => canWriteBits (BusData.value (.dmaStatus busy mask drawn))

/-- The idle test on data: `idleBits` of its word. -/
def BusData.idleSet (mask : Word) : BusData → Bool
  | .dmaStatus busy m drawn =>
    if m = mask then !busy || decide (mask = 0#32) else idleBits mask (BusData.value (.dmaStatus busy m drawn))
  | .word v => idleBits mask v
  | .usbStatus a r t p drawn => idleBits mask (BusData.value (.usbStatus a r t p drawn))

/-! ### The bits of the status word of USB_CFG -/

/-- RXF (43_handshake R211): as its name says, or inverted. -/
def rxfLevel (s : State) : Bool :=
  if s.cfg.rxfActiveLow then s.brg.rxFifo.isEmpty else !s.brg.rxFifo.isEmpty

/-- TXF (43_handshake R212): set when the transmit FIFO holds data, or, active-low, clear when it can take a byte. -/
def txfLevel (s : State) : Bool :=
  if s.cfg.txfActiveLow then !hasRoom s.cfg.txDepth s.brg.txFifo else !s.brg.txFifo.isEmpty

/-- The status word of an unlocked bridge (43_handshake R209, R210, R215). -/
def usbStatusData (s : State) : BusData :=
  .usbStatus s.brg.active (rxfLevel s) (txfLevel s) s.host.powered (Config.freeWord s.draws 0)

/-- The read face of the DMA `status` register (42_dma R179). -/
def dmaStatusData (s : State) : BusData :=
  .dmaStatus s.dma.busy s.cfg.dmaBusyMask (Config.freeWord s.draws 0)

end Sys2Proof.Machine
end

