-- ==== Sys2Proof/Machine/Unspecified.lean ====
section
/-! DEFINITION. What "becomes unspecified" makes of the bridge and of the DMA block: each named part a fresh draw
(93_implementation_defined part 1, treatment "any value"; log 13). A drawn FIFO is no longer than its depth, a drawn set
of indices lies below the job's count, so the data keep their form. -/

namespace Sys2Proof.Machine

/-- The bridge wholly unspecified (30_encoding R118, 40_register_access R138, 42_dma R177). -/
def freeBridge (c : Config) (n : Nat) : Bridge where
  unlocked := Config.freeBit n 0
  sysCfg := (Config.freeWord n 1).low16
  ramCfg := (Config.freeWord n 2).low16
  cmd := (Config.freeWord n 3).low16
  pkt := Config.freeWindow n
  active := Config.freeBit n 1
  dir := if Config.freeBit n 2 then .rd else .wr
  ptr := Config.freePtr n
  rxFifo := clip c.rxDepth (Config.freeBytes n 0)
  txFifo := clip c.txDepth (Config.freeBytes n 1)

/-- The handshake unspecified: `active`, `dir`, `ptr`, `pkt` and the number of bytes taken from or put into the FIFOs
(30_encoding R116, 43_handshake R217). The registers and the lock stay. -/
def freeHandshake (c : Config) (n : Nat) (b : Bridge) : Bridge :=
  { b with
    pkt := Config.freeWindow n
    active := Config.freeBit n 1
    dir := if Config.freeBit n 2 then .rd else .wr
    ptr := Config.freePtr n
    rxFifo := b.rxFifo.drop (Config.freeNat n 0)
    txFifo := b.txFifo ++ clipAfter c.txDepth b.txFifo (Config.freeBytes n 1) }

/-- A job of unknown shape (10_state R36). -/
def freeJob (n : Nat) : Job :=
  let count : BitVec 33 := (Config.freeWord n 10).setWidth 33 + 1#33
  { dir := if Config.freeBit n 4 then .incoming else .outgoing
    ram := Config.freeWord n 8
    periph := Config.freeWord n 9
    count := count
    done := ((Config.freeNats n).filter (fun i => decide (i < count.toNat))).foldr indexInsert [] }

/-- The DMA block wholly unspecified (30_encoding R118). -/
def freeDma (n : Nat) (d : Dma) : Dma where
  ramAddr := Config.freeWord n 4
  peripheralAddr := Config.freeWord n 5
  readLen := Config.freeWord n 6
  writeLen := Config.freeWord n 7
  busy := Config.freeBit n 3
  job := freeJob n
  timing := d.timing.map (fun e => (e.1, Config.freeWord n (16 + e.1)))

/-- A write to an address the document does not give: the bridge and the DMA block wholly unspecified
(30_encoding R118). -/
def unmappedWrite (s : State) : State :=
  (s.setBrg (freeBridge s.cfg s.draws)).setDma (freeDma s.draws s.dma)

/-- `n` bytes of RAM from index `a` on become draws. -/
def freeRam (draw a : Nat) : Nat → State → State
  | 0, s => s
  | n + 1, s => ramWrite (a + n) (Config.freeByte draw n) (freeRam draw a n s)

/-- The window bytes `lo` to `lo + n - 1` become draws. -/
def freeWindowPart (draw lo n : Nat) (w : Vector Byte 512) : Vector Byte 512 :=
  Vector.ofFn (fun k : Fin 512 => if lo ≤ k.val ∧ k.val < lo + n then Config.freeByte draw k.val else w[k])

/-- The window bytes from `lo` up become draws. -/
@[irreducible] def freeWindowFrom (draw lo : Nat) (w : Vector Byte 512) : Vector Byte 512 :=
  Vector.ofFn (fun k : Fin 512 => if k.val < lo then w[k] else (Config.freePacket draw)[k])

/-- Every byte of a job's destination becomes a draw (42_dma R174, R180). A destination that leaves RAM or the packet
window has an unknown part: then all of RAM, or of the bridge, is unspecified (20_memory R67, 42_dma R177; log 15). -/
def freeDestination (j : Job) (s : State) : State :=
  match j.dir with
  | .incoming =>
    if ramPhys j.ram + j.count.toNat ≤ s.cfg.ramSize then freeRam s.draws (ramPhys j.ram) j.count.toNat s
    else s.setMem (Memory.unknown s.draws)
  | .outgoing =>
    match windowIndex s.cfg j.periph with
    | some k =>
      if k.val + j.count.toNat ≤ 512 then
        s.setBrg { s.brg with pkt := freeWindowPart s.draws k.val j.count.toNat s.brg.pkt }
      else s.setBrg (freeBridge s.cfg s.draws)
    | none => s.setBrg (freeBridge s.cfg s.draws)

/-- The engine disturbed: `dma.busy`, `dma.job` and every byte of the job's destination unspecified (42_dma R174, R180,
93 U3). -/
def disturbEngine (s : State) : State :=
  let t := freeDestination s.dma.job s
  t.setDma { t.dma with busy := Config.freeBit s.draws 3, job := freeJob s.draws }

end Sys2Proof.Machine
end

