-- ==== Sys2Proof/Machine/Cache.lean ====
section
/-! DEFINITION. The data cache as CLIENT, SEQ and CACHE itself act on it (20_memory R70 to R75, 41_cache_coherence R152).
The engine never does (20_memory R76). -/

namespace Sys2Proof.Machine

/-- Byte `k` of a line; a line holds `CACHE_LINE` bytes, so 0 stands only for a place no line has. -/
def Line.byte (l : Line) (k : Nat) : Byte := (l.data[k]?).getD 0

/-- The line of RAM bytes at a line index, as a fill brings it in: clean (20_memory R72). -/
def filledLine (l : Nat) (s : State) : Line :=
  { data := ramReadBytes (l * s.cfg.lineSize) s.cfg.lineSize s, dirty := false }

/-- The line an access through the cached view finds: the one in the cache, or the fill (20_memory R72). -/
def lineFor (l : Nat) (s : State) : Line := (keyGet l s.cache).getD (filledLine l s)

/-- What `CpuRead(a, 1)` returns (20_memory R72). -/
def cpuByte (s : State) (a : Word) : Byte := (lineFor (lineIndex s.cfg a) s).byte (lineOffset s.cfg a)

/-- What `CpuRead(a, 1)` does: the line is in the cache afterwards (20_memory R72). The byte goes to CLIENT's log. -/
def cpuRead (a : Word) (s : State) : State :=
  (s.setCache (keySet (lineIndex s.cfg a) (lineFor (lineIndex s.cfg a) s) s.cache)).setClient
    { s.client with loads := (a, cpuByte s a) :: s.client.loads }

/-- A line with a byte replaced, dirty (20_memory R73). -/
def Line.store (l : Line) (k : Nat) (b : Byte) : Line := { data := l.data.set k b, dirty := true }

/-- What `CpuWrite(a, 1, b)` does: fill if absent, replace the byte, mark dirty; RAM is not written (20_memory R73). -/
def cpuWrite (a : Word) (b : Byte) (s : State) : State :=
  s.setCache (keySet (lineIndex s.cfg a) ((lineFor (lineIndex s.cfg a) s).store (lineOffset s.cfg a) b) s.cache)

/-- RAM after a line's write-back: written if dirty (20_memory R74, 41_cache_coherence R152). -/
def writeBackLine (l : Nat) (ln : Line) (s : State) : State :=
  if ln.dirty then ramWriteBytes (l * s.cfg.lineSize) ln.data s else s

/-- Eviction of a line, a step of CACHE: write back if dirty, then drop; nothing if the line is absent
(20_memory R74). -/
def evictLine (l : Nat) (s : State) : State :=
  match keyGet l s.cache with
  | some ln => (writeBackLine l ln s).setCache (keyErase l s.cache)
  | none => s

/-- The cache after a cache operation on a line it holds (41_cache_coherence R152): WB cleans it, WBINV drops it. -/
def cacheAfter (kind : CacheKind) (l : Nat) (ln : Line) (c : List (Nat × Line)) : List (Nat × Line) :=
  match kind with
  | .wb => keySet l { ln with dirty := false } c
  | .wbinv => keyErase l c

/-- `CacheOp(kind, a)` on the one line that holds `a`, its effect (41_cache_coherence R152). -/
def cacheEffect (kind : CacheKind) (a : Word) (s : State) : State :=
  match keyGet (lineIndex s.cfg a) s.cache with
  | some ln =>
    (writeBackLine (lineIndex s.cfg a) ln s).setCache (cacheAfter kind (lineIndex s.cfg a) ln s.cache)
  | none => s

/-- `CacheOp(kind, a)`, one transaction on port COP. -/
def cacheOp (kind : CacheKind) (a : Word) (s : State) : State :=
  (cacheEffect kind a s).record (.cacheOp kind a)

end Sys2Proof.Machine
end

