-- ==== Sys2Proof/Machine/BridgeUnit.lean ====
section
/-! DEFINITION. The bridge's side: its registers under a bus access (40_register_access R135, R136, R138), the command
word (43_handshake R202 to R204, R217), its own steps (R205 to R208) and HOST's (R219). -/

namespace Sys2Proof.Machine

/-! ### A command arrives (43_handshake R202) -/

/-- `DIR` set: a read (30_encoding R101). -/
def commandDir (w : BitVec 16) : BrgDir := if w.getLsbD 10 then .rd else .wr

/-- `ACT` (30_encoding R101). -/
def commandActivates (w : BitVec 16) : Bool := w.getLsbD 9

/-- The words 43_handshake R202 gives an effect: `BO` and `ST` set, bits 13 to 11 clear, and `OFF` 0 in a no-op. -/
def commandDefined (w : BitVec 16) : Bool :=
  w.getLsbD 15 && w.getLsbD 14 && decide (w.extractLsb' 11 3 = 0#3) &&
    (commandActivates w || decide (commandOffset w = 0#9))

/-- `OFF` as a place in the packet window. -/
def commandPtr (w : BitVec 16) : Fin 513 :=
  ⟨(commandOffset w).toNat, Nat.lt_trans (commandOffset w).isLt (by decide)⟩

/-- The bridge after an activate command that finds it idle (43_handshake R203). -/
def activate (w : BitVec 16) (b : Bridge) : Bridge :=
  { b with active := true, dir := commandDir w, ptr := commandPtr w }

/-- The bridge after a no-op command, in any state (43_handshake R204). -/
def noOperation (n : Nat) (w : BitVec 16) (b : Bridge) : Bridge :=
  { b with active := false, dir := commandDir w, ptr := Config.freePtr n }

/-- A write of a command word to USB_CFG (43_handshake R202, R217). -/
def command (w : BitVec 16) (s : State) : State :=
  let b : Bridge := { s.brg with cmd := w }
  if commandDefined w = false then s.setBrg (freeHandshake s.cfg s.draws b)
  else if commandActivates w = true then
    if s.brg.active then s.setBrg (freeHandshake s.cfg s.draws b) else s.setBrg (activate w b)
  else s.setBrg (noOperation s.draws w b)

/-! ### Register accesses -/

/-- What a read of a bridge register returns (40_register_access R135). A locked bridge promises not even the status
word (R138). -/
def bridgeData (r : BridgeReg) (s : State) : BusData :=
  match r with
  | .usbCfg => if s.brg.unlocked then usbStatusData s else .word (Config.freeWord s.draws 0)
  | .sysCfg => .word (Config.freeWord s.draws 0)
  | .key => .word (Config.freeWord s.draws 0)
  | .ramCfg => .word (Config.freeWord s.draws 0)
  | .window => .word (Config.freeWord s.draws 0)
  | .other => .word (Config.freeWord s.draws 0)

/-- A write of `v` to KEY (45_init_lifecycle R269). -/
def keyWrite (v : Word) (s : State) : State :=
  s.setBrg { s.brg with unlocked := if v.low16 = 0xAA55#16 then true else Config.freeBit s.draws 0 }

/-- The effect a write needs an unlocked bridge for (40_register_access R138). -/
def whenUnlocked (f : State → State) (s : State) : State :=
  if s.brg.unlocked then f s else s.setBrg (freeBridge s.cfg s.draws)

/-- What a write of `v` to a bridge register does (40_register_access R136, R138; 20_memory R79). -/
def bridgeWrite (r : BridgeReg) (v : Word) (s : State) : State :=
  match r with
  | .usbCfg => whenUnlocked (command v.low16) s
  | .sysCfg => whenUnlocked (fun t => t.setBrg { t.brg with sysCfg := v.low16 }) s
  | .key => keyWrite v s
  | .ramCfg => whenUnlocked (fun t => t.setBrg { t.brg with ramCfg := v.low16 }) s
  | .window => whenUnlocked (fun t => t.setBrg { t.brg with pkt := Config.freeWindow t.draws }) s
  | .other => unmappedWrite s

/-! ### BRG's own steps -/

/-- The bridge's pointer moved past one byte. -/
def nextPtr (p : Fin 513) (h : p.val < 512) : Fin 513 := ⟨p.val + 1, Nat.succ_lt_succ h⟩

/-- Read progress and read completion (43_handshake R205, R206). -/
def bridgeReadStep (b : Bridge) : Bridge :=
  if h : b.ptr.val < 512 then
    match b.rxFifo with
    | [] => b
    | x :: rest => { b with pkt := b.pkt.set b.ptr.val x, ptr := nextPtr b.ptr h, rxFifo := rest }
  else { b with active := false }

/-- Write progress and write completion (43_handshake R207, R208). -/
def bridgeWriteStep (depth : Option Nat) (b : Bridge) : Bridge :=
  if h : b.ptr.val < 512 then
    if hasRoom depth b.txFifo then
      { b with txFifo := b.txFifo ++ [b.pkt[b.ptr.val]], ptr := nextPtr b.ptr h }
    else b
  else { b with active := false }

/-- The one step of BRG that is enabled, or none (43_handshake R205 to R208). DEDUCED: the same on a locked bridge, these rules
having no lock test where 45_init_lifecycle R269 promises nothing (log 34). -/
def bridgeStep (s : State) : State :=
  if s.brg.active then
    match s.brg.dir with
    | .rd => s.setBrg (bridgeReadStep s.brg)
    | .wr => s.setBrg (bridgeWriteStep s.cfg.txDepth s.brg)
  else s

/-- A step of BRG is enabled. -/
def bridgeEnabled (s : State) : Bool :=
  s.brg.active &&
    (decide (s.brg.ptr.val = 512) ||
      match s.brg.dir with
      | .rd => !s.brg.rxFifo.isEmpty
      | .wr => hasRoom s.cfg.txDepth s.brg.txFifo)

/-! ### HOST's steps (43_handshake R219) -/

/-- HOST pushes a byte, if the receive FIFO has room. -/
def hostSend (b : Byte) (s : State) : State :=
  if hasRoom s.cfg.rxDepth s.brg.rxFifo then
    (s.setBrg { s.brg with rxFifo := s.brg.rxFifo ++ [b] }).setHost { s.host with sent := s.host.sent ++ [b] }
  else s

/-- HOST takes the oldest byte of the transmit FIFO, if there is one. -/
def hostTake (s : State) : State :=
  match s.brg.txFifo with
  | [] => s
  | b :: rest =>
    (s.setBrg { s.brg with txFifo := rest }).setHost { s.host with received := s.host.received ++ [b] }

/-- HOST sets `powered`. -/
def hostPower (v : Bool) (s : State) : State := s.setHost { s.host with powered := v }

/-- The loopback HOST's only step: the oldest byte of the transmit FIFO goes to the receive FIFO. It is a take and a push
in one, so it needs room and both logs grow (log 21). -/
def hostLoopback (s : State) : State :=
  match s.brg.txFifo with
  | [] => s
  | b :: _ => if hasRoom s.cfg.rxDepth s.brg.rxFifo then hostSend b (hostTake s) else s

end Sys2Proof.Machine
end

