-- ==== Sys2Proof/Machine/DmaUnit.lean ====
section
/-! DEFINITION. The DMA register block under a bus write (42_dma R174, R175, R180, R185) and the engine's steps on ports
DRAM and PBUS (R176 to R178). -/

namespace Sys2Proof.Machine

/-! ### Writes to the register block -/

/-- A write to `status` (42_dma R174): the arm value to an idle engine changes no modelled state. -/
def statusWrite (v : Word) (s : State) : State :=
  if s.dma.busy = false ∧ v = s.cfg.dmaArm then s else disturbEngine s

/-- A write to a programming register reaches the block: to a busy engine it disturbs the job (42_dma R180). -/
def whenEngineIdle (f : State → State) (s : State) : State := if s.dma.busy then disturbEngine s else f s

/-- The job a length write of `n` starts (42_dma R175). -/
def startedJob (dir : Dir) (n : Word) (d : Dma) : Job where
  dir := dir
  ram := d.ramAddr
  periph := d.peripheralAddr
  count := n.setWidth 33 + 1#33
  done := []

/-- A job starts (42_dma R175). -/
def startJob (dir : Dir) (n : Word) (s : State) : State :=
  s.setDma { s.dma with job := startedJob dir n s.dma, busy := true }

/-- What a length register holds after a write of `v`: `v`, for an idle engine (42_dma R175). What it holds after a write
that reaches a busy engine the spec does not say: R175 gives the store with `dma.busy = 0` only, and R180 names the job
and its destination. DESIGN CHOICE: a draw (log 31). -/
def lengthAfter (slot : Nat) (v : Word) (s : State) : Word :=
  if s.dma.busy then Config.freeWord s.draws slot else v

/-- What a write of `v` to a DMA register does: an address is stored, a length write to an idle engine is stored and
starts a job, and any write to a busy engine disturbs it (42_dma R174, R175, R180). -/
def dmaWrite (r : DmaReg) (v : Word) (s : State) : State :=
  match r with
  | .ramAddr => whenEngineIdle id (s.setDma { s.dma with ramAddr := v })
  | .peripheralAddr => whenEngineIdle id (s.setDma { s.dma with peripheralAddr := v })
  | .readLen => whenEngineIdle (startJob .incoming v) (s.setDma { s.dma with readLen := lengthAfter 6 v s })
  | .writeLen => whenEngineIdle (startJob .outgoing v) (s.setDma { s.dma with writeLen := lengthAfter 7 v s })
  | .status => statusWrite v s

/-- What a read of a DMA register returns (42_dma R179, R181). -/
def dmaData (r : DmaReg) (s : State) : BusData :=
  match r with
  | .status => dmaStatusData s
  | .ramAddr => .word (Config.freeWord s.draws 0)
  | .peripheralAddr => .word (Config.freeWord s.draws 0)
  | .readLen => .word (Config.freeWord s.draws 0)
  | .writeLen => .word (Config.freeWord s.draws 0)

/-- A write to the timing register at a physical address (42_dma R185). -/
def timingWrite (p : Nat) (v : Word) (s : State) : State :=
  s.setDma { s.dma with timing := keySet p v s.dma.timing }

/-! ### Port PBUS (42_dma R177) -/

/-- `PeriphRead8(p)`: a byte of the packet window; a draw outside it, and while the window is the bridge's
(70_reset_and_hazards R327). DEDUCED: the same on a locked bridge, R177 having no lock test where 40_register_access R138 and
45_init_lifecycle R269 promise nothing (log 34). -/
def periphByte (s : State) (p : Word) : Byte :=
  match windowIndex s.cfg p with
  | some k => if s.brg.active then Config.freeByte s.draws 0 else s.brg.pkt[k]
  | none => Config.freeByte s.draws 0

/-- `PeriphWrite8(p, b)`: a byte of the packet window; outside it the bridge becomes unspecified; while the window is the
bridge's the byte there becomes a draw (log 17). The lock is not looked at (log 34). -/
def periphWrite (p : Word) (b : Byte) (s : State) : State :=
  match windowIndex s.cfg p with
  | some k =>
    s.setBrg { s.brg with pkt := s.brg.pkt.set k.val (if s.brg.active then Config.freeByte s.draws 1 else b) }
  | none => s.setBrg (freeBridge s.cfg s.draws)

/-! ### The engine's steps -/

/-- The peripheral address of byte `i` of a job; the sum is modulo 2^32 (00_scope R13). -/
def jobPeriph (j : Job) (i : Nat) : Word := j.periph + BitVec.ofNat 32 i

/-- The RAM byte index of byte `i` of a job (42_dma R176). -/
def jobRam (j : Job) (i : Nat) : Nat := ramPhys j.ram + i

/-- The byte an incoming move carries (42_dma R176; a job that fails `DMA_ALIGN_OK` carries draws, 20_memory R69). -/
def incomingByte (j : Job) (i : Nat) (s : State) : Byte :=
  if alignOk s.cfg j then periphByte s (jobPeriph j i) else Config.freeByte s.draws 2

/-- The byte an outgoing move carries; outside RAM a draw (42_dma R183). -/
def outgoingByte (j : Job) (i : Nat) (s : State) : Byte :=
  if alignOk s.cfg j then
    if jobRam j i < s.cfg.ramSize then s.mem.read (jobRam j i) else Config.freeByte s.draws 3
  else Config.freeByte s.draws 2

/-- Byte `i` of a job moved (42_dma R176). A byte written outside RAM leaves RAM unspecified (R183; log 16). -/
def transferByte (j : Job) (i : Nat) (s : State) : State :=
  match j.dir with
  | .incoming =>
    if jobRam j i < s.cfg.ramSize then ramWrite (jobRam j i) (incomingByte j i s) s
    else s.setMem (Memory.unknown s.draws)
  | .outgoing => periphWrite (jobPeriph j i) (outgoingByte j i s) s

/-- The engine may move byte `i` (42_dma R176). -/
def moveEnabled (i : Nat) (d : Dma) : Bool :=
  d.busy && decide (i < d.job.count.toNat) && !d.job.done.contains i

/-- Move one byte, if enabled (42_dma R176). -/
def dmaMove (i : Nat) (s : State) : State :=
  if moveEnabled i s.dma then
    ((transferByte s.dma.job i s).setDma
      { s.dma with job := { s.dma.job with done := indexInsert i s.dma.job.done } }).tick
  else s

/-- Every byte of the job has been moved: `done`, a set of indices below `count`, holds `count` of them
(42_dma R178). -/
def jobComplete (j : Job) : Bool := decide (j.count.toNat ≤ j.done.length)

/-- Complete, if enabled (42_dma R178). -/
def dmaComplete (s : State) : State :=
  if s.dma.busy && jobComplete s.dma.job then s.setDma { s.dma with busy := false } else s

end Sys2Proof.Machine
end

