-- ==== Sys2Proof/Machine/Bus.lean ====
section
/-! DEFINITION. Port BUS: one 32-bit transaction, routed to its target, recorded in the trace (20_memory R62, R77, R78,
R86; 40_register_access R130 to R134). -/

namespace Sys2Proof.Machine

/-- What `BusRead32(a)` returns. -/
def busData (a : Word) (s : State) : BusData :=
  match busTarget s.cfg a with
  | .dma r => dmaData r s
  | .timing _ => .word (Config.freeWord s.draws 0)
  | .bridge r => bridgeData r s
  | .unmapped => .word (Config.freeWord s.draws 0)

/-- What `BusWrite32(a, v)` does at its target. -/
def busEffect (a v : Word) (s : State) : State :=
  match busTarget s.cfg a with
  | .dma r => dmaWrite r v s
  | .timing p => timingWrite p v s
  | .bridge r => bridgeWrite r v s
  | .unmapped => unmappedWrite s

/-- The state after a read transaction that returned `d`: no side effect but the trace and fresh draws
(20_memory R78). -/
def readDone (a : Word) (d : BusData) (s : State) : State := (s.record (.busRead a d.value)).tick

/-- The state after a write transaction whose effect gave `t`. -/
def writeDone (a v : Word) (t : State) : State := (t.record (.busWrite a v)).tick

/-- `BusWrite32(a, v)`. -/
def busWrite (a v : Word) (s : State) : State := writeDone a v (busEffect a v s)

/-! ### The register interface (40_register_access)

An offset past the bridge window is not checked, and its access is still made (R132); what it reaches is outside the
document, whatever stands there (30_encoding R118, 70_reset_and_hazards R319; log 12). -/

/-- What RD_REG's one bus read returns. -/
def registerData (off : Word) (s : State) : BusData :=
  if off.toNat ≤ bridgeTop then busData (regAddr s.cfg off) s else .word (Config.freeWord s.draws 0)

/-- What WR_REG's one bus write does. -/
def registerEffect (off v : Word) (s : State) : State :=
  if off.toNat ≤ bridgeTop then busEffect (regAddr s.cfg off) v s else unmappedWrite s

/-- The state after RD_REG's bus read (40_register_access R130). -/
def registerRead (off : Word) (s : State) : State := readDone (regAddr s.cfg off) (registerData off s) s

/-- The state after WR_REG's bus write (40_register_access R131). -/
def registerWrite (off v : Word) (s : State) : State :=
  writeDone (regAddr s.cfg off) v (registerEffect off v s)

end Sys2Proof.Machine
end

