-- ==== Sys2Proof/Machine/Routines.lean ====
section
/-! DEFINITION. SEQ's hardwired program (10_state R20, R28): for each operation and sub-operation, what its pseudocode
does from one transaction to the next. A routine runs register updates and tests that no other agent can see
(00_scope R12) and ends before a transaction (`goto`) or with a result (`ret`). -/

namespace Sys2Proof.Machine

/-- What a sub-operation returns to the `CALL` that ran it (00_scope R11). -/
inductive Result where
  /-- `Ok`, no value. -/
  | ok
  /-- `Err(BridgeTimeout)` (60_exceptions R281). -/
  | timeout
  /-- The value of RD_REG. -/
  | data (d : BusData)
  /-- The value of a predicate. -/
  | flag (b : Bool)
  deriving DecidableEq, Repr

/-- Where a routine leads: to a transaction, with the `CALL` frames it pushed, or back to its caller. -/
inductive Flow where
  | goto (p : Phase) (frames : List Frame) (s : State)
  | ret (r : Result) (s : State)
  deriving DecidableEq, Repr

/-- The result is the error. -/
def Result.isTimeout : Result → Bool
  | .timeout => true
  | .ok => false
  | .data _ => false
  | .flag _ => false

/-- ACTIVE is set in the status word a `CALL RD_REG` returned; the other results carry no word. -/
def Result.active : Result → Bool
  | .data d => d.activeSet
  | .ok => false
  | .timeout => false
  | .flag _ => false

/-- The CAN_READ test on the word a `CALL RD_REG` returned. -/
def Result.readable : Result → Bool
  | .data d => d.canReadSet
  | .ok => false
  | .timeout => false
  | .flag _ => false

/-- The CAN_WRITE test on the word a `CALL RD_REG` returned. -/
def Result.writable : Result → Bool
  | .data d => d.canWriteSet
  | .ok => false
  | .timeout => false
  | .flag _ => false

/-- The value a predicate returned. -/
def Result.holds : Result → Bool
  | .flag b => b
  | .ok => false
  | .timeout => false
  | .data _ => false

/-! ### WAIT_NOT_BUSY, CAN_READ, CAN_WRITE (43_handshake R197, R200, R201) -/

/-- Offset of USB_CFG. -/
def offUsbCfg : Word := 0x0004#32

/-- P_wnb: `seq.poll <- 0`, then the first status read, for the caller whose frames are given. -/
def callWait (frames : List Frame) (s : State) : Flow :=
  .goto (.rdReg offUsbCfg) (.waitRead :: frames) (s.setSeq { s.seq with poll := 0#14 })

/-- The packet window that a packet's timed-out wait leaves behind: any bytes from `seq.base_offset` up, the bytes below as
they were (60_exceptions R285, 93 U18; log 32). -/
def abandonPacket (s : State) : State :=
  s.setBrg { s.brg with pkt := freeWindowFrom s.draws s.seq.baseOffset.toNat s.brg.pkt }

/-- After the read of P_wnb_rd: count it; done if ACTIVE is clear, again if under the limit, else the recovery write. -/
def afterPoll (r : Result) (s : State) : Flow :=
  let t := s.setSeq { s.seq with poll := s.seq.poll + 1#14 }
  if r.active = false then .ret .ok t
  else if t.seq.poll < pollLimit then .goto (.rdReg offUsbCfg) [.waitRead] t
  else .goto (.wrReg offUsbCfg (commandReadNop.setWidth 32)) [.waitRecovery] t

/-- P_canrd. -/
def callCanRead (frames : List Frame) (s : State) : Flow := .goto (.rdReg offUsbCfg) (.canRead :: frames) s

/-- P_canwr. -/
def callCanWrite (frames : List Frame) (s : State) : Flow := .goto (.rdReg offUsbCfg) (.canWrite :: frames) s

/-- The predicate CAN_WRITE evaluates, by `CAN_WRITE_AS_SOURCE` (43_handshake R201). -/
def canWriteResult (asSource : Bool) (r : Result) : Bool := if asSource then r.readable else r.writable

/-- The callers of a wait make it a packet's wait: P_rd_w or P_wr_w (44_packet_transfer R232, R238). -/
def packetWait : List Frame → Bool
  | .readWait :: _ => true
  | .writeWait :: _ => true
  | _ => false

/-- P_wrreg: the one bus write. At P_wnb_to of a packet's wait it is the recovery write that abandons the packet
(60_exceptions R285); of a wait outside a packet it is a plain no-op command (43_handshake R199, R204; log 32). -/
def writeRegister (off v : Word) (s : State) : State :=
  match s.seq.stack with
  | .waitRecovery :: k => if packetWait k then abandonPacket (registerWrite off v s) else registerWrite off v s
  | _ => registerWrite off v s

/-! ### The cache walk (41_cache_coherence R153, R154) -/

/-- P_wb and P_wbinv for a range of at least one byte: on to the first line. -/
def callWalk (kind : CacheKind) (addr len : Word) (frames : List Frame) (s : State) : Flow :=
  .goto (.line kind (lineFirst s.cfg addr) (lineLast s.cfg addr len)) frames s

/-- P_wb and P_wbinv, any length: an empty range sends nothing. -/
def walkRange (kind : CacheKind) (addr len : Word) (s : State) : Flow :=
  if len = 0#32 then .ret .ok s else callWalk kind addr len [] s

/-! ### DMA_XFER (42_dma R167) -/

/-- P_dx and P_dx_w1: mask the peripheral address, wait for idle. -/
def callTransfer (ram periph len : Word) (dir : Dir) (frames : List Frame) (s : State) : Flow :=
  .goto .dmaPoll (.dmaFirstWait ⟨ram, physical periph, len, dir⟩ :: frames) s

/-! ### READ (44_packet_transfer R232) -/

/-- P_rd_w0: the first busy-wait. -/
def callRead (buf len : Word) (frames : List Frame) (s : State) : Flow :=
  callWait (.readFirstWait buf len :: frames) s

/-- `seq.buf` latched from the descriptor as READ or WRITE is accepted (10_state R22; log 33). -/
def latchBuf (buf : Word) (s : State) : State := s.setSeq { s.seq with buf := buf }

/-- `seq.buf`, `seq.cursor`, `seq.remaining` at the start of a transfer. -/
def startTransfer (buf len : Word) (s : State) : State :=
  s.setSeq { s.seq with buf := buf, cursor := 0#32, remaining := len }

/-- `seq.chunk` and `seq.base_offset` at the top of the packet loop (10_state R25). -/
def nextPacket (s : State) : State :=
  s.setSeq { s.seq with
    chunk := chunkOf s.seq.remaining, baseOffset := baseOffsetOf (chunkOf s.seq.remaining) }

/-- The cursor advanced by the packet just moved, in READ and in WRITE (44_packet_transfer R240). -/
def advanceCursor (s : State) : State :=
  s.setSeq { s.seq with
    cursor := s.seq.cursor + s.seq.chunk.setWidth 32, remaining := s.seq.remaining - s.seq.chunk.setWidth 32 }

/-- The RAM address of the packet: `seq.buf + seq.cursor`. -/
def packetRam (s : State) : Word := s.seq.buf + s.seq.cursor

/-- The packet's length as an operand. -/
def packetLen (s : State) : Word := s.seq.chunk.setWidth 32

/-- P_rd_loop to P_rd_cmd: done, or the packet's "read + activate" command. -/
def readLoop (s : State) : Flow :=
  if s.seq.remaining = 0#32 then .ret .ok s
  else
    let t := nextPacket s
    .goto (.wrReg offUsbCfg (commandValue 0xC600#32 t.seq.baseOffset)) [.readCommand] t

/-- After P_rd_w0. -/
def afterReadFirstWait (buf len : Word) (r : Result) (s : State) : Flow :=
  if r.isTimeout then .ret .timeout s else readLoop (startTransfer buf len s)

/-- After P_rd_w: the packet's invalidate, or the error. -/
def afterReadWait (r : Result) (s : State) : Flow :=
  if r.isTimeout then .ret .timeout s
  else callWalk .wbinv (packetRam s) (packetLen s) [.readInvalidate] s

/-- P_rd_dma: the packet's incoming job. -/
def readTransfer (s : State) : Flow :=
  callTransfer (packetRam s) (packetAddr s.cfg s.seq.baseOffset) (packetLen s) .incoming [.readDma] s

/-! ### WRITE (44_packet_transfer R238) -/

/-- P_wr_arm: the arming no-op. -/
def callWrite (buf len : Word) (frames : List Frame) (s : State) : Flow :=
  .goto (.wrReg offUsbCfg (commandWriteNop.setWidth 32)) (.writeArm buf len :: frames) s

/-- P_wr_loop to P_wr_wb: done, or the packet's write-back. -/
def writeLoop (s : State) : Flow :=
  if s.seq.remaining = 0#32 then .ret .ok s
  else
    let t := nextPacket s
    callWalk .wb (packetRam t) (packetLen t) [.writeBack] t

/-- P_wr_dma: the packet's outgoing job. -/
def writeTransfer (s : State) : Flow :=
  callTransfer (packetRam s) (packetAddr s.cfg s.seq.baseOffset) (packetLen s) .outgoing [.writeDma] s

/-- P_wr_cmd: the packet's "write + activate" command. -/
def writeActivate (s : State) : Flow :=
  .goto (.wrReg offUsbCfg (commandValue 0xC200#32 s.seq.baseOffset)) [.writeCommand] s

/-- After P_wr_w. -/
def afterWriteWait (r : Result) (s : State) : Flow :=
  if r.isTimeout then .ret .timeout s else writeLoop (advanceCursor s)

/-! ### INIT (45_init_lifecycle R261) -/

/-- P_init_key: the key. -/
def initKey (s : State) : Flow := .goto (.wrReg 0x8004#32 0x0000AA55#32) [.initKey] s

/-- P_init_tim at `i`: a timing write, or on to the key. -/
def initFrom (i : Nat) (s : State) : Flow :=
  if i < s.cfg.dom1Timing.length then .goto (.initTiming i) [] s else initKey s

/-- P_init_ram: the save-emulation write. -/
def initRamCfg (s : State) : Flow := .goto (.wrReg 0x8018#32 (s.cfg.ramCfgSaveOff.setWidth 32)) [.initRamCfg] s

/-- After P_init_chk: drain a packet into the scratch region, without READ's lifecycle check, or leave the loop
(45_init_lifecycle R265). DEDUCED: the scratch region, whose contents afterwards R265 leaves unspecified, holds what READ put
there (log 35). -/
def afterInitCheck (r : Result) (s : State) : Flow :=
  if r.holds then callRead s.cfg.scratchAddr 512#32 [.initDrain] s else initRamCfg s

/-- After P_init_drn: a timeout ends the drain and is dropped (60_exceptions R288). -/
def afterInitDrain (r : Result) (s : State) : Flow :=
  if r.isTimeout then initRamCfg s else callCanRead [.initCheck] s

/-- The lifecycle flag set, INIT's last act (45_init_lifecycle R267). -/
def setInitialized (v : Bool) (s : State) : State := s.setSeq { s.seq with initialized := v }

/-! ### What each return point does -/

/-- The routine resumed when the `CALL` of a frame returns. -/
def afterCall : Frame → Result → State → Flow
  | .waitRead, r, s => afterPoll r s
  | .waitRecovery, _, s => .ret .timeout s
  | .canRead, r, s => .ret (.flag r.readable) s
  | .canWrite, r, s => .ret (.flag (canWriteResult s.cfg.canWriteAsSource r)) s
  | .dmaFirstWait x, _, s => .goto (.dmaArm x) [] s
  | .dmaLastWait, _, s => .ret .ok s
  | .readFirstWait buf len, r, s => afterReadFirstWait buf len r s
  | .readCommand, _, s => callWait [.readWait] s
  | .readWait, r, s => afterReadWait r s
  | .readInvalidate, _, s => readTransfer s
  | .readDma, _, s => readLoop (advanceCursor s)
  | .writeArm buf len, _, s => writeLoop (startTransfer buf len s)
  | .writeBack, _, s => writeTransfer s
  | .writeDma, _, s => writeActivate s
  | .writeCommand, _, s => callWait [.writeWait] s
  | .writeWait, r, s => afterWriteWait r s
  | .initKey, _, s => .goto (.wrReg 0x8000#32 0#32) [.initSysCfg] s
  | .initSysCfg, _, s => callCanRead [.initCheck] s
  | .initCheck, r, s => afterInitCheck r s
  | .initDrain, r, s => afterInitDrain r s
  | .initRamCfg, _, s => .ret .ok (setInitialized true s)

end Sys2Proof.Machine
end

