-- ==== Sys2Proof/Machine/Sequencer.lean ====
section
/-! DEFINITION. SEQ's step: one transaction, then the routines it returns through (00_scope R12, 10_state R28); the
acceptance of a request (10_state R27). -/

namespace Sys2Proof.Machine

/-- The end of an operation with a result: the response goes out (30_encoding R111). -/
def finish : Result → State → State
  | .ok, s => answer 0#32 0#32 s
  | .timeout, s => raiseTimeout s
  | .data d, s => answer 0#32 d.value s
  | .flag b, s => answer 0#32 (if b then 1#32 else 0#32) s

/-- A result returned to a stack of callers: each resumes in turn until one needs a transaction; with none left the
operation ends. -/
def resume : List Frame → Result → State → State
  | [], r, s => finish r s
  | f :: k, r, s =>
    match afterCall f r s with
    | .goto p frames t => t.jump p (frames ++ k)
    | .ret r' t => resume k r' t

/-- A routine's outcome above a stack of callers. -/
def follow (k : List Frame) : Flow → State
  | .goto p frames t => t.jump p (frames ++ k)
  | .ret r t => resume k r t

/-- A transaction of DMA_XFER: a write to a DMA register, then the next label (42_dma R167). -/
def transferWrite (r : DmaReg) (v : Word) (next : Phase) (s : State) : State :=
  (busWrite (dmaAddr s.cfg r) v s).jump next s.seq.stack

/-- The register that takes the length, by direction (42_dma R171). -/
def lengthReg : Dir → DmaReg
  | .incoming => .readLen
  | .outgoing => .writeLen

/-- P_init_tim: one timing write, then the next one or the key (45_init_lifecycle R262). -/
def initTimingStep (i : Nat) (s : State) : State :=
  match s.cfg.dom1Timing[i]? with
  | some e => follow s.seq.stack (initFrom (i + 1) (busWrite (uncached s.cfg e.1) e.2 s))
  | none => follow s.seq.stack (initKey s)

/-- P_wb_l and P_wbinv_l: one line, then the next one or the end (41_cache_coherence R153, R154). -/
def lineStep (kind : CacheKind) (a last : Word) (s : State) : State :=
  if a = last then resume s.seq.stack .ok (cacheOp kind a s)
  else (cacheOp kind a s).jump (.line kind (lineNext s.cfg a) last) s.seq.stack

/-- P_dwi: one status read; again until the engine reports idle (42_dma R166). -/
def dmaPollStep (s : State) : State :=
  let d := busData (dmaAddr s.cfg .status) s
  let t := readDone (dmaAddr s.cfg .status) d s
  if d.idleSet s.cfg.dmaBusyMask then resume s.seq.stack .ok t else t

/-- One step of SEQ: the transaction of its phase and what follows up to the next one (00_scope R12). At the idle point
SEQ waits (70_reset_and_hazards R312). -/
def sequencerStep (s : State) : State :=
  match s.seq.phase with
  | .idle => s
  | .rdReg off => resume s.seq.stack (.data (registerData off s)) (registerRead off s)
  | .wrReg off v => resume s.seq.stack .ok (writeRegister off v s)
  | .line kind a last => lineStep kind a last s
  | .dmaPoll => dmaPollStep s
  | .dmaArm x => transferWrite .status s.cfg.dmaArm (.dmaRam x) s
  | .dmaRam x => transferWrite .ramAddr x.ram (.dmaPeriph x) s
  | .dmaPeriph x => transferWrite .peripheralAddr x.periph (.dmaLen x) s
  | .dmaLen x =>
    (busWrite (dmaAddr s.cfg (lengthReg x.dir)) (x.len - 1#32) s).jump .dmaPoll (.dmaLastWait :: s.seq.stack)
  | .initTiming i => initTimingStep i s

/-- An accepted operation up to and with its first transaction; one that makes none ends at once. Latching and the
register updates before the first transaction are seen by no other agent (00_scope R12; log 8). -/
def launch (op : Op) (args : List Word) (routine : State → Flow) (s : State) : State :=
  match routine (s.latch op args) with
  | .goto p frames t => sequencerStep (t.jump p frames)
  | .ret r t => finish r t

/-- A request that port CMD accepts only while SEQ is idle (10_state R27, 60_exceptions R297 (e)). -/
def whenIdle (f : State → State) (s : State) : Host.Outcome State Fault Refusal :=
  if s.seq.op = .idle then .next (f s) else .refused .busy

/-- `whenIdle`, with one more condition on the request. -/
def whenIdleAnd (ok : Bool) (why : Refusal) (f : State → State) (s : State) : Host.Outcome State Fault Refusal :=
  if s.seq.op = .idle then (if ok then .next (f s) else .refused why) else .refused .busy

end Sys2Proof.Machine
end

