-- ==== Sys2Proof/Machine/Agents.lean ====
section
/-! DEFINITION. The moves a schedule names beside SEQ's (00_scope R7), the default move after them (log 7), and the
acceptance of an offered request's words (30_encoding R110, R114). -/

namespace Sys2Proof.Machine

/-- The instruction in a request that CLIENT places. -/
def fetchInstr (r : Request) (s : State) : Except Reject Instr := decode s.cfg r

/-- A CLIENT access through the cached view; an address with no RAM byte faults (log 19). -/
def clientAccess (a : Word) (f : State → State) (s : State) : Host.Outcome State Fault Refusal :=
  if ramPhys a < s.cfg.ramSize then .next (f s) else .fault .clientOutsideRam

/-- The engine's next step in ascending order: the least byte not yet moved, or completion. -/
def engineDefault (s : State) : State :=
  if jobComplete s.dma.job then dmaComplete s else dmaMove (firstMissing 0 s.dma.job.done) s

/-- The move of the default order: a busy engine, else an enabled bridge step, else SEQ (log 7). -/
def defaultMove (s : State) : State :=
  if s.dma.busy then engineDefault s
  else if bridgeEnabled s then bridgeStep s
  else sequencerStep s

end Sys2Proof.Machine
end

