-- ==== Sys2Proof/Machine/CacheMaintenance.lean ====
section
/-! DEFINITION. CACHE_WB and CACHE_WBINV (41_cache_coherence R153, R154). They need no INIT (R158). -/

namespace Sys2Proof.Machine

/-- CACHE_WB `addr`, `len` (41_cache_coherence R153): its first line, or at once the end of an empty range. -/
def execCacheWb (addr len : Word) (s : State) : Host.Outcome State Fault Refusal :=
  whenIdleAnd (rangeOk addr len) .rangeCrosses (launch .cacheWb [addr, len] (walkRange .wb addr len)) s

/-- CACHE_WBINV `addr`, `len` (41_cache_coherence R154). -/
def execCacheWbinv (addr len : Word) (s : State) : Host.Outcome State Fault Refusal :=
  whenIdleAnd (rangeOk addr len) .rangeCrosses (launch .cacheWbinv [addr, len] (walkRange .wbinv addr len)) s

end Sys2Proof.Machine
end

