-- ==== Sys2Proof/Machine/DmaTransfer.lean ====
section
/-! DEFINITION. DMA_WAIT_IDLE, DMA_XFER (42_dma R166, R167, R173) and the pseudo-operations that are one transaction with
the DMA block or a timing register (30_encoding R121). The latter are no operations of port CMD: CLIENT
cannot offer them (70_reset_and_hazards R319), and they answer no response (log 9). -/

namespace Sys2Proof.Machine

/-- DMA_WAIT_IDLE (42_dma R166): its first status read. -/
def execDmaWaitIdle (s : State) : Host.Outcome State Fault Refusal :=
  whenIdle (launch .dmaWaitIdle [] (fun t => .goto .dmaPoll [] t)) s

/-- DMA_XFER `ram`, `periph`, `len`, `dir` (42_dma R167): the first status read of its first wait. Length 0 is refused
(R173). -/
def execDmaXfer (ram periph len : Word) (dir : Dir) (s : State) : Host.Outcome State Fault Refusal :=
  whenIdleAnd (lengthOk len) .zeroLength
    (launch .dmaXfer [ram, periph, len, encodeDir dir] (callTransfer ram periph len dir [])) s

/-- `DMA_ARM` (30_encoding R121, 42_dma R174). -/
def execDmaArm (s : State) : Host.Outcome State Fault Refusal :=
  whenIdle (fun t => busWrite (dmaAddr t.cfg .status) t.cfg.dmaArm t) s

/-- `DMA_SET_RAM` (30_encoding R121, 42_dma R180). -/
def execDmaSetRam (ram : Word) (s : State) : Host.Outcome State Fault Refusal :=
  whenIdle (fun t => busWrite (dmaAddr t.cfg .ramAddr) ram t) s

/-- `DMA_SET_PERIPH` (30_encoding R121, 42_dma R180): the value has bits 31 to 29 clear. -/
def execDmaSetPeriph (periph : BitVec 29) (s : State) : Host.Outcome State Fault Refusal :=
  whenIdle (fun t => busWrite (dmaAddr t.cfg .peripheralAddr) (periph.setWidth 32) t) s

/-- `DMA_START_IN` (30_encoding R121, 42_dma R175): the operand is the value written, the length less one. -/
def execDmaStartIn (lenMinus1 : Word) (s : State) : Host.Outcome State Fault Refusal :=
  whenIdle (fun t => busWrite (dmaAddr t.cfg .readLen) lenMinus1 t) s

/-- `DMA_START_OUT` (30_encoding R121, 42_dma R175). -/
def execDmaStartOut (lenMinus1 : Word) (s : State) : Host.Outcome State Fault Refusal :=
  whenIdle (fun t => busWrite (dmaAddr t.cfg .writeLen) lenMinus1 t) s

/-- `DMA_STATUS` (30_encoding R121, 42_dma R179): one read of `status`; its value stands in the trace. -/
def execDmaStatus (s : State) : Host.Outcome State Fault Refusal :=
  whenIdle (fun t => readDone (dmaAddr t.cfg .status) (busData (dmaAddr t.cfg .status) t) t) s

/-- `DOM1_SET i` (30_encoding R121, 42_dma R185): entry `i` of `DOM1_TIMING` to its register. -/
def execDom1Set (i : Nat) (s : State) : Host.Outcome State Fault Refusal :=
  whenIdleAnd (timingIndexOk s.cfg i) .noTimingRegister
    (fun t => busWrite (uncached t.cfg (((t.cfg.dom1Timing[i]?).map (·.1)).getD 0)) (timingValue t.cfg i) t) s

end Sys2Proof.Machine
end

