-- ==== Sys2Proof/Machine/RegisterAccess.lean ====
section
/-! DEFINITION. RD_REG, WR_REG and the pseudo-operations that expand to them on KEY, SYS_CFG, RAM_CFG and USB_CFG
(40_register_access R130, R131; 30_encoding R121). -/

namespace Sys2Proof.Machine

/-- The operation RD_REG. -/
def runReadRegister (off : Word) (s : State) : Host.Outcome State Fault Refusal :=
  whenIdle (launch .rdReg [off] (fun t => .goto (.rdReg off) [] t)) s

/-- The operation WR_REG. -/
def runWriteRegister (off value : Word) (s : State) : Host.Outcome State Fault Refusal :=
  whenIdle (launch .wrReg [off, value] (fun t => .goto (.wrReg off value) [] t)) s

/-- RD_REG `off` (40_register_access R130). -/
def execRdReg (off : Word) (s : State) : Host.Outcome State Fault Refusal := runReadRegister off s

/-- WR_REG `off`, `value` (40_register_access R131). -/
def execWrReg (off value : Word) (s : State) : Host.Outcome State Fault Refusal := runWriteRegister off value s

/-- `KEY_UNLOCK` is `WR_REG 0x8004, 0x0000AA55` (30_encoding R121); the row's ignored bits are bits 31 to 16. -/
def execKeyUnlock (ignored : BitVec 16) (s : State) : Host.Outcome State Fault Refusal :=
  runWriteRegister 0x8004#32 (Word.ofHalves ignored 0xAA55#16) s

/-- `SYS_CFG_CLEAR` is `WR_REG 0x8000, 0x00000000` (30_encoding R121). -/
def execSysCfgClear (ignored : BitVec 16) (s : State) : Host.Outcome State Fault Refusal :=
  runWriteRegister 0x8000#32 (Word.ofHalves ignored 0#16) s

/-- `SAVE_OFF` is `WR_REG 0x8018, RAM_CFG_SAVE_OFF` (30_encoding R121). -/
def execSaveOff (ignored : BitVec 16) (s : State) : Host.Outcome State Fault Refusal :=
  runWriteRegister 0x8018#32 (Word.ofHalves ignored s.cfg.ramCfgSaveOff) s

/-- `USB_STATUS` is `RD_REG 0x0004` (30_encoding R121). -/
def execUsbStatus (s : State) : Host.Outcome State Fault Refusal := runReadRegister 0x0004#32 s

end Sys2Proof.Machine
end

