-- ==== Sys2Proof/Machine/Handshake.lean ====
section
/-! DEFINITION. WAIT_NOT_BUSY, CAN_READ, CAN_WRITE (43_handshake R197, R200, R201) and the four command words as
pseudo-operations on USB_CFG (30_encoding R102, R121). -/

namespace Sys2Proof.Machine

/-- WAIT_NOT_BUSY (43_handshake R197): `seq.poll <- 0` and the first status read. -/
def execWaitNotBusy (s : State) : Host.Outcome State Fault Refusal :=
  whenIdle (launch .waitNotBusy [] (callWait [])) s

/-- CAN_READ (43_handshake R200). -/
def execCanRead (s : State) : Host.Outcome State Fault Refusal := whenIdle (launch .canRead [] (callCanRead [])) s

/-- CAN_WRITE (43_handshake R201). -/
def execCanWrite (s : State) : Host.Outcome State Fault Refusal := whenIdle (launch .canWrite [] (callCanWrite [])) s

/-- `USB_CMD_RD_NOP` is `WR_REG 0x0004, 0x0000C400` (30_encoding R121). -/
def execUsbCmdRdNop (s : State) : Host.Outcome State Fault Refusal :=
  runWriteRegister 0x0004#32 (commandReadNop.setWidth 32) s

/-- `USB_CMD_RD off` is `WR_REG 0x0004, 0x0000C600 | off` (30_encoding R121). -/
def execUsbCmdRd (off : BitVec 9) (s : State) : Host.Outcome State Fault Refusal :=
  runWriteRegister 0x0004#32 ((commandRead off).setWidth 32) s

/-- `USB_CMD_WR_NOP` is `WR_REG 0x0004, 0x0000C000` (30_encoding R121). -/
def execUsbCmdWrNop (s : State) : Host.Outcome State Fault Refusal :=
  runWriteRegister 0x0004#32 (commandWriteNop.setWidth 32) s

/-- `USB_CMD_WR off` is `WR_REG 0x0004, 0x0000C200 | off` (30_encoding R121). -/
def execUsbCmdWr (off : BitVec 9) (s : State) : Host.Outcome State Fault Refusal :=
  runWriteRegister 0x0004#32 ((commandWrite off).setWidth 32) s

end Sys2Proof.Machine
end

