-- ==== Sys2Proof/Machine/Lifecycle.lean ====
section
/-! DEFINITION. NEW and INIT (45_init_lifecycle R260, R261). -/

namespace Sys2Proof.Machine

/-- NEW (45_init_lifecycle R260): the flag cleared, no transaction. -/
def execNew (s : State) : Host.Outcome State Fault Refusal :=
  whenIdle (launch .new [] (fun t => .ret .ok (setInitialized false t))) s

/-- INIT (45_init_lifecycle R261): the first timing write, or the key if there is none. -/
def execInit (s : State) : Host.Outcome State Fault Refusal := whenIdle (launch .init [] (initFrom 0)) s

end Sys2Proof.Machine
end

