-- ==== Sys2Proof/Machine/PacketTransfer.lean ====
section
/-! DEFINITION. READ and WRITE (44_packet_transfer R231, R232, R238). The lifecycle test precedes the range test
(R231 (a), (b)); both precede any transaction (60_exceptions R291). -/

namespace Sys2Proof.Machine

/-- A transfer, under the preconditions the block tests (44_packet_transfer R231 (a), (b)), its buffer latched as it is
accepted (10_state R22). -/
def runTransfer (op : Op) (buf len : Word) (routine : State → Flow) (s : State) : Host.Outcome State Fault Refusal :=
  if s.seq.op = .idle ∧ s.seq.initialized = false then .refused .notInitialised
  else whenIdleAnd (rangeOk buf len) .rangeCrosses (launch op [buf, len] (fun t => routine (latchBuf buf t))) s

/-- READ `buf`, `len` (44_packet_transfer R232): the first status read of its first busy-wait. -/
def execRead (buf len : Word) (s : State) : Host.Outcome State Fault Refusal :=
  runTransfer .read buf len (callRead buf len []) s

/-- WRITE `buf`, `len` (44_packet_transfer R238): the arming no-op. -/
def execWrite (buf len : Word) (s : State) : Host.Outcome State Fault Refusal :=
  runTransfer .write buf len (callWrite buf len []) s

end Sys2Proof.Machine
end

