-- ==== Sys2Proof/Machine/Dispatch.lean ====
section
/-! DEFINITION. One arm per instruction: the direct call of its meaning. -/

namespace Sys2Proof.Machine

/-- The meaning of an instruction: its acceptance and its first transaction (30_encoding R110; log 8). -/
def exec (i : Instr) (s : State) : Host.Outcome State Fault Refusal :=
  match i with
  | .new => Sys2Proof.Machine.execNew s
  | .init => Sys2Proof.Machine.execInit s
  | .read buf len => Sys2Proof.Machine.execRead buf len s
  | .write buf len => Sys2Proof.Machine.execWrite buf len s
  | .rdReg off => Sys2Proof.Machine.execRdReg off s
  | .wrReg off value => Sys2Proof.Machine.execWrReg off value s
  | .cacheWb addr len => Sys2Proof.Machine.execCacheWb addr len s
  | .cacheWbinv addr len => Sys2Proof.Machine.execCacheWbinv addr len s
  | .dmaXfer ram periph len dir => Sys2Proof.Machine.execDmaXfer ram periph len dir s
  | .waitNotBusy => Sys2Proof.Machine.execWaitNotBusy s
  | .canRead => Sys2Proof.Machine.execCanRead s
  | .canWrite => Sys2Proof.Machine.execCanWrite s
  | .dmaWaitIdle => Sys2Proof.Machine.execDmaWaitIdle s
  | .usbCmdRdNop => Sys2Proof.Machine.execUsbCmdRdNop s
  | .usbCmdRd off => Sys2Proof.Machine.execUsbCmdRd off s
  | .usbCmdWrNop => Sys2Proof.Machine.execUsbCmdWrNop s
  | .usbCmdWr off => Sys2Proof.Machine.execUsbCmdWr off s
  | .keyUnlock ignored => Sys2Proof.Machine.execKeyUnlock ignored s
  | .sysCfgClear ignored => Sys2Proof.Machine.execSysCfgClear ignored s
  | .saveOff ignored => Sys2Proof.Machine.execSaveOff ignored s
  | .usbStatus => Sys2Proof.Machine.execUsbStatus s
  | .dmaArm => Sys2Proof.Machine.execDmaArm s
  | .dmaSetRam ram => Sys2Proof.Machine.execDmaSetRam ram s
  | .dmaSetPeriph periph => Sys2Proof.Machine.execDmaSetPeriph periph s
  | .dmaStartIn lenMinus1 => Sys2Proof.Machine.execDmaStartIn lenMinus1 s
  | .dmaStartOut lenMinus1 => Sys2Proof.Machine.execDmaStartOut lenMinus1 s
  | .dmaStatus => Sys2Proof.Machine.execDmaStatus s
  | .dom1Set i' => Sys2Proof.Machine.execDom1Set i' s

end Sys2Proof.Machine
end

