-- ==== Sys2Proof/Machine/Schedule.lean ====
section
/-! DEFINITION. The move a step makes: the effect of each move of a schedule, and the moves after the listed ones (00_scope
R7, R12; log 6, log 7). -/

namespace Sys2Proof

/-- An endless schedule for each first argument, a move for each position: nothing is known of it (log 6). -/
opaque Config.freeMove : Nat → Nat → Machine.Event

end Sys2Proof

namespace Sys2Proof.Machine

/-- The request of an `offer`: decoded and run, or refused by the decoder's reason (30_encoding R115). -/
def offerStep (r : Request) (s : State) : Host.Outcome State Fault Refusal :=
  match fetchInstr r s with
  | .ok i => exec i s
  | .error why => .refused (.badDescriptor why)

/-- A format that CLIENT can place on port CMD: a descriptor, or a pseudo-operation that expands to RD_REG or WR_REG
(30_encoding R110, R121). The DMA block and the timing registers are not reached so (40_register_access R134), and CLIENT has
no operation that writes one DMA register alone (70_reset_and_hazards R319). -/
def placeable : Format → Bool
  | .opd => true
  | .cmd16 => true
  | .brgWr _ => true
  | .brgRd _ => true
  | .dmaWr _ => false
  | .dmaRd _ => false
  | .timWr _ => false

/-- A request by a placer that has an operation for it, or none. -/
def placedStep (ok : Bool) (r : Request) (s : State) : Host.Outcome State Fault Refusal :=
  if ok then offerStep r s else .refused .wrongPlacer

/-- The move that places a request: CLIENT's, or the model's own (log 9). -/
def placing (r : Request) : Event := if placeable r.fmt then .offer r else .bare r

/-- The move is one of an agent of the spec (00_scope R7; log 9). -/
def Event.ofAgent : Event → Bool
  | .bare _ => false
  | _ => true

/-- The move of an endless schedule nothing is known of: an agent's, whatever it is; where it is none, SEQ's. -/
def unknownMove (which n : Nat) : Event :=
  if (Config.freeMove which n).ofAgent then Config.freeMove which n else .seq

/-- One move, by whose it is. -/
def runMove (e : Event) (s : State) : Host.Outcome State Fault Refusal :=
  match e with
  | .offer r => placedStep (placeable r.fmt) r s
  | .bare r => placedStep (!placeable r.fmt) r s
  | .seq => .next (sequencerStep s)
  | .dmaMove i => .next (dmaMove i s)
  | .dmaComplete => .next (dmaComplete s)
  | .bridge => .next (bridgeStep s)
  | .evict l => .next (evictLine l s)
  | .hostSend b => .next (hostSend b s)
  | .hostTake => .next (hostTake s)
  | .hostPower v => .next (hostPower v s)
  | .hostLoopback => .next (hostLoopback s)
  | .cpuRead a => clientAccess a (cpuRead a) s
  | .cpuWrite a b => clientAccess a (cpuWrite a b) s

/-- The move after the listed ones. A schedule of moves that repeat can leave an agent out for ever, so the hangs of
60_exceptions R301 are runs of the model. -/
def runTail (s : State) : Host.Outcome State Fault Refusal :=
  match s.tail with
  | .default => .next (defaultMove s)
  | .cycle e rest => runMove e (s.setSched rest)
  | .free which next => runMove (unknownMove which next) (s.setTail (.free which (next + 1)))

end Sys2Proof.Machine
end

