-- ==== Sys2Proof/Machine/Step.lean ====
section
/-! DEFINITION. One step of the machine: the next move of the schedule, or of its tail (log 6, log 7). The next instruction
is the request that the head of the schedule places. -/

namespace Sys2Proof.Machine

/-- One step. -/
def step (s : State) : Host.Outcome State Fault Refusal :=
  match s.sched with
  | [] => runTail s
  | e :: es => runMove e (s.setSched es)

/-- The state whose very next step accepts and runs the table word: CLIENT offers it, or, where CLIENT has no such operation, the
move of the model's own makes it (log 9), and SEQ is idle (log 10). -/
def State.withFetchWord (s : State) (nbits w : Nat) : State :=
  (s.setSched (placing (tableRequest nbits w) :: s.sched)).setSeq { s.seq with op := .idle }

end Sys2Proof.Machine
end

