-- ==== Sys2Proof/Safety.lean ====
section
/-! DEFINITION. What claims speak of: the reset states the spec admits, the form of the data, the sequencer's invariant,
and the response a state last gave. -/

namespace Sys2Proof.Machine

/-! ### Reset (10_state R51) -/

/-- All that the spec says of a state after reset: `seq.initialized = 0`, `seq.op = IDLE`, the idle point, empty ghost
logs; every other field is a draw (70_reset_and_hazards R310, R311). `State.reset` is one such state. -/
def State.afterReset (s : State) : Bool :=
  !s.seq.initialized && decide (s.seq.op = .idle) && decide (s.seq.phase = .idle) && s.seq.stack.isEmpty &&
    s.host.sent.isEmpty && s.host.received.isEmpty

/-! ### The form of the data -/

/-- A queue is no longer than its depth (10_state R45). -/
def withinDepth (depth : Option Nat) (q : List Byte) : Bool :=
  match depth with
  | none => true
  | some d => decide (q.length ≤ d)

/-- RAM in its canonical form, with no byte past `RAM_SIZE`. -/
def Memory.fits (c : Config) (m : Memory) : Bool := m.wf && m.cells.all (fun e => decide (e.1 < c.ramSize))

/-- The cache in its canonical form, with whole lines. -/
def cacheFits (c : Config) (l : List (Nat × Line)) : Bool :=
  keysRising l && l.all (fun e => decide (e.2.data.length = c.lineSize))

/-- A job in its form: 1 to 2^32 bytes, a set of indices below the count (10_state R36). -/
def Job.fits (j : Job) : Bool :=
  decide (1 ≤ j.count.toNat) && decide (j.count.toNat ≤ 0x100000000) && indicesRising j.done &&
    j.done.all (fun i => decide (i < j.count.toNat))

/-- Every part of the data has its form. -/
def State.dataOk (s : State) : Bool :=
  s.mem.fits s.cfg && cacheFits s.cfg s.cache && keysRising s.dma.timing && s.dma.job.fits &&
    withinDepth s.cfg.rxDepth s.brg.rxFifo && withinDepth s.cfg.txDepth s.brg.txFifo

/-! ### The sequencer's invariant -/

/-- Who may have called READ: nobody (the operation itself) or INIT's drain. -/
def readCallers (op : Op) : List Frame → Bool
  | [] => decide (op = .read)
  | [.initDrain] => decide (op = .init)
  | _ => false

/-- Who may have called WRITE. -/
def writeCallers (op : Op) (k : List Frame) : Bool := k.isEmpty && decide (op = .write)

/-- Who may have called DMA_XFER. -/
def transferCallers (op : Op) : List Frame → Bool
  | [] => decide (op = .dmaXfer)
  | .readDma :: k => readCallers op k
  | .writeDma :: k => writeCallers op k
  | _ => false

/-- Who may have called WAIT_NOT_BUSY. -/
def waitCallers (op : Op) : List Frame → Bool
  | [] => decide (op = .waitNotBusy)
  | .readFirstWait _ _ :: k => readCallers op k
  | .readWait :: k => readCallers op k
  | .writeWait :: k => writeCallers op k
  | _ => false

/-- Who may have called RD_REG. -/
def readRegCallers (op : Op) : List Frame → Bool
  | [] => decide (op = .rdReg)
  | .waitRead :: k => waitCallers op k
  | [.canRead] => decide (op = .canRead)
  | [.canRead, .initCheck] => decide (op = .init)
  | [.canWrite] => decide (op = .canWrite)
  | _ => false

/-- Who may have called WR_REG. -/
def writeRegCallers (op : Op) : List Frame → Bool
  | [] => decide (op = .wrReg)
  | .waitRecovery :: k => waitCallers op k
  | .readCommand :: k => readCallers op k
  | .writeArm _ _ :: k => writeCallers op k
  | .writeCommand :: k => writeCallers op k
  | [.initKey] => decide (op = .init)
  | [.initSysCfg] => decide (op = .init)
  | [.initRamCfg] => decide (op = .init)
  | _ => false

/-- Who may have called a cache walk of each kind. -/
def walkCallers (op : Op) : CacheKind → List Frame → Bool
  | .wb, [] => decide (op = .cacheWb)
  | .wbinv, [] => decide (op = .cacheWbinv)
  | .wbinv, .readInvalidate :: k => readCallers op k
  | .wb, .writeBack :: k => writeCallers op k
  | _, _ => false

/-- Who may have called DMA_WAIT_IDLE. -/
def pollCallers (op : Op) : List Frame → Bool
  | [] => decide (op = .dmaWaitIdle)
  | .dmaFirstWait _ :: k => transferCallers op k
  | .dmaLastWait :: k => transferCallers op k
  | _ => false

/-- Control is where the pseudocode of the operation in progress can be: the phase, the return stack and `seq.op`
agree (10_state R27, R28). -/
def Sequencer.controlOk (q : Sequencer) : Bool :=
  match q.phase with
  | .idle => decide (q.op = .idle) && q.stack.isEmpty
  | .rdReg _ => readRegCallers q.op q.stack
  | .wrReg _ _ => writeRegCallers q.op q.stack
  | .line kind _ _ => walkCallers q.op kind q.stack
  | .dmaPoll => pollCallers q.op q.stack
  | .dmaArm _ => transferCallers q.op q.stack
  | .dmaRam _ => transferCallers q.op q.stack
  | .dmaPeriph _ => transferCallers q.op q.stack
  | .dmaLen _ => transferCallers q.op q.stack
  | .initTiming _ => decide (q.op = .init) && q.stack.isEmpty

/-- The frame belongs to a packet in progress. -/
def Frame.inPacket : Frame → Bool
  | .readCommand => true
  | .readWait => true
  | .readInvalidate => true
  | .readDma => true
  | .writeBack => true
  | .writeDma => true
  | .writeCommand => true
  | .writeWait => true
  | .waitRead => false
  | .waitRecovery => false
  | .canRead => false
  | .canWrite => false
  | .dmaFirstWait _ => false
  | .dmaLastWait => false
  | .readFirstWait _ _ => false
  | .writeArm _ _ => false
  | .initKey => false
  | .initSysCfg => false
  | .initCheck => false
  | .initDrain => false
  | .initRamCfg => false

/-- A packet of READ or WRITE is in progress. -/
def Sequencer.inPacket (q : Sequencer) : Bool := q.stack.any Frame.inPacket

/-- The length of the transfer in progress: READ's or WRITE's operand, or INIT's 512 (45_init_lifecycle R265). -/
def Sequencer.transferLen (q : Sequencer) : Word := if q.op = .init then 512#32 else (q.args[1]?).getD 0#32

/-- Inside a packet: `chunk = min(512, remaining)`, `base_offset = 512 - chunk`, `cursor + remaining = len`, and the
cursor is a whole number of packets (10_state R24, R25; 95_test_vectors section 5, item 2). -/
def Sequencer.packetOk (q : Sequencer) : Bool :=
  !q.inPacket ||
    (decide (q.remaining ≠ 0#32) && decide (q.chunk = chunkOf q.remaining) && decide (q.baseOffset = baseOffsetOf q.chunk) &&
      decide (q.cursor.toNat + q.remaining.toNat = q.transferLen.toNat) && decide (q.cursor.toNat % 512 = 0))

/-- The operands a frame keeps for the start of a transfer are those of the transfer in progress. -/
def Sequencer.operandsOk (q : Sequencer) : Bool :=
  q.stack.all (fun f => match f with
    | .readFirstWait _ len => decide (len = q.transferLen)
    | .writeArm _ len => decide (len = q.transferLen)
    | _ => true)

/-- `seq.poll` counts the reads of a wait: at most 8192, below it while another read is due, at it when the recovery
write is (10_state R26, 43_handshake R197; 95_test_vectors section 5, item 1). -/
def Sequencer.pollOk (q : Sequencer) : Bool :=
  decide (q.poll ≤ pollLimit) &&
    match q.stack with
    | .waitRead :: _ => decide (q.poll < pollLimit)
    | .waitRecovery :: _ => decide (q.poll = pollLimit)
    | _ => true

/-- Phase, return stack, packet registers and poll count agree. -/
def State.flowOk (s : State) : Bool :=
  s.seq.controlOk && s.seq.packetOk && s.seq.operandsOk && s.seq.pollOk

/-- The buffer a frame keeps for the start of READ or WRITE is the operation's first operand. -/
def Frame.bufOk (q : Sequencer) : Frame → Bool
  | .readFirstWait buf _ => decide (q.op = .init) || decide (q.args[0]? = some buf)
  | .writeArm buf _ => decide (q.op = .init) || decide (q.args[0]? = some buf)
  | _ => true

/-- While READ or WRITE is in progress `seq.buf` is its first operand, from its acceptance to its answer (10_state R22). -/
def Sequencer.bufOk (q : Sequencer) : Bool :=
  (decide (q.op ≠ .read ∧ q.op ≠ .write) || decide (q.args[0]? = some q.buf)) && q.stack.all (Frame.bufOk q)

/-- The sequencer's invariant. -/
def State.seqOk (s : State) : Bool := s.flowOk && s.seq.bufOk

/-! ### Runs and their ends -/

/-- The move the next step makes, where the schedule or its tail names one (log 6). -/
def State.nextMove (s : State) : Option Event :=
  match s.sched, s.tail with
  | e :: _, _ => some e
  | [], .default => none
  | [], .cycle e _ => some e
  | [], .free which next => some (unknownMove which next)

/-- SEQ stands at one of DMA_XFER's programming writes (42_dma R167, P_dx_arm to P_dx_len). -/
def Phase.programs : Phase → Bool
  | .dmaArm _ => true
  | .dmaRam _ => true
  | .dmaPeriph _ => true
  | .dmaLen _ => true
  | .idle => false
  | .rdReg _ => false
  | .wrReg _ _ => false
  | .line _ _ _ => false
  | .dmaPoll => false
  | .initTiming _ => false

/-- `k` steps, ending at the first fault or refusal. -/
def runSteps : Nat → State → Host.Outcome State Fault Refusal
  | 0, s => .next s
  | k + 1, s =>
    match step s with
    | .next t => runSteps k t
    | .fault f => .fault f
    | .refused r => .refused r

/-- SEQ at rest after an operation with these operand words, its answer gone out on port CMD (10_state R27, R28;
30_encoding R111). -/
def State.ended (s : State) (args : List Word) (r : Response) : State :=
  { s with
    seq := { s.seq with op := .idle, args := args, phase := .idle, stack := [] }
    client := { s.client with responses := r :: s.client.responses } }

/-- One more transaction of SEQ in the trace, and its free values used up. -/
def State.transacted (s : State) (t : Transaction) : State :=
  { s with trace := t :: s.trace, draws := s.draws + 1 }

/-- SEQ inside an operation, before its next transaction. -/
def State.within (s : State) (op : Op) (args : List Word) (p : Phase) (k : List Frame) : State :=
  { s with seq := { s.seq with op := op, args := args, phase := p, stack := k } }

/-- SEQ has answered: it is idle and the newest response is this one. -/
def State.answered (s : State) (r : Response) : Prop :=
  s.seq.op = .idle ∧ s.seq.phase = .idle ∧ s.seq.stack = [] ∧ s.client.responses.head? = some r

/-- The bridge answers accesses: parameters legal and the key written (40_register_access R138). -/
def State.bridgeReady (s : State) : Prop := s.cfg.legal = true ∧ s.brg.unlocked = true

/-- A packet window that agrees with the bridge's below `seq.base_offset`: what the recovery write of a packet's wait may
leave (60_exceptions R285; log 32). -/
def State.keepsBelow (s : State) (w : Vector Byte 512) : Prop :=
  ∀ j : Fin 512, j.val < s.seq.baseOffset.toNat → w[j] = s.brg.pkt[j]

/-- Line `l` is not stale: a clean copy of it in the cache equals RAM. The engine writes RAM behind the cache's back
(20_memory R76), so a line can be stale; what 41_cache_coherence R153 and R159 (d) say of `CpuRead` holds of the others
(log 30). -/
def State.notStale (s : State) (l : Nat) : Prop :=
  ∀ ln, keyGet l s.cache = some ln → ln.dirty = false → ln.data = ramReadBytes (l * s.cfg.lineSize) s.cfg.lineSize s

/-- A word that a read of USB_CFG may return (43_handshake R209 to R212, R215): ACTIVE, POWERED and the two FIFO bits by
their polarity; every other bit is any bit. -/
def State.statusReads (s : State) (v : Word) : Prop :=
  v.getLsbD 9 = s.brg.active ∧ v.getLsbD 12 = s.host.powered ∧
  (s.cfg.rxfActiveLow = false → (v.getLsbD 10 = true ↔ s.brg.rxFifo ≠ [])) ∧
  (s.cfg.rxfActiveLow = true → (v.getLsbD 10 = false ↔ s.brg.rxFifo ≠ [])) ∧
  (s.cfg.txfActiveLow = false → (v.getLsbD 11 = true ↔ s.brg.txFifo ≠ [])) ∧
  (s.cfg.txfActiveLow = true → (v.getLsbD 11 = false ↔ ∀ d, s.cfg.txDepth = some d → s.brg.txFifo.length < d))

end Sys2Proof.Machine
end

