-- ==== Sys2Proof/Certificates/Slice0/Obligations.lean ====
section
/-! DEFINITION. The statements for the provers, from the numbered rules of spec/. A statement about an instruction gives
the next state whole, as the state before with the named fields changed, so that what it does not name is unchanged. -/

open Sys2Proof Sys2Proof.Machine

/-! ### Encoding and acceptance -/

/-- Whatever the parameters, the decoder reads every well-formed instruction back from its encoding, each operand at each
value (30_encoding R102, R110 to R114, R121). -/
def Obligations.DecodeReadsEncodedInstruction : Prop :=
  ∀ (c : Config) (i : Instr), i.wellFormed c = true → decode c (encode c i) = .ok i

/-- Words that decode at all are, up to what stands after the last operand, the encoding of what they decode to: no bit
of a decoded word is dropped. -/
def Obligations.DecodedWordsAreEncoded : Prop :=
  ∀ (c : Config) (r : Request) (i : Instr), decode c r = .ok i →
    (encode c i).fmt = r.fmt ∧ (encode c i).words <+: r.words

/-- Words written out in the spec decode to what the spec says they are (95_test_vectors sections 3 and 4; 30_encoding R102,
R121). A sanity statement. -/
def Obligations.SpecWordsDecode : Prop :=
  decode Config.reference ⟨.opd, [0x00000002#32, 0x80300000#32, 0x00000514#32]⟩ = .ok (.read 0x80300000#32 1300#32) ∧
  decode Config.reference ⟨.opd, [0x00000005#32, 0x00008004#32, 0x0000AA55#32]⟩ = .ok (.wrReg 0x8004#32 0xAA55#32) ∧
  decode Config.reference ⟨.opd, [0x00000008#32, 0x80200400#32, 0xBF8004EC#32, 0x00000114#32, 0#32]⟩ =
    .ok (.dmaXfer 0x80200400#32 0xBF8004EC#32 276#32 .incoming) ∧
  decode Config.reference ⟨.cmd16, [0x0000C7FB#32]⟩ = .ok (.usbCmdRd 507#9) ∧
  decode Config.reference ⟨.cmd16, [0x0000C000#32]⟩ = .ok .usbCmdWrNop ∧
  decode Config.reference ⟨.brgWr 0x8004, [0x0000AA55#32]⟩ = .ok (.keyUnlock 0#16) ∧
  decode Config.reference ⟨.dmaWr 0x08, [0x00000113#32]⟩ = .ok (.dmaStartIn 0x113#32) ∧
  decode Config.reference ⟨.timWr 1, [0x0000000C#32]⟩ = .ok (.dom1Set 1)

/-- A descriptor has as many words as its opcode says (30_encoding R114). Two clauses are the model's own: words after the
last operand are not looked at (DEDUCED, log 25), and too few words are no descriptor, refused under a name of the
decoder's (log 27). -/
def Obligations.DescriptorLengthFollowsOpcode : Prop :=
  ∀ (c : Config) (i : Instr) (more : List Word), (encode c i).fmt = .opd →
    decode c ⟨.opd, (encode c i).words ++ more⟩ = .ok i ∧
    (∀ k, k < (encode c i).words.length → decode c ⟨.opd, (encode c i).words.take k⟩ = .error .truncated) ∧
    ∃ w rest, (encode c i).words = w :: rest ∧
      rest.length =
        if w.toNat = 0x8 then 4
        else if w.toNat = 0x2 ∨ w.toNat = 0x3 ∨ w.toNat = 0x5 ∨ w.toNat = 0x6 ∨ w.toNat = 0x7 then 2
        else if w.toNat = 0x4 then 1 else 0

/-- A reserved opcode, a nonzero high bit and a bad `dir` word are refused, in every state (30_encoding R115). -/
def Obligations.ReservedDescriptorsRefused : Prop :=
  ∀ (s : State) (es : List Event) (w : Word) (rest : List Word), s.sched = .offer ⟨.opd, w :: rest⟩ :: es →
    (16 ≤ w.toNat → step s = .refused (.badDescriptor .nonzeroHighBits)) ∧
    (w = 0xD#32 ∨ w = 0xE#32 ∨ w = 0xF#32 → step s = .refused (.badDescriptor .reservedOpcode)) ∧
    (∀ ram periph len d more, w = 0x8#32 → rest = ram :: periph :: len :: d :: more → d ≠ 0#32 → d ≠ 1#32 →
      step s = .refused (.badDescriptor .badDirection))

/-- When the next move places a request (CLIENT's offer; for the pseudo-operations on the DMA block and the timing registers,
which CLIENT cannot offer, the model's own move, log 9) and its words decode to an instruction, the step is that instruction's
meaning, on the state with the request taken off the schedule; so too when the list is empty and a repeating tail names the
request, the tail's other moves then being listed (log 6). -/
def Obligations.StepRunsOfferedInstruction : Prop :=
  ∀ (s : State) (r : Request) (es : List Event) (i : Instr), decode s.cfg r = .ok i →
    s.sched = placing r :: es ∨ (s.sched = [] ∧ s.tail = .cycle (placing r) es) →
    step s = exec i (s.setSched es)

/-- While an operation is in progress every request is refused: a descriptor by 70_reset_and_hazards R321 and
60_exceptions R297 (e); that the pseudo-operations, and among them those on the DMA and timing registers, are then refused
too is the model's choice (DEDUCED, log 9). -/
def Obligations.BusyBlockRefusesEveryRequest : Prop :=
  ∀ (i : Instr) (s : State), s.seq.op ≠ .idle → exec i s = .refused .busy

/-- The refusals are those of 60_exceptions R297, and one of the model's own for a DOM1_SET index past the list (log 9); no
instruction faults. -/
def Obligations.ExecRefusesOnlyAsListed : Prop :=
  ∀ (i : Instr) (s : State),
    (∀ f, exec i s ≠ .fault f) ∧
    ∀ why, exec i s = .refused why →
      (why = .busy ∧ s.seq.op ≠ .idle) ∨
      (why = .notInitialised ∧ s.seq.initialized = false ∧ ∃ buf len, i = .read buf len ∨ i = .write buf len) ∨
      (why = .rangeCrosses ∧ ∃ addr len, 0x100000000 < addr.toNat + len.toNat ∧
        (i = .read addr len ∨ i = .write addr len ∨ i = .cacheWb addr len ∨ i = .cacheWbinv addr len)) ∨
      (why = .zeroLength ∧ ∃ ram periph dir, i = .dmaXfer ram periph 0#32 dir) ∨
      (why = .noTimingRegister ∧ ∃ k, i = .dom1Set k ∧ s.cfg.dom1Timing.length ≤ k)

/-- READ and WRITE before INIT are refused, with no effect (45_init_lifecycle R272). -/
def Obligations.TransferBeforeInitRefused : Prop :=
  ∀ (s : State) (buf len : Word), s.seq.op = .idle → s.seq.initialized = false →
    exec (.read buf len) s = .refused .notInitialised ∧ exec (.write buf len) s = .refused .notInitialised

/-- A range across 2^32 and a DMA_XFER of no bytes are refused (00_scope R13, 42_dma R173). -/
def Obligations.BadOperandsRefused : Prop :=
  ∀ (s : State), s.seq.op = .idle →
    (∀ addr len : Word, 0x100000000 < addr.toNat + len.toNat →
      exec (.cacheWb addr len) s = .refused .rangeCrosses ∧ exec (.cacheWbinv addr len) s = .refused .rangeCrosses ∧
      (s.seq.initialized = true →
        exec (.read addr len) s = .refused .rangeCrosses ∧ exec (.write addr len) s = .refused .rangeCrosses)) ∧
    ∀ ram periph dir, exec (.dmaXfer ram periph 0#32 dir) s = .refused .zeroLength

/-- Each pseudo-operation on a bridge register is the operation it expands to, in every state (30_encoding R121). -/
def Obligations.PseudoOperationsExpand : Prop :=
  ∀ (s : State) (off : BitVec 9),
    exec .usbCmdRdNop s = exec (.wrReg 0x0004#32 0x0000C400#32) s ∧
    exec (.usbCmdRd off) s = exec (.wrReg 0x0004#32 (0x0000C600#32 ||| off.setWidth 32)) s ∧
    exec .usbCmdWrNop s = exec (.wrReg 0x0004#32 0x0000C000#32) s ∧
    exec (.usbCmdWr off) s = exec (.wrReg 0x0004#32 (0x0000C200#32 ||| off.setWidth 32)) s ∧
    exec (.keyUnlock 0#16) s = exec (.wrReg 0x8004#32 0x0000AA55#32) s ∧
    exec (.sysCfgClear 0#16) s = exec (.wrReg 0x8000#32 0#32) s ∧
    exec (.saveOff 0#16) s = exec (.wrReg 0x8018#32 (s.cfg.ramCfgSaveOff.setWidth 32)) s ∧
    exec .usbStatus s = exec (.rdReg 0x0004#32) s

/-! ### Registers of the bridge -/

/-- RD_REG is one bus read at the register's uncached address and answers what it returned; nothing else changes
(40_register_access R130). -/
def Obligations.ReadRegisterIsOneRead : Prop :=
  ∀ (s : State) (off : Word), s.seq.op = .idle → ∃ v : Word,
    exec (.rdReg off) s =
      .next ((s.transacted (.busRead (uncached s.cfg (s.cfg.bridgeBase + off)) v)).ended [off] ⟨0#32, v⟩)

/-- The status word (43_handshake R209): RD_REG of USB_CFG, and USB_STATUS, answer a word whose ACTIVE, POWERED and FIFO
bits are the bridge's and HOST's, and change nothing else. -/
def Obligations.StatusWordReadsBridge : Prop :=
  ∀ (s : State), s.seq.op = .idle → s.bridgeReady → ∃ v : Word, s.statusReads v ∧
    exec (.rdReg 0x0004#32) s =
      .next ((s.transacted (.busRead (regAddr s.cfg 0x0004#32) v)).ended [0x0004#32] ⟨0#32, v⟩) ∧
    exec .usbStatus s =
      .next ((s.transacted (.busRead (regAddr s.cfg 0x0004#32) v)).ended [0x0004#32] ⟨0#32, v⟩)

/-- WR_REG is one bus write at the register's uncached address and answers Ok (40_register_access R131); beside the trace only
the target changes: the bridge, and at an offset the document does not give also the DMA block (30_encoding R118,
40_register_access R136, R139 (b)). That RAM, cache and SEQ stay at such an offset, and at a locked bridge (R138) these and
the DMA block, is the model's reading (DEDUCED, log 12 and log 14). -/
def Obligations.WriteRegisterIsOneWrite : Prop :=
  ∀ (s : State) (off v : Word), s.cfg.legal = true → s.seq.op = .idle → ∃ (b : Bridge) (d : Dma),
    exec (.wrReg off v) s =
      .next ((({ s with brg := b, dma := d } : State).transacted
        (.busWrite (uncached s.cfg (s.cfg.bridgeBase + off)) v)).ended [off, v] ⟨0#32, 0#32⟩) ∧
    (off.toNat = 0x0004 ∨ off.toNat = 0x8000 ∨ off.toNat = 0x8004 ∨ off.toNat = 0x8018 ∨
      (0x0400 ≤ off.toNat ∧ off.toNat ≤ 0x05FF) → d = s.dma)

/-- The key opens the bridge, whatever the upper half; another value leaves the lock at any value (45_init_lifecycle
R269). -/
def Obligations.KeyWriteUnlocks : Prop :=
  ∀ (s : State) (v : Word) (hi : BitVec 16), s.cfg.legal = true → s.seq.op = .idle →
    (∃ u : Bool, (v.low16 = 0xAA55#16 → u = true) ∧
      exec (.wrReg 0x8004#32 v) s =
        .next ((({ s with brg := { s.brg with unlocked := u } } : State).transacted
          (.busWrite (regAddr s.cfg 0x8004#32) v)).ended [0x8004#32, v] ⟨0#32, 0#32⟩)) ∧
    exec (.keyUnlock hi) s =
      .next ((({ s with brg := { s.brg with unlocked := true } } : State).transacted
        (.busWrite (regAddr s.cfg 0x8004#32) (Word.ofHalves hi 0xAA55#16))).ended
          [0x8004#32, Word.ofHalves hi 0xAA55#16] ⟨0#32, 0#32⟩)

/-- SYS_CFG and RAM_CFG keep the low 16 bits of a write and have no other effect (45_init_lifecycle R270), by WR_REG and by
the two pseudo-operations. -/
def Obligations.ConfigurationRegistersStore : Prop :=
  ∀ (s : State) (v : Word) (hi : BitVec 16), s.bridgeReady → s.seq.op = .idle →
    exec (.wrReg 0x8000#32 v) s =
      .next ((({ s with brg := { s.brg with sysCfg := v.low16 } } : State).transacted
        (.busWrite (regAddr s.cfg 0x8000#32) v)).ended [0x8000#32, v] ⟨0#32, 0#32⟩) ∧
    exec (.wrReg 0x8018#32 v) s =
      .next ((({ s with brg := { s.brg with ramCfg := v.low16 } } : State).transacted
        (.busWrite (regAddr s.cfg 0x8018#32) v)).ended [0x8018#32, v] ⟨0#32, 0#32⟩) ∧
    exec (.sysCfgClear hi) s =
      .next ((({ s with brg := { s.brg with sysCfg := 0#16 } } : State).transacted
        (.busWrite (regAddr s.cfg 0x8000#32) (Word.ofHalves hi 0#16))).ended
          [0x8000#32, Word.ofHalves hi 0#16] ⟨0#32, 0#32⟩) ∧
    exec (.saveOff hi) s =
      .next ((({ s with brg := { s.brg with ramCfg := s.cfg.ramCfgSaveOff } } : State).transacted
        (.busWrite (regAddr s.cfg 0x8018#32) (Word.ofHalves hi s.cfg.ramCfgSaveOff))).ended
          [0x8018#32, Word.ofHalves hi s.cfg.ramCfgSaveOff] ⟨0#32, 0#32⟩)

/-- An activate command to an idle bridge starts a packet command at `OFF` (43_handshake R203): ACTIVE set, the direction,
the pointer, the word kept; no byte moves yet. So for the two pseudo-operations, and for WR_REG of any value whose low half
is the command word: bits 31 to 16 are ignored (40_register_access R136). -/
def Obligations.ActivateCommandStartsPacket : Prop :=
  ∀ (s : State) (off : BitVec 9), s.bridgeReady → s.seq.op = .idle → s.brg.active = false →
    ∃ p : Fin 513, p.val = off.toNat ∧
      let started (w : BitVec 16) (d : BrgDir) (v : Word) : State :=
        (({ s with brg := { s.brg with cmd := w, active := true, dir := d, ptr := p } } : State).transacted
          (.busWrite (regAddr s.cfg 0x0004#32) v)).ended [0x0004#32, v] ⟨0#32, 0#32⟩
      exec (.usbCmdRd off) s = .next (started (commandRead off) .rd ((commandRead off).setWidth 32)) ∧
      exec (.usbCmdWr off) s = .next (started (commandWrite off) .wr ((commandWrite off).setWidth 32)) ∧
      ∀ v : Word,
        (v.low16 = 0xC600#16 ||| off.setWidth 16 → exec (.wrReg 0x0004#32 v) s = .next (started v.low16 .rd v)) ∧
        (v.low16 = 0xC200#16 ||| off.setWidth 16 → exec (.wrReg 0x0004#32 v) s = .next (started v.low16 .wr v))

/-- A no-op command, in any state of the handshake, clears ACTIVE, sets the direction and leaves the pointer anywhere; FIFOs
and window stay (43_handshake R204). So for the two pseudo-operations, and for WR_REG of any value whose low half is the
command word: bits 31 to 16 are ignored (40_register_access R136). -/
def Obligations.NoOpCommandIdlesBridge : Prop :=
  ∀ (s : State), s.bridgeReady → s.seq.op = .idle → ∃ p : Fin 513,
    let idled (w : BitVec 16) (d : BrgDir) (v : Word) : State :=
      (({ s with brg := { s.brg with cmd := w, active := false, dir := d, ptr := p } } : State).transacted
        (.busWrite (regAddr s.cfg 0x0004#32) v)).ended [0x0004#32, v] ⟨0#32, 0#32⟩
    exec .usbCmdRdNop s = .next (idled 0xC400#16 .rd 0x0000C400#32) ∧
    exec .usbCmdWrNop s = .next (idled 0xC000#16 .wr 0x0000C000#32) ∧
    ∀ v : Word,
      (v.low16 = 0xC400#16 → exec (.wrReg 0x0004#32 v) s = .next (idled 0xC400#16 .rd v)) ∧
      (v.low16 = 0xC000#16 → exec (.wrReg 0x0004#32 v) s = .next (idled 0xC000#16 .wr v))

/-- A command word outside the four, and an activate command to an active bridge, leave the handshake at any values, the
word kept (30_encoding R116, 43_handshake R202, R217). What of the bridge stays is the model's reading of those rules
(DEDUCED, log 13): the lock and the two configuration registers, and of the FIFOs that bytes only leave the receive FIFO at
its front and only join the transmit FIFO at its end; every other part of the state is as it was. -/
def Obligations.UndefinedCommandStaysInBridge : Prop :=
  ∀ (s : State) (v : Word), s.bridgeReady → s.seq.op = .idle →
    (v.getLsbD 15 = false ∨ v.getLsbD 14 = false ∨ v.extractLsb' 11 3 ≠ 0#3 ∨
      (v.getLsbD 9 = false ∧ v.extractLsb' 0 9 ≠ 0#9) ∨ (v.getLsbD 9 = true ∧ s.brg.active = true)) →
    ∃ b : Bridge,
      exec (.wrReg 0x0004#32 v) s =
        .next ((({ s with brg := b } : State).transacted (.busWrite (regAddr s.cfg 0x0004#32) v)).ended
          [0x0004#32, v] ⟨0#32, 0#32⟩) ∧
      b.cmd = v.low16 ∧ b.unlocked = s.brg.unlocked ∧ b.sysCfg = s.brg.sysCfg ∧ b.ramCfg = s.brg.ramCfg ∧
      b.rxFifo <:+ s.brg.rxFifo ∧ s.brg.txFifo <+: b.txFifo

/-! ### The handshake -/

/-- CAN_READ is one status read and answers whether POWERED is set and RXF clear in the word read (43_handshake R200). -/
def Obligations.CanReadTestsStatus : Prop :=
  ∀ (s : State), s.seq.op = .idle → ∃ v : Word, (s.bridgeReady → s.statusReads v) ∧
    exec .canRead s =
      .next ((s.transacted (.busRead (regAddr s.cfg 0x0004#32) v)).ended []
        ⟨0#32, if v &&& 0x1400#32 = 0x1000#32 then 1#32 else 0#32⟩)

/-- CAN_WRITE is one status read and answers whether POWERED is set and TXF clear, or, with CAN_WRITE_AS_SOURCE, CAN_READ's
test (43_handshake R201). -/
def Obligations.CanWriteTestsStatus : Prop :=
  ∀ (s : State), s.seq.op = .idle → ∃ v : Word, (s.bridgeReady → s.statusReads v) ∧
    exec .canWrite s =
      .next ((s.transacted (.busRead (regAddr s.cfg 0x0004#32) v)).ended []
        ⟨0#32, if v &&& (if s.cfg.canWriteAsSource then 0x1400#32 else 0x1800#32) = 0x1000#32 then 1#32 else 0#32⟩)

/-- WAIT_NOT_BUSY's first poll: one status read, `seq.poll = 1`; ACTIVE clear ends it with Ok, ACTIVE set leaves it before
the next read (43_handshake R197). -/
def Obligations.WaitNotBusyFirstPoll : Prop :=
  ∀ (s : State), s.seq.op = .idle → ∃ v : Word, (s.bridgeReady → s.statusReads v) ∧
    exec .waitNotBusy s = .next (
      let t := ({ s with seq := { s.seq with poll := 1#14 } } : State).transacted (.busRead (regAddr s.cfg 0x0004#32) v)
      if v &&& 0x0200#32 = 0#32 then t.ended [] ⟨0#32, 0#32⟩
      else t.within .waitNotBusy [] (.rdReg 0x0004#32) [.waitRead])

/-- Every further poll of a busy-wait, WAIT_NOT_BUSY's own and those READ, WRITE and INIT's drain call, in any state of the
other agents (43_handshake R197, R198): one status read, counted. ACTIVE set leads to the next read below 8192 reads and to
the recovery write at 8192, whoever called. ACTIVE clear returns Ok, with no write of the wait's: WAIT_NOT_BUSY ends; READ's
first wait goes on to the first packet's command, or ends a READ of length 0; a packet's wait in READ goes on to the
invalidate of its lines; a packet's wait in WRITE advances the cursor and goes on to the next packet's write-back, or ends
the WRITE (44_packet_transfer R232, R238). -/
def Obligations.WaitNotBusyPollStep : Prop :=
  ∀ (s : State) (es : List Event) (k : List Frame), s.sched = .seq :: es → s.seq.phase = .rdReg 0x0004#32 →
    s.seq.stack = .waitRead :: k → s.seq.poll.toNat < 8192 → ∃ (v : Word) (t : State), (s.bridgeReady → s.statusReads v) ∧
      step s = .next t ∧
      let u := ({ s with sched := es, seq := { s.seq with poll := s.seq.poll + 1#14 } } : State).transacted
        (.busRead (regAddr s.cfg 0x0004#32) v)
      let goesOn (x : State) (p : Phase) (k' : List Frame) : Prop := t = x.within s.seq.op s.seq.args p k'
      let ends (x : State) : Prop := t = x.ended s.seq.args ⟨0#32, 0#32⟩
      let here := s.seq.buf + s.seq.cursor
      let left := s.seq.remaining - s.seq.chunk.setWidth 32
      let packet (x : State) (n : Word) : State :=
        { x with seq := { x.seq with chunk := chunkOf n, baseOffset := baseOffsetOf (chunkOf n) } }
      (v &&& 0x0200#32 ≠ 0#32 →
        (s.seq.poll.toNat + 1 < 8192 → goesOn u (.rdReg 0x0004#32) (.waitRead :: k)) ∧
        (s.seq.poll.toNat + 1 = 8192 → goesOn u (.wrReg 0x0004#32 0x0000C400#32) (.waitRecovery :: k))) ∧
      (v &&& 0x0200#32 = 0#32 →
        (k = [] → ends u) ∧
        (∀ buf len k', k = .readFirstWait buf len :: k' →
          let x : State := { u with seq := { u.seq with buf := buf, cursor := 0#32, remaining := len } }
          (len = 0#32 → k' = [] → ends x) ∧
          (len ≠ 0#32 → goesOn (packet x len)
            (.wrReg 0x0004#32 (0x0000C600#32 ||| (baseOffsetOf (chunkOf len)).setWidth 32)) (.readCommand :: k'))) ∧
        (∀ k', k = .readWait :: k' →
          goesOn u (.line .wbinv (lineFirst s.cfg here) (lineLast s.cfg here (s.seq.chunk.setWidth 32)))
            (.readInvalidate :: k')) ∧
        ∀ k', k = .writeWait :: k' →
          let x : State := { u with seq := { u.seq with cursor := s.seq.cursor + s.seq.chunk.setWidth 32, remaining := left } }
          let next := s.seq.buf + (s.seq.cursor + s.seq.chunk.setWidth 32)
          (left = 0#32 → k' = [] → ends x) ∧
          (left ≠ 0#32 → goesOn (packet x left)
            (.line .wb (lineFirst s.cfg next) (lineLast s.cfg next ((chunkOf left).setWidth 32))) (.writeBack :: k')))

/-- ACTIVE set at every read: exactly 8192 reads, then exactly one write, of the "read, no-op" word, and the answer
`Err(BridgeTimeout)`; the window is as it was (43_handshake R198 (b), R199, R204; log 32). Only SEQ moves, so ACTIVE stays
set. -/
def Obligations.WaitNotBusyTimesOut : Prop :=
  ∀ (s : State) (es : List Event), s.bridgeReady → s.seq.op = .idle → s.brg.active = true →
    s.sched = .offer ⟨.opd, [0x9#32]⟩ :: (List.replicate 8192 Event.seq ++ es) → ∃ (t : State) (vs : List Word),
      runSteps 8193 s = .next t ∧ t.answered ⟨1#32, 0#32⟩ ∧ t.seq.poll = 8192#14 ∧ t.brg.active = false ∧
      t.brg.pkt = s.brg.pkt ∧ vs.length = 8192 ∧
      t.trace = .busWrite (regAddr s.cfg 0x0004#32) 0x0000C400#32 ::
        (vs.map (fun v => Transaction.busRead (regAddr s.cfg 0x0004#32) v) ++ s.trace)

/-- The error (60_exceptions R284, R285): from the recovery write of a wait, whether WAIT_NOT_BUSY's own, a READ's or a
WRITE's, the operation ends with the answer (1, 0) after that one write; the bridge is idle; nothing is saved and
`seq.initialized`, the cursor, RAM, cache and FIFOs stay as they were. After a packet's wait the packet window holds any bytes
from `seq.base_offset` up and the same bytes below (R285); after WAIT_NOT_BUSY's own and READ's first, which end no packet,
it is as it was (43_handshake R204; which of the two rules governs which wait is DEDUCED, log 32). -/
def Obligations.TimeoutEndsOperation : Prop :=
  ∀ (s : State) (es : List Event) (k : List Frame), s.bridgeReady → s.sched = .seq :: es →
    s.seq.phase = .wrReg 0x0004#32 0x0000C400#32 → s.seq.stack = .waitRecovery :: k →
    (k = [] ∨ (∃ buf len, k = [.readFirstWait buf len]) ∨ k = [.readWait] ∨ k = [.writeWait]) →
    ∃ (p : Fin 513) (w : Vector Byte 512), s.keepsBelow w ∧
      (k = [] ∨ (∃ buf len, k = [.readFirstWait buf len]) → w = s.brg.pkt) ∧
      step s = .next ((({ s with
        sched := es
        brg := { s.brg with cmd := 0xC400#16, pkt := w, active := false, dir := .rd, ptr := p } } : State).transacted
          (.busWrite (regAddr s.cfg 0x0004#32) 0x0000C400#32)).ended s.seq.args ⟨1#32, 0#32⟩)

/-- INIT's drain, branch by branch, whatever `seq.initialized` holds (45_init_lifecycle R261, R265; 60_exceptions R288).
CAN_READ true at the check starts READ of `SCRATCH_ADDR`, 512, without the lifecycle test, at its first busy-wait; CAN_READ
false goes on to the save-emulation write. A pass that succeeds goes back to the check. A timeout of the pass, in its first
wait or in its packet's, is dropped: after its recovery write INIT goes on to the save-emulation write; the packet's timeout
leaves any bytes in the window from `seq.base_offset` up (60_exceptions R285), the first wait's leaves the window as it was
(43_handshake R204; which rule governs which wait is DEDUCED, log 32). No branch sends an answer. There is no pass limit: with
512 bytes waiting for each of `n` passes, for any `n`, INIT makes them all and is at its check again, so a HOST that sends
without pause keeps it there (R265; 60_exceptions R301 (b)); that run is one of default moves (log 7). -/
def Obligations.DrainTimeoutIsDropped : Prop :=
  (∀ (s : State) (n : Nat), s.bridgeReady → s.cfg.alignsAll → s.dataOk = true → s.cfg.rxfActiveLow = true →
    s.host.powered = true → s.dma.busy = false → s.brg.active = false → s.seq.phase = .rdReg 0x0004#32 →
    s.seq.stack = [.canRead, .initCheck] → s.sched = [] → s.tail = .default → 512 * n ≤ s.brg.rxFifo.length →
    ∃ (k : Nat) (t : State), n ≤ k ∧ runSteps k s = .next t ∧ t.seq.phase = .rdReg 0x0004#32 ∧
      t.seq.stack = [.canRead, .initCheck] ∧ t.brg.rxFifo = s.brg.rxFifo.drop (512 * n)) ∧
  ∀ (s : State) (es : List Event), s.bridgeReady → s.sched = .seq :: es →
    (s.seq.phase = .rdReg 0x0004#32 → s.seq.stack = [.canRead, .initCheck] → ∃ v : Word, s.statusReads v ∧
      step s = .next (
        let t := ({ s with sched := es } : State).transacted (.busRead (regAddr s.cfg 0x0004#32) v)
        if v &&& 0x1400#32 = 0x1000#32 then
          ({ t with seq := { t.seq with poll := 0#14 } } : State).within s.seq.op s.seq.args (.rdReg 0x0004#32)
            [.waitRead, .readFirstWait s.cfg.scratchAddr 512#32, .initDrain]
        else t.within s.seq.op s.seq.args (.wrReg 0x8018#32 (s.cfg.ramCfgSaveOff.setWidth 32)) [.initRamCfg])) ∧
    (s.seq.phase = .dmaPoll → s.seq.stack = [.dmaLastWait, .readDma, .initDrain] → s.dma.busy = false →
      s.seq.remaining = s.seq.chunk.setWidth 32 → ∃ v : Word, v &&& s.cfg.dmaBusyMask = 0#32 ∧
      step s = .next ((({ s with
        sched := es
        seq := { s.seq with cursor := s.seq.cursor + s.seq.remaining, remaining := 0#32 } } : State).transacted
          (.busRead (uncached s.cfg (s.cfg.dmaBase + 0x10#32)) v)).within s.seq.op s.seq.args (.rdReg 0x0004#32)
            [.canRead, .initCheck])) ∧
    ∀ k : List Frame, s.seq.phase = .wrReg 0x0004#32 0x0000C400#32 → s.seq.stack = .waitRecovery :: k →
      ((∃ buf len, k = [.readFirstWait buf len, .initDrain]) ∨ k = [.readWait, .initDrain]) →
      ∃ (p : Fin 513) (w : Vector Byte 512), s.keepsBelow w ∧
        ((∃ buf len, k = [.readFirstWait buf len, .initDrain]) → w = s.brg.pkt) ∧
        step s = .next ((({ s with
          sched := es
          brg := { s.brg with cmd := 0xC400#16, pkt := w, active := false, dir := .rd, ptr := p } } : State).transacted
            (.busWrite (regAddr s.cfg 0x0004#32) 0x0000C400#32)).within s.seq.op s.seq.args
              (.wrReg 0x8018#32 (s.cfg.ramCfgSaveOff.setWidth 32)) [.initRamCfg])

/-- The bridge's own steps (43_handshake R205 to R208): a byte from the receive FIFO into the window, or from the window to
the transmit FIFO, and the pointer up by one; completion at 512; no step while there is nothing to take or no room. That they are the same on a locked bridge is the model's
reading (DEDUCED, log 34). -/
def Obligations.BridgeStepMovesOneByte : Prop :=
  ∀ (s : State) (es : List Event), s.sched = .bridge :: es → s.brg.active = true →
    (∀ (h : s.brg.ptr.val < 512) (x : Byte) (rest : List Byte), s.brg.dir = .rd → s.brg.rxFifo = x :: rest →
      step s = .next { s with
        sched := es
        brg := { s.brg with
          pkt := s.brg.pkt.set s.brg.ptr.val x, ptr := ⟨s.brg.ptr.val + 1, by omega⟩, rxFifo := rest } }) ∧
    (s.brg.ptr.val < 512 → s.brg.dir = .rd → s.brg.rxFifo = [] → step s = .next { s with sched := es }) ∧
    (∀ h : s.brg.ptr.val < 512, s.brg.dir = .wr → (∀ d, s.cfg.txDepth = some d → s.brg.txFifo.length < d) →
      step s = .next { s with
        sched := es
        brg := { s.brg with
          txFifo := s.brg.txFifo ++ [s.brg.pkt[s.brg.ptr.val]], ptr := ⟨s.brg.ptr.val + 1, by omega⟩ } }) ∧
    (∀ d, s.brg.ptr.val < 512 → s.brg.dir = .wr → s.cfg.txDepth = some d → d ≤ s.brg.txFifo.length →
      step s = .next { s with sched := es }) ∧
    (s.brg.ptr.val = 512 → step s = .next { s with sched := es, brg := { s.brg with active := false } })

/-- A "read + activate" command with enough bytes waiting completes in `512 - OFF + 1` bridge steps: window bytes `OFF` to
511 hold, in order, the bytes taken, exactly those have left the FIFO, and the window below `OFF` is as it was
(43_handshake R206, R221; R196 (d)). That it is the same on a locked bridge is the model's reading (DEDUCED, log 34). -/
def Obligations.BridgeFillsWindow : Prop :=
  ∀ (s : State) (es : List Event) (off : Nat), off < 512 → s.brg.active = true → s.brg.dir = .rd →
    s.brg.ptr.val = off → 512 - off ≤ s.brg.rxFifo.length →
    s.sched = List.replicate (512 - off + 1) Event.bridge ++ es → ∃ t : State,
      runSteps (512 - off + 1) s = .next t ∧
      t = { s with
        sched := es
        brg := { s.brg with
          pkt := t.brg.pkt, active := false, ptr := 512, rxFifo := s.brg.rxFifo.drop (512 - off) } } ∧
      ∀ k : Fin 512, t.brg.pkt[k] =
        if k.val < off then s.brg.pkt[k] else (s.brg.rxFifo[k.val - off]?).getD (s.brg.pkt[k])

/-- HOST's steps (43_handshake R219): a byte pushed if there is room and logged, the oldest byte taken and logged, POWERED
set; and the loopback HOST's, which moves the oldest byte from one FIFO to the other. -/
def Obligations.HostStepsMoveBytes : Prop :=
  ∀ (s : State) (es : List Event) (b : Byte),
    (s.sched = .hostSend b :: es → (∀ d, s.cfg.rxDepth = some d → s.brg.rxFifo.length < d) →
      step s = .next { s with
        sched := es
        brg := { s.brg with rxFifo := s.brg.rxFifo ++ [b] }
        host := { s.host with sent := s.host.sent ++ [b] } }) ∧
    (∀ rest, s.sched = .hostTake :: es → s.brg.txFifo = b :: rest →
      step s = .next { s with
        sched := es
        brg := { s.brg with txFifo := rest }
        host := { s.host with received := s.host.received ++ [b] } }) ∧
    (∀ v, s.sched = .hostPower v :: es →
      step s = .next { s with sched := es, host := { s.host with powered := v } }) ∧
    (∀ rest, s.sched = .hostLoopback :: es → s.brg.txFifo = b :: rest →
      (∀ d, s.cfg.rxDepth = some d → s.brg.rxFifo.length < d) → ∃ h : HostSide, h.powered = s.host.powered ∧
        step s = .next { s with
          sched := es
          brg := { s.brg with txFifo := rest, rxFifo := s.brg.rxFifo ++ [b] }
          host := h })

/-! ### DMA -/

/-- Masking a peripheral address lands below 2^29, is idempotent, takes the uncached address of every physical address back
to it, whatever function UNCACHED is (20_memory R64), and so a bridge register's uncached address to its physical address
(20_memory R66). -/
def Obligations.PeripheralMaskLaws : Prop :=
  ∀ (c : Config) (a off : Word),
    (physical a).toNat < 0x20000000 ∧ physical (physical a) = physical a ∧
    (c.legal = true → a.toNat < 0x20000000 → physical (uncached c a) = a) ∧
    (c.legal = true → off.toNat ≤ 0x801B → (physical (regAddr c off)).toNat = c.bridgeBase.toNat + off.toNat)

/-- DMA_WAIT_IDLE, by itself and as the second wait of a DMA_XFER, of the operation's own or of READ's, WRITE's or the
drain's: one `status` read a step, whose word reports idle exactly when the engine is (42_dma R166, R179). Busy, the read is
all that happens and the poll stands, whoever waits: nothing goes on while a transfer is outstanding (R172,
70_reset_and_hazards R320). Idle, the wait returns: DMA_WAIT_IDLE and DMA_XFER end with Ok; a packet's transfer in WRITE is
followed by its "write + activate" command; one in READ advances the cursor and is followed by the next packet's command or
by READ's end (44_packet_transfer R232, R238; INIT's drain: `DrainTimeoutIsDropped`). With an engine that is never scheduled the
poll has no end: after any number of SEQ's moves it stands (60_exceptions R301 (a); 95_test_vectors C3). -/
def Obligations.DmaWaitIdlePolls : Prop :=
  ∀ (s : State), s.cfg.legal = true →
    (s.sched = [] → s.tail = .cycle .seq [] → s.seq.phase = .dmaPoll → s.dma.busy = true → ∀ n, ∃ t : State,
      runSteps n s = .next t ∧ t.seq = s.seq ∧ t.dma = s.dma ∧ t.client = s.client) ∧
    ∃ v : Word, (v &&& s.cfg.dmaBusyMask = 0#32 ↔ s.dma.busy = false) ∧
    let read := Transaction.busRead (uncached s.cfg (s.cfg.dmaBase + 0x10#32)) v
    (s.seq.op = .idle → exec .dmaWaitIdle s = .next (
      if s.dma.busy then (s.transacted read).within .dmaWaitIdle [] .dmaPoll []
      else (s.transacted read).ended [] ⟨0#32, 0#32⟩)) ∧
    ∀ es, s.sched = .seq :: es → s.seq.phase = .dmaPoll →
      let t := ({ s with sched := es } : State).transacted read
      (s.dma.busy = true → step s = .next t) ∧
      (s.dma.busy = false →
        (s.seq.stack = [] ∨ s.seq.stack = [.dmaLastWait] → step s = .next (t.ended s.seq.args ⟨0#32, 0#32⟩)) ∧
        (∀ k, s.seq.stack = .dmaLastWait :: .writeDma :: k →
          step s = .next (t.within s.seq.op s.seq.args
            (.wrReg 0x0004#32 (0x0000C200#32 ||| s.seq.baseOffset.setWidth 32)) (.writeCommand :: k))) ∧
        ∀ k, s.seq.stack = .dmaLastWait :: .readDma :: k →
          let left := s.seq.remaining - s.seq.chunk.setWidth 32
          let u : State := { t with
            seq := { t.seq with cursor := s.seq.cursor + s.seq.chunk.setWidth 32, remaining := left } }
          (left = 0#32 → k = [] → step s = .next (u.ended s.seq.args ⟨0#32, 0#32⟩)) ∧
          (left ≠ 0#32 → step s = .next (
            ({ u with seq := { u.seq with chunk := chunkOf left, baseOffset := baseOffsetOf (chunkOf left) } } :
              State).within s.seq.op s.seq.args
                (.wrReg 0x0004#32 (0x0000C600#32 ||| (baseOffsetOf (chunkOf left)).setWidth 32)) (.readCommand :: k))))

/-- Not busy before programming (70_reset_and_hazards R319). A pseudo-operation that would reach one DMA or timing register
alone, offered by CLIENT, is refused: CLIENT has no such operation (that the offer is refused, by what name, and that the one
that reads `status` is too, are the model's own, log 9). Every step of every agent keeps the engine idle while SEQ
stands at one of DMA_XFER's programming writes. DMA_XFER writes nothing before a `status` read reports idle (42_dma R167, line
P_dx_w1): it begins with one read, and at
every poll of its first wait, of the operation's own or of READ's, WRITE's or the drain's, a read that reports busy is all
that happens and the poll stands; one that reports idle leads to the arm write. -/
def Obligations.DmaTransferWaitsForIdle : Prop :=
  (∀ (s : State) (r : Request) (es : List Event), s.sched = .offer r :: es →
    (∃ k, r.fmt = .dmaWr k ∨ r.fmt = .dmaRd k ∨ r.fmt = .timWr k) → step s = .refused .wrongPlacer) ∧
  (∀ s t : State, s.cfg.legal = true → s.seqOk = true → step s = .next t →
    (s.seq.phase.programs = true → s.dma.busy = false) → t.seq.phase.programs = true → t.dma.busy = false) ∧
  ∀ (s : State), s.cfg.legal = true → ∃ v : Word, (v &&& s.cfg.dmaBusyMask = 0#32 ↔ s.dma.busy = false) ∧
    let read := Transaction.busRead (uncached s.cfg (s.cfg.dmaBase + 0x10#32)) v
    (∀ (ram periph len : Word) (dir : Dir), s.seq.op = .idle → len ≠ 0#32 →
      exec (.dmaXfer ram periph len dir) s = .next (
        let x : Xfer := ⟨ram, periph &&& 0x1FFFFFFF#32, len, dir⟩
        let t := s.transacted read
        if s.dma.busy then t.within .dmaXfer [ram, periph, len, encodeDir dir] .dmaPoll [.dmaFirstWait x]
        else t.within .dmaXfer [ram, periph, len, encodeDir dir] (.dmaArm x) [])) ∧
    ∀ es x k, s.sched = .seq :: es → s.seq.phase = .dmaPoll → s.seq.stack = .dmaFirstWait x :: k →
      step s = .next (
        let t := ({ s with sched := es } : State).transacted read
        if s.dma.busy then t else t.within s.seq.op s.seq.args (.dmaArm x) k)

/-- DMA_XFER to an idle engine (42_dma R167, R168, R170, R171): status read, arm write, `ram_addr`, the masked
`peripheral_addr`, then `len - 1` to the length register of its direction and to no other; the job is then in flight and
SEQ is at its second wait. RAM, cache and bridge are untouched so far. -/
def Obligations.DmaTransferProgramsEngine : Prop :=
  ∀ (s : State) (es : List Event) (ram periph len : Word) (dir : Dir), s.cfg.legal = true → s.seq.op = .idle →
    len ≠ 0#32 → s.dma.busy = false →
    s.sched = .offer ⟨.opd, [0x8#32, ram, periph, len, encodeDir dir]⟩ :: .seq :: .seq :: .seq :: .seq :: es →
    ∃ (v : Word) (t : State), v &&& s.cfg.dmaBusyMask = 0#32 ∧ runSteps 5 s = .next t ∧
      t.trace =
        [.busWrite (uncached s.cfg (s.cfg.dmaBase + if dir = .incoming then 0x08#32 else 0x0C#32)) (len - 1#32),
         .busWrite (uncached s.cfg (s.cfg.dmaBase + 0x04#32)) (periph &&& 0x1FFFFFFF#32),
         .busWrite (uncached s.cfg (s.cfg.dmaBase + 0x00#32)) ram,
         .busWrite (uncached s.cfg (s.cfg.dmaBase + 0x10#32)) s.cfg.dmaArm,
         .busRead (uncached s.cfg (s.cfg.dmaBase + 0x10#32)) v] ++ s.trace ∧
      t.dma.busy = true ∧ t.dma.ramAddr = ram ∧ t.dma.peripheralAddr = periph &&& 0x1FFFFFFF#32 ∧
      t.dma.readLen = (if dir = .incoming then len - 1#32 else s.dma.readLen) ∧
      t.dma.writeLen = (if dir = .outgoing then len - 1#32 else s.dma.writeLen) ∧
      t.dma.job.dir = dir ∧ t.dma.job.ram = ram ∧ t.dma.job.periph = periph &&& 0x1FFFFFFF#32 ∧
      t.dma.job.count.toNat = len.toNat ∧ t.dma.job.done = [] ∧ t.dma.timing = s.dma.timing ∧
      t.seq.op = .dmaXfer ∧ t.seq.phase = .dmaPoll ∧ t.mem = s.mem ∧ t.cache = s.cache ∧ t.brg = s.brg

/-- A whole DMA_XFER between RAM and the packet window, the engine moving its bytes in ascending order: it answers Ok; byte
`i` of the RAM block has gone with byte `i` of the window block, in the direction asked for; every other byte of RAM and
window, and the cache, are as they were (42_dma R176, R178; R187 (d), (e)). The order of moves is the model's default
(log 7); that a locked bridge's window takes part is the model's reading (DEDUCED, log 34). -/
def Obligations.DmaTransferMovesBlock : Prop :=
  ∀ (s : State) (ram periph len : Word) (dir : Dir) (k : Nat), s.cfg.legal = true → s.cfg.alignsAll →
    s.seq.op = .idle → len ≠ 0#32 → s.dma.busy = false → s.brg.active = false →
    (periph &&& 0x1FFFFFFF#32).toNat = s.cfg.bridgeBase.toNat + 0x0400 + k → k + len.toNat ≤ 512 →
    ramPhys ram + len.toNat ≤ s.cfg.ramSize →
    s.sched = [.offer ⟨.opd, [0x8#32, ram, periph, len, encodeDir dir]⟩] → s.tail = .default →
    ∃ (n : Nat) (t : State), runSteps n s = .next t ∧ t.answered ⟨0#32, 0#32⟩ ∧ t.dma.busy = false ∧
      t.cache = s.cache ∧
      (dir = .incoming → t.brg = s.brg ∧ ∀ a, t.mem.read a =
        if ramPhys ram ≤ a ∧ a < ramPhys ram + len.toNat then (s.brg.pkt[k + (a - ramPhys ram)]?).getD 0#8
        else s.mem.read a) ∧
      (dir = .outgoing → t.mem = s.mem ∧ t.brg = { s.brg with pkt := t.brg.pkt } ∧ ∀ j : Fin 512, t.brg.pkt[j] =
        if k ≤ j.val ∧ j.val < k + len.toNat then s.mem.read (ramPhys ram + (j.val - k)) else s.brg.pkt[j])

/-- The arm value and the two address registers, written to an idle engine: the address is stored, the arm write changes no
modelled state (42_dma R174, R180), by the one bus write it expands to (30_encoding R121). That no answer goes out on port
CMD is the model's choice (DEDUCED, log 9). -/
def Obligations.DmaAddressRegistersStore : Prop :=
  ∀ (s : State) (ram : Word) (p : BitVec 29), s.cfg.legal = true → s.seq.op = .idle → s.dma.busy = false →
    exec .dmaArm s =
      .next (s.transacted (.busWrite (uncached s.cfg (s.cfg.dmaBase + 0x10#32)) s.cfg.dmaArm)) ∧
    exec (.dmaSetRam ram) s =
      .next (({ s with dma := { s.dma with ramAddr := ram } } : State).transacted
        (.busWrite (uncached s.cfg (s.cfg.dmaBase + 0x00#32)) ram)) ∧
    exec (.dmaSetPeriph p) s =
      .next (({ s with dma := { s.dma with peripheralAddr := p.setWidth 32 } } : State).transacted
        (.busWrite (uncached s.cfg (s.cfg.dmaBase + 0x04#32)) (p.setWidth 32)))

/-- A write of `n` to a length register of an idle engine starts a job of `n + 1` bytes in that register's direction, from
the two address registers, with no byte moved yet (42_dma R175), by the one bus write it expands to (30_encoding R121).
That no answer goes out on port CMD is the model's choice (DEDUCED, log 9). -/
def Obligations.LengthWriteStartsJob : Prop :=
  ∀ (s : State) (n : Word), s.cfg.legal = true → s.seq.op = .idle → s.dma.busy = false →
    ∃ c : BitVec 33, c.toNat = n.toNat + 1 ∧
      exec (.dmaStartIn n) s =
        .next (({ s with dma := { s.dma with
          readLen := n, busy := true, job := ⟨.incoming, s.dma.ramAddr, s.dma.peripheralAddr, c, []⟩ } } :
            State).transacted (.busWrite (uncached s.cfg (s.cfg.dmaBase + 0x08#32)) n)) ∧
      exec (.dmaStartOut n) s =
        .next (({ s with dma := { s.dma with
          writeLen := n, busy := true, job := ⟨.outgoing, s.dma.ramAddr, s.dma.peripheralAddr, c, []⟩ } } :
            State).transacted (.busWrite (uncached s.cfg (s.cfg.dmaBase + 0x0C#32)) n))

/-- A read of `status` returns a word whose masked bits are zero exactly when the engine is idle, and changes nothing but
the trace (42_dma R179), by the one bus read it expands to (30_encoding R121). That no answer goes out on port CMD is the
model's choice (DEDUCED, log 9). -/
def Obligations.DmaStatusReportsIdle : Prop :=
  ∀ (s : State), s.cfg.legal = true → s.seq.op = .idle → ∃ v : Word,
    (v &&& s.cfg.dmaBusyMask = 0#32 ↔ s.dma.busy = false) ∧
    exec .dmaStatus s = .next (s.transacted (.busRead (uncached s.cfg (s.cfg.dmaBase + 0x10#32)) v))

/-- A write to any of the five DMA registers of a busy engine completes, as one bus write of the value to that register's
address, and disturbs no more than the engine, its job and the job's destination, with the register written: SEQ, cache,
HOST, CLIENT, the timing registers and the other programming registers stay. An incoming job leaves the bridge as it was and,
if its block lies in RAM, every byte of RAM outside it; an outgoing job leaves RAM as it was and, if its block lies in the
packet window, all of the bridge but the window bytes of the block (42_dma R174, R180). That nothing outside the block
changes is the model's reading (DEDUCED, log 15); an address written is stored, and what a length register then holds the
spec does not say (log 31); no answer goes out on port CMD (DEDUCED, log 9). -/
def Obligations.BusyEngineDisturbanceIsBounded : Prop :=
  ∀ (s : State) (i : Instr) (o v : Word), s.cfg.legal = true → s.seq.op = .idle → s.dma.busy = true →
    ((i = .dmaArm ∧ o = 0x10#32 ∧ v = s.cfg.dmaArm) ∨ (i = .dmaSetRam v ∧ o = 0x00#32) ∨
      ((∃ p : BitVec 29, i = .dmaSetPeriph p ∧ v = p.setWidth 32) ∧ o = 0x04#32) ∨
      (i = .dmaStartIn v ∧ o = 0x08#32) ∨ (i = .dmaStartOut v ∧ o = 0x0C#32)) →
    ∃ t : State, exec i s = .next t ∧ t.trace = .busWrite (uncached s.cfg (s.cfg.dmaBase + o)) v :: s.trace ∧
      t.seq = s.seq ∧ t.cache = s.cache ∧ t.host = s.host ∧ t.client = s.client ∧ t.cfg = s.cfg ∧ t.sched = s.sched ∧
      t.dma.timing = s.dma.timing ∧
      t.dma.ramAddr = (if o = 0x00#32 then v else s.dma.ramAddr) ∧
      t.dma.peripheralAddr = (if o = 0x04#32 then v else s.dma.peripheralAddr) ∧
      (o ≠ 0x08#32 → t.dma.readLen = s.dma.readLen) ∧ (o ≠ 0x0C#32 → t.dma.writeLen = s.dma.writeLen) ∧
      (s.dma.job.dir = .incoming → t.brg = s.brg ∧
        (ramPhys s.dma.job.ram + s.dma.job.count.toNat ≤ s.cfg.ramSize →
          ∀ x, x < ramPhys s.dma.job.ram ∨ ramPhys s.dma.job.ram + s.dma.job.count.toNat ≤ x →
            t.mem.read x = s.mem.read x)) ∧
      (s.dma.job.dir = .outgoing → t.mem = s.mem ∧
        ∀ k : Fin 512, windowIndex s.cfg s.dma.job.periph = some k → k.val + s.dma.job.count.toNat ≤ 512 →
          t.brg = { s.brg with pkt := t.brg.pkt } ∧
          ∀ j : Fin 512, j.val < k.val ∨ k.val + s.dma.job.count.toNat ≤ j.val → t.brg.pkt[j] = s.brg.pkt[j])

/-- DOM1_SET writes entry `i` of DOM1_TIMING to its own register, and changes nothing else; an index past the list is refused
(42_dma R185; the refusal, and that no answer goes out on port CMD, are the model's own, log 9). -/
def Obligations.TimingWriteStores : Prop :=
  ∀ (s : State) (i : Nat), s.cfg.legal = true → s.seq.op = .idle →
    (∀ a v, s.cfg.dom1Timing[i]? = some (a, v) → ∃ tm : List (Nat × Word),
      exec (.dom1Set i) s =
        .next (({ s with dma := { s.dma with timing := tm } } : State).transacted (.busWrite (uncached s.cfg a) v)) ∧
      ∀ p, keyGet p tm = if p = a.toNat then some v else keyGet p s.dma.timing) ∧
    (s.cfg.dom1Timing.length ≤ i → exec (.dom1Set i) s = .refused .noTimingRegister)

/-- The engine moves any byte of its job that it has not moved: byte `i` of the RAM block with byte `i` of the window block,
through neither cache nor bus; no other byte of RAM or window changes (42_dma R176, R177). That a locked bridge's window takes
part is the model's reading (DEDUCED, log 34). -/
def Obligations.EngineMovesAnyByte : Prop :=
  ∀ (s : State) (es : List Event) (i k : Nat) (hk : k < 512), s.sched = .dmaMove i :: es → s.cfg.alignsAll →
    s.dma.busy = true → i < s.dma.job.count.toNat → i ∉ s.dma.job.done → s.brg.active = false →
    (s.dma.job.periph + BitVec.ofNat 32 i).toNat = s.cfg.bridgeBase.toNat + 0x0400 + k →
    ramPhys s.dma.job.ram + i < s.cfg.ramSize → ∃ (t : State) (m : Memory) (w : Vector Byte 512) (done : List Nat),
      step s = .next t ∧
      t = { s with
        sched := es, draws := s.draws + 1, mem := m, brg := { s.brg with pkt := w }
        dma := { s.dma with job := { s.dma.job with done := done } } } ∧
      (∀ j, j ∈ done ↔ j = i ∨ j ∈ s.dma.job.done) ∧
      (s.dma.job.dir = .incoming → w = s.brg.pkt ∧
        ∀ a, m.read a = if a = ramPhys s.dma.job.ram + i then s.brg.pkt[k] else s.mem.read a) ∧
      (s.dma.job.dir = .outgoing → m = s.mem ∧ w = s.brg.pkt.set k (s.mem.read (ramPhys s.dma.job.ram + i)))

/-- The engine completes exactly when every index of its job is done: then `busy` clears and nothing else changes; before
that the step changes nothing (42_dma R178). -/
def Obligations.EngineCompletesWhenAllMoved : Prop :=
  ∀ (s : State) (es : List Event), s.sched = .dmaComplete :: es → s.dma.busy = true → s.dma.job.fits = true →
    ((∀ i, i < s.dma.job.count.toNat → i ∈ s.dma.job.done) →
      step s = .next { s with sched := es, dma := { s.dma with busy := false } }) ∧
    ((∃ i, i < s.dma.job.count.toNat ∧ i ∉ s.dma.job.done) → step s = .next { s with sched := es })

/-! ### The cache -/

/-- One cache operation (41_cache_coherence R152): a dirty line's bytes go to RAM, WB leaves the line there and clean, WBINV
drops it, an absent line changes nothing; no other line and no other byte of RAM changes. -/
def Obligations.CacheOperationActsOnOneLine : Prop :=
  ∀ (s : State) (es : List Event) (kind : CacheKind) (a last : Word), s.cfg.legal = true → s.dataOk = true →
    s.sched = .seq :: es → s.seq.phase = .line kind a last → ramPhys a < s.cfg.ramSize → ∃ t : State,
      step s = .next t ∧ t.trace = .cacheOp kind a :: s.trace ∧ t.brg = s.brg ∧ t.dma = s.dma ∧
      (∀ l, l ≠ lineIndex s.cfg a → keyGet l t.cache = keyGet l s.cache) ∧
      (keyGet (lineIndex s.cfg a) s.cache = none → t.mem = s.mem ∧ t.cache = s.cache) ∧
      ∀ ln, keyGet (lineIndex s.cfg a) s.cache = some ln →
        keyGet (lineIndex s.cfg a) t.cache =
          (match kind with | .wb => some { ln with dirty := false } | .wbinv => none) ∧
        ∀ x, t.mem.read x =
          if ln.dirty = true ∧ lineIndex s.cfg a * s.cfg.lineSize ≤ x ∧
            x < lineIndex s.cfg a * s.cfg.lineSize + s.cfg.lineSize
          then (ln.data[x - lineIndex s.cfg a * s.cfg.lineSize]?).getD 0#8 else s.mem.read x

/-- A cache operation changes what CLIENT would read at no address, and an eviction neither; an evicted line is gone
(41_cache_coherence R159 (d), 20_memory R74). For an operation that drops a line, and for an eviction, the line is one that
is not stale (log 30). -/
def Obligations.CacheMaintenanceKeepsClientView : Prop :=
  ∀ (s t : State) (es : List Event), s.cfg.legal = true → s.dataOk = true → step s = .next t →
    (∀ kind a last, s.sched = .seq :: es → s.seq.phase = .line kind a last →
      kind = .wb ∨ s.notStale (lineIndex s.cfg a) →
      ∀ b : Word, ramPhys b < s.cfg.ramSize → cpuByte t b = cpuByte s b) ∧
    (∀ l, s.sched = .evict l :: es → keyGet l t.cache = none ∧ (∀ j, j ≠ l → keyGet j t.cache = keyGet j s.cache) ∧
      (s.notStale l → ∀ b : Word, ramPhys b < s.cfg.ramSize → cpuByte t b = cpuByte s b))

/-- CACHE_WB and CACHE_WBINV begin: an empty range is answered at once, with no transaction; else the line that holds `addr`
comes first, by one cache operation on it (`cacheEffect`: R152, `CacheOperationActsOnOneLine`), and the operation ends with
it if the range's last byte lies in it (41_cache_coherence R151, R153, R154). -/
def Obligations.CacheWalkBegins : Prop :=
  ∀ (s : State) (addr len : Word) (kind : CacheKind), s.seq.op = .idle → addr.toNat + len.toNat ≤ 0x100000000 →
    let i := match kind with | .wb => Instr.cacheWb addr len | .wbinv => Instr.cacheWbinv addr len
    let op := match kind with | .wb => Op.cacheWb | .wbinv => Op.cacheWbinv
    let first := addr.toNat / s.cfg.lineSize * s.cfg.lineSize
    let last := (addr.toNat + len.toNat - 1) / s.cfg.lineSize * s.cfg.lineSize
    (len = 0#32 → exec i s = .next (s.ended [addr, len] ⟨0#32, 0#32⟩)) ∧
    (len ≠ 0#32 → exec i s = .next (
      let t : State := { s with
        mem := (cacheEffect kind (BitVec.ofNat 32 first) s).mem
        cache := (cacheEffect kind (BitVec.ofNat 32 first) s).cache
        trace := .cacheOp kind (BitVec.ofNat 32 first) :: s.trace }
      if first = last then t.ended [addr, len] ⟨0#32, 0#32⟩
      else t.within op [addr, len]
        (.line kind (BitVec.ofNat 32 (first + s.cfg.lineSize)) (BitVec.ofNat 32 last)) []))

/-- A whole CACHE_WB or CACHE_WBINV, CLIENT not touching the range meanwhile: one operation per line of the range, in
ascending order, then Ok. RAM holds what CLIENT would have read of every byte of the range; after CACHE_WB no line of the
range is dirty and the lines there are those there before; after CACHE_WBINV none is there; what CLIENT reads is
unchanged (41_cache_coherence R151, R153, R154; R159). Where the effect is on RAM's or a dropped line's byte, the line is
one that was not stale (log 30). -/
def Obligations.CacheWalkCoversRange : Prop :=
  ∀ (s : State) (es : List Event) (addr len : Word) (kind : CacheKind) (m : Nat), s.cfg.legal = true →
    s.dataOk = true → s.seq.op = .idle → len ≠ 0#32 → addr.toNat + len.toNat ≤ 0x100000000 →
    ramPhys addr + len.toNat ≤ s.cfg.ramSize →
    m = (addr.toNat + len.toNat - 1) / s.cfg.lineSize - addr.toNat / s.cfg.lineSize →
    s.sched = .offer ⟨.opd, [match kind with | .wb => 0x6#32 | .wbinv => 0x7#32, addr, len]⟩ ::
      (List.replicate m Event.seq ++ es) → ∃ t : State,
      runSteps (m + 1) s = .next t ∧ t.answered ⟨0#32, 0#32⟩ ∧
      t.trace = (List.range (m + 1)).reverse.map (fun j =>
        Transaction.cacheOp kind (BitVec.ofNat 32 ((addr.toNat / s.cfg.lineSize + j) * s.cfg.lineSize))) ++ s.trace ∧
      (∀ j, j < len.toNat →
        (s.notStale ((ramPhys addr + j) / s.cfg.lineSize) →
          t.mem.read (ramPhys addr + j) = cpuByte s (addr + BitVec.ofNat 32 j)) ∧
        (kind = .wbinv → keyGet ((ramPhys addr + j) / s.cfg.lineSize) t.cache = none) ∧
        (kind = .wb → keyGet ((ramPhys addr + j) / s.cfg.lineSize) t.cache =
          (keyGet ((ramPhys addr + j) / s.cfg.lineSize) s.cache).map (fun ln => { ln with dirty := false }))) ∧
      ∀ b : Word, ramPhys b < s.cfg.ramSize → kind = .wb ∨ s.notStale (lineIndex s.cfg b) → cpuByte t b = cpuByte s b

/-- CLIENT's loads and stores go through the cache (20_memory R72, R73): a load returns the cached byte, or RAM's if the line
is absent, and leaves the line there; a store changes that byte alone of what CLIENT reads and marks the line dirty;
neither writes RAM. -/
def Obligations.ClientAccessGoesThroughCache : Prop :=
  ∀ (s : State) (es : List Event) (a : Word) (v : Byte), s.cfg.legal = true → s.dataOk = true →
    ramPhys a < s.cfg.ramSize →
    (s.sched = .cpuRead a :: es → ∃ (t : State) (x : Byte), step s = .next t ∧
      t = { s with sched := es, cache := t.cache, client := { s.client with loads := (a, x) :: s.client.loads } } ∧
      (keyGet (lineIndex s.cfg a) s.cache = none → x = s.mem.read (ramPhys a)) ∧
      (∀ ln, keyGet (lineIndex s.cfg a) s.cache = some ln → ln.data[ramPhys a % s.cfg.lineSize]? = some x) ∧
      keyGet (lineIndex s.cfg a) t.cache ≠ none ∧
      ∀ b : Word, ramPhys b < s.cfg.ramSize → cpuByte t b = cpuByte s b) ∧
    (s.sched = .cpuWrite a v :: es → ∃ t : State, step s = .next t ∧
      t = { s with sched := es, cache := t.cache } ∧
      (∃ ln, keyGet (lineIndex s.cfg a) t.cache = some ln ∧ ln.dirty = true) ∧
      ∀ b : Word, ramPhys b < s.cfg.ramSize →
        cpuByte t b = if ramPhys b = ramPhys a then v else cpuByte s b)

/-! ### READ and WRITE -/

/-- A packet's length and place (44_packet_transfer R235): `min(512, remaining)` bytes, ending at the window's end. -/
def Obligations.ChunkArithmetic : Prop :=
  ∀ remaining : Word, remaining ≠ 0#32 →
    (chunkOf remaining).toNat = min 512 remaining.toNat ∧
    1 ≤ (chunkOf remaining).toNat ∧ (chunkOf remaining).toNat ≤ 512 ∧
    (baseOffsetOf (chunkOf remaining)).toNat = 512 - (chunkOf remaining).toNat ∧
    ((baseOffsetOf (chunkOf remaining)).toNat = 0 ↔ (chunkOf remaining).toNat = 512) ∧
    (chunkOf remaining).toNat ≤ remaining.toNat

/-- READ begins with its first busy-wait (44_packet_transfer R232), its buffer's address latched as it is accepted
(10_state R22; log 33) and cursor and remaining length not yet set: ACTIVE set, it polls on; ACTIVE clear with length 0,
it answers Ok with no write; else the first packet's "read + activate" command is next. One status read in each case, and
nothing else changes. -/
def Obligations.ReadBeginsWithWait : Prop :=
  ∀ (s : State) (buf len : Word), s.seq.op = .idle → s.seq.initialized = true →
    buf.toNat + len.toNat ≤ 0x100000000 → ∃ v : Word, (s.bridgeReady → s.statusReads v) ∧
      exec (.read buf len) s = .next (
        let t := ({ s with seq := { s.seq with buf := buf, poll := 1#14 } } : State).transacted
          (.busRead (regAddr s.cfg 0x0004#32) v)
        let u : State := { t with seq := { t.seq with cursor := 0#32, remaining := len } }
        if v &&& 0x0200#32 ≠ 0#32 then
          t.within .read [buf, len] (.rdReg 0x0004#32) [.waitRead, .readFirstWait buf len]
        else if len = 0#32 then u.ended [buf, len] ⟨0#32, 0#32⟩
        else
          ({ u with seq := { u.seq with
            chunk := chunkOf len, baseOffset := baseOffsetOf (chunkOf len) } } : State).within .read [buf, len]
            (.wrReg 0x0004#32 (0x0000C600#32 ||| (baseOffsetOf (chunkOf len)).setWidth 32)) [.readCommand])

/-- WRITE begins with the arming no-op (44_packet_transfer R238), which idles the bridge; with length 0 that is all and it
answers Ok (R241); else the write-back of the first packet's lines is next. -/
def Obligations.WriteBeginsWithArming : Prop :=
  ∀ (s : State) (buf len : Word), s.bridgeReady → s.seq.op = .idle → s.seq.initialized = true →
    buf.toNat + len.toNat ≤ 0x100000000 → ∃ p : Fin 513,
      exec (.write buf len) s = .next (
        let t := ({ s with
          brg := { s.brg with cmd := 0xC000#16, active := false, dir := .wr, ptr := p }
          seq := { s.seq with buf := buf, cursor := 0#32, remaining := len } } : State).transacted
            (.busWrite (regAddr s.cfg 0x0004#32) 0x0000C000#32)
        if len = 0#32 then t.ended [buf, len] ⟨0#32, 0#32⟩
        else
          ({ t with seq := { t.seq with
            chunk := chunkOf len, baseOffset := baseOffsetOf (chunkOf len) } } : State).within .write [buf, len]
            (.line .wb (lineFirst s.cfg buf) (lineLast s.cfg buf (BitVec.ofNat 32 (min 512 len.toNat)))) [.writeBack])

/-- READ whose first wait times out (44_packet_transfer R234): 8192 status reads and the recovery write, the answer (1, 0);
no command of READ's, no cache operation; cursor and remaining length are not set; RAM, cache, FIFOs and packet window are
not touched (the window: 43_handshake R204; log 32);
`seq.buf` is the operand latched at acceptance (10_state R22; log 33). Only SEQ moves, so ACTIVE stays set. -/
def Obligations.ReadFirstWaitTimesOut : Prop :=
  ∀ (s : State) (es : List Event) (buf len : Word), s.bridgeReady → s.seq.op = .idle → s.seq.initialized = true →
    buf.toNat + len.toNat ≤ 0x100000000 → s.brg.active = true →
    s.sched = .offer ⟨.opd, [0x2#32, buf, len]⟩ :: (List.replicate 8192 Event.seq ++ es) →
    ∃ (t : State) (vs : List Word), runSteps 8193 s = .next t ∧ t.answered ⟨1#32, 0#32⟩ ∧ vs.length = 8192 ∧
      t.trace = .busWrite (regAddr s.cfg 0x0004#32) 0x0000C400#32 ::
        (vs.map (fun v => Transaction.busRead (regAddr s.cfg 0x0004#32) v) ++ s.trace) ∧
      t.brg.active = false ∧ t.seq.buf = buf ∧ t.seq.cursor = s.seq.cursor ∧
      t.seq.remaining = s.seq.remaining ∧ t.seq.initialized = true ∧ t.mem = s.mem ∧ t.cache = s.cache ∧ t.dma = s.dma ∧
      t.brg.rxFifo = s.brg.rxFifo ∧ t.brg.txFifo = s.brg.txFifo ∧ t.brg.pkt = s.brg.pkt

/-- What READ delivers (44_packet_transfer R244), for a buffer of any length whose bytes wait in the receive FIFO: it answers
Ok; byte `i` of the buffer is the `i`-th byte of the FIFO, in RAM and as CLIENT reads it; exactly `len` bytes have left
the FIFO; what CLIENT reads elsewhere, of lines that were not stale (log 30), is unchanged. Bridge and engine move whenever
they can (log 7). -/
def Obligations.ReadDeliversFifoBytes : Prop :=
  ∀ (s : State) (buf len : Word), s.bridgeReady → s.cfg.alignsAll → s.dataOk = true → s.seq.op = .idle →
    s.seq.initialized = true → s.dma.busy = false → s.brg.active = false →
    buf.toNat + len.toNat ≤ 0x100000000 → ramPhys buf + len.toNat ≤ s.cfg.ramSize →
    len.toNat ≤ s.brg.rxFifo.length → s.sched = [.offer ⟨.opd, [0x2#32, buf, len]⟩] → s.tail = .default →
    ∃ (n : Nat) (t : State), runSteps n s = .next t ∧ t.answered ⟨0#32, 0#32⟩ ∧
      (∀ i, i < len.toNat →
        s.brg.rxFifo[i]? = some (t.mem.read (ramPhys buf + i)) ∧
        s.brg.rxFifo[i]? = some (cpuByte t (buf + BitVec.ofNat 32 i))) ∧
      t.brg.rxFifo = s.brg.rxFifo.drop len.toNat ∧ t.brg.txFifo = s.brg.txFifo ∧ t.brg.active = false ∧
      t.seq.cursor = len ∧ t.seq.remaining = 0#32 ∧
      ∀ b : Word, ramPhys b < s.cfg.ramSize → (ramPhys b < ramPhys buf ∨ ramPhys buf + len.toNat ≤ ramPhys b) →
        s.notStale (lineIndex s.cfg b) → cpuByte t b = cpuByte s b

/-- What WRITE delivers (44_packet_transfer R245), for a buffer of any length and room in the transmit FIFO: it answers Ok;
the bytes CLIENT would have read of the buffer, none of whose lines is stale (log 30), have joined the transmit FIFO in
order, and no others; what CLIENT reads is unchanged everywhere. Bridge and engine move whenever they can (log 7). -/
def Obligations.WriteDeliversBufferBytes : Prop :=
  ∀ (s : State) (buf len : Word), s.bridgeReady → s.cfg.alignsAll → s.dataOk = true → s.seq.op = .idle →
    s.seq.initialized = true → s.dma.busy = false →
    buf.toNat + len.toNat ≤ 0x100000000 → ramPhys buf + len.toNat ≤ s.cfg.ramSize →
    (∀ d, s.cfg.txDepth = some d → s.brg.txFifo.length + len.toNat ≤ d) →
    (∀ i, i < len.toNat → s.notStale ((ramPhys buf + i) / s.cfg.lineSize)) →
    s.sched = [.offer ⟨.opd, [0x3#32, buf, len]⟩] → s.tail = .default →
    ∃ (n : Nat) (t : State), runSteps n s = .next t ∧ t.answered ⟨0#32, 0#32⟩ ∧
      t.brg.txFifo = s.brg.txFifo ++ (List.range len.toNat).map (fun i => cpuByte s (buf + BitVec.ofNat 32 i)) ∧
      t.brg.rxFifo = s.brg.rxFifo ∧ t.brg.active = false ∧ t.seq.cursor = len ∧ t.seq.remaining = 0#32 ∧
      ∀ b : Word, ramPhys b < s.cfg.ramSize → cpuByte t b = cpuByte s b

/-! ### Lifecycle -/

/-- NEW clears the lifecycle flag, makes no transaction and answers Ok (45_init_lifecycle R260). -/
def Obligations.NewClearsLifecycleFlag : Prop :=
  ∀ (s : State), s.seq.op = .idle →
    exec .new s =
      .next (({ s with seq := { s.seq with initialized := false } } : State).ended [] ⟨0#32, 0#32⟩)

/-- INIT begins with the first timing write, or with the key if there is none (45_init_lifecycle R261, R262): one bus write,
and INIT is in progress; the first timing register holds its value and the others, RAM, cache and `seq.initialized` are as
they were. -/
def Obligations.InitBeginsWithTimingWrites : Prop :=
  ∀ (s : State), s.cfg.legal = true → s.seq.op = .idle →
    (∀ a v rest, s.cfg.dom1Timing = (a, v) :: rest → ∃ tm : List (Nat × Word),
      (∀ p, keyGet p tm = if p = a.toNat then some v else keyGet p s.dma.timing) ∧
      exec .init s = .next (
        let t := ({ s with dma := { s.dma with timing := tm } } : State).transacted (.busWrite (uncached s.cfg a) v)
        if rest = [] then t.within .init [] (.wrReg 0x8004#32 0x0000AA55#32) [.initKey]
        else t.within .init [] (.initTiming 1) [])) ∧
    (s.cfg.dom1Timing = [] →
      exec .init s =
        .next ((({ s with brg := { s.brg with unlocked := true } } : State).transacted
          (.busWrite (regAddr s.cfg 0x8004#32) 0x0000AA55#32)).within .init [] (.wrReg 0x8000#32 0#32) [.initSysCfg]))

/-- INIT with CAN_READ false at its first check (45_init_lifecycle R261; 70_reset_and_hazards R314): exactly the timing
writes in list order, the key, SYS_CFG, one status read, RAM_CFG; then Ok with the flag set, the bridge unlocked, SYS_CFG
clear and RAM_CFG at the save-off value, and everything else of bridge, DMA block, RAM and cache as it was. -/
def Obligations.InitWithNothingToDrain : Prop :=
  ∀ (s : State) (es : List Event), s.cfg.legal = true → s.seq.op = .idle →
    (s.host.powered = false ∨ (s.cfg.rxfActiveLow = true ∧ s.brg.rxFifo = []) ∨
      (s.cfg.rxfActiveLow = false ∧ s.brg.rxFifo ≠ [])) →
    s.sched = .offer ⟨.opd, [0x1#32]⟩ :: (List.replicate (s.cfg.dom1Timing.length + 3) Event.seq ++ es) →
    ∃ (t : State) (v : Word) (tm : List (Nat × Word)), runSteps (s.cfg.dom1Timing.length + 4) s = .next t ∧
      t.answered ⟨0#32, 0#32⟩ ∧ t.seq.initialized = true ∧
      t.trace =
        [.busWrite (regAddr s.cfg 0x8018#32) (s.cfg.ramCfgSaveOff.setWidth 32),
         .busRead (regAddr s.cfg 0x0004#32) v,
         .busWrite (regAddr s.cfg 0x8000#32) 0#32,
         .busWrite (regAddr s.cfg 0x8004#32) 0x0000AA55#32] ++
        (s.cfg.dom1Timing.map (fun e => Transaction.busWrite (uncached s.cfg e.1) e.2)).reverse ++ s.trace ∧
      t.brg = { s.brg with unlocked := true, sysCfg := 0#16, ramCfg := s.cfg.ramCfgSaveOff } ∧
      t.dma = { s.dma with timing := tm } ∧ t.mem = s.mem ∧ t.cache = s.cache ∧
      (∀ p, (∀ e ∈ s.cfg.dom1Timing, e.1.toNat ≠ p) → keyGet p tm = keyGet p s.dma.timing) ∧
      ((s.cfg.dom1Timing.map (·.1)).Nodup → ∀ e ∈ s.cfg.dom1Timing, keyGet e.1.toNat tm = some e.2)

/-- The lifecycle flag changes only by NEW, to 0, and at the end of INIT, to 1 (45_init_lifecycle R271, 10_state R21). -/
def Obligations.LifecycleFlagChangesOnlyByNewAndInit : Prop :=
  ∀ (s t : State), s.seqOk = true → step s = .next t → t.seq.initialized ≠ s.seq.initialized →
    (t.seq.initialized = false ∧ ∃ r, s.nextMove = some (.offer r) ∧ decode s.cfg r = .ok .new) ∨
    (t.seq.initialized = true ∧ s.seq.op = .init ∧ t.answered ⟨0#32, 0#32⟩)

/-! ### Every step -/

/-- A move of the engine, the bridge, the cache, HOST or CLIENT's loads and stores changes no register of SEQ, makes no
transaction of SEQ and answers nothing on port CMD (00_scope R12; 95_test_vectors section 5, item 7). -/
def Obligations.OtherAgentsLeaveSequencerAlone : Prop :=
  ∀ (s t : State) (e : Event) (es : List Event), s.sched = e :: es → e ≠ .seq → (∀ r, e ≠ .offer r) → (∀ r, e ≠ .bare r) →
    step s = .next t →
    t.seq = s.seq ∧ t.trace = s.trace ∧ t.client.responses = s.client.responses ∧ t.sched = es ∧
      t.tail = s.tail ∧
      t.dma.ramAddr = s.dma.ramAddr ∧ t.dma.peripheralAddr = s.dma.peripheralAddr ∧ t.dma.timing = s.dma.timing

/-- Every step keeps the form of the data: RAM and cache in their canonical form, whole lines, a job of 1 to 2^32 bytes with
its done indices below its count, FIFOs within their depths (10_state R36, R45, R47, R48); and the parameters never
change. -/
def Obligations.EveryStepKeepsDataForm : Prop :=
  ∀ (s t : State), s.dataOk = true → step s = .next t → t.dataOk = true ∧ t.cfg = s.cfg

/-- Every step keeps the sequencer's invariant: phase, return stack and operation in progress agree; inside a packet the
chunk is `min(512, remaining)`, the offset 512 less it, `cursor + remaining` the length and the cursor a whole number of
packets; while READ or WRITE is in progress `seq.buf` is its operand; the poll count is at most 8192, and 8192 at the
recovery write (10_state R22, R24 to R28; 95_test_vectors section 5, items 1 and 2). -/
def Obligations.EveryStepKeepsSequencerInvariant : Prop :=
  ∀ (s t : State), s.seqOk = true → step s = .next t → t.seqOk = true

/-- The state after reset is one that the spec admits, has the form of the data and meets the sequencer's invariant
(10_state R51; the values the spec leaves unspecified are the model's, log 3). -/
def Obligations.ResetStateIsWellFormed : Prop :=
  State.reset.afterReset = true ∧ State.reset.dataOk = true ∧ State.reset.seqOk = true ∧ State.reset.cfg.legal = true ∧
    State.reset.sched = [] ∧ State.reset.tail = .default
end

