-- ==== Sys2Proof/Laws/Apart.lean ====
section
/-! SUPPORT. The units on port BUS and port COP do not look at SEQ: what they do, and what they answer, is the same
whatever SEQ's registers hold (00_scope R12). -/

namespace Sys2Proof.Machine

theorem ite_setSeq (p : Prop) [Decidable p] (s t : State) (q : Sequencer) :
    (if p then s else t).setSeq q = if p then s.setSeq q else t.setSeq q := apply_ite (fun u => u.setSeq q) p s t

theorem ramWrite_setSeq (a : Nat) (b : Byte) (s : State) (q : Sequencer) :
    ramWrite a b (s.setSeq q) = (ramWrite a b s).setSeq q := by
  unfold ramWrite; rw [ite_setSeq]; rfl

theorem ramWriteBytes_setSeq (a : Nat) (bs : List Byte) (s : State) (q : Sequencer) :
    ramWriteBytes a bs (s.setSeq q) = (ramWriteBytes a bs s).setSeq q := by
  induction bs generalizing a s with
  | nil => rfl
  | cons b rest ih => rw [ramWriteBytes, ramWrite_setSeq, ih]; rfl

theorem freeRam_setSeq (d a n : Nat) (s : State) (q : Sequencer) :
    freeRam d a n (s.setSeq q) = (freeRam d a n s).setSeq q := by
  induction n with
  | zero => rfl
  | succ n ih => rw [freeRam, ih, ramWrite_setSeq]; rfl

theorem freeDestination_setSeq (j : Job) (s : State) (q : Sequencer) :
    freeDestination j (s.setSeq q) = (freeDestination j s).setSeq q := by
  unfold freeDestination
  cases j.dir with
  | incoming =>
    simp only [freeRam_setSeq, ite_setSeq]; rfl
  | outgoing =>
    rw [show (s.setSeq q).cfg = s.cfg from rfl]
    cases windowIndex s.cfg j.periph with
    | none => rfl
    | some k => simp only [ite_setSeq]; rfl

theorem disturbEngine_setSeq (s : State) (q : Sequencer) : disturbEngine (s.setSeq q) = (disturbEngine s).setSeq q := by
  unfold disturbEngine
  rw [show (s.setSeq q).dma = s.dma from rfl, freeDestination_setSeq]; rfl

theorem command_setSeq (w : BitVec 16) (s : State) (q : Sequencer) :
    command w (s.setSeq q) = (command w s).setSeq q := by
  unfold command; simp only [ite_setSeq]; rfl

theorem bridgeWrite_setSeq (r : BridgeReg) (v : Word) (s : State) (q : Sequencer) :
    bridgeWrite r v (s.setSeq q) = (bridgeWrite r v s).setSeq q := by
  have h : ∀ f : State → State, (∀ t : State, f (t.setSeq q) = (f t).setSeq q) →
      whenUnlocked f (s.setSeq q) = (whenUnlocked f s).setSeq q := by
    intro f hf; unfold whenUnlocked; rw [hf, ite_setSeq]; rfl
  cases r
  · exact h _ (fun t => command_setSeq _ t q)
  · exact h (fun t => t.setBrg { t.brg with sysCfg := v.low16 }) (fun _ => rfl)
  · rfl
  · exact h (fun t => t.setBrg { t.brg with ramCfg := v.low16 }) (fun _ => rfl)
  · exact h (fun t => t.setBrg { t.brg with pkt := Config.freeWindow t.draws }) (fun _ => rfl)
  · rfl

theorem whenEngineIdle_setSeq (f : State → State) (s : State) (q : Sequencer)
    (hf : ∀ t : State, f (t.setSeq q) = (f t).setSeq q) :
    whenEngineIdle f (s.setSeq q) = (whenEngineIdle f s).setSeq q := by
  unfold whenEngineIdle; rw [hf, disturbEngine_setSeq, ite_setSeq]; rfl

theorem dmaWrite_setSeq (r : DmaReg) (v : Word) (s : State) (q : Sequencer) :
    dmaWrite r v (s.setSeq q) = (dmaWrite r v s).setSeq q := by
  cases r
  · exact whenEngineIdle_setSeq id (s.setDma { s.dma with ramAddr := v }) q (fun _ => rfl)
  · exact whenEngineIdle_setSeq id (s.setDma { s.dma with peripheralAddr := v }) q (fun _ => rfl)
  · exact whenEngineIdle_setSeq (startJob .incoming v) (s.setDma { s.dma with readLen := lengthAfter 6 v s }) q
      (fun _ => rfl)
  · exact whenEngineIdle_setSeq (startJob .outgoing v) (s.setDma { s.dma with writeLen := lengthAfter 7 v s }) q
      (fun _ => rfl)
  · simp only [dmaWrite, statusWrite, disturbEngine_setSeq, ite_setSeq]; rfl

theorem busData_setSeq (a : Word) (s : State) (q : Sequencer) : busData a (s.setSeq q) = busData a s := rfl

theorem busEffect_setSeq (a v : Word) (s : State) (q : Sequencer) :
    busEffect a v (s.setSeq q) = (busEffect a v s).setSeq q := by
  unfold busEffect
  rw [show (s.setSeq q).cfg = s.cfg from rfl]
  split
  · exact dmaWrite_setSeq _ _ _ _
  · rfl
  · exact bridgeWrite_setSeq _ _ _ _
  · rfl

theorem busWrite_setSeq (a v : Word) (s : State) (q : Sequencer) :
    busWrite a v (s.setSeq q) = (busWrite a v s).setSeq q := by
  unfold busWrite; rw [busEffect_setSeq]; rfl

theorem registerData_setSeq (off : Word) (s : State) (q : Sequencer) :
    registerData off (s.setSeq q) = registerData off s := rfl

theorem registerRead_setSeq (off : Word) (s : State) (q : Sequencer) :
    registerRead off (s.setSeq q) = (registerRead off s).setSeq q := rfl

theorem registerEffect_setSeq (off v : Word) (s : State) (q : Sequencer) :
    registerEffect off v (s.setSeq q) = (registerEffect off v s).setSeq q := by
  unfold registerEffect
  rw [busEffect_setSeq, ite_setSeq]; rfl

theorem registerWrite_setSeq (off v : Word) (s : State) (q : Sequencer) :
    registerWrite off v (s.setSeq q) = (registerWrite off v s).setSeq q := by
  unfold registerWrite; rw [registerEffect_setSeq]; rfl

theorem writeBackLine_setSeq (l : Nat) (ln : Line) (s : State) (q : Sequencer) :
    writeBackLine l ln (s.setSeq q) = (writeBackLine l ln s).setSeq q := by
  unfold writeBackLine; rw [ramWriteBytes_setSeq, ite_setSeq]; rfl

theorem cacheEffect_setSeq (kind : CacheKind) (a : Word) (s : State) (q : Sequencer) :
    cacheEffect kind a (s.setSeq q) = (cacheEffect kind a s).setSeq q := by
  unfold cacheEffect
  rw [show (s.setSeq q).cfg = s.cfg from rfl, show (s.setSeq q).cache = s.cache from rfl]
  split
  · rw [writeBackLine_setSeq]; rfl
  · rfl

theorem cacheOp_setSeq (kind : CacheKind) (a : Word) (s : State) (q : Sequencer) :
    cacheOp kind a (s.setSeq q) = (cacheOp kind a s).setSeq q := by
  unfold cacheOp; rw [cacheEffect_setSeq]; rfl

/-! ### A cache operation does not look at the schedule -/

theorem ramWrite_setSched (a : Nat) (b : Byte) (s : State) (l : List Event) :
    ramWrite a b (s.setSched l) = (ramWrite a b s).setSched l := by
  unfold ramWrite
  exact (apply_ite (fun u => State.setSched u l) (a < s.cfg.ramSize) (s.setMem (s.mem.write a b)) s).symm

theorem ramWriteBytes_setSched (a : Nat) (bs : List Byte) (s : State) (l : List Event) :
    ramWriteBytes a bs (s.setSched l) = (ramWriteBytes a bs s).setSched l := by
  induction bs generalizing a s with
  | nil => rfl
  | cons b rest ih => rw [ramWriteBytes, ramWrite_setSched, ih]; rfl

theorem cacheOp_setSched (kind : CacheKind) (a : Word) (s : State) (l : List Event) :
    cacheOp kind a (s.setSched l) = (cacheOp kind a s).setSched l := by
  have h : ∀ (j : Nat) (ln : Line), writeBackLine j ln (s.setSched l) = (writeBackLine j ln s).setSched l := by
    intro j ln
    unfold writeBackLine
    rw [ramWriteBytes_setSched]
    exact (apply_ite (fun u => State.setSched u l) (ln.dirty = true) _ s).symm
  unfold cacheOp cacheEffect
  rw [show (s.setSched l).cfg = s.cfg from rfl, show (s.setSched l).cache = s.cache from rfl]
  split
  · rw [h]; rfl
  · rfl

end Sys2Proof.Machine
end

