-- ==== Sys2Proof/Laws/State.lean ====
section
/-! SUPPORT. One lemma per field per named update of the state, true by `rfl`, and the same for the updates built from
them. -/

namespace Sys2Proof.Machine

/-! ### `State.setSeq` -/

@[simp] theorem State.setSeq_cfg (s : State) (q : Sequencer) : (s.setSeq q).cfg = s.cfg := rfl
@[simp] theorem State.setSeq_seq (s : State) (q : Sequencer) : (s.setSeq q).seq = q := rfl
@[simp] theorem State.setSeq_dma (s : State) (q : Sequencer) : (s.setSeq q).dma = s.dma := rfl
@[simp] theorem State.setSeq_brg (s : State) (q : Sequencer) : (s.setSeq q).brg = s.brg := rfl
@[simp] theorem State.setSeq_mem (s : State) (q : Sequencer) : (s.setSeq q).mem = s.mem := rfl
@[simp] theorem State.setSeq_cache (s : State) (q : Sequencer) : (s.setSeq q).cache = s.cache := rfl
@[simp] theorem State.setSeq_host (s : State) (q : Sequencer) : (s.setSeq q).host = s.host := rfl
@[simp] theorem State.setSeq_client (s : State) (q : Sequencer) : (s.setSeq q).client = s.client := rfl
@[simp] theorem State.setSeq_trace (s : State) (q : Sequencer) : (s.setSeq q).trace = s.trace := rfl
@[simp] theorem State.setSeq_draws (s : State) (q : Sequencer) : (s.setSeq q).draws = s.draws := rfl
@[simp] theorem State.setSeq_sched (s : State) (q : Sequencer) : (s.setSeq q).sched = s.sched := rfl
@[simp] theorem State.setSeq_tail (s : State) (q : Sequencer) : (s.setSeq q).tail = s.tail := rfl
@[simp] theorem State.setSeq_setSeq (s : State) (q q' : Sequencer) : (s.setSeq q).setSeq q' = s.setSeq q' := rfl

/-! ### `State.setDma` -/

@[simp] theorem State.setDma_cfg (s : State) (d : Dma) : (s.setDma d).cfg = s.cfg := rfl
@[simp] theorem State.setDma_seq (s : State) (d : Dma) : (s.setDma d).seq = s.seq := rfl
@[simp] theorem State.setDma_dma (s : State) (d : Dma) : (s.setDma d).dma = d := rfl
@[simp] theorem State.setDma_brg (s : State) (d : Dma) : (s.setDma d).brg = s.brg := rfl
@[simp] theorem State.setDma_mem (s : State) (d : Dma) : (s.setDma d).mem = s.mem := rfl
@[simp] theorem State.setDma_cache (s : State) (d : Dma) : (s.setDma d).cache = s.cache := rfl
@[simp] theorem State.setDma_host (s : State) (d : Dma) : (s.setDma d).host = s.host := rfl
@[simp] theorem State.setDma_client (s : State) (d : Dma) : (s.setDma d).client = s.client := rfl
@[simp] theorem State.setDma_trace (s : State) (d : Dma) : (s.setDma d).trace = s.trace := rfl
@[simp] theorem State.setDma_draws (s : State) (d : Dma) : (s.setDma d).draws = s.draws := rfl
@[simp] theorem State.setDma_sched (s : State) (d : Dma) : (s.setDma d).sched = s.sched := rfl
@[simp] theorem State.setDma_tail (s : State) (d : Dma) : (s.setDma d).tail = s.tail := rfl
@[simp] theorem State.setDma_setDma (s : State) (d d' : Dma) : (s.setDma d).setDma d' = s.setDma d' := rfl

/-! ### `State.setBrg` -/

@[simp] theorem State.setBrg_cfg (s : State) (b : Bridge) : (s.setBrg b).cfg = s.cfg := rfl
@[simp] theorem State.setBrg_seq (s : State) (b : Bridge) : (s.setBrg b).seq = s.seq := rfl
@[simp] theorem State.setBrg_dma (s : State) (b : Bridge) : (s.setBrg b).dma = s.dma := rfl
@[simp] theorem State.setBrg_brg (s : State) (b : Bridge) : (s.setBrg b).brg = b := rfl
@[simp] theorem State.setBrg_mem (s : State) (b : Bridge) : (s.setBrg b).mem = s.mem := rfl
@[simp] theorem State.setBrg_cache (s : State) (b : Bridge) : (s.setBrg b).cache = s.cache := rfl
@[simp] theorem State.setBrg_host (s : State) (b : Bridge) : (s.setBrg b).host = s.host := rfl
@[simp] theorem State.setBrg_client (s : State) (b : Bridge) : (s.setBrg b).client = s.client := rfl
@[simp] theorem State.setBrg_trace (s : State) (b : Bridge) : (s.setBrg b).trace = s.trace := rfl
@[simp] theorem State.setBrg_draws (s : State) (b : Bridge) : (s.setBrg b).draws = s.draws := rfl
@[simp] theorem State.setBrg_sched (s : State) (b : Bridge) : (s.setBrg b).sched = s.sched := rfl
@[simp] theorem State.setBrg_tail (s : State) (b : Bridge) : (s.setBrg b).tail = s.tail := rfl
@[simp] theorem State.setBrg_setBrg (s : State) (b b' : Bridge) : (s.setBrg b).setBrg b' = s.setBrg b' := rfl

/-! ### `State.setMem` -/

@[simp] theorem State.setMem_cfg (s : State) (m : Memory) : (s.setMem m).cfg = s.cfg := rfl
@[simp] theorem State.setMem_seq (s : State) (m : Memory) : (s.setMem m).seq = s.seq := rfl
@[simp] theorem State.setMem_dma (s : State) (m : Memory) : (s.setMem m).dma = s.dma := rfl
@[simp] theorem State.setMem_brg (s : State) (m : Memory) : (s.setMem m).brg = s.brg := rfl
@[simp] theorem State.setMem_mem (s : State) (m : Memory) : (s.setMem m).mem = m := rfl
@[simp] theorem State.setMem_cache (s : State) (m : Memory) : (s.setMem m).cache = s.cache := rfl
@[simp] theorem State.setMem_host (s : State) (m : Memory) : (s.setMem m).host = s.host := rfl
@[simp] theorem State.setMem_client (s : State) (m : Memory) : (s.setMem m).client = s.client := rfl
@[simp] theorem State.setMem_trace (s : State) (m : Memory) : (s.setMem m).trace = s.trace := rfl
@[simp] theorem State.setMem_draws (s : State) (m : Memory) : (s.setMem m).draws = s.draws := rfl
@[simp] theorem State.setMem_sched (s : State) (m : Memory) : (s.setMem m).sched = s.sched := rfl
@[simp] theorem State.setMem_tail (s : State) (m : Memory) : (s.setMem m).tail = s.tail := rfl
@[simp] theorem State.setMem_setMem (s : State) (m m' : Memory) : (s.setMem m).setMem m' = s.setMem m' := rfl

/-! ### `State.setCache` -/

@[simp] theorem State.setCache_cfg (s : State) (c : List (Nat × Line)) : (s.setCache c).cfg = s.cfg := rfl
@[simp] theorem State.setCache_seq (s : State) (c : List (Nat × Line)) : (s.setCache c).seq = s.seq := rfl
@[simp] theorem State.setCache_dma (s : State) (c : List (Nat × Line)) : (s.setCache c).dma = s.dma := rfl
@[simp] theorem State.setCache_brg (s : State) (c : List (Nat × Line)) : (s.setCache c).brg = s.brg := rfl
@[simp] theorem State.setCache_mem (s : State) (c : List (Nat × Line)) : (s.setCache c).mem = s.mem := rfl
@[simp] theorem State.setCache_cache (s : State) (c : List (Nat × Line)) : (s.setCache c).cache = c := rfl
@[simp] theorem State.setCache_host (s : State) (c : List (Nat × Line)) : (s.setCache c).host = s.host := rfl
@[simp] theorem State.setCache_client (s : State) (c : List (Nat × Line)) : (s.setCache c).client = s.client := rfl
@[simp] theorem State.setCache_trace (s : State) (c : List (Nat × Line)) : (s.setCache c).trace = s.trace := rfl
@[simp] theorem State.setCache_draws (s : State) (c : List (Nat × Line)) : (s.setCache c).draws = s.draws := rfl
@[simp] theorem State.setCache_sched (s : State) (c : List (Nat × Line)) : (s.setCache c).sched = s.sched := rfl
@[simp] theorem State.setCache_tail (s : State) (c : List (Nat × Line)) : (s.setCache c).tail = s.tail := rfl
@[simp] theorem State.setCache_setCache (s : State) (c c' : List (Nat × Line)) : (s.setCache c).setCache c' = s.setCache c' := rfl

/-! ### `State.setHost` -/

@[simp] theorem State.setHost_cfg (s : State) (h : HostSide) : (s.setHost h).cfg = s.cfg := rfl
@[simp] theorem State.setHost_seq (s : State) (h : HostSide) : (s.setHost h).seq = s.seq := rfl
@[simp] theorem State.setHost_dma (s : State) (h : HostSide) : (s.setHost h).dma = s.dma := rfl
@[simp] theorem State.setHost_brg (s : State) (h : HostSide) : (s.setHost h).brg = s.brg := rfl
@[simp] theorem State.setHost_mem (s : State) (h : HostSide) : (s.setHost h).mem = s.mem := rfl
@[simp] theorem State.setHost_cache (s : State) (h : HostSide) : (s.setHost h).cache = s.cache := rfl
@[simp] theorem State.setHost_host (s : State) (h : HostSide) : (s.setHost h).host = h := rfl
@[simp] theorem State.setHost_client (s : State) (h : HostSide) : (s.setHost h).client = s.client := rfl
@[simp] theorem State.setHost_trace (s : State) (h : HostSide) : (s.setHost h).trace = s.trace := rfl
@[simp] theorem State.setHost_draws (s : State) (h : HostSide) : (s.setHost h).draws = s.draws := rfl
@[simp] theorem State.setHost_sched (s : State) (h : HostSide) : (s.setHost h).sched = s.sched := rfl
@[simp] theorem State.setHost_tail (s : State) (h : HostSide) : (s.setHost h).tail = s.tail := rfl
@[simp] theorem State.setHost_setHost (s : State) (h h' : HostSide) : (s.setHost h).setHost h' = s.setHost h' := rfl

/-! ### `State.setClient` -/

@[simp] theorem State.setClient_cfg (s : State) (c : ClientSide) : (s.setClient c).cfg = s.cfg := rfl
@[simp] theorem State.setClient_seq (s : State) (c : ClientSide) : (s.setClient c).seq = s.seq := rfl
@[simp] theorem State.setClient_dma (s : State) (c : ClientSide) : (s.setClient c).dma = s.dma := rfl
@[simp] theorem State.setClient_brg (s : State) (c : ClientSide) : (s.setClient c).brg = s.brg := rfl
@[simp] theorem State.setClient_mem (s : State) (c : ClientSide) : (s.setClient c).mem = s.mem := rfl
@[simp] theorem State.setClient_cache (s : State) (c : ClientSide) : (s.setClient c).cache = s.cache := rfl
@[simp] theorem State.setClient_host (s : State) (c : ClientSide) : (s.setClient c).host = s.host := rfl
@[simp] theorem State.setClient_client (s : State) (c : ClientSide) : (s.setClient c).client = c := rfl
@[simp] theorem State.setClient_trace (s : State) (c : ClientSide) : (s.setClient c).trace = s.trace := rfl
@[simp] theorem State.setClient_draws (s : State) (c : ClientSide) : (s.setClient c).draws = s.draws := rfl
@[simp] theorem State.setClient_sched (s : State) (c : ClientSide) : (s.setClient c).sched = s.sched := rfl
@[simp] theorem State.setClient_tail (s : State) (c : ClientSide) : (s.setClient c).tail = s.tail := rfl
@[simp] theorem State.setClient_setClient (s : State) (c c' : ClientSide) : (s.setClient c).setClient c' = s.setClient c' := rfl

/-! ### `State.setTrace` -/

@[simp] theorem State.setTrace_cfg (s : State) (t : List Transaction) : (s.setTrace t).cfg = s.cfg := rfl
@[simp] theorem State.setTrace_seq (s : State) (t : List Transaction) : (s.setTrace t).seq = s.seq := rfl
@[simp] theorem State.setTrace_dma (s : State) (t : List Transaction) : (s.setTrace t).dma = s.dma := rfl
@[simp] theorem State.setTrace_brg (s : State) (t : List Transaction) : (s.setTrace t).brg = s.brg := rfl
@[simp] theorem State.setTrace_mem (s : State) (t : List Transaction) : (s.setTrace t).mem = s.mem := rfl
@[simp] theorem State.setTrace_cache (s : State) (t : List Transaction) : (s.setTrace t).cache = s.cache := rfl
@[simp] theorem State.setTrace_host (s : State) (t : List Transaction) : (s.setTrace t).host = s.host := rfl
@[simp] theorem State.setTrace_client (s : State) (t : List Transaction) : (s.setTrace t).client = s.client := rfl
@[simp] theorem State.setTrace_trace (s : State) (t : List Transaction) : (s.setTrace t).trace = t := rfl
@[simp] theorem State.setTrace_draws (s : State) (t : List Transaction) : (s.setTrace t).draws = s.draws := rfl
@[simp] theorem State.setTrace_sched (s : State) (t : List Transaction) : (s.setTrace t).sched = s.sched := rfl
@[simp] theorem State.setTrace_tail (s : State) (t : List Transaction) : (s.setTrace t).tail = s.tail := rfl
@[simp] theorem State.setTrace_setTrace (s : State) (t t' : List Transaction) : (s.setTrace t).setTrace t' = s.setTrace t' := rfl

/-! ### `State.setDraws` -/

@[simp] theorem State.setDraws_cfg (s : State) (n : Nat) : (s.setDraws n).cfg = s.cfg := rfl
@[simp] theorem State.setDraws_seq (s : State) (n : Nat) : (s.setDraws n).seq = s.seq := rfl
@[simp] theorem State.setDraws_dma (s : State) (n : Nat) : (s.setDraws n).dma = s.dma := rfl
@[simp] theorem State.setDraws_brg (s : State) (n : Nat) : (s.setDraws n).brg = s.brg := rfl
@[simp] theorem State.setDraws_mem (s : State) (n : Nat) : (s.setDraws n).mem = s.mem := rfl
@[simp] theorem State.setDraws_cache (s : State) (n : Nat) : (s.setDraws n).cache = s.cache := rfl
@[simp] theorem State.setDraws_host (s : State) (n : Nat) : (s.setDraws n).host = s.host := rfl
@[simp] theorem State.setDraws_client (s : State) (n : Nat) : (s.setDraws n).client = s.client := rfl
@[simp] theorem State.setDraws_trace (s : State) (n : Nat) : (s.setDraws n).trace = s.trace := rfl
@[simp] theorem State.setDraws_draws (s : State) (n : Nat) : (s.setDraws n).draws = n := rfl
@[simp] theorem State.setDraws_sched (s : State) (n : Nat) : (s.setDraws n).sched = s.sched := rfl
@[simp] theorem State.setDraws_tail (s : State) (n : Nat) : (s.setDraws n).tail = s.tail := rfl
@[simp] theorem State.setDraws_setDraws (s : State) (n n' : Nat) : (s.setDraws n).setDraws n' = s.setDraws n' := rfl

/-! ### `State.setSched` -/

@[simp] theorem State.setSched_cfg (s : State) (es : List Event) : (s.setSched es).cfg = s.cfg := rfl
@[simp] theorem State.setSched_seq (s : State) (es : List Event) : (s.setSched es).seq = s.seq := rfl
@[simp] theorem State.setSched_dma (s : State) (es : List Event) : (s.setSched es).dma = s.dma := rfl
@[simp] theorem State.setSched_brg (s : State) (es : List Event) : (s.setSched es).brg = s.brg := rfl
@[simp] theorem State.setSched_mem (s : State) (es : List Event) : (s.setSched es).mem = s.mem := rfl
@[simp] theorem State.setSched_cache (s : State) (es : List Event) : (s.setSched es).cache = s.cache := rfl
@[simp] theorem State.setSched_host (s : State) (es : List Event) : (s.setSched es).host = s.host := rfl
@[simp] theorem State.setSched_client (s : State) (es : List Event) : (s.setSched es).client = s.client := rfl
@[simp] theorem State.setSched_trace (s : State) (es : List Event) : (s.setSched es).trace = s.trace := rfl
@[simp] theorem State.setSched_draws (s : State) (es : List Event) : (s.setSched es).draws = s.draws := rfl
@[simp] theorem State.setSched_sched (s : State) (es : List Event) : (s.setSched es).sched = es := rfl
@[simp] theorem State.setSched_tail (s : State) (es : List Event) : (s.setSched es).tail = s.tail := rfl
@[simp] theorem State.setSched_setSched (s : State) (es es' : List Event) : (s.setSched es).setSched es' = s.setSched es' := rfl

/-! ### `State.setTail` -/

@[simp] theorem State.setTail_cfg (s : State) (l : Tail) : (s.setTail l).cfg = s.cfg := rfl
@[simp] theorem State.setTail_seq (s : State) (l : Tail) : (s.setTail l).seq = s.seq := rfl
@[simp] theorem State.setTail_dma (s : State) (l : Tail) : (s.setTail l).dma = s.dma := rfl
@[simp] theorem State.setTail_brg (s : State) (l : Tail) : (s.setTail l).brg = s.brg := rfl
@[simp] theorem State.setTail_mem (s : State) (l : Tail) : (s.setTail l).mem = s.mem := rfl
@[simp] theorem State.setTail_cache (s : State) (l : Tail) : (s.setTail l).cache = s.cache := rfl
@[simp] theorem State.setTail_host (s : State) (l : Tail) : (s.setTail l).host = s.host := rfl
@[simp] theorem State.setTail_client (s : State) (l : Tail) : (s.setTail l).client = s.client := rfl
@[simp] theorem State.setTail_trace (s : State) (l : Tail) : (s.setTail l).trace = s.trace := rfl
@[simp] theorem State.setTail_draws (s : State) (l : Tail) : (s.setTail l).draws = s.draws := rfl
@[simp] theorem State.setTail_sched (s : State) (l : Tail) : (s.setTail l).sched = s.sched := rfl
@[simp] theorem State.setTail_tail (s : State) (l : Tail) : (s.setTail l).tail = l := rfl
@[simp] theorem State.setTail_setTail (s : State) (l l' : Tail) : (s.setTail l).setTail l' = s.setTail l' := rfl

/-! ### `State.record` -/

@[simp] theorem State.record_cfg (s : State) (t : Transaction) : (s.record t).cfg = s.cfg := rfl
@[simp] theorem State.record_seq (s : State) (t : Transaction) : (s.record t).seq = s.seq := rfl
@[simp] theorem State.record_dma (s : State) (t : Transaction) : (s.record t).dma = s.dma := rfl
@[simp] theorem State.record_brg (s : State) (t : Transaction) : (s.record t).brg = s.brg := rfl
@[simp] theorem State.record_mem (s : State) (t : Transaction) : (s.record t).mem = s.mem := rfl
@[simp] theorem State.record_cache (s : State) (t : Transaction) : (s.record t).cache = s.cache := rfl
@[simp] theorem State.record_host (s : State) (t : Transaction) : (s.record t).host = s.host := rfl
@[simp] theorem State.record_client (s : State) (t : Transaction) : (s.record t).client = s.client := rfl
@[simp] theorem State.record_trace (s : State) (t : Transaction) : (s.record t).trace = t :: s.trace := rfl
@[simp] theorem State.record_draws (s : State) (t : Transaction) : (s.record t).draws = s.draws := rfl
@[simp] theorem State.record_sched (s : State) (t : Transaction) : (s.record t).sched = s.sched := rfl
@[simp] theorem State.record_tail (s : State) (t : Transaction) : (s.record t).tail = s.tail := rfl

/-! ### `State.tick` -/

@[simp] theorem State.tick_cfg (s : State)  : s.tick.cfg = s.cfg := rfl
@[simp] theorem State.tick_seq (s : State)  : s.tick.seq = s.seq := rfl
@[simp] theorem State.tick_dma (s : State)  : s.tick.dma = s.dma := rfl
@[simp] theorem State.tick_brg (s : State)  : s.tick.brg = s.brg := rfl
@[simp] theorem State.tick_mem (s : State)  : s.tick.mem = s.mem := rfl
@[simp] theorem State.tick_cache (s : State)  : s.tick.cache = s.cache := rfl
@[simp] theorem State.tick_host (s : State)  : s.tick.host = s.host := rfl
@[simp] theorem State.tick_client (s : State)  : s.tick.client = s.client := rfl
@[simp] theorem State.tick_trace (s : State)  : s.tick.trace = s.trace := rfl
@[simp] theorem State.tick_draws (s : State)  : s.tick.draws = s.draws + 1 := rfl
@[simp] theorem State.tick_sched (s : State)  : s.tick.sched = s.sched := rfl
@[simp] theorem State.tick_tail (s : State)  : s.tick.tail = s.tail := rfl

/-! ### `State.jump` -/

@[simp] theorem State.jump_cfg (s : State) (p : Phase) (k : List Frame) : (s.jump p k).cfg = s.cfg := rfl
@[simp] theorem State.jump_seq (s : State) (p : Phase) (k : List Frame) : (s.jump p k).seq = { s.seq with phase := p, stack := k } := rfl
@[simp] theorem State.jump_dma (s : State) (p : Phase) (k : List Frame) : (s.jump p k).dma = s.dma := rfl
@[simp] theorem State.jump_brg (s : State) (p : Phase) (k : List Frame) : (s.jump p k).brg = s.brg := rfl
@[simp] theorem State.jump_mem (s : State) (p : Phase) (k : List Frame) : (s.jump p k).mem = s.mem := rfl
@[simp] theorem State.jump_cache (s : State) (p : Phase) (k : List Frame) : (s.jump p k).cache = s.cache := rfl
@[simp] theorem State.jump_host (s : State) (p : Phase) (k : List Frame) : (s.jump p k).host = s.host := rfl
@[simp] theorem State.jump_client (s : State) (p : Phase) (k : List Frame) : (s.jump p k).client = s.client := rfl
@[simp] theorem State.jump_trace (s : State) (p : Phase) (k : List Frame) : (s.jump p k).trace = s.trace := rfl
@[simp] theorem State.jump_draws (s : State) (p : Phase) (k : List Frame) : (s.jump p k).draws = s.draws := rfl
@[simp] theorem State.jump_sched (s : State) (p : Phase) (k : List Frame) : (s.jump p k).sched = s.sched := rfl
@[simp] theorem State.jump_tail (s : State) (p : Phase) (k : List Frame) : (s.jump p k).tail = s.tail := rfl

/-! ### `State.latch` -/

@[simp] theorem State.latch_cfg (s : State) (op : Op) (args : List Word) : (s.latch op args).cfg = s.cfg := rfl
@[simp] theorem State.latch_seq (s : State) (op : Op) (args : List Word) : (s.latch op args).seq = { s.seq with op := op, args := args } := rfl
@[simp] theorem State.latch_dma (s : State) (op : Op) (args : List Word) : (s.latch op args).dma = s.dma := rfl
@[simp] theorem State.latch_brg (s : State) (op : Op) (args : List Word) : (s.latch op args).brg = s.brg := rfl
@[simp] theorem State.latch_mem (s : State) (op : Op) (args : List Word) : (s.latch op args).mem = s.mem := rfl
@[simp] theorem State.latch_cache (s : State) (op : Op) (args : List Word) : (s.latch op args).cache = s.cache := rfl
@[simp] theorem State.latch_host (s : State) (op : Op) (args : List Word) : (s.latch op args).host = s.host := rfl
@[simp] theorem State.latch_client (s : State) (op : Op) (args : List Word) : (s.latch op args).client = s.client := rfl
@[simp] theorem State.latch_trace (s : State) (op : Op) (args : List Word) : (s.latch op args).trace = s.trace := rfl
@[simp] theorem State.latch_draws (s : State) (op : Op) (args : List Word) : (s.latch op args).draws = s.draws := rfl
@[simp] theorem State.latch_sched (s : State) (op : Op) (args : List Word) : (s.latch op args).sched = s.sched := rfl
@[simp] theorem State.latch_tail (s : State) (op : Op) (args : List Word) : (s.latch op args).tail = s.tail := rfl

/-! ### `answer` -/

@[simp] theorem answer_cfg (code value : Word) (s : State) : (answer code value s).cfg = s.cfg := rfl
@[simp] theorem answer_seq (code value : Word) (s : State) : (answer code value s).seq = { s.seq with op := .idle, phase := .idle, stack := [] } := rfl
@[simp] theorem answer_dma (code value : Word) (s : State) : (answer code value s).dma = s.dma := rfl
@[simp] theorem answer_brg (code value : Word) (s : State) : (answer code value s).brg = s.brg := rfl
@[simp] theorem answer_mem (code value : Word) (s : State) : (answer code value s).mem = s.mem := rfl
@[simp] theorem answer_cache (code value : Word) (s : State) : (answer code value s).cache = s.cache := rfl
@[simp] theorem answer_host (code value : Word) (s : State) : (answer code value s).host = s.host := rfl
@[simp] theorem answer_client (code value : Word) (s : State) : (answer code value s).client = { s.client with responses := ⟨code, value⟩ :: s.client.responses } := rfl
@[simp] theorem answer_trace (code value : Word) (s : State) : (answer code value s).trace = s.trace := rfl
@[simp] theorem answer_draws (code value : Word) (s : State) : (answer code value s).draws = s.draws := rfl
@[simp] theorem answer_sched (code value : Word) (s : State) : (answer code value s).sched = s.sched := rfl
@[simp] theorem answer_tail (code value : Word) (s : State) : (answer code value s).tail = s.tail := rfl

/-! ### `readDone`, `writeDone` -/

@[simp] theorem readDone_cfg (a : Word) (d : BusData) (s : State) : (readDone a d s).cfg = s.cfg := rfl
@[simp] theorem readDone_seq (a : Word) (d : BusData) (s : State) : (readDone a d s).seq = s.seq := rfl
@[simp] theorem readDone_dma (a : Word) (d : BusData) (s : State) : (readDone a d s).dma = s.dma := rfl
@[simp] theorem readDone_brg (a : Word) (d : BusData) (s : State) : (readDone a d s).brg = s.brg := rfl
@[simp] theorem readDone_mem (a : Word) (d : BusData) (s : State) : (readDone a d s).mem = s.mem := rfl
@[simp] theorem readDone_cache (a : Word) (d : BusData) (s : State) : (readDone a d s).cache = s.cache := rfl
@[simp] theorem readDone_host (a : Word) (d : BusData) (s : State) : (readDone a d s).host = s.host := rfl
@[simp] theorem readDone_client (a : Word) (d : BusData) (s : State) : (readDone a d s).client = s.client := rfl
@[simp] theorem readDone_trace (a : Word) (d : BusData) (s : State) : (readDone a d s).trace = .busRead a d.value :: s.trace := rfl
@[simp] theorem readDone_draws (a : Word) (d : BusData) (s : State) : (readDone a d s).draws = s.draws + 1 := rfl
@[simp] theorem readDone_sched (a : Word) (d : BusData) (s : State) : (readDone a d s).sched = s.sched := rfl
@[simp] theorem readDone_tail (a : Word) (d : BusData) (s : State) : (readDone a d s).tail = s.tail := rfl
@[simp] theorem writeDone_cfg (a v : Word) (s : State) : (writeDone a v s).cfg = s.cfg := rfl
@[simp] theorem writeDone_seq (a v : Word) (s : State) : (writeDone a v s).seq = s.seq := rfl
@[simp] theorem writeDone_dma (a v : Word) (s : State) : (writeDone a v s).dma = s.dma := rfl
@[simp] theorem writeDone_brg (a v : Word) (s : State) : (writeDone a v s).brg = s.brg := rfl
@[simp] theorem writeDone_mem (a v : Word) (s : State) : (writeDone a v s).mem = s.mem := rfl
@[simp] theorem writeDone_cache (a v : Word) (s : State) : (writeDone a v s).cache = s.cache := rfl
@[simp] theorem writeDone_host (a v : Word) (s : State) : (writeDone a v s).host = s.host := rfl
@[simp] theorem writeDone_client (a v : Word) (s : State) : (writeDone a v s).client = s.client := rfl
@[simp] theorem writeDone_trace (a v : Word) (s : State) : (writeDone a v s).trace = .busWrite a v :: s.trace := rfl
@[simp] theorem writeDone_draws (a v : Word) (s : State) : (writeDone a v s).draws = s.draws + 1 := rfl
@[simp] theorem writeDone_sched (a v : Word) (s : State) : (writeDone a v s).sched = s.sched := rfl
@[simp] theorem writeDone_tail (a v : Word) (s : State) : (writeDone a v s).tail = s.tail := rfl

/-! ### `abandonPacket`, `latchBuf` -/

@[simp] theorem abandonPacket_cfg (s : State) : (abandonPacket s).cfg = s.cfg := State.setBrg_cfg s _
@[simp] theorem abandonPacket_seq (s : State) : (abandonPacket s).seq = s.seq := State.setBrg_seq s _
@[simp] theorem abandonPacket_dma (s : State) : (abandonPacket s).dma = s.dma := State.setBrg_dma s _
@[simp] theorem abandonPacket_mem (s : State) : (abandonPacket s).mem = s.mem := State.setBrg_mem s _
@[simp] theorem abandonPacket_cache (s : State) : (abandonPacket s).cache = s.cache := State.setBrg_cache s _
@[simp] theorem abandonPacket_host (s : State) : (abandonPacket s).host = s.host := State.setBrg_host s _
@[simp] theorem abandonPacket_client (s : State) : (abandonPacket s).client = s.client := State.setBrg_client s _
@[simp] theorem abandonPacket_trace (s : State) : (abandonPacket s).trace = s.trace := State.setBrg_trace s _
@[simp] theorem abandonPacket_draws (s : State) : (abandonPacket s).draws = s.draws := State.setBrg_draws s _
@[simp] theorem abandonPacket_sched (s : State) : (abandonPacket s).sched = s.sched := State.setBrg_sched s _
@[simp] theorem abandonPacket_tail (s : State) : (abandonPacket s).tail = s.tail := State.setBrg_tail s _
@[simp] theorem latchBuf_cfg (buf : Word) (s : State) : (latchBuf buf s).cfg = s.cfg := rfl
@[simp] theorem latchBuf_dma (buf : Word) (s : State) : (latchBuf buf s).dma = s.dma := rfl
@[simp] theorem latchBuf_brg (buf : Word) (s : State) : (latchBuf buf s).brg = s.brg := rfl
@[simp] theorem latchBuf_mem (buf : Word) (s : State) : (latchBuf buf s).mem = s.mem := rfl
@[simp] theorem latchBuf_cache (buf : Word) (s : State) : (latchBuf buf s).cache = s.cache := rfl
@[simp] theorem latchBuf_host (buf : Word) (s : State) : (latchBuf buf s).host = s.host := rfl
@[simp] theorem latchBuf_client (buf : Word) (s : State) : (latchBuf buf s).client = s.client := rfl
@[simp] theorem latchBuf_trace (buf : Word) (s : State) : (latchBuf buf s).trace = s.trace := rfl
@[simp] theorem latchBuf_draws (buf : Word) (s : State) : (latchBuf buf s).draws = s.draws := rfl
@[simp] theorem latchBuf_sched (buf : Word) (s : State) : (latchBuf buf s).sched = s.sched := rfl
@[simp] theorem latchBuf_tail (buf : Word) (s : State) : (latchBuf buf s).tail = s.tail := rfl
@[simp] theorem latchBuf_seq (buf : Word) (s : State) : (latchBuf buf s).seq = { s.seq with buf := buf } := rfl

/-- `abandonPacket` changes window bytes from `seq.base_offset` up, and nothing else. -/
theorem abandonPacket_eq (s : State) : ∃ w : Vector Byte 512,
    abandonPacket s = { s with brg := { s.brg with pkt := w } } ∧
      ∀ j : Fin 512, j.val < s.seq.baseOffset.toNat → w[j] = s.brg.pkt[j] := by
  refine ⟨_, rfl, fun j hj => ?_⟩
  unfold freeWindowFrom; simp [hj]

/-! ### `setInitialized`, `startTransfer`, `nextPacket`, `advanceCursor` -/

@[simp] theorem setInitialized_cfg (v : Bool) (s : State) : (setInitialized v s).cfg = s.cfg := rfl
@[simp] theorem setInitialized_dma (v : Bool) (s : State) : (setInitialized v s).dma = s.dma := rfl
@[simp] theorem setInitialized_brg (v : Bool) (s : State) : (setInitialized v s).brg = s.brg := rfl
@[simp] theorem setInitialized_mem (v : Bool) (s : State) : (setInitialized v s).mem = s.mem := rfl
@[simp] theorem setInitialized_cache (v : Bool) (s : State) : (setInitialized v s).cache = s.cache := rfl
@[simp] theorem setInitialized_host (v : Bool) (s : State) : (setInitialized v s).host = s.host := rfl
@[simp] theorem setInitialized_client (v : Bool) (s : State) : (setInitialized v s).client = s.client := rfl
@[simp] theorem setInitialized_trace (v : Bool) (s : State) : (setInitialized v s).trace = s.trace := rfl
@[simp] theorem setInitialized_draws (v : Bool) (s : State) : (setInitialized v s).draws = s.draws := rfl
@[simp] theorem setInitialized_sched (v : Bool) (s : State) : (setInitialized v s).sched = s.sched := rfl
@[simp] theorem setInitialized_tail (v : Bool) (s : State) : (setInitialized v s).tail = s.tail := rfl
@[simp] theorem startTransfer_cfg (buf len : Word) (s : State) : (startTransfer buf len s).cfg = s.cfg := rfl
@[simp] theorem startTransfer_dma (buf len : Word) (s : State) : (startTransfer buf len s).dma = s.dma := rfl
@[simp] theorem startTransfer_brg (buf len : Word) (s : State) : (startTransfer buf len s).brg = s.brg := rfl
@[simp] theorem startTransfer_mem (buf len : Word) (s : State) : (startTransfer buf len s).mem = s.mem := rfl
@[simp] theorem startTransfer_cache (buf len : Word) (s : State) : (startTransfer buf len s).cache = s.cache := rfl
@[simp] theorem startTransfer_host (buf len : Word) (s : State) : (startTransfer buf len s).host = s.host := rfl
@[simp] theorem startTransfer_client (buf len : Word) (s : State) : (startTransfer buf len s).client = s.client := rfl
@[simp] theorem startTransfer_trace (buf len : Word) (s : State) : (startTransfer buf len s).trace = s.trace := rfl
@[simp] theorem startTransfer_draws (buf len : Word) (s : State) : (startTransfer buf len s).draws = s.draws := rfl
@[simp] theorem startTransfer_sched (buf len : Word) (s : State) : (startTransfer buf len s).sched = s.sched := rfl
@[simp] theorem startTransfer_tail (buf len : Word) (s : State) : (startTransfer buf len s).tail = s.tail := rfl
@[simp] theorem nextPacket_cfg (s : State) : (nextPacket s).cfg = s.cfg := rfl
@[simp] theorem nextPacket_dma (s : State) : (nextPacket s).dma = s.dma := rfl
@[simp] theorem nextPacket_brg (s : State) : (nextPacket s).brg = s.brg := rfl
@[simp] theorem nextPacket_mem (s : State) : (nextPacket s).mem = s.mem := rfl
@[simp] theorem nextPacket_cache (s : State) : (nextPacket s).cache = s.cache := rfl
@[simp] theorem nextPacket_host (s : State) : (nextPacket s).host = s.host := rfl
@[simp] theorem nextPacket_client (s : State) : (nextPacket s).client = s.client := rfl
@[simp] theorem nextPacket_trace (s : State) : (nextPacket s).trace = s.trace := rfl
@[simp] theorem nextPacket_draws (s : State) : (nextPacket s).draws = s.draws := rfl
@[simp] theorem nextPacket_sched (s : State) : (nextPacket s).sched = s.sched := rfl
@[simp] theorem nextPacket_tail (s : State) : (nextPacket s).tail = s.tail := rfl
@[simp] theorem advanceCursor_cfg (s : State) : (advanceCursor s).cfg = s.cfg := rfl
@[simp] theorem advanceCursor_dma (s : State) : (advanceCursor s).dma = s.dma := rfl
@[simp] theorem advanceCursor_brg (s : State) : (advanceCursor s).brg = s.brg := rfl
@[simp] theorem advanceCursor_mem (s : State) : (advanceCursor s).mem = s.mem := rfl
@[simp] theorem advanceCursor_cache (s : State) : (advanceCursor s).cache = s.cache := rfl
@[simp] theorem advanceCursor_host (s : State) : (advanceCursor s).host = s.host := rfl
@[simp] theorem advanceCursor_client (s : State) : (advanceCursor s).client = s.client := rfl
@[simp] theorem advanceCursor_trace (s : State) : (advanceCursor s).trace = s.trace := rfl
@[simp] theorem advanceCursor_draws (s : State) : (advanceCursor s).draws = s.draws := rfl
@[simp] theorem advanceCursor_sched (s : State) : (advanceCursor s).sched = s.sched := rfl
@[simp] theorem advanceCursor_tail (s : State) : (advanceCursor s).tail = s.tail := rfl

end Sys2Proof.Machine
end

