-- ==== Sys2Proof/Laws/Frames.lean ====
section
/-! SUPPORT. Frames of the shared operations: for each, the fields it never changes, one lemma a field. -/

namespace Sys2Proof.Machine

/-! ### `ramWrite` -/

@[simp] theorem ramWrite_cfg (a : Nat) (b : Byte) (s : State) : (ramWrite a b s).cfg = s.cfg := by
  unfold ramWrite; split <;> rfl

@[simp] theorem ramWrite_seq (a : Nat) (b : Byte) (s : State) : (ramWrite a b s).seq = s.seq := by
  unfold ramWrite; split <;> rfl

@[simp] theorem ramWrite_dma (a : Nat) (b : Byte) (s : State) : (ramWrite a b s).dma = s.dma := by
  unfold ramWrite; split <;> rfl

@[simp] theorem ramWrite_brg (a : Nat) (b : Byte) (s : State) : (ramWrite a b s).brg = s.brg := by
  unfold ramWrite; split <;> rfl

@[simp] theorem ramWrite_cache (a : Nat) (b : Byte) (s : State) : (ramWrite a b s).cache = s.cache := by
  unfold ramWrite; split <;> rfl

@[simp] theorem ramWrite_host (a : Nat) (b : Byte) (s : State) : (ramWrite a b s).host = s.host := by
  unfold ramWrite; split <;> rfl

@[simp] theorem ramWrite_client (a : Nat) (b : Byte) (s : State) : (ramWrite a b s).client = s.client := by
  unfold ramWrite; split <;> rfl

@[simp] theorem ramWrite_trace (a : Nat) (b : Byte) (s : State) : (ramWrite a b s).trace = s.trace := by
  unfold ramWrite; split <;> rfl

@[simp] theorem ramWrite_draws (a : Nat) (b : Byte) (s : State) : (ramWrite a b s).draws = s.draws := by
  unfold ramWrite; split <;> rfl

@[simp] theorem ramWrite_sched (a : Nat) (b : Byte) (s : State) : (ramWrite a b s).sched = s.sched := by
  unfold ramWrite; split <;> rfl

@[simp] theorem ramWrite_tail (a : Nat) (b : Byte) (s : State) : (ramWrite a b s).tail = s.tail := by
  unfold ramWrite; split <;> rfl

/-! ### `ramWriteBytes` -/

@[simp] theorem ramWriteBytes_cfg (a : Nat) (bs : List Byte) (s : State) : (ramWriteBytes a bs s).cfg = s.cfg := by
  induction bs generalizing a s with
  | nil => rfl
  | cons b rest ih => simp [ramWriteBytes, ih]

@[simp] theorem ramWriteBytes_seq (a : Nat) (bs : List Byte) (s : State) : (ramWriteBytes a bs s).seq = s.seq := by
  induction bs generalizing a s with
  | nil => rfl
  | cons b rest ih => simp [ramWriteBytes, ih]

@[simp] theorem ramWriteBytes_dma (a : Nat) (bs : List Byte) (s : State) : (ramWriteBytes a bs s).dma = s.dma := by
  induction bs generalizing a s with
  | nil => rfl
  | cons b rest ih => simp [ramWriteBytes, ih]

@[simp] theorem ramWriteBytes_brg (a : Nat) (bs : List Byte) (s : State) : (ramWriteBytes a bs s).brg = s.brg := by
  induction bs generalizing a s with
  | nil => rfl
  | cons b rest ih => simp [ramWriteBytes, ih]

@[simp] theorem ramWriteBytes_cache (a : Nat) (bs : List Byte) (s : State) : (ramWriteBytes a bs s).cache = s.cache := by
  induction bs generalizing a s with
  | nil => rfl
  | cons b rest ih => simp [ramWriteBytes, ih]

@[simp] theorem ramWriteBytes_host (a : Nat) (bs : List Byte) (s : State) : (ramWriteBytes a bs s).host = s.host := by
  induction bs generalizing a s with
  | nil => rfl
  | cons b rest ih => simp [ramWriteBytes, ih]

@[simp] theorem ramWriteBytes_client (a : Nat) (bs : List Byte) (s : State) : (ramWriteBytes a bs s).client = s.client := by
  induction bs generalizing a s with
  | nil => rfl
  | cons b rest ih => simp [ramWriteBytes, ih]

@[simp] theorem ramWriteBytes_trace (a : Nat) (bs : List Byte) (s : State) : (ramWriteBytes a bs s).trace = s.trace := by
  induction bs generalizing a s with
  | nil => rfl
  | cons b rest ih => simp [ramWriteBytes, ih]

@[simp] theorem ramWriteBytes_draws (a : Nat) (bs : List Byte) (s : State) : (ramWriteBytes a bs s).draws = s.draws := by
  induction bs generalizing a s with
  | nil => rfl
  | cons b rest ih => simp [ramWriteBytes, ih]

@[simp] theorem ramWriteBytes_sched (a : Nat) (bs : List Byte) (s : State) : (ramWriteBytes a bs s).sched = s.sched := by
  induction bs generalizing a s with
  | nil => rfl
  | cons b rest ih => simp [ramWriteBytes, ih]

@[simp] theorem ramWriteBytes_tail (a : Nat) (bs : List Byte) (s : State) : (ramWriteBytes a bs s).tail = s.tail := by
  induction bs generalizing a s with
  | nil => rfl
  | cons b rest ih => simp [ramWriteBytes, ih]

/-! ### `freeRam` -/

@[simp] theorem freeRam_cfg (d a n : Nat) (s : State) : (freeRam d a n s).cfg = s.cfg := by
  induction n with
  | zero => rfl
  | succ n ih => simp [freeRam, ih]

@[simp] theorem freeRam_seq (d a n : Nat) (s : State) : (freeRam d a n s).seq = s.seq := by
  induction n with
  | zero => rfl
  | succ n ih => simp [freeRam, ih]

@[simp] theorem freeRam_dma (d a n : Nat) (s : State) : (freeRam d a n s).dma = s.dma := by
  induction n with
  | zero => rfl
  | succ n ih => simp [freeRam, ih]

@[simp] theorem freeRam_brg (d a n : Nat) (s : State) : (freeRam d a n s).brg = s.brg := by
  induction n with
  | zero => rfl
  | succ n ih => simp [freeRam, ih]

@[simp] theorem freeRam_cache (d a n : Nat) (s : State) : (freeRam d a n s).cache = s.cache := by
  induction n with
  | zero => rfl
  | succ n ih => simp [freeRam, ih]

@[simp] theorem freeRam_host (d a n : Nat) (s : State) : (freeRam d a n s).host = s.host := by
  induction n with
  | zero => rfl
  | succ n ih => simp [freeRam, ih]

@[simp] theorem freeRam_client (d a n : Nat) (s : State) : (freeRam d a n s).client = s.client := by
  induction n with
  | zero => rfl
  | succ n ih => simp [freeRam, ih]

@[simp] theorem freeRam_trace (d a n : Nat) (s : State) : (freeRam d a n s).trace = s.trace := by
  induction n with
  | zero => rfl
  | succ n ih => simp [freeRam, ih]

@[simp] theorem freeRam_draws (d a n : Nat) (s : State) : (freeRam d a n s).draws = s.draws := by
  induction n with
  | zero => rfl
  | succ n ih => simp [freeRam, ih]

@[simp] theorem freeRam_sched (d a n : Nat) (s : State) : (freeRam d a n s).sched = s.sched := by
  induction n with
  | zero => rfl
  | succ n ih => simp [freeRam, ih]

@[simp] theorem freeRam_tail (d a n : Nat) (s : State) : (freeRam d a n s).tail = s.tail := by
  induction n with
  | zero => rfl
  | succ n ih => simp [freeRam, ih]

/-! ### `freeDestination` -/

@[simp] theorem freeDestination_cfg (j : Job) (s : State) : (freeDestination j s).cfg = s.cfg := by
  unfold freeDestination
  repeat' split
  all_goals simp

@[simp] theorem freeDestination_seq (j : Job) (s : State) : (freeDestination j s).seq = s.seq := by
  unfold freeDestination
  repeat' split
  all_goals simp

@[simp] theorem freeDestination_dma (j : Job) (s : State) : (freeDestination j s).dma = s.dma := by
  unfold freeDestination
  repeat' split
  all_goals simp

@[simp] theorem freeDestination_cache (j : Job) (s : State) : (freeDestination j s).cache = s.cache := by
  unfold freeDestination
  repeat' split
  all_goals simp

@[simp] theorem freeDestination_host (j : Job) (s : State) : (freeDestination j s).host = s.host := by
  unfold freeDestination
  repeat' split
  all_goals simp

@[simp] theorem freeDestination_client (j : Job) (s : State) : (freeDestination j s).client = s.client := by
  unfold freeDestination
  repeat' split
  all_goals simp

@[simp] theorem freeDestination_trace (j : Job) (s : State) : (freeDestination j s).trace = s.trace := by
  unfold freeDestination
  repeat' split
  all_goals simp

@[simp] theorem freeDestination_draws (j : Job) (s : State) : (freeDestination j s).draws = s.draws := by
  unfold freeDestination
  repeat' split
  all_goals simp

@[simp] theorem freeDestination_sched (j : Job) (s : State) : (freeDestination j s).sched = s.sched := by
  unfold freeDestination
  repeat' split
  all_goals simp

@[simp] theorem freeDestination_tail (j : Job) (s : State) : (freeDestination j s).tail = s.tail := by
  unfold freeDestination
  repeat' split
  all_goals simp

/-! ### `disturbEngine` -/

@[simp] theorem disturbEngine_cfg (s : State) : (disturbEngine s).cfg = s.cfg := by
  simp [disturbEngine]

@[simp] theorem disturbEngine_seq (s : State) : (disturbEngine s).seq = s.seq := by
  simp [disturbEngine]

@[simp] theorem disturbEngine_cache (s : State) : (disturbEngine s).cache = s.cache := by
  simp [disturbEngine]

@[simp] theorem disturbEngine_host (s : State) : (disturbEngine s).host = s.host := by
  simp [disturbEngine]

@[simp] theorem disturbEngine_client (s : State) : (disturbEngine s).client = s.client := by
  simp [disturbEngine]

@[simp] theorem disturbEngine_trace (s : State) : (disturbEngine s).trace = s.trace := by
  simp [disturbEngine]

@[simp] theorem disturbEngine_draws (s : State) : (disturbEngine s).draws = s.draws := by
  simp [disturbEngine]

@[simp] theorem disturbEngine_sched (s : State) : (disturbEngine s).sched = s.sched := by
  simp [disturbEngine]

@[simp] theorem disturbEngine_tail (s : State) : (disturbEngine s).tail = s.tail := by
  simp [disturbEngine]

/-! ### `unmappedWrite` -/

@[simp] theorem unmappedWrite_cfg (s : State) : (unmappedWrite s).cfg = s.cfg := by
  rfl

@[simp] theorem unmappedWrite_seq (s : State) : (unmappedWrite s).seq = s.seq := by
  rfl

@[simp] theorem unmappedWrite_mem (s : State) : (unmappedWrite s).mem = s.mem := by
  rfl

@[simp] theorem unmappedWrite_cache (s : State) : (unmappedWrite s).cache = s.cache := by
  rfl

@[simp] theorem unmappedWrite_host (s : State) : (unmappedWrite s).host = s.host := by
  rfl

@[simp] theorem unmappedWrite_client (s : State) : (unmappedWrite s).client = s.client := by
  rfl

@[simp] theorem unmappedWrite_trace (s : State) : (unmappedWrite s).trace = s.trace := by
  rfl

@[simp] theorem unmappedWrite_draws (s : State) : (unmappedWrite s).draws = s.draws := by
  rfl

@[simp] theorem unmappedWrite_sched (s : State) : (unmappedWrite s).sched = s.sched := by
  rfl

@[simp] theorem unmappedWrite_tail (s : State) : (unmappedWrite s).tail = s.tail := by
  rfl

/-! ### `command` -/

@[simp] theorem command_cfg (w : BitVec 16) (s : State) : (command w s).cfg = s.cfg := by
  unfold command
  repeat' split
  all_goals rfl

@[simp] theorem command_seq (w : BitVec 16) (s : State) : (command w s).seq = s.seq := by
  unfold command
  repeat' split
  all_goals rfl

@[simp] theorem command_dma (w : BitVec 16) (s : State) : (command w s).dma = s.dma := by
  unfold command
  repeat' split
  all_goals rfl

@[simp] theorem command_mem (w : BitVec 16) (s : State) : (command w s).mem = s.mem := by
  unfold command
  repeat' split
  all_goals rfl

@[simp] theorem command_cache (w : BitVec 16) (s : State) : (command w s).cache = s.cache := by
  unfold command
  repeat' split
  all_goals rfl

@[simp] theorem command_host (w : BitVec 16) (s : State) : (command w s).host = s.host := by
  unfold command
  repeat' split
  all_goals rfl

@[simp] theorem command_client (w : BitVec 16) (s : State) : (command w s).client = s.client := by
  unfold command
  repeat' split
  all_goals rfl

@[simp] theorem command_trace (w : BitVec 16) (s : State) : (command w s).trace = s.trace := by
  unfold command
  repeat' split
  all_goals rfl

@[simp] theorem command_draws (w : BitVec 16) (s : State) : (command w s).draws = s.draws := by
  unfold command
  repeat' split
  all_goals rfl

@[simp] theorem command_sched (w : BitVec 16) (s : State) : (command w s).sched = s.sched := by
  unfold command
  repeat' split
  all_goals rfl

@[simp] theorem command_tail (w : BitVec 16) (s : State) : (command w s).tail = s.tail := by
  unfold command
  repeat' split
  all_goals rfl

/-! ### `bridgeWrite` -/

@[simp] theorem bridgeWrite_cfg (r : BridgeReg) (v : Word) (s : State) : (bridgeWrite r v s).cfg = s.cfg := by
  cases r <;> simp only [bridgeWrite, whenUnlocked, keyWrite, unmappedWrite]
  all_goals first | rfl | (split <;> first | rfl | simp)

@[simp] theorem bridgeWrite_seq (r : BridgeReg) (v : Word) (s : State) : (bridgeWrite r v s).seq = s.seq := by
  cases r <;> simp only [bridgeWrite, whenUnlocked, keyWrite, unmappedWrite]
  all_goals first | rfl | (split <;> first | rfl | simp)

@[simp] theorem bridgeWrite_mem (r : BridgeReg) (v : Word) (s : State) : (bridgeWrite r v s).mem = s.mem := by
  cases r <;> simp only [bridgeWrite, whenUnlocked, keyWrite, unmappedWrite]
  all_goals first | rfl | (split <;> first | rfl | simp)

@[simp] theorem bridgeWrite_cache (r : BridgeReg) (v : Word) (s : State) : (bridgeWrite r v s).cache = s.cache := by
  cases r <;> simp only [bridgeWrite, whenUnlocked, keyWrite, unmappedWrite]
  all_goals first | rfl | (split <;> first | rfl | simp)

@[simp] theorem bridgeWrite_host (r : BridgeReg) (v : Word) (s : State) : (bridgeWrite r v s).host = s.host := by
  cases r <;> simp only [bridgeWrite, whenUnlocked, keyWrite, unmappedWrite]
  all_goals first | rfl | (split <;> first | rfl | simp)

@[simp] theorem bridgeWrite_client (r : BridgeReg) (v : Word) (s : State) : (bridgeWrite r v s).client = s.client := by
  cases r <;> simp only [bridgeWrite, whenUnlocked, keyWrite, unmappedWrite]
  all_goals first | rfl | (split <;> first | rfl | simp)

@[simp] theorem bridgeWrite_trace (r : BridgeReg) (v : Word) (s : State) : (bridgeWrite r v s).trace = s.trace := by
  cases r <;> simp only [bridgeWrite, whenUnlocked, keyWrite, unmappedWrite]
  all_goals first | rfl | (split <;> first | rfl | simp)

@[simp] theorem bridgeWrite_draws (r : BridgeReg) (v : Word) (s : State) : (bridgeWrite r v s).draws = s.draws := by
  cases r <;> simp only [bridgeWrite, whenUnlocked, keyWrite, unmappedWrite]
  all_goals first | rfl | (split <;> first | rfl | simp)

@[simp] theorem bridgeWrite_sched (r : BridgeReg) (v : Word) (s : State) : (bridgeWrite r v s).sched = s.sched := by
  cases r <;> simp only [bridgeWrite, whenUnlocked, keyWrite, unmappedWrite]
  all_goals first | rfl | (split <;> first | rfl | simp)

@[simp] theorem bridgeWrite_tail (r : BridgeReg) (v : Word) (s : State) : (bridgeWrite r v s).tail = s.tail := by
  cases r <;> simp only [bridgeWrite, whenUnlocked, keyWrite, unmappedWrite]
  all_goals first | rfl | (split <;> first | rfl | simp)

/-! ### `dmaWrite` -/

@[simp] theorem dmaWrite_cfg (r : DmaReg) (v : Word) (s : State) : (dmaWrite r v s).cfg = s.cfg := by
  cases r <;> simp only [dmaWrite, whenEngineIdle, startJob, statusWrite]
  all_goals (split <;> simp)

@[simp] theorem dmaWrite_seq (r : DmaReg) (v : Word) (s : State) : (dmaWrite r v s).seq = s.seq := by
  cases r <;> simp only [dmaWrite, whenEngineIdle, startJob, statusWrite]
  all_goals (split <;> simp)

@[simp] theorem dmaWrite_cache (r : DmaReg) (v : Word) (s : State) : (dmaWrite r v s).cache = s.cache := by
  cases r <;> simp only [dmaWrite, whenEngineIdle, startJob, statusWrite]
  all_goals (split <;> simp)

@[simp] theorem dmaWrite_host (r : DmaReg) (v : Word) (s : State) : (dmaWrite r v s).host = s.host := by
  cases r <;> simp only [dmaWrite, whenEngineIdle, startJob, statusWrite]
  all_goals (split <;> simp)

@[simp] theorem dmaWrite_client (r : DmaReg) (v : Word) (s : State) : (dmaWrite r v s).client = s.client := by
  cases r <;> simp only [dmaWrite, whenEngineIdle, startJob, statusWrite]
  all_goals (split <;> simp)

@[simp] theorem dmaWrite_trace (r : DmaReg) (v : Word) (s : State) : (dmaWrite r v s).trace = s.trace := by
  cases r <;> simp only [dmaWrite, whenEngineIdle, startJob, statusWrite]
  all_goals (split <;> simp)

@[simp] theorem dmaWrite_draws (r : DmaReg) (v : Word) (s : State) : (dmaWrite r v s).draws = s.draws := by
  cases r <;> simp only [dmaWrite, whenEngineIdle, startJob, statusWrite]
  all_goals (split <;> simp)

@[simp] theorem dmaWrite_sched (r : DmaReg) (v : Word) (s : State) : (dmaWrite r v s).sched = s.sched := by
  cases r <;> simp only [dmaWrite, whenEngineIdle, startJob, statusWrite]
  all_goals (split <;> simp)

@[simp] theorem dmaWrite_tail (r : DmaReg) (v : Word) (s : State) : (dmaWrite r v s).tail = s.tail := by
  cases r <;> simp only [dmaWrite, whenEngineIdle, startJob, statusWrite]
  all_goals (split <;> simp)

/-! ### `timingWrite` -/

@[simp] theorem timingWrite_cfg (p : Nat) (v : Word) (s : State) : (timingWrite p v s).cfg = s.cfg := by
  rfl

@[simp] theorem timingWrite_seq (p : Nat) (v : Word) (s : State) : (timingWrite p v s).seq = s.seq := by
  rfl

@[simp] theorem timingWrite_brg (p : Nat) (v : Word) (s : State) : (timingWrite p v s).brg = s.brg := by
  rfl

@[simp] theorem timingWrite_mem (p : Nat) (v : Word) (s : State) : (timingWrite p v s).mem = s.mem := by
  rfl

@[simp] theorem timingWrite_cache (p : Nat) (v : Word) (s : State) : (timingWrite p v s).cache = s.cache := by
  rfl

@[simp] theorem timingWrite_host (p : Nat) (v : Word) (s : State) : (timingWrite p v s).host = s.host := by
  rfl

@[simp] theorem timingWrite_client (p : Nat) (v : Word) (s : State) : (timingWrite p v s).client = s.client := by
  rfl

@[simp] theorem timingWrite_trace (p : Nat) (v : Word) (s : State) : (timingWrite p v s).trace = s.trace := by
  rfl

@[simp] theorem timingWrite_draws (p : Nat) (v : Word) (s : State) : (timingWrite p v s).draws = s.draws := by
  rfl

@[simp] theorem timingWrite_sched (p : Nat) (v : Word) (s : State) : (timingWrite p v s).sched = s.sched := by
  rfl

@[simp] theorem timingWrite_tail (p : Nat) (v : Word) (s : State) : (timingWrite p v s).tail = s.tail := by
  rfl

/-! ### `busEffect` -/

@[simp] theorem busEffect_cfg (a v : Word) (s : State) : (busEffect a v s).cfg = s.cfg := by
  unfold busEffect
  split <;> simp

@[simp] theorem busEffect_seq (a v : Word) (s : State) : (busEffect a v s).seq = s.seq := by
  unfold busEffect
  split <;> simp

@[simp] theorem busEffect_cache (a v : Word) (s : State) : (busEffect a v s).cache = s.cache := by
  unfold busEffect
  split <;> simp

@[simp] theorem busEffect_host (a v : Word) (s : State) : (busEffect a v s).host = s.host := by
  unfold busEffect
  split <;> simp

@[simp] theorem busEffect_client (a v : Word) (s : State) : (busEffect a v s).client = s.client := by
  unfold busEffect
  split <;> simp

@[simp] theorem busEffect_trace (a v : Word) (s : State) : (busEffect a v s).trace = s.trace := by
  unfold busEffect
  split <;> simp

@[simp] theorem busEffect_draws (a v : Word) (s : State) : (busEffect a v s).draws = s.draws := by
  unfold busEffect
  split <;> simp

@[simp] theorem busEffect_sched (a v : Word) (s : State) : (busEffect a v s).sched = s.sched := by
  unfold busEffect
  split <;> simp

@[simp] theorem busEffect_tail (a v : Word) (s : State) : (busEffect a v s).tail = s.tail := by
  unfold busEffect
  split <;> simp

/-! ### `busWrite` -/

@[simp] theorem busWrite_cfg (a v : Word) (s : State) : (busWrite a v s).cfg = s.cfg := by
  simp [busWrite]

@[simp] theorem busWrite_seq (a v : Word) (s : State) : (busWrite a v s).seq = s.seq := by
  simp [busWrite]

@[simp] theorem busWrite_cache (a v : Word) (s : State) : (busWrite a v s).cache = s.cache := by
  simp [busWrite]

@[simp] theorem busWrite_host (a v : Word) (s : State) : (busWrite a v s).host = s.host := by
  simp [busWrite]

@[simp] theorem busWrite_client (a v : Word) (s : State) : (busWrite a v s).client = s.client := by
  simp [busWrite]

@[simp] theorem busWrite_sched (a v : Word) (s : State) : (busWrite a v s).sched = s.sched := by
  simp [busWrite]

@[simp] theorem busWrite_tail (a v : Word) (s : State) : (busWrite a v s).tail = s.tail := by
  simp [busWrite]

/-! ### `registerEffect` -/

@[simp] theorem registerEffect_cfg (off v : Word) (s : State) : (registerEffect off v s).cfg = s.cfg := by
  unfold registerEffect
  split <;> simp

@[simp] theorem registerEffect_seq (off v : Word) (s : State) : (registerEffect off v s).seq = s.seq := by
  unfold registerEffect
  split <;> simp

@[simp] theorem registerEffect_cache (off v : Word) (s : State) : (registerEffect off v s).cache = s.cache := by
  unfold registerEffect
  split <;> simp

@[simp] theorem registerEffect_host (off v : Word) (s : State) : (registerEffect off v s).host = s.host := by
  unfold registerEffect
  split <;> simp

@[simp] theorem registerEffect_client (off v : Word) (s : State) : (registerEffect off v s).client = s.client := by
  unfold registerEffect
  split <;> simp

@[simp] theorem registerEffect_trace (off v : Word) (s : State) : (registerEffect off v s).trace = s.trace := by
  unfold registerEffect
  split <;> simp

@[simp] theorem registerEffect_draws (off v : Word) (s : State) : (registerEffect off v s).draws = s.draws := by
  unfold registerEffect
  split <;> simp

@[simp] theorem registerEffect_sched (off v : Word) (s : State) : (registerEffect off v s).sched = s.sched := by
  unfold registerEffect
  split <;> simp

@[simp] theorem registerEffect_tail (off v : Word) (s : State) : (registerEffect off v s).tail = s.tail := by
  unfold registerEffect
  split <;> simp

/-! ### `registerWrite` -/

@[simp] theorem registerWrite_cfg (off v : Word) (s : State) : (registerWrite off v s).cfg = s.cfg := by
  simp [registerWrite]

@[simp] theorem registerWrite_seq (off v : Word) (s : State) : (registerWrite off v s).seq = s.seq := by
  simp [registerWrite]

@[simp] theorem registerWrite_cache (off v : Word) (s : State) : (registerWrite off v s).cache = s.cache := by
  simp [registerWrite]

@[simp] theorem registerWrite_host (off v : Word) (s : State) : (registerWrite off v s).host = s.host := by
  simp [registerWrite]

@[simp] theorem registerWrite_client (off v : Word) (s : State) : (registerWrite off v s).client = s.client := by
  simp [registerWrite]

@[simp] theorem registerWrite_sched (off v : Word) (s : State) : (registerWrite off v s).sched = s.sched := by
  simp [registerWrite]

@[simp] theorem registerWrite_tail (off v : Word) (s : State) : (registerWrite off v s).tail = s.tail := by
  simp [registerWrite]

/-! ### `writeRegister` -/

/-- A register write that is no recovery write is that one bus write; a recovery write is too, unless it ends a packet's
wait, whose packet it abandons. -/
theorem writeRegister_of_ne {s : State} {f : Frame} {k : List Frame} (hk : s.seq.stack = f :: k) (hf : f ≠ .waitRecovery)
    (off v : Word) : writeRegister off v s = registerWrite off v s := by
  unfold writeRegister
  split
  · next h => rw [hk] at h; simp only [List.cons.injEq] at h; exact absurd h.1 hf
  · rfl

theorem writeRegister_nil {s : State} (hk : s.seq.stack = []) (off v : Word) :
    writeRegister off v s = registerWrite off v s := by
  unfold writeRegister; rw [hk]

theorem writeRegister_recovery {s : State} {k : List Frame} (hk : s.seq.stack = .waitRecovery :: k) (off v : Word) :
    writeRegister off v s = if packetWait k then abandonPacket (registerWrite off v s) else registerWrite off v s := by
  unfold writeRegister; rw [hk]

@[simp] theorem writeRegister_cfg (off v : Word) (s : State) : (writeRegister off v s).cfg = s.cfg := by
  unfold writeRegister; (repeat' split) <;> simp

@[simp] theorem writeRegister_seq (off v : Word) (s : State) : (writeRegister off v s).seq = s.seq := by
  unfold writeRegister; (repeat' split) <;> simp

@[simp] theorem writeRegister_cache (off v : Word) (s : State) : (writeRegister off v s).cache = s.cache := by
  unfold writeRegister; (repeat' split) <;> simp

@[simp] theorem writeRegister_host (off v : Word) (s : State) : (writeRegister off v s).host = s.host := by
  unfold writeRegister; (repeat' split) <;> simp

@[simp] theorem writeRegister_client (off v : Word) (s : State) : (writeRegister off v s).client = s.client := by
  unfold writeRegister; (repeat' split) <;> simp

@[simp] theorem writeRegister_sched (off v : Word) (s : State) : (writeRegister off v s).sched = s.sched := by
  unfold writeRegister; (repeat' split) <;> simp

@[simp] theorem writeRegister_tail (off v : Word) (s : State) : (writeRegister off v s).tail = s.tail := by
  unfold writeRegister; (repeat' split) <;> simp

/-! ### `registerRead` -/

@[simp] theorem registerRead_cfg (off : Word) (s : State) : (registerRead off s).cfg = s.cfg := by
  simp [registerRead]

@[simp] theorem registerRead_seq (off : Word) (s : State) : (registerRead off s).seq = s.seq := by
  simp [registerRead]

@[simp] theorem registerRead_dma (off : Word) (s : State) : (registerRead off s).dma = s.dma := by
  simp [registerRead]

@[simp] theorem registerRead_brg (off : Word) (s : State) : (registerRead off s).brg = s.brg := by
  simp [registerRead]

@[simp] theorem registerRead_mem (off : Word) (s : State) : (registerRead off s).mem = s.mem := by
  simp [registerRead]

@[simp] theorem registerRead_cache (off : Word) (s : State) : (registerRead off s).cache = s.cache := by
  simp [registerRead]

@[simp] theorem registerRead_host (off : Word) (s : State) : (registerRead off s).host = s.host := by
  simp [registerRead]

@[simp] theorem registerRead_client (off : Word) (s : State) : (registerRead off s).client = s.client := by
  simp [registerRead]

@[simp] theorem registerRead_sched (off : Word) (s : State) : (registerRead off s).sched = s.sched := by
  simp [registerRead]

@[simp] theorem registerRead_tail (off : Word) (s : State) : (registerRead off s).tail = s.tail := by
  simp [registerRead]

/-! ### `writeBackLine` -/

@[simp] theorem writeBackLine_cfg (l : Nat) (ln : Line) (s : State) : (writeBackLine l ln s).cfg = s.cfg := by
  unfold writeBackLine
  split <;> simp

@[simp] theorem writeBackLine_seq (l : Nat) (ln : Line) (s : State) : (writeBackLine l ln s).seq = s.seq := by
  unfold writeBackLine
  split <;> simp

@[simp] theorem writeBackLine_dma (l : Nat) (ln : Line) (s : State) : (writeBackLine l ln s).dma = s.dma := by
  unfold writeBackLine
  split <;> simp

@[simp] theorem writeBackLine_brg (l : Nat) (ln : Line) (s : State) : (writeBackLine l ln s).brg = s.brg := by
  unfold writeBackLine
  split <;> simp

@[simp] theorem writeBackLine_cache (l : Nat) (ln : Line) (s : State) : (writeBackLine l ln s).cache = s.cache := by
  unfold writeBackLine
  split <;> simp

@[simp] theorem writeBackLine_host (l : Nat) (ln : Line) (s : State) : (writeBackLine l ln s).host = s.host := by
  unfold writeBackLine
  split <;> simp

@[simp] theorem writeBackLine_client (l : Nat) (ln : Line) (s : State) : (writeBackLine l ln s).client = s.client := by
  unfold writeBackLine
  split <;> simp

@[simp] theorem writeBackLine_trace (l : Nat) (ln : Line) (s : State) : (writeBackLine l ln s).trace = s.trace := by
  unfold writeBackLine
  split <;> simp

@[simp] theorem writeBackLine_draws (l : Nat) (ln : Line) (s : State) : (writeBackLine l ln s).draws = s.draws := by
  unfold writeBackLine
  split <;> simp

@[simp] theorem writeBackLine_sched (l : Nat) (ln : Line) (s : State) : (writeBackLine l ln s).sched = s.sched := by
  unfold writeBackLine
  split <;> simp

@[simp] theorem writeBackLine_tail (l : Nat) (ln : Line) (s : State) : (writeBackLine l ln s).tail = s.tail := by
  unfold writeBackLine
  split <;> simp

/-! ### `cacheEffect` -/

@[simp] theorem cacheEffect_cfg (k : CacheKind) (a : Word) (s : State) : (cacheEffect k a s).cfg = s.cfg := by
  unfold cacheEffect
  split <;> simp

@[simp] theorem cacheEffect_seq (k : CacheKind) (a : Word) (s : State) : (cacheEffect k a s).seq = s.seq := by
  unfold cacheEffect
  split <;> simp

@[simp] theorem cacheEffect_dma (k : CacheKind) (a : Word) (s : State) : (cacheEffect k a s).dma = s.dma := by
  unfold cacheEffect
  split <;> simp

@[simp] theorem cacheEffect_brg (k : CacheKind) (a : Word) (s : State) : (cacheEffect k a s).brg = s.brg := by
  unfold cacheEffect
  split <;> simp

@[simp] theorem cacheEffect_host (k : CacheKind) (a : Word) (s : State) : (cacheEffect k a s).host = s.host := by
  unfold cacheEffect
  split <;> simp

@[simp] theorem cacheEffect_client (k : CacheKind) (a : Word) (s : State) : (cacheEffect k a s).client = s.client := by
  unfold cacheEffect
  split <;> simp

@[simp] theorem cacheEffect_trace (k : CacheKind) (a : Word) (s : State) : (cacheEffect k a s).trace = s.trace := by
  unfold cacheEffect
  split <;> simp

@[simp] theorem cacheEffect_draws (k : CacheKind) (a : Word) (s : State) : (cacheEffect k a s).draws = s.draws := by
  unfold cacheEffect
  split <;> simp

@[simp] theorem cacheEffect_sched (k : CacheKind) (a : Word) (s : State) : (cacheEffect k a s).sched = s.sched := by
  unfold cacheEffect
  split <;> simp

@[simp] theorem cacheEffect_tail (k : CacheKind) (a : Word) (s : State) : (cacheEffect k a s).tail = s.tail := by
  unfold cacheEffect
  split <;> simp

/-! ### `cacheOp` -/

@[simp] theorem cacheOp_cfg (k : CacheKind) (a : Word) (s : State) : (cacheOp k a s).cfg = s.cfg := by
  simp [cacheOp]

@[simp] theorem cacheOp_seq (k : CacheKind) (a : Word) (s : State) : (cacheOp k a s).seq = s.seq := by
  simp [cacheOp]

@[simp] theorem cacheOp_dma (k : CacheKind) (a : Word) (s : State) : (cacheOp k a s).dma = s.dma := by
  simp [cacheOp]

@[simp] theorem cacheOp_brg (k : CacheKind) (a : Word) (s : State) : (cacheOp k a s).brg = s.brg := by
  simp [cacheOp]

@[simp] theorem cacheOp_host (k : CacheKind) (a : Word) (s : State) : (cacheOp k a s).host = s.host := by
  simp [cacheOp]

@[simp] theorem cacheOp_client (k : CacheKind) (a : Word) (s : State) : (cacheOp k a s).client = s.client := by
  simp [cacheOp]

@[simp] theorem cacheOp_draws (k : CacheKind) (a : Word) (s : State) : (cacheOp k a s).draws = s.draws := by
  simp [cacheOp]

@[simp] theorem cacheOp_sched (k : CacheKind) (a : Word) (s : State) : (cacheOp k a s).sched = s.sched := by
  simp [cacheOp]

@[simp] theorem cacheOp_tail (k : CacheKind) (a : Word) (s : State) : (cacheOp k a s).tail = s.tail := by
  simp [cacheOp]

/-! ### `evictLine` -/

@[simp] theorem evictLine_cfg (l : Nat) (s : State) : (evictLine l s).cfg = s.cfg := by
  unfold evictLine
  split <;> simp

@[simp] theorem evictLine_seq (l : Nat) (s : State) : (evictLine l s).seq = s.seq := by
  unfold evictLine
  split <;> simp

@[simp] theorem evictLine_dma (l : Nat) (s : State) : (evictLine l s).dma = s.dma := by
  unfold evictLine
  split <;> simp

@[simp] theorem evictLine_brg (l : Nat) (s : State) : (evictLine l s).brg = s.brg := by
  unfold evictLine
  split <;> simp

@[simp] theorem evictLine_host (l : Nat) (s : State) : (evictLine l s).host = s.host := by
  unfold evictLine
  split <;> simp

@[simp] theorem evictLine_client (l : Nat) (s : State) : (evictLine l s).client = s.client := by
  unfold evictLine
  split <;> simp

@[simp] theorem evictLine_trace (l : Nat) (s : State) : (evictLine l s).trace = s.trace := by
  unfold evictLine
  split <;> simp

@[simp] theorem evictLine_draws (l : Nat) (s : State) : (evictLine l s).draws = s.draws := by
  unfold evictLine
  split <;> simp

@[simp] theorem evictLine_sched (l : Nat) (s : State) : (evictLine l s).sched = s.sched := by
  unfold evictLine
  split <;> simp

@[simp] theorem evictLine_tail (l : Nat) (s : State) : (evictLine l s).tail = s.tail := by
  unfold evictLine
  split <;> simp

/-! ### `cpuRead` -/

@[simp] theorem cpuRead_cfg (a : Word) (s : State) : (cpuRead a s).cfg = s.cfg := by
  rfl

@[simp] theorem cpuRead_seq (a : Word) (s : State) : (cpuRead a s).seq = s.seq := by
  rfl

@[simp] theorem cpuRead_dma (a : Word) (s : State) : (cpuRead a s).dma = s.dma := by
  rfl

@[simp] theorem cpuRead_brg (a : Word) (s : State) : (cpuRead a s).brg = s.brg := by
  rfl

@[simp] theorem cpuRead_mem (a : Word) (s : State) : (cpuRead a s).mem = s.mem := by
  rfl

@[simp] theorem cpuRead_host (a : Word) (s : State) : (cpuRead a s).host = s.host := by
  rfl

@[simp] theorem cpuRead_trace (a : Word) (s : State) : (cpuRead a s).trace = s.trace := by
  rfl

@[simp] theorem cpuRead_draws (a : Word) (s : State) : (cpuRead a s).draws = s.draws := by
  rfl

@[simp] theorem cpuRead_sched (a : Word) (s : State) : (cpuRead a s).sched = s.sched := by
  rfl

@[simp] theorem cpuRead_tail (a : Word) (s : State) : (cpuRead a s).tail = s.tail := by
  rfl

/-! ### `cpuWrite` -/

@[simp] theorem cpuWrite_cfg (a : Word) (b : Byte) (s : State) : (cpuWrite a b s).cfg = s.cfg := by
  rfl

@[simp] theorem cpuWrite_seq (a : Word) (b : Byte) (s : State) : (cpuWrite a b s).seq = s.seq := by
  rfl

@[simp] theorem cpuWrite_dma (a : Word) (b : Byte) (s : State) : (cpuWrite a b s).dma = s.dma := by
  rfl

@[simp] theorem cpuWrite_brg (a : Word) (b : Byte) (s : State) : (cpuWrite a b s).brg = s.brg := by
  rfl

@[simp] theorem cpuWrite_mem (a : Word) (b : Byte) (s : State) : (cpuWrite a b s).mem = s.mem := by
  rfl

@[simp] theorem cpuWrite_host (a : Word) (b : Byte) (s : State) : (cpuWrite a b s).host = s.host := by
  rfl

@[simp] theorem cpuWrite_client (a : Word) (b : Byte) (s : State) : (cpuWrite a b s).client = s.client := by
  rfl

@[simp] theorem cpuWrite_trace (a : Word) (b : Byte) (s : State) : (cpuWrite a b s).trace = s.trace := by
  rfl

@[simp] theorem cpuWrite_draws (a : Word) (b : Byte) (s : State) : (cpuWrite a b s).draws = s.draws := by
  rfl

@[simp] theorem cpuWrite_sched (a : Word) (b : Byte) (s : State) : (cpuWrite a b s).sched = s.sched := by
  rfl

@[simp] theorem cpuWrite_tail (a : Word) (b : Byte) (s : State) : (cpuWrite a b s).tail = s.tail := by
  rfl

/-! ### `bridgeStep` -/

@[simp] theorem bridgeStep_cfg (s : State) : (bridgeStep s).cfg = s.cfg := by
  unfold bridgeStep
  repeat' split
  all_goals rfl

@[simp] theorem bridgeStep_seq (s : State) : (bridgeStep s).seq = s.seq := by
  unfold bridgeStep
  repeat' split
  all_goals rfl

@[simp] theorem bridgeStep_dma (s : State) : (bridgeStep s).dma = s.dma := by
  unfold bridgeStep
  repeat' split
  all_goals rfl

@[simp] theorem bridgeStep_mem (s : State) : (bridgeStep s).mem = s.mem := by
  unfold bridgeStep
  repeat' split
  all_goals rfl

@[simp] theorem bridgeStep_cache (s : State) : (bridgeStep s).cache = s.cache := by
  unfold bridgeStep
  repeat' split
  all_goals rfl

@[simp] theorem bridgeStep_host (s : State) : (bridgeStep s).host = s.host := by
  unfold bridgeStep
  repeat' split
  all_goals rfl

@[simp] theorem bridgeStep_client (s : State) : (bridgeStep s).client = s.client := by
  unfold bridgeStep
  repeat' split
  all_goals rfl

@[simp] theorem bridgeStep_trace (s : State) : (bridgeStep s).trace = s.trace := by
  unfold bridgeStep
  repeat' split
  all_goals rfl

@[simp] theorem bridgeStep_draws (s : State) : (bridgeStep s).draws = s.draws := by
  unfold bridgeStep
  repeat' split
  all_goals rfl

@[simp] theorem bridgeStep_sched (s : State) : (bridgeStep s).sched = s.sched := by
  unfold bridgeStep
  repeat' split
  all_goals rfl

@[simp] theorem bridgeStep_tail (s : State) : (bridgeStep s).tail = s.tail := by
  unfold bridgeStep
  repeat' split
  all_goals rfl

/-! ### `hostSend` -/

@[simp] theorem hostSend_cfg (b : Byte) (s : State) : (hostSend b s).cfg = s.cfg := by
  unfold hostSend
  split <;> rfl

@[simp] theorem hostSend_seq (b : Byte) (s : State) : (hostSend b s).seq = s.seq := by
  unfold hostSend
  split <;> rfl

@[simp] theorem hostSend_dma (b : Byte) (s : State) : (hostSend b s).dma = s.dma := by
  unfold hostSend
  split <;> rfl

@[simp] theorem hostSend_mem (b : Byte) (s : State) : (hostSend b s).mem = s.mem := by
  unfold hostSend
  split <;> rfl

@[simp] theorem hostSend_cache (b : Byte) (s : State) : (hostSend b s).cache = s.cache := by
  unfold hostSend
  split <;> rfl

@[simp] theorem hostSend_client (b : Byte) (s : State) : (hostSend b s).client = s.client := by
  unfold hostSend
  split <;> rfl

@[simp] theorem hostSend_trace (b : Byte) (s : State) : (hostSend b s).trace = s.trace := by
  unfold hostSend
  split <;> rfl

@[simp] theorem hostSend_draws (b : Byte) (s : State) : (hostSend b s).draws = s.draws := by
  unfold hostSend
  split <;> rfl

@[simp] theorem hostSend_sched (b : Byte) (s : State) : (hostSend b s).sched = s.sched := by
  unfold hostSend
  split <;> rfl

@[simp] theorem hostSend_tail (b : Byte) (s : State) : (hostSend b s).tail = s.tail := by
  unfold hostSend
  split <;> rfl

/-! ### `hostTake` -/

@[simp] theorem hostTake_cfg (s : State) : (hostTake s).cfg = s.cfg := by
  unfold hostTake
  split <;> rfl

@[simp] theorem hostTake_seq (s : State) : (hostTake s).seq = s.seq := by
  unfold hostTake
  split <;> rfl

@[simp] theorem hostTake_dma (s : State) : (hostTake s).dma = s.dma := by
  unfold hostTake
  split <;> rfl

@[simp] theorem hostTake_mem (s : State) : (hostTake s).mem = s.mem := by
  unfold hostTake
  split <;> rfl

@[simp] theorem hostTake_cache (s : State) : (hostTake s).cache = s.cache := by
  unfold hostTake
  split <;> rfl

@[simp] theorem hostTake_client (s : State) : (hostTake s).client = s.client := by
  unfold hostTake
  split <;> rfl

@[simp] theorem hostTake_trace (s : State) : (hostTake s).trace = s.trace := by
  unfold hostTake
  split <;> rfl

@[simp] theorem hostTake_draws (s : State) : (hostTake s).draws = s.draws := by
  unfold hostTake
  split <;> rfl

@[simp] theorem hostTake_sched (s : State) : (hostTake s).sched = s.sched := by
  unfold hostTake
  split <;> rfl

@[simp] theorem hostTake_tail (s : State) : (hostTake s).tail = s.tail := by
  unfold hostTake
  split <;> rfl

/-! ### `hostPower` -/

@[simp] theorem hostPower_cfg (v : Bool) (s : State) : (hostPower v s).cfg = s.cfg := by
  rfl

@[simp] theorem hostPower_seq (v : Bool) (s : State) : (hostPower v s).seq = s.seq := by
  rfl

@[simp] theorem hostPower_dma (v : Bool) (s : State) : (hostPower v s).dma = s.dma := by
  rfl

@[simp] theorem hostPower_brg (v : Bool) (s : State) : (hostPower v s).brg = s.brg := by
  rfl

@[simp] theorem hostPower_mem (v : Bool) (s : State) : (hostPower v s).mem = s.mem := by
  rfl

@[simp] theorem hostPower_cache (v : Bool) (s : State) : (hostPower v s).cache = s.cache := by
  rfl

@[simp] theorem hostPower_client (v : Bool) (s : State) : (hostPower v s).client = s.client := by
  rfl

@[simp] theorem hostPower_trace (v : Bool) (s : State) : (hostPower v s).trace = s.trace := by
  rfl

@[simp] theorem hostPower_draws (v : Bool) (s : State) : (hostPower v s).draws = s.draws := by
  rfl

@[simp] theorem hostPower_sched (v : Bool) (s : State) : (hostPower v s).sched = s.sched := by
  rfl

@[simp] theorem hostPower_tail (v : Bool) (s : State) : (hostPower v s).tail = s.tail := by
  rfl

/-! ### `hostLoopback` -/

@[simp] theorem hostLoopback_cfg (s : State) : (hostLoopback s).cfg = s.cfg := by
  unfold hostLoopback
  repeat' split
  all_goals simp

@[simp] theorem hostLoopback_seq (s : State) : (hostLoopback s).seq = s.seq := by
  unfold hostLoopback
  repeat' split
  all_goals simp

@[simp] theorem hostLoopback_dma (s : State) : (hostLoopback s).dma = s.dma := by
  unfold hostLoopback
  repeat' split
  all_goals simp

@[simp] theorem hostLoopback_mem (s : State) : (hostLoopback s).mem = s.mem := by
  unfold hostLoopback
  repeat' split
  all_goals simp

@[simp] theorem hostLoopback_cache (s : State) : (hostLoopback s).cache = s.cache := by
  unfold hostLoopback
  repeat' split
  all_goals simp

@[simp] theorem hostLoopback_client (s : State) : (hostLoopback s).client = s.client := by
  unfold hostLoopback
  repeat' split
  all_goals simp

@[simp] theorem hostLoopback_trace (s : State) : (hostLoopback s).trace = s.trace := by
  unfold hostLoopback
  repeat' split
  all_goals simp

@[simp] theorem hostLoopback_draws (s : State) : (hostLoopback s).draws = s.draws := by
  unfold hostLoopback
  repeat' split
  all_goals simp

@[simp] theorem hostLoopback_sched (s : State) : (hostLoopback s).sched = s.sched := by
  unfold hostLoopback
  repeat' split
  all_goals simp

@[simp] theorem hostLoopback_tail (s : State) : (hostLoopback s).tail = s.tail := by
  unfold hostLoopback
  repeat' split
  all_goals simp

/-! ### `periphWrite` -/

@[simp] theorem periphWrite_cfg (p : Word) (b : Byte) (s : State) : (periphWrite p b s).cfg = s.cfg := by
  unfold periphWrite
  split <;> rfl

@[simp] theorem periphWrite_seq (p : Word) (b : Byte) (s : State) : (periphWrite p b s).seq = s.seq := by
  unfold periphWrite
  split <;> rfl

@[simp] theorem periphWrite_dma (p : Word) (b : Byte) (s : State) : (periphWrite p b s).dma = s.dma := by
  unfold periphWrite
  split <;> rfl

@[simp] theorem periphWrite_mem (p : Word) (b : Byte) (s : State) : (periphWrite p b s).mem = s.mem := by
  unfold periphWrite
  split <;> rfl

@[simp] theorem periphWrite_cache (p : Word) (b : Byte) (s : State) : (periphWrite p b s).cache = s.cache := by
  unfold periphWrite
  split <;> rfl

@[simp] theorem periphWrite_host (p : Word) (b : Byte) (s : State) : (periphWrite p b s).host = s.host := by
  unfold periphWrite
  split <;> rfl

@[simp] theorem periphWrite_client (p : Word) (b : Byte) (s : State) : (periphWrite p b s).client = s.client := by
  unfold periphWrite
  split <;> rfl

@[simp] theorem periphWrite_trace (p : Word) (b : Byte) (s : State) : (periphWrite p b s).trace = s.trace := by
  unfold periphWrite
  split <;> rfl

@[simp] theorem periphWrite_draws (p : Word) (b : Byte) (s : State) : (periphWrite p b s).draws = s.draws := by
  unfold periphWrite
  split <;> rfl

@[simp] theorem periphWrite_sched (p : Word) (b : Byte) (s : State) : (periphWrite p b s).sched = s.sched := by
  unfold periphWrite
  split <;> rfl

@[simp] theorem periphWrite_tail (p : Word) (b : Byte) (s : State) : (periphWrite p b s).tail = s.tail := by
  unfold periphWrite
  split <;> rfl

/-! ### `transferByte` -/

@[simp] theorem transferByte_cfg (j : Job) (i : Nat) (s : State) : (transferByte j i s).cfg = s.cfg := by
  unfold transferByte
  repeat' split
  all_goals simp

@[simp] theorem transferByte_seq (j : Job) (i : Nat) (s : State) : (transferByte j i s).seq = s.seq := by
  unfold transferByte
  repeat' split
  all_goals simp

@[simp] theorem transferByte_dma (j : Job) (i : Nat) (s : State) : (transferByte j i s).dma = s.dma := by
  unfold transferByte
  repeat' split
  all_goals simp

@[simp] theorem transferByte_cache (j : Job) (i : Nat) (s : State) : (transferByte j i s).cache = s.cache := by
  unfold transferByte
  repeat' split
  all_goals simp

@[simp] theorem transferByte_host (j : Job) (i : Nat) (s : State) : (transferByte j i s).host = s.host := by
  unfold transferByte
  repeat' split
  all_goals simp

@[simp] theorem transferByte_client (j : Job) (i : Nat) (s : State) : (transferByte j i s).client = s.client := by
  unfold transferByte
  repeat' split
  all_goals simp

@[simp] theorem transferByte_trace (j : Job) (i : Nat) (s : State) : (transferByte j i s).trace = s.trace := by
  unfold transferByte
  repeat' split
  all_goals simp

@[simp] theorem transferByte_draws (j : Job) (i : Nat) (s : State) : (transferByte j i s).draws = s.draws := by
  unfold transferByte
  repeat' split
  all_goals simp

@[simp] theorem transferByte_sched (j : Job) (i : Nat) (s : State) : (transferByte j i s).sched = s.sched := by
  unfold transferByte
  repeat' split
  all_goals simp

@[simp] theorem transferByte_tail (j : Job) (i : Nat) (s : State) : (transferByte j i s).tail = s.tail := by
  unfold transferByte
  repeat' split
  all_goals simp

/-! ### `dmaMove` -/

@[simp] theorem dmaMove_cfg (i : Nat) (s : State) : (dmaMove i s).cfg = s.cfg := by
  unfold dmaMove
  split <;> simp

@[simp] theorem dmaMove_seq (i : Nat) (s : State) : (dmaMove i s).seq = s.seq := by
  unfold dmaMove
  split <;> simp

@[simp] theorem dmaMove_cache (i : Nat) (s : State) : (dmaMove i s).cache = s.cache := by
  unfold dmaMove
  split <;> simp

@[simp] theorem dmaMove_host (i : Nat) (s : State) : (dmaMove i s).host = s.host := by
  unfold dmaMove
  split <;> simp

@[simp] theorem dmaMove_client (i : Nat) (s : State) : (dmaMove i s).client = s.client := by
  unfold dmaMove
  split <;> simp

@[simp] theorem dmaMove_trace (i : Nat) (s : State) : (dmaMove i s).trace = s.trace := by
  unfold dmaMove
  split <;> simp

@[simp] theorem dmaMove_sched (i : Nat) (s : State) : (dmaMove i s).sched = s.sched := by
  unfold dmaMove
  split <;> simp

@[simp] theorem dmaMove_tail (i : Nat) (s : State) : (dmaMove i s).tail = s.tail := by
  unfold dmaMove
  split <;> simp

/-! ### `dmaComplete` -/

@[simp] theorem dmaComplete_cfg (s : State) : (dmaComplete s).cfg = s.cfg := by
  unfold dmaComplete
  split <;> rfl

@[simp] theorem dmaComplete_seq (s : State) : (dmaComplete s).seq = s.seq := by
  unfold dmaComplete
  split <;> rfl

@[simp] theorem dmaComplete_brg (s : State) : (dmaComplete s).brg = s.brg := by
  unfold dmaComplete
  split <;> rfl

@[simp] theorem dmaComplete_mem (s : State) : (dmaComplete s).mem = s.mem := by
  unfold dmaComplete
  split <;> rfl

@[simp] theorem dmaComplete_cache (s : State) : (dmaComplete s).cache = s.cache := by
  unfold dmaComplete
  split <;> rfl

@[simp] theorem dmaComplete_host (s : State) : (dmaComplete s).host = s.host := by
  unfold dmaComplete
  split <;> rfl

@[simp] theorem dmaComplete_client (s : State) : (dmaComplete s).client = s.client := by
  unfold dmaComplete
  split <;> rfl

@[simp] theorem dmaComplete_trace (s : State) : (dmaComplete s).trace = s.trace := by
  unfold dmaComplete
  split <;> rfl

@[simp] theorem dmaComplete_draws (s : State) : (dmaComplete s).draws = s.draws := by
  unfold dmaComplete
  split <;> rfl

@[simp] theorem dmaComplete_sched (s : State) : (dmaComplete s).sched = s.sched := by
  unfold dmaComplete
  split <;> rfl

@[simp] theorem dmaComplete_tail (s : State) : (dmaComplete s).tail = s.tail := by
  unfold dmaComplete
  split <;> rfl

/-! ### `engineDefault` -/

@[simp] theorem engineDefault_cfg (s : State) : (engineDefault s).cfg = s.cfg := by
  unfold engineDefault
  split <;> simp

@[simp] theorem engineDefault_seq (s : State) : (engineDefault s).seq = s.seq := by
  unfold engineDefault
  split <;> simp

@[simp] theorem engineDefault_cache (s : State) : (engineDefault s).cache = s.cache := by
  unfold engineDefault
  split <;> simp

@[simp] theorem engineDefault_host (s : State) : (engineDefault s).host = s.host := by
  unfold engineDefault
  split <;> simp

@[simp] theorem engineDefault_client (s : State) : (engineDefault s).client = s.client := by
  unfold engineDefault
  split <;> simp

@[simp] theorem engineDefault_trace (s : State) : (engineDefault s).trace = s.trace := by
  unfold engineDefault
  split <;> simp

@[simp] theorem engineDefault_sched (s : State) : (engineDefault s).sched = s.sched := by
  unfold engineDefault
  split <;> simp

@[simp] theorem engineDefault_tail (s : State) : (engineDefault s).tail = s.tail := by
  unfold engineDefault
  split <;> simp

/-! ### Traces and draws of the transactions -/

@[simp] theorem busWrite_trace (a v : Word) (s : State) : (busWrite a v s).trace = .busWrite a v :: s.trace := by
  simp [busWrite]

@[simp] theorem busWrite_draws (a v : Word) (s : State) : (busWrite a v s).draws = s.draws + 1 := by
  simp [busWrite]

@[simp] theorem registerWrite_trace (off v : Word) (s : State) :
    (registerWrite off v s).trace = .busWrite (regAddr s.cfg off) v :: s.trace := by
  simp [registerWrite]

@[simp] theorem writeRegister_trace (off v : Word) (s : State) :
    (writeRegister off v s).trace = .busWrite (regAddr s.cfg off) v :: s.trace := by
  unfold writeRegister; (repeat' split) <;> simp [registerWrite]

@[simp] theorem writeRegister_draws (off v : Word) (s : State) : (writeRegister off v s).draws = s.draws + 1 := by
  unfold writeRegister; (repeat' split) <;> simp [registerWrite]

@[simp] theorem registerWrite_draws (off v : Word) (s : State) : (registerWrite off v s).draws = s.draws + 1 := by
  simp [registerWrite]

@[simp] theorem registerRead_trace (off : Word) (s : State) :
    (registerRead off s).trace = .busRead (regAddr s.cfg off) (registerData off s).value :: s.trace := by
  simp [registerRead]

@[simp] theorem registerRead_draws (off : Word) (s : State) : (registerRead off s).draws = s.draws + 1 := by
  simp [registerRead]

@[simp] theorem cacheOp_trace (k : CacheKind) (a : Word) (s : State) :
    (cacheOp k a s).trace = .cacheOp k a :: s.trace := by
  simp [cacheOp]

end Sys2Proof.Machine
end

