-- ==== Sys2Proof/Laws/Keys.lean ====
section
/-! SUPPORT. Lists sorted by key and sets of indices: what a read gives after each update, and that every update keeps
the canonical form. -/

namespace Sys2Proof.Machine

variable {α : Type}

theorem keyGet_keySet_self (k : Nat) (v : α) (l : List (Nat × α)) : keyGet k (keySet k v l) = some v := by
  induction l with
  | nil => simp [keySet, keyGet]
  | cons e rest ih =>
    simp only [keySet]
    split
    · simp [keyGet]
    · split
      · simp [keyGet]
      · simp only [keyGet, ih]
        split
        · omega
        · rfl

theorem keyGet_keySet_other {k j : Nat} (h : j ≠ k) (v : α) (l : List (Nat × α)) :
    keyGet j (keySet k v l) = keyGet j l := by
  induction l with
  | nil => simp [keySet, keyGet, h.symm]
  | cons e rest ih =>
    simp only [keySet]
    split
    · simp [keyGet, h.symm]
    · split
      · next hk => subst hk; simp [keyGet, h.symm]
      · simp [keyGet, ih]

theorem keyGet_keySet (j k : Nat) (v : α) (l : List (Nat × α)) :
    keyGet j (keySet k v l) = if j = k then some v else keyGet j l := by
  split
  · next h => subst h; exact keyGet_keySet_self _ _ _
  · next h => exact keyGet_keySet_other h _ _

theorem keyGet_keyErase (j k : Nat) (l : List (Nat × α)) :
    keyGet j (keyErase k l) = if j = k then none else keyGet j l := by
  induction l with
  | nil => simp [keyErase, keyGet]
  | cons e rest ih =>
    simp only [keyErase]
    split
    · next hk =>
      rw [ih]
      split
      · rfl
      · next hj => simp [keyGet]; intro h; omega
    · next hk =>
      simp only [keyGet, ih]
      by_cases hj : j = k
      · subst hj; simp [hk]
      · simp [hj]

theorem all_keySet (p : Nat × α → Bool) {k : Nat} {v : α} {l : List (Nat × α)} (hv : p (k, v) = true)
    (hl : l.all p = true) : (keySet k v l).all p = true := by
  induction l with
  | nil => simp [keySet, hv]
  | cons e rest ih =>
    simp only [List.all_cons, Bool.and_eq_true] at hl
    simp only [keySet]
    split
    · simp [hv, hl.1, hl.2]
    · split
      · simp [hv, hl.2]
      · simp [hl.1, ih hl.2]

theorem all_keyErase (p : Nat × α → Bool) {k : Nat} {l : List (Nat × α)} (hl : l.all p = true) :
    (keyErase k l).all p = true := by
  induction l with
  | nil => rfl
  | cons e rest ih =>
    simp only [List.all_cons, Bool.and_eq_true] at hl
    simp only [keyErase]
    split
    · exact ih hl.2
    · simp [hl.1, ih hl.2]

theorem keysAbove_trans {j k : Nat} (h : j < k) {l : List (Nat × α)} (hl : keysAbove k l = true) :
    keysAbove j l = true := by
  simp only [keysAbove, List.all_eq_true, decide_eq_true_eq] at *
  intro e he
  have := hl e he
  omega

theorem keysRising_keySet (k : Nat) (v : α) {l : List (Nat × α)} (hl : keysRising l = true) :
    keysRising (keySet k v l) = true := by
  induction l with
  | nil => simp [keySet, keysRising, keysAbove]
  | cons e rest ih =>
    simp only [keysRising, Bool.and_eq_true] at hl
    simp only [keySet]
    split
    · next h =>
      simp only [keysRising, Bool.and_eq_true]
      refine ⟨?_, hl.1, hl.2⟩
      have := keysAbove_trans h hl.1
      simp only [keysAbove, List.all_cons, Bool.and_eq_true, decide_eq_true_eq] at this ⊢
      exact ⟨h, this⟩
    · split
      · next h => subst h; simp [keysRising, hl.1, hl.2]
      · next h1 h2 =>
        simp only [keysRising, Bool.and_eq_true]
        refine ⟨all_keySet _ ?_ hl.1, ih hl.2⟩
        simp; omega

theorem keysRising_keyErase (k : Nat) {l : List (Nat × α)} (hl : keysRising l = true) :
    keysRising (keyErase k l) = true := by
  induction l with
  | nil => rfl
  | cons e rest ih =>
    simp only [keysRising, Bool.and_eq_true] at hl
    simp only [keyErase]
    split
    · exact ih hl.2
    · simp only [keysRising, Bool.and_eq_true]
      exact ⟨all_keyErase _ hl.1, ih hl.2⟩

/-! ### RAM -/

theorem Memory.read_write (m : Memory) (a x : Nat) (b : Byte) :
    (m.write a b).read x = if x = a then b else m.read x := by
  simp only [Memory.read, Memory.write, keyGet_keySet]
  split <;> simp

@[simp] theorem Memory.read_write_self (m : Memory) (a : Nat) (b : Byte) : (m.write a b).read a = b := by
  simp [Memory.read_write]

theorem Memory.read_write_other (m : Memory) {a x : Nat} (h : x ≠ a) (b : Byte) : (m.write a b).read x = m.read x := by
  simp [Memory.read_write, h]

theorem Memory.wf_write {m : Memory} (h : m.wf = true) (a : Nat) (b : Byte) : (m.write a b).wf = true :=
  keysRising_keySet a b h

@[simp] theorem Memory.wf_unknown (n : Nat) : (Memory.unknown n).wf = true := rfl

theorem Memory.wf_reset : State.reset.mem.wf = true := rfl

/-! ### Sets of indices -/

theorem mem_indexInsert (i j : Nat) (l : List Nat) : j ∈ indexInsert i l ↔ j = i ∨ j ∈ l := by
  induction l with
  | nil => simp [indexInsert]
  | cons x rest ih =>
    simp only [indexInsert]
    split
    · simp
    · split
      · next h => subst h; simp
      · simp [ih]; tauto

theorem indicesRising_indexInsert (i : Nat) {l : List Nat} (h : indicesRising l = true) :
    indicesRising (indexInsert i l) = true := by
  induction l with
  | nil => simp [indexInsert, indicesRising]
  | cons x rest ih =>
    simp only [indicesRising, Bool.and_eq_true, List.all_eq_true, decide_eq_true_eq] at h
    simp only [indexInsert]
    split
    · next hlt =>
      simp only [indicesRising, Bool.and_eq_true, List.all_eq_true, decide_eq_true_eq, List.mem_cons]
      refine ⟨?_, h.1, h.2⟩
      rintro k (rfl | hk)
      · exact hlt
      · exact Nat.lt_trans hlt (h.1 k hk)
    · split
      · simp only [indicesRising, Bool.and_eq_true, List.all_eq_true, decide_eq_true_eq]; exact h
      · next h1 h2 =>
        simp only [indicesRising, Bool.and_eq_true, List.all_eq_true, decide_eq_true_eq]
        refine ⟨fun k hk => ?_, ih h.2⟩
        rcases (mem_indexInsert i k rest).1 hk with rfl | hk
        · omega
        · exact h.1 k hk

theorem length_indexInsert {i : Nat} {l : List Nat} (h : i ∉ l) : (indexInsert i l).length = l.length + 1 := by
  induction l with
  | nil => rfl
  | cons x rest ih =>
    simp only [List.mem_cons, not_or] at h
    simp only [indexInsert]
    split
    · rfl
    · simp [h.1, ih h.2]

/-- A strictly rising list of indices below `n` is no longer than `n`. -/
theorem indicesRising_length_le {l : List Nat} {lo n : Nat} (h : indicesRising l = true) (hlo : ∀ i ∈ l, lo ≤ i)
    (hn : ∀ i ∈ l, i < n) (hle : lo ≤ n) : l.length ≤ n - lo := by
  induction l generalizing lo with
  | nil => simp
  | cons x rest ih =>
    simp only [indicesRising, Bool.and_eq_true, List.all_eq_true, decide_eq_true_eq] at h
    have hx := hn x (by simp)
    have hxlo := hlo x (by simp)
    have := ih (lo := x + 1) h.2 (fun i hi => h.1 i hi) (fun i hi => hn i (by simp [hi])) hx
    simp only [List.length_cons]
    omega

end Sys2Proof.Machine
end

