-- ==== Sys2Proof/Laws/Forms.lean ====
section
/-! SUPPORT. Every operation on RAM, the cache, the DMA block and the FIFOs keeps the form of the data that
`State.dataOk` names: RAM and the cache canonical, whole lines, a job with its indices below its count, FIFOs within
their depths. -/

namespace Sys2Proof.Machine

/-! ### The parts of `dataOk` -/

theorem State.dataOk_iff (s : State) : s.dataOk = true ↔
    s.mem.fits s.cfg = true ∧ cacheFits s.cfg s.cache = true ∧ keysRising s.dma.timing = true ∧ s.dma.job.fits = true ∧
      withinDepth s.cfg.rxDepth s.brg.rxFifo = true ∧ withinDepth s.cfg.txDepth s.brg.txFifo = true := by
  simp only [State.dataOk, Bool.and_eq_true]; tauto

/-- The form of the data depends on no other part of the state. -/
theorem State.dataOk_congr {s t : State} (hc : t.cfg = s.cfg) (hm : t.mem = s.mem) (hk : t.cache = s.cache)
    (hd : t.dma = s.dma) (hb : t.brg = s.brg) : t.dataOk = s.dataOk := by
  simp only [State.dataOk, hc, hm, hk, hd, hb]

/-! ### RAM -/

theorem Memory.fits_iff (c : Config) (m : Memory) :
    m.fits c = true ↔ m.wf = true ∧ ∀ e ∈ m.cells, e.1 < c.ramSize := by
  simp [Memory.fits]

theorem Memory.fits_write {c : Config} {m : Memory} (h : m.fits c = true) {a : Nat} (ha : a < c.ramSize) (b : Byte) :
    (m.write a b).fits c = true := by
  simp only [Memory.fits, Bool.and_eq_true] at h ⊢
  exact ⟨Memory.wf_write h.1 a b, all_keySet _ (by simpa using ha) h.2⟩

@[simp] theorem Memory.fits_unknown (c : Config) (n : Nat) : (Memory.unknown n).fits c = true := rfl

/-- The canonical form of RAM is kept by the write of a byte. -/
theorem ramWrite_fits {s : State} (h : s.mem.fits s.cfg = true) (a : Nat) (b : Byte) :
    (ramWrite a b s).mem.fits s.cfg = true := by
  unfold ramWrite
  split
  · next ha => exact Memory.fits_write h ha b
  · exact h

theorem ramWriteBytes_fits {s : State} (h : s.mem.fits s.cfg = true) (a : Nat) (bs : List Byte) :
    (ramWriteBytes a bs s).mem.fits s.cfg = true := by
  induction bs generalizing a s with
  | nil => exact h
  | cons b rest ih =>
    have := ih (s := ramWrite a b s) (by simpa using ramWrite_fits h a b) (a + 1)
    simpa [ramWriteBytes] using this

theorem freeRam_fits {s : State} (h : s.mem.fits s.cfg = true) (d a n : Nat) : (freeRam d a n s).mem.fits s.cfg = true := by
  induction n with
  | zero => exact h
  | succ n ih =>
    have := ramWrite_fits (s := freeRam d a n s) (by simpa using ih) (a + n) (Config.freeByte d n)
    simpa [freeRam] using this

theorem writeBackLine_fits {s : State} (h : s.mem.fits s.cfg = true) (l : Nat) (ln : Line) :
    (writeBackLine l ln s).mem.fits s.cfg = true := by
  unfold writeBackLine
  split
  · exact ramWriteBytes_fits h _ _
  · exact h

theorem freeDestination_fits {s : State} (h : s.mem.fits s.cfg = true) (j : Job) :
    (freeDestination j s).mem.fits s.cfg = true := by
  unfold freeDestination
  split
  · split
    · exact freeRam_fits h _ _ _
    · simp
  · split
    · split <;> simpa using h
    · simpa using h

theorem transferByte_fits {s : State} (h : s.mem.fits s.cfg = true) (j : Job) (i : Nat) :
    (transferByte j i s).mem.fits s.cfg = true := by
  unfold transferByte
  split
  · split
    · exact ramWrite_fits h _ _
    · simp
  · simpa using h

/-! ### The cache -/

theorem cacheFits_iff (c : Config) (l : List (Nat × Line)) :
    cacheFits c l = true ↔ keysRising l = true ∧ ∀ e ∈ l, e.2.data.length = c.lineSize := by
  simp [cacheFits]

theorem keyGet_mem {α : Type} {k : Nat} {v : α} {l : List (Nat × α)} (h : keyGet k l = some v) : (k, v) ∈ l := by
  induction l with
  | nil => simp [keyGet] at h
  | cons e rest ih =>
    simp only [keyGet] at h
    split at h
    · next hk => simp only [Option.some.injEq] at h; subst hk; subst h; simp
    · simp [ih h]

/-- A line in a cache of whole lines is whole. -/
theorem cacheFits_line {c : Config} {l : List (Nat × Line)} (h : cacheFits c l = true) {k : Nat} {ln : Line}
    (hk : keyGet k l = some ln) : ln.data.length = c.lineSize :=
  ((cacheFits_iff c l).1 h).2 _ (keyGet_mem hk)

theorem filledLine_length (l : Nat) (s : State) : (filledLine l s).data.length = s.cfg.lineSize := by
  simp [filledLine, ramReadBytes]

theorem lineFor_length {s : State} (h : cacheFits s.cfg s.cache = true) (l : Nat) :
    (lineFor l s).data.length = s.cfg.lineSize := by
  unfold lineFor
  cases hk : keyGet l s.cache with
  | none => exact filledLine_length l s
  | some ln => exact cacheFits_line h hk

theorem cacheFits_keySet {c : Config} {l : List (Nat × Line)} (h : cacheFits c l = true) (k : Nat) {ln : Line}
    (hln : ln.data.length = c.lineSize) : cacheFits c (keySet k ln l) = true := by
  simp only [cacheFits, Bool.and_eq_true] at h ⊢
  exact ⟨keysRising_keySet k ln h.1, all_keySet _ (by simpa using hln) h.2⟩

theorem cacheFits_keyErase {c : Config} {l : List (Nat × Line)} (h : cacheFits c l = true) (k : Nat) :
    cacheFits c (keyErase k l) = true := by
  simp only [cacheFits, Bool.and_eq_true] at h ⊢
  exact ⟨keysRising_keyErase k h.1, all_keyErase _ h.2⟩

theorem cacheAfter_fits {c : Config} {l : List (Nat × Line)} (h : cacheFits c l = true) (kind : CacheKind) {k : Nat}
    {ln : Line} (hk : keyGet k l = some ln) : cacheFits c (cacheAfter kind k ln l) = true := by
  cases kind with
  | wb => exact cacheFits_keySet h k (show ({ ln with dirty := false } : Line).data.length = _ from cacheFits_line (ln := ln) h hk)
  | wbinv => exact cacheFits_keyErase h k

theorem cacheEffect_dataOk {s : State} (h : s.dataOk = true) (kind : CacheKind) (a : Word) :
    (cacheEffect kind a s).dataOk = true := by
  unfold cacheEffect
  split
  · next ln hk =>
    obtain ⟨hm, hc, hr⟩ := (State.dataOk_iff s).1 h
    exact (State.dataOk_iff _).2 ⟨by simpa using writeBackLine_fits hm _ ln, by simpa using cacheAfter_fits hc kind hk,
      by simpa using hr⟩
  · exact h

theorem cacheOp_dataOk {s : State} (h : s.dataOk = true) (kind : CacheKind) (a : Word) :
    (cacheOp kind a s).dataOk = true := cacheEffect_dataOk h kind a

theorem evictLine_dataOk {s : State} (h : s.dataOk = true) (l : Nat) : (evictLine l s).dataOk = true := by
  unfold evictLine
  split
  · next ln hk =>
    obtain ⟨hm, hc, hr⟩ := (State.dataOk_iff s).1 h
    exact (State.dataOk_iff _).2 ⟨by simpa using writeBackLine_fits hm _ ln, by simpa using cacheFits_keyErase hc l,
      by simpa using hr⟩
  · exact h

theorem cpuRead_dataOk {s : State} (h : s.dataOk = true) (a : Word) : (cpuRead a s).dataOk = true := by
  obtain ⟨hm, hc, hr⟩ := (State.dataOk_iff s).1 h
  exact (State.dataOk_iff _).2 ⟨by simpa using hm,
    by simpa [cpuRead] using cacheFits_keySet hc (lineIndex s.cfg a) (lineFor_length hc _), by simpa using hr⟩

theorem cpuWrite_dataOk {s : State} (h : s.dataOk = true) (a : Word) (b : Byte) : (cpuWrite a b s).dataOk = true := by
  obtain ⟨hm, hc, hr⟩ := (State.dataOk_iff s).1 h
  refine (State.dataOk_iff _).2 ⟨by simpa using hm, ?_, by simpa using hr⟩
  exact cacheFits_keySet hc (lineIndex s.cfg a) (by simpa [Line.store] using lineFor_length hc _)

/-! ### The bridge and its FIFOs -/

theorem withinDepth_clip (d : Option Nat) (q : List Byte) : withinDepth d (clip d q) = true := by
  cases d <;> simp [withinDepth, clip]

theorem withinDepth_drop {d : Option Nat} {q : List Byte} (h : withinDepth d q = true) (n : Nat) :
    withinDepth d (q.drop n) = true := by
  cases d <;> simp_all [withinDepth]
  omega

theorem withinDepth_clipAfter {d : Option Nat} {q : List Byte} (h : withinDepth d q = true) (more : List Byte) :
    withinDepth d (q ++ clipAfter d q more) = true := by
  cases d <;> simp_all [withinDepth, clipAfter]
  omega

theorem withinDepth_push {d : Option Nat} {q : List Byte} (h : hasRoom d q = true) (b : Byte) :
    withinDepth d (q ++ [b]) = true := by
  cases d <;> simp_all [withinDepth, hasRoom]

/-- A new bridge keeps the form of the data if its FIFOs are within their depths. -/
theorem setBrg_dataOk {s : State} (h : s.dataOk = true) {b : Bridge} (hr : withinDepth s.cfg.rxDepth b.rxFifo = true)
    (ht : withinDepth s.cfg.txDepth b.txFifo = true) : (s.setBrg b).dataOk = true := by
  obtain ⟨hm, hc, hk, hj, -, -⟩ := (State.dataOk_iff s).1 h
  exact (State.dataOk_iff _).2 ⟨hm, hc, hk, hj, hr, ht⟩

theorem setBrg_dataOk_fifos {s : State} (h : s.dataOk = true) {b : Bridge} (hr : b.rxFifo = s.brg.rxFifo)
    (ht : b.txFifo = s.brg.txFifo) : (s.setBrg b).dataOk = true := by
  obtain ⟨-, -, -, -, hrx, htx⟩ := (State.dataOk_iff s).1 h
  exact setBrg_dataOk h (by rw [hr]; exact hrx) (by rw [ht]; exact htx)

theorem setBrg_freeBridge_dataOk {s : State} (h : s.dataOk = true) (n : Nat) :
    (s.setBrg (freeBridge s.cfg n)).dataOk = true :=
  setBrg_dataOk h (withinDepth_clip _ _) (withinDepth_clip _ _)

theorem command_dataOk {s : State} (h : s.dataOk = true) (w : BitVec 16) : (command w s).dataOk = true := by
  have hf : (s.setBrg (freeHandshake s.cfg s.draws { s.brg with cmd := w })).dataOk = true := by
    obtain ⟨-, -, -, -, hrx, htx⟩ := (State.dataOk_iff s).1 h
    exact setBrg_dataOk h (withinDepth_drop hrx _) (withinDepth_clipAfter htx _)
  simp only [command]
  repeat' split
  · exact hf
  · exact hf
  · exact setBrg_dataOk_fifos h rfl rfl
  · exact setBrg_dataOk_fifos h rfl rfl

theorem whenUnlocked_dataOk {s : State} (h : s.dataOk = true) {f : State → State}
    (hf : s.dataOk = true → (f s).dataOk = true) : (whenUnlocked f s).dataOk = true := by
  unfold whenUnlocked
  split
  · exact hf h
  · exact setBrg_freeBridge_dataOk h _

theorem bridgeStep_dataOk {s : State} (h : s.dataOk = true) : (bridgeStep s).dataOk = true := by
  obtain ⟨-, -, -, -, hrx, htx⟩ := (State.dataOk_iff s).1 h
  unfold bridgeStep
  split
  · split
    · unfold bridgeReadStep
      split
      · split
        · exact setBrg_dataOk_fifos h rfl rfl
        · next x rest hq =>
          refine setBrg_dataOk h ?_ htx
          have := withinDepth_drop hrx 1
          simpa [hq] using this
      · exact setBrg_dataOk_fifos h rfl rfl
    · unfold bridgeWriteStep
      split
      · split
        · next hroom => exact setBrg_dataOk h hrx (withinDepth_push hroom _)
        · exact setBrg_dataOk_fifos h rfl rfl
      · exact setBrg_dataOk_fifos h rfl rfl
  · exact h

theorem hostSend_dataOk {s : State} (h : s.dataOk = true) (b : Byte) : (hostSend b s).dataOk = true := by
  obtain ⟨-, -, -, -, -, htx⟩ := (State.dataOk_iff s).1 h
  unfold hostSend
  split
  · next hroom => exact setBrg_dataOk h (withinDepth_push hroom b) htx
  · exact h

theorem hostTake_dataOk {s : State} (h : s.dataOk = true) : (hostTake s).dataOk = true := by
  obtain ⟨-, -, -, -, hrx, htx⟩ := (State.dataOk_iff s).1 h
  unfold hostTake
  split
  · exact h
  · next b rest hq =>
    have := withinDepth_drop htx 1
    exact setBrg_dataOk h hrx (by simpa [hq] using this)

theorem hostPower_dataOk {s : State} (h : s.dataOk = true) (v : Bool) : (hostPower v s).dataOk = true := h

theorem hostLoopback_dataOk {s : State} (h : s.dataOk = true) : (hostLoopback s).dataOk = true := by
  unfold hostLoopback
  split
  · exact h
  · split
    · exact hostSend_dataOk (hostTake_dataOk h) _
    · exact h

/-! ### The DMA block -/

theorem Job.fits_iff (j : Job) : j.fits = true ↔
    1 ≤ j.count.toNat ∧ j.count.toNat ≤ 0x100000000 ∧ indicesRising j.done = true ∧ ∀ i ∈ j.done, i < j.count.toNat := by
  simp only [Job.fits, Bool.and_eq_true, decide_eq_true_eq, List.all_eq_true]; tauto

theorem setDma_dataOk {s : State} (h : s.dataOk = true) {d : Dma} (hk : keysRising d.timing = true)
    (hj : d.job.fits = true) : (s.setDma d).dataOk = true := by
  obtain ⟨hm, hc, -, -, hr⟩ := (State.dataOk_iff s).1 h
  exact (State.dataOk_iff _).2 ⟨hm, hc, hk, hj, hr⟩

theorem setDma_dataOk_same {s : State} (h : s.dataOk = true) {d : Dma} (hk : d.timing = s.dma.timing)
    (hj : d.job = s.dma.job) : (s.setDma d).dataOk = true := by
  obtain ⟨-, -, hk', hj', -⟩ := (State.dataOk_iff s).1 h
  exact setDma_dataOk h (by rw [hk]; exact hk') (by rw [hj]; exact hj')

/-- The count of a job from its length value: 1 to 2^32, with no wrap (10_state R36). -/
theorem count_toNat (n : Word) : (n.setWidth 33 + 1#33).toNat = n.toNat + 1 := by
  rw [BitVec.toNat_add, BitVec.toNat_setWidth]
  have := n.isLt
  simp only [BitVec.toNat_ofNat]
  omega

theorem startedJob_fits (dir : Dir) (n : Word) (d : Dma) : (startedJob dir n d).fits = true := by
  rw [Job.fits_iff]
  simp only [startedJob, count_toNat, indicesRising, List.not_mem_nil, false_implies, implies_true, and_true]
  have := n.isLt
  omega

theorem insertAll_rising (l : List Nat) : indicesRising (l.foldr indexInsert []) = true := by
  induction l with
  | nil => rfl
  | cons x rest ih => exact indicesRising_indexInsert x ih

theorem mem_insertAll (i : Nat) (l : List Nat) : i ∈ l.foldr indexInsert [] ↔ i ∈ l := by
  induction l with
  | nil => simp
  | cons x rest ih => simp [mem_indexInsert, ih]

theorem freeJob_fits (n : Nat) : (freeJob n).fits = true := by
  rw [Job.fits_iff]
  simp only [freeJob, count_toNat]
  refine ⟨by omega, ?_, insertAll_rising _, fun i hi => ?_⟩
  · have := (Config.freeWord n 10).isLt
    omega
  · rw [mem_insertAll] at hi
    simpa using (List.mem_filter.1 hi).2

theorem keysRising_map {α β : Type} (g : Nat × α → β) {l : List (Nat × α)} (h : keysRising l = true) :
    keysRising (l.map (fun e => (e.1, g e))) = true := by
  induction l with
  | nil => rfl
  | cons e rest ih =>
    simp only [keysRising, keysAbove, Bool.and_eq_true] at h
    simp only [List.map_cons, keysRising, keysAbove, Bool.and_eq_true, List.all_map]
    exact ⟨h.1, ih h.2⟩

theorem unmappedWrite_dataOk {s : State} (h : s.dataOk = true) : (unmappedWrite s).dataOk = true := by
  obtain ⟨-, -, hk, -, -⟩ := (State.dataOk_iff s).1 h
  exact setDma_dataOk (setBrg_freeBridge_dataOk h _) (keysRising_map (fun e => Config.freeWord s.draws (16 + e.1)) hk)
    (freeJob_fits _)

theorem freeDestination_dataOk {s : State} (h : s.dataOk = true) (j : Job) : (freeDestination j s).dataOk = true := by
  obtain ⟨hm, hc, hr⟩ := (State.dataOk_iff s).1 h
  unfold freeDestination
  split
  · split
    · exact (State.dataOk_iff _).2 ⟨by simpa using freeRam_fits hm _ _ _, by simpa using hc, by simpa using hr⟩
    · exact (State.dataOk_iff _).2 ⟨Memory.fits_unknown _ _, hc, hr⟩
  · split
    · split
      · exact setBrg_dataOk_fifos h rfl rfl
      · exact setBrg_freeBridge_dataOk h _
    · exact setBrg_freeBridge_dataOk h _

theorem disturbEngine_dataOk {s : State} (h : s.dataOk = true) : (disturbEngine s).dataOk = true := by
  have ht := freeDestination_dataOk h s.dma.job
  obtain ⟨-, -, hk, -, -⟩ := (State.dataOk_iff _).1 ht
  exact setDma_dataOk ht hk (freeJob_fits _)

theorem startJob_dataOk {s : State} (h : s.dataOk = true) (dir : Dir) (n : Word) : (startJob dir n s).dataOk = true := by
  obtain ⟨-, -, hk, -, -⟩ := (State.dataOk_iff s).1 h
  exact setDma_dataOk h hk (startedJob_fits _ _ _)

theorem whenEngineIdle_dataOk {s : State} (h : s.dataOk = true) {f : State → State}
    (hf : s.dataOk = true → (f s).dataOk = true) : (whenEngineIdle f s).dataOk = true := by
  unfold whenEngineIdle
  split
  · exact disturbEngine_dataOk h
  · exact hf h

theorem dmaWrite_dataOk {s : State} (h : s.dataOk = true) (r : DmaReg) (v : Word) : (dmaWrite r v s).dataOk = true := by
  cases r with
  | ramAddr =>
    have h1 : (s.setDma { s.dma with ramAddr := v }).dataOk = true := setDma_dataOk_same h rfl rfl
    simp only [dmaWrite]
    exact whenEngineIdle_dataOk h1 (fun h => h)
  | peripheralAddr =>
    have h1 : (s.setDma { s.dma with peripheralAddr := v }).dataOk = true := setDma_dataOk_same h rfl rfl
    simp only [dmaWrite]
    exact whenEngineIdle_dataOk h1 (fun h => h)
  | readLen =>
    have h1 : (s.setDma { s.dma with readLen := lengthAfter 6 v s }).dataOk = true := setDma_dataOk_same h rfl rfl
    simp only [dmaWrite]
    exact whenEngineIdle_dataOk h1 (fun h => startJob_dataOk h _ _)
  | writeLen =>
    have h1 : (s.setDma { s.dma with writeLen := lengthAfter 7 v s }).dataOk = true := setDma_dataOk_same h rfl rfl
    simp only [dmaWrite]
    exact whenEngineIdle_dataOk h1 (fun h => startJob_dataOk h _ _)
  | status =>
    simp only [dmaWrite, statusWrite]
    split
    · exact h
    · exact disturbEngine_dataOk h

theorem timingWrite_dataOk {s : State} (h : s.dataOk = true) (p : Nat) (v : Word) : (timingWrite p v s).dataOk = true := by
  obtain ⟨-, -, hk, hj, -⟩ := (State.dataOk_iff s).1 h
  exact setDma_dataOk h (keysRising_keySet p v hk) hj

theorem periphWrite_dataOk {s : State} (h : s.dataOk = true) (p : Word) (b : Byte) : (periphWrite p b s).dataOk = true := by
  unfold periphWrite
  split
  · exact setBrg_dataOk_fifos h rfl rfl
  · exact setBrg_freeBridge_dataOk h _

theorem transferByte_dataOk {s : State} (h : s.dataOk = true) (j : Job) (i : Nat) :
    (transferByte j i s).dataOk = true := by
  unfold transferByte
  split
  · obtain ⟨hm, hr⟩ := (State.dataOk_iff s).1 h
    split
    · exact (State.dataOk_iff _).2 ⟨by simpa using ramWrite_fits hm _ _, by simpa using hr⟩
    · exact (State.dataOk_iff _).2 ⟨Memory.fits_unknown _ _, hr⟩
  · exact periphWrite_dataOk h _ _

theorem dmaMove_dataOk {s : State} (h : s.dataOk = true) (i : Nat) : (dmaMove i s).dataOk = true := by
  unfold dmaMove
  split
  · next he =>
    obtain ⟨-, -, hk, hj, -⟩ := (State.dataOk_iff s).1 h
    simp only [moveEnabled, Bool.and_eq_true, decide_eq_true_eq] at he
    have ht := transferByte_dataOk h s.dma.job i
    have := setDma_dataOk ht (d := { s.dma with job := { s.dma.job with done := indexInsert i s.dma.job.done } }) hk (by
      rw [Job.fits_iff] at hj ⊢
      refine ⟨hj.1, hj.2.1, indicesRising_indexInsert i hj.2.2.1, fun k hk' => ?_⟩
      rcases (mem_indexInsert i k _).1 hk' with rfl | hk'
      · exact he.1.2
      · exact hj.2.2.2 k hk')
    exact this
  · exact h

theorem dmaComplete_dataOk {s : State} (h : s.dataOk = true) : (dmaComplete s).dataOk = true := by
  unfold dmaComplete
  split
  · exact setDma_dataOk_same h rfl rfl
  · exact h

/-! ### Bus transactions -/

theorem bridgeWrite_dataOk {s : State} (h : s.dataOk = true) (r : BridgeReg) (v : Word) :
    (bridgeWrite r v s).dataOk = true := by
  cases r with
  | usbCfg => exact whenUnlocked_dataOk h (fun h => command_dataOk h _)
  | sysCfg => exact whenUnlocked_dataOk h (fun h => setBrg_dataOk_fifos h rfl rfl)
  | key => exact setBrg_dataOk_fifos h rfl rfl
  | ramCfg => exact whenUnlocked_dataOk h (fun h => setBrg_dataOk_fifos h rfl rfl)
  | window => exact whenUnlocked_dataOk h (fun h => setBrg_dataOk_fifos h rfl rfl)
  | other => exact unmappedWrite_dataOk h

theorem busEffect_dataOk {s : State} (h : s.dataOk = true) (a v : Word) : (busEffect a v s).dataOk = true := by
  unfold busEffect
  split
  · exact dmaWrite_dataOk h _ _
  · exact timingWrite_dataOk h _ _
  · exact bridgeWrite_dataOk h _ _
  · exact unmappedWrite_dataOk h

theorem busWrite_dataOk {s : State} (h : s.dataOk = true) (a v : Word) : (busWrite a v s).dataOk = true :=
  busEffect_dataOk h a v

theorem registerWrite_dataOk {s : State} (h : s.dataOk = true) (off v : Word) : (registerWrite off v s).dataOk = true := by
  show (registerEffect off v s).dataOk = true
  unfold registerEffect
  split
  · exact busEffect_dataOk h _ _
  · exact unmappedWrite_dataOk h

theorem abandonPacket_dataOk {s : State} (h : s.dataOk = true) : (abandonPacket s).dataOk = true :=
  setBrg_dataOk_fifos h rfl rfl

theorem writeRegister_dataOk {s : State} (h : s.dataOk = true) (off v : Word) : (writeRegister off v s).dataOk = true := by
  unfold writeRegister
  split
  · split
    · exact abandonPacket_dataOk (registerWrite_dataOk h _ _)
    · exact registerWrite_dataOk h _ _
  · exact registerWrite_dataOk h _ _

theorem readDone_dataOk {s : State} (h : s.dataOk = true) (a : Word) (d : BusData) : (readDone a d s).dataOk = true := h

end Sys2Proof.Machine
end

