-- ==== Sys2Proof/Laws/Routing.lean ====
section
/-! SUPPORT. Where a bus address goes, for legal parameters (20_memory R62, R64, R66): each register's address reaches
that register. -/

namespace Sys2Proof.Machine

theorem mask29 (a : Word) : (a &&& 0x1FFFFFFF#32).toNat = a.toNat % 0x20000000 := by
  rw [BitVec.toNat_and]
  exact Nat.and_two_pow_sub_one_eq_mod a.toNat 29

theorem ramPhys_eq (a : Word) : ramPhys a = a.toNat % 0x20000000 := mask29 a

/-- Masking lands below 0x20000000 (20_memory R66). -/
theorem ramPhys_lt (a : Word) : ramPhys a < 0x20000000 := by
  rw [ramPhys_eq]; omega

theorem physical_physical (a : Word) : physical (physical a) = physical a := by
  simp [physical, BitVec.and_assoc]

theorem physical_of_lt {p : Word} (h : p.toNat < 0x20000000) : physical p = p :=
  BitVec.eq_of_toNat_eq (by rw [physical, mask29]; omega)

/-- The default of `UNCACHED` changes no bit of the bus space. -/
theorem physical_segment (seg : BitVec 3) (p : Word) : physical (p ||| (seg.setWidth 32 <<< 29)) = physical p := by
  apply BitVec.eq_of_getLsbD_eq
  intro i hi
  simp only [physical, BitVec.getLsbD_and, BitVec.getLsbD_or, BitVec.getLsbD_shiftLeft]
  by_cases h : i < 29
  · simp [h]
  · have : (0x1FFFFFFF#32).getLsbD i = false := by
      have : i = 29 ∨ i = 30 ∨ i = 31 := by omega
      rcases this with rfl | rfl | rfl <;> rfl
    simp [this]

theorem Config.legal_uncached {c : Config} (h : c.legal = true) {e : Word × Word} (he : e ∈ c.uncachedAt)
    (hp : e.1.toNat < 0x20000000) : physical e.2 = e.1 := by
  simp only [Config.legal, Bool.and_eq_true, decide_eq_true_eq, List.all_eq_true] at h
  exact h.2 e he hp

/-- The law of the uncached view (20_memory R64). -/
theorem physical_uncached {c : Config} (h : c.legal = true) {p : Word} (hp : p.toNat < 0x20000000) :
    physical (uncached c p) = p := by
  unfold uncached
  split
  · next e he =>
    have h1 : e.1 = p := by simpa using List.find?_some he
    subst h1
    exact Config.legal_uncached h (List.mem_of_find?_eq_some he) hp
  · rw [physical_segment, physical_of_lt hp]

theorem ramPhys_uncached {c : Config} (hl : c.legal = true) {p : Word} (h : p.toNat < 0x20000000) :
    ramPhys (uncached c p) = p.toNat := by
  rw [ramPhys, physical_uncached hl h]

theorem physical_regAddr_toNat {c : Config} (hl : c.legal = true) {off : Word}
    (h : c.bridgeBase.toNat + off.toNat < 0x20000000) :
    ramPhys (regAddr c off) = c.bridgeBase.toNat + off.toNat := by
  have hs : (c.bridgeBase + off).toNat = c.bridgeBase.toNat + off.toNat := by
    rw [BitVec.toNat_add]; omega
  rw [regAddr, ramPhys_uncached hl (by omega), hs]

/-! ### Legal parameters, part by part -/

theorem Config.legal_bridge {c : Config} (h : c.legal = true) : c.bridgeBase.toNat + 0x801B < 0x20000000 := by
  simp only [Config.legal, Bool.and_eq_true, decide_eq_true_eq] at h; omega

theorem Config.legal_dma {c : Config} (h : c.legal = true) : c.dmaBase.toNat + 0x10 < 0x20000000 := by
  simp only [Config.legal, Bool.and_eq_true, decide_eq_true_eq] at h; omega

theorem Config.legal_apart {c : Config} (h : c.legal = true) :
    c.dmaBase.toNat + 0x10 < c.bridgeBase.toNat ∨ c.bridgeBase.toNat + 0x801B < c.dmaBase.toNat := by
  simp only [Config.legal, Bool.and_eq_true, decide_eq_true_eq] at h; exact h.1.1.1.1.1.1.1.2

theorem Config.legal_timing {c : Config} (h : c.legal = true) {e : Word × Word} (he : e ∈ c.dom1Timing) :
    e.1.toNat < 0x20000000 ∧
      (e.1.toNat < c.bridgeBase.toNat ∨ c.bridgeBase.toNat + 0x801B < e.1.toNat) ∧
      (e.1.toNat < c.dmaBase.toNat ∨ c.dmaBase.toNat + 0x10 < e.1.toNat) := by
  simp only [Config.legal, Bool.and_eq_true, decide_eq_true_eq, List.all_eq_true] at h
  have := h.1.1.1.1.1.1.2 e he
  exact ⟨this.1.1, this.1.2, this.2⟩

theorem Config.legal_mask {c : Config} (h : c.legal = true) : c.dmaBusyMask ≠ 0#32 := by
  simp only [Config.legal, Bool.and_eq_true, decide_eq_true_eq] at h; exact h.1.1.1.1.1.2

theorem Config.legal_ram {c : Config} (h : c.legal = true) : c.ramSize ≤ 0x20000000 ∧ c.ramSize % c.lineSize = 0 := by
  simp only [Config.legal, Bool.and_eq_true, decide_eq_true_eq] at h; exact ⟨h.1.1.1.1.2, h.1.1.1.2⟩

theorem Config.legal_scratch {c : Config} (h : c.legal = true) :
    c.scratchAddr.toNat + 512 ≤ 0x100000000 ∧ ramPhys c.scratchAddr + 512 ≤ c.ramSize := by
  simp only [Config.legal, Bool.and_eq_true, decide_eq_true_eq] at h; exact ⟨h.1.1.2, h.1.2⟩

theorem Config.reference_legal : Config.reference.legal = true := by decide

/-! ### Routing -/

theorem dmaRegAt_offset (r : DmaReg) : dmaRegAt r.offset.toNat = some r := by cases r <;> rfl

theorem dmaRegAt_some {d : Nat} {r : DmaReg} (h : dmaRegAt d = some r) : d ≤ 0x10 := by
  unfold dmaRegAt at h
  repeat' split at h
  all_goals first | omega | simp at h

theorem busTarget_regAddr {c : Config} (h : c.legal = true) {off : Word} (ho : off.toNat ≤ bridgeTop) :
    busTarget c (regAddr c off) = .bridge (bridgeReg off.toNat) := by
  have hb := Config.legal_bridge h
  have ha := Config.legal_apart h
  simp only [bridgeTop] at ho
  have hp : ramPhys (regAddr c off) = c.bridgeBase.toNat + off.toNat := physical_regAddr_toNat h (by omega)
  have hother : otherTarget c (c.bridgeBase.toNat + off.toNat) = .bridge (bridgeReg off.toNat) := by
    unfold otherTarget
    rw [if_neg, if_pos]
    · simp
    · simp only [bridgeTop]; omega
    · simp only [List.any_eq_true, decide_eq_true_eq, not_exists, not_and]
      intro e he hne
      have := Config.legal_timing h he
      omega
  simp only [busTarget, hp]
  split
  · next hle =>
    split
    · next r hr =>
      have := dmaRegAt_some hr
      omega
    · exact hother
  · exact hother

theorem busTarget_dmaAddr {c : Config} (h : c.legal = true) (r : DmaReg) : busTarget c (dmaAddr c r) = .dma r := by
  have hd := Config.legal_dma h
  have hr : r.offset.toNat ≤ 0x10 := by cases r <;> decide
  have hs : (c.dmaBase + r.offset).toNat = c.dmaBase.toNat + r.offset.toNat := by
    rw [BitVec.toNat_add]; omega
  have hp : ramPhys (dmaAddr c r) = c.dmaBase.toNat + r.offset.toNat := by
    rw [dmaAddr, ramPhys_uncached h (by omega), hs]
  simp only [busTarget, hp, Nat.le_add_right, if_true, Nat.add_sub_cancel_left, dmaRegAt_offset]

theorem busTarget_timing {c : Config} (h : c.legal = true) {e : Word × Word} (he : e ∈ c.dom1Timing) :
    busTarget c (uncached c e.1) = .timing e.1.toNat := by
  have ht := Config.legal_timing h he
  have hp : ramPhys (uncached c e.1) = e.1.toNat := ramPhys_uncached h ht.1
  have hother : otherTarget c e.1.toNat = .timing e.1.toNat := by
    unfold otherTarget
    rw [if_pos]
    simp only [List.any_eq_true, decide_eq_true_eq]
    exact ⟨e, he, rfl⟩
  simp only [busTarget, hp]
  split
  · split
    · next r hr =>
      have := dmaRegAt_some hr
      omega
    · exact hother
  · exact hother

/-! ### What each register's accesses come to -/

theorem registerEffect_bridge {s : State} (h : s.cfg.legal = true) {off : Word} (ho : off.toNat ≤ bridgeTop) (v : Word) :
    registerEffect off v s = bridgeWrite (bridgeReg off.toNat) v s := by
  simp only [registerEffect, ho, if_true, busEffect, busTarget_regAddr h ho]

theorem registerData_bridge {s : State} (h : s.cfg.legal = true) {off : Word} (ho : off.toNat ≤ bridgeTop) :
    registerData off s = bridgeData (bridgeReg off.toNat) s := by
  simp only [registerData, ho, if_true, busData, busTarget_regAddr h ho]

theorem registerData_usbCfg {s : State} (h : s.cfg.legal = true) (hu : s.brg.unlocked = true) :
    registerData offUsbCfg s = usbStatusData s := by
  rw [registerData_bridge h (by decide)]
  simp [bridgeReg, offUsbCfg, bridgeData, hu]

theorem registerEffect_usbCfg {s : State} (h : s.cfg.legal = true) (hu : s.brg.unlocked = true) (v : Word) :
    registerEffect offUsbCfg v s = command v.low16 s := by
  rw [registerEffect_bridge h (by decide)]
  simp [bridgeReg, offUsbCfg, bridgeWrite, whenUnlocked, hu]

theorem busEffect_dma {s : State} (h : s.cfg.legal = true) (r : DmaReg) (v : Word) :
    busEffect (dmaAddr s.cfg r) v s = dmaWrite r v s := by
  simp only [busEffect, busTarget_dmaAddr h]

theorem busData_status {s : State} (h : s.cfg.legal = true) :
    busData (dmaAddr s.cfg .status) s = dmaStatusData s := by
  simp only [busData, busTarget_dmaAddr h, dmaData]

theorem busEffect_timing {s : State} (h : s.cfg.legal = true) {e : Word × Word} (he : e ∈ s.cfg.dom1Timing) (v : Word) :
    busEffect (uncached s.cfg e.1) v s = timingWrite e.1.toNat v s := by
  simp only [busEffect, busTarget_timing h he]

end Sys2Proof.Machine
end

