-- ==== Sys2Proof/Laws/CacheView.lean ====
section
/-! SUPPORT. What RAM holds and what CLIENT reads after a line's write-back, a cache operation, an eviction and a cache
walk (20_memory R70 to R76, 41_cache_coherence R151 to R154). -/

namespace Sys2Proof.Machine

/-! ### RAM after a run of bytes is written -/

theorem ramWrite_read (a : Nat) (b : Byte) (s : State) (x : Nat) :
    (ramWrite a b s).mem.read x = if x = a ∧ a < s.cfg.ramSize then b else s.mem.read x := by
  unfold ramWrite
  by_cases h : a < s.cfg.ramSize
  · rw [if_pos h]
    simp only [State.setMem, Memory.read_write, h, and_true]
  · rw [if_neg h, if_neg (fun h' => h h'.2)]

theorem ramWriteBytes_read (a : Nat) (bs : List Byte) (s : State) (x : Nat) :
    (ramWriteBytes a bs s).mem.read x =
      if a ≤ x ∧ x < a + bs.length ∧ x < s.cfg.ramSize then (bs[x - a]?).getD 0#8 else s.mem.read x := by
  induction bs generalizing a s with
  | nil => rw [if_neg (by simp; omega)]; rfl
  | cons b rest ih =>
    rw [ramWriteBytes, ih, ramWrite_read, ramWrite_cfg]
    by_cases hx : x = a
    · subst hx
      rw [if_neg (by omega)]
      by_cases hs : x < s.cfg.ramSize
      · rw [if_pos ⟨rfl, hs⟩, if_pos ⟨le_rfl, by simp, hs⟩]; simp
      · rw [if_neg (fun h => hs h.2), if_neg (fun h => hs h.2.2)]
    · rw [if_neg (fun h : x = a ∧ a < s.cfg.ramSize => hx h.1)]
      by_cases h : a + 1 ≤ x ∧ x < a + 1 + rest.length ∧ x < s.cfg.ramSize
      · rw [if_pos h, if_pos ⟨by omega, by simp; omega, h.2.2⟩, show x - a = (x - (a + 1)) + 1 by omega]; simp
      · rw [if_neg h, if_neg (fun h' => h ⟨by omega, by have := h'.2.1; simp at this; omega, h'.2.2⟩)]

/-! ### Lines -/

theorem lineSize_pos (c : Config) : 0 < c.lineSize := Nat.two_pow_pos _

/-- A line that holds a byte of RAM lies whole in RAM. -/
theorem line_in_ram {c : Config} (h : c.legal = true) {x : Nat} (hx : x < c.ramSize) :
    x / c.lineSize * c.lineSize + c.lineSize ≤ c.ramSize := by
  obtain ⟨-, hm⟩ := Config.legal_ram h
  have hp := lineSize_pos c
  obtain ⟨q, hq⟩ := Nat.dvd_of_mod_eq_zero hm
  rw [hq] at hx ⊢
  have := (Nat.div_lt_iff_lt_mul hp).2 (by rw [Nat.mul_comm]; exact hx)
  calc x / c.lineSize * c.lineSize + c.lineSize = (x / c.lineSize + 1) * c.lineSize := by ring
    _ ≤ q * c.lineSize := Nat.mul_le_mul_right _ this
    _ = c.lineSize * q := Nat.mul_comm _ _

theorem in_line_iff {c : Config} {l x : Nat} : l * c.lineSize ≤ x ∧ x < l * c.lineSize + c.lineSize ↔ x / c.lineSize = l := by
  have hp := lineSize_pos c
  rw [Nat.div_eq_iff hp]
  constructor
  · intro ⟨h1, h2⟩; omega
  · intro ⟨h1, h2⟩; omega

theorem line_place {c : Config} (x : Nat) : x / c.lineSize * c.lineSize + x % c.lineSize = x := Nat.div_add_mod' x _

/-- RAM after a line's write-back. -/
theorem writeBackLine_read {l : Nat} {ln : Line} {s : State} (hd : ln.data.length = s.cfg.lineSize) (x : Nat) :
    (writeBackLine l ln s).mem.read x =
      if ln.dirty = true ∧ x / s.cfg.lineSize = l ∧ x < s.cfg.ramSize then ln.byte (x - l * s.cfg.lineSize)
      else s.mem.read x := by
  unfold writeBackLine
  by_cases hdirty : ln.dirty = true
  · rw [if_pos hdirty, ramWriteBytes_read, hd]
    by_cases h : x / s.cfg.lineSize = l ∧ x < s.cfg.ramSize
    · obtain ⟨h1, h2⟩ := in_line_iff.2 h.1
      rw [if_pos ⟨h1, h2, h.2⟩, if_pos ⟨hdirty, h⟩]; rfl
    · rw [if_neg (fun h' => h ⟨in_line_iff.1 ⟨h'.1, h'.2.1⟩, h'.2.2⟩), if_neg (fun h' => h h'.2)]
  · rw [if_neg hdirty, if_neg (fun h => hdirty h.1)]

theorem writeBackLine_read_other {l : Nat} {ln : Line} {s : State} (hd : ln.data.length = s.cfg.lineSize) {x : Nat}
    (h : x / s.cfg.lineSize ≠ l) : (writeBackLine l ln s).mem.read x = s.mem.read x := by
  rw [writeBackLine_read hd, if_neg (fun h' => h h'.2.1)]

/-- CLIENT's view of a byte: of the line that holds it, the byte at its place. -/
theorem cpuByte_eq (s : State) (a : Word) :
    cpuByte s a = (lineFor (ramPhys a / s.cfg.lineSize) s).byte (ramPhys a % s.cfg.lineSize) := rfl

theorem filledLine_byte (l : Nat) (s : State) {k : Nat} (hk : k < s.cfg.lineSize) :
    (filledLine l s).byte k = s.mem.read (l * s.cfg.lineSize + k) := by
  simp [filledLine, Line.byte, ramReadBytes, hk]

theorem cpuByte_absent {s : State} {a : Word} (h : keyGet (lineIndex s.cfg a) s.cache = none) :
    cpuByte s a = s.mem.read (ramPhys a) := by
  have hp := lineSize_pos s.cfg
  rw [cpuByte_eq]
  unfold lineFor
  rw [show ramPhys a / s.cfg.lineSize = lineIndex s.cfg a from rfl, h]
  simp only [Option.getD_none]
  rw [filledLine_byte _ _ (Nat.mod_lt _ hp)]
  exact congrArg _ (line_place _)

theorem cpuByte_present {s : State} {a : Word} {ln : Line} (h : keyGet (lineIndex s.cfg a) s.cache = some ln) :
    cpuByte s a = ln.byte (lineOffset s.cfg a) := by
  unfold cpuByte lineFor; rw [h]; rfl

/-- Two states that agree on a byte's line, and on RAM if the line is absent, show CLIENT the same byte. -/
theorem cpuByte_congr {s t : State} (hc : t.cfg = s.cfg) {a : Word}
    (hk : keyGet (lineIndex s.cfg a) t.cache = keyGet (lineIndex s.cfg a) s.cache)
    (hm : keyGet (lineIndex s.cfg a) s.cache = none → t.mem.read (ramPhys a) = s.mem.read (ramPhys a)) :
    cpuByte t a = cpuByte s a := by
  cases h : keyGet (lineIndex s.cfg a) s.cache with
  | none => rw [cpuByte_absent h, cpuByte_absent (by rw [hc, hk, h]), hm h]
  | some ln => rw [cpuByte_present h, cpuByte_present (by rw [hc, hk, h]), hc]

/-! ### A cache operation and an eviction, on one line -/

/-- All that a cache operation on a line that is not in the cache does: nothing. -/
theorem cacheEffect_absent {kind : CacheKind} {a : Word} {s : State} (h : keyGet (lineIndex s.cfg a) s.cache = none) :
    cacheEffect kind a s = s := by
  unfold cacheEffect; rw [h]

/-- All that a cache operation on a line in the cache does. -/
theorem cacheEffect_present {kind : CacheKind} {a : Word} {s : State} {ln : Line}
    (h : keyGet (lineIndex s.cfg a) s.cache = some ln) :
    cacheEffect kind a s =
      (writeBackLine (lineIndex s.cfg a) ln s).setCache (cacheAfter kind (lineIndex s.cfg a) ln s.cache) := by
  unfold cacheEffect; rw [h]

theorem cacheAfter_other (kind : CacheKind) {l j : Nat} (h : j ≠ l) (ln : Line) (c : List (Nat × Line)) :
    keyGet j (cacheAfter kind l ln c) = keyGet j c := by
  cases kind
  · exact keyGet_keySet_other h _ _
  · unfold cacheAfter; rw [keyGet_keyErase, if_neg h]

theorem cacheAfter_self (kind : CacheKind) (l : Nat) (ln : Line) (c : List (Nat × Line)) :
    keyGet l (cacheAfter kind l ln c) =
      match kind with | .wb => some { ln with dirty := false } | .wbinv => none := by
  cases kind
  · exact keyGet_keySet_self _ _ _
  · unfold cacheAfter; rw [keyGet_keyErase, if_pos rfl]

theorem cacheEffect_other {kind : CacheKind} {a : Word} {s : State} {j : Nat} (h : j ≠ lineIndex s.cfg a) :
    keyGet j (cacheEffect kind a s).cache = keyGet j s.cache := by
  cases hk : keyGet (lineIndex s.cfg a) s.cache with
  | none => rw [cacheEffect_absent hk]
  | some ln => rw [cacheEffect_present hk]; exact cacheAfter_other kind h ln s.cache

theorem cacheEffect_read_other {kind : CacheKind} {a : Word} {s : State} (hf : cacheFits s.cfg s.cache = true) {x : Nat}
    (h : x / s.cfg.lineSize ≠ lineIndex s.cfg a) : (cacheEffect kind a s).mem.read x = s.mem.read x := by
  cases hk : keyGet (lineIndex s.cfg a) s.cache with
  | none => rw [cacheEffect_absent hk]
  | some ln => rw [cacheEffect_present hk]; exact writeBackLine_read_other (cacheFits_line hf hk) h

/-- The bytes of a line that is written back: what CLIENT read of them, if the line was not stale. -/
theorem writeBack_read {s : State} {a : Word} {ln : Line} (hf : cacheFits s.cfg s.cache = true)
    (hr : ramPhys a < s.cfg.ramSize) (hk : keyGet (lineIndex s.cfg a) s.cache = some ln)
    (hs : ln.dirty = false →
      ln.data = ramReadBytes (lineIndex s.cfg a * s.cfg.lineSize) s.cfg.lineSize s) :
    (writeBackLine (lineIndex s.cfg a) ln s).mem.read (ramPhys a) = cpuByte s a := by
  have hoff : ramPhys a - lineIndex s.cfg a * s.cfg.lineSize = lineOffset s.cfg a := by
    have := line_place (c := s.cfg) (ramPhys a)
    unfold lineIndex lineOffset; omega
  rw [cpuByte_present hk, writeBackLine_read (cacheFits_line hf hk)]
  by_cases hd : ln.dirty = true
  · rw [if_pos ⟨hd, rfl, hr⟩, hoff]
  · rw [if_neg (fun h => hd h.1)]
    have hlt : lineOffset s.cfg a < s.cfg.lineSize := Nat.mod_lt _ (lineSize_pos _)
    unfold Line.byte
    rw [hs (by simpa using hd)]
    simp only [ramReadBytes, List.getElem?_map, List.getElem?_range hlt, Option.map_some, Option.getD_some]
    congr 1
    unfold lineIndex lineOffset; exact (line_place _).symm

/-- What CLIENT reads does not change by a cache operation; for WBINV the line is not stale. -/
theorem cacheEffect_cpuByte {kind : CacheKind} {a : Word} {s : State} (hf : cacheFits s.cfg s.cache = true)
    (hs : kind = .wb ∨ ∀ ln, keyGet (lineIndex s.cfg a) s.cache = some ln → ln.dirty = false →
      ln.data = ramReadBytes (lineIndex s.cfg a * s.cfg.lineSize) s.cfg.lineSize s)
    {b : Word} (hb : ramPhys b < s.cfg.ramSize) : cpuByte (cacheEffect kind a s) b = cpuByte s b := by
  by_cases hl : lineIndex s.cfg b = lineIndex s.cfg a
  · cases hk : keyGet (lineIndex s.cfg a) s.cache with
    | none => rw [cacheEffect_absent hk]
    | some ln =>
      have hkb : keyGet (lineIndex s.cfg b) s.cache = some ln := by rw [hl, hk]
      rw [cacheEffect_present hk]
      cases kind with
      | wb =>
        rw [cpuByte_present hkb]
        refine (cpuByte_present (ln := { ln with dirty := false }) ?_).trans ?_
        · simp only [State.setCache, writeBackLine_cfg, hl]
          exact cacheAfter_self .wb _ ln s.cache
        · simp only [State.setCache, writeBackLine_cfg]; rfl
      | wbinv =>
        refine (cpuByte_absent ?_).trans ?_
        · simp only [State.setCache, writeBackLine_cfg, hl]
          exact cacheAfter_self .wbinv _ ln s.cache
        · rw [← hl]
          exact writeBack_read hf hb hkb (fun hd => by rw [hl]; exact (hs.resolve_left (by simp)) ln hk hd)
  · refine cpuByte_congr (by simp) (cacheEffect_other hl) (fun _ => cacheEffect_read_other hf hl)

theorem evictLine_absent {l : Nat} {s : State} (h : keyGet l s.cache = none) : evictLine l s = s := by
  unfold evictLine; rw [h]

theorem evictLine_present {l : Nat} {s : State} {ln : Line} (h : keyGet l s.cache = some ln) :
    evictLine l s = (writeBackLine l ln s).setCache (keyErase l s.cache) := by
  unfold evictLine; rw [h]

theorem evictLine_get (l j : Nat) (s : State) :
    keyGet j (evictLine l s).cache = if j = l then none else keyGet j s.cache := by
  cases h : keyGet l s.cache with
  | none =>
    rw [evictLine_absent h]
    by_cases hj : j = l
    · rw [if_pos hj, hj, h]
    · rw [if_neg hj]
  | some ln => rw [evictLine_present h]; exact keyGet_keyErase j l s.cache

theorem evictLine_cpuByte {l : Nat} {s : State} (hf : cacheFits s.cfg s.cache = true)
    (hs : ∀ ln, keyGet l s.cache = some ln → ln.dirty = false →
      ln.data = ramReadBytes (l * s.cfg.lineSize) s.cfg.lineSize s)
    {b : Word} (hb : ramPhys b < s.cfg.ramSize) : cpuByte (evictLine l s) b = cpuByte s b := by
  cases h : keyGet l s.cache with
  | none => rw [evictLine_absent h]
  | some ln =>
    rw [evictLine_present h]
    by_cases hl : lineIndex s.cfg b = l
    · subst hl
      refine (cpuByte_absent ?_).trans (writeBack_read hf hb h (hs ln h))
      simp only [State.setCache, writeBackLine_cfg]
      rw [keyGet_keyErase, if_pos rfl]
    · refine cpuByte_congr (by simp [State.setCache]) ?_ (fun _ => writeBackLine_read_other (cacheFits_line hf h) hl)
      simp only [State.setCache]
      rw [keyGet_keyErase, if_neg hl]

/-! ### A walk over consecutive lines (41_cache_coherence R151, R153, R154) -/

/-- The state after the first `n` cache operations of a walk that starts at the line at cached-view address
`q * CACHE_LINE`. -/
def walkOps (kind : CacheKind) (q : Nat) : Nat → State → State
  | 0, s => s
  | n + 1, s => cacheOp kind (BitVec.ofNat 32 ((q + n) * s.cfg.lineSize)) (walkOps kind q n s)

theorem cacheOp_shape (kind : CacheKind) (a : Word) (s : State) :
    cacheOp kind a s = { s with
      mem := (cacheOp kind a s).mem, cache := (cacheOp kind a s).cache, trace := .cacheOp kind a :: s.trace } := by
  unfold cacheOp cacheEffect
  split
  · have h : ∀ (l : Nat) (ln : Line) (t : State), writeBackLine l ln t = t.setMem (writeBackLine l ln t).mem := by
      intro l ln t
      have hw : ∀ (bs : List Byte) (x : Nat) (u : State), ramWriteBytes x bs u = u.setMem (ramWriteBytes x bs u).mem := by
        intro bs
        induction bs with
        | nil => intro x u; rfl
        | cons b rest ih =>
          intro x u
          have h1 : ramWrite x b u = u.setMem (ramWrite x b u).mem := by unfold ramWrite; split <;> rfl
          rw [ramWriteBytes, ih, h1]; rfl
      unfold writeBackLine
      split
      · exact hw _ _ _
      · rfl
    rw [h]; rfl
  · rfl

theorem ramWriteBytes_congr {s t : State} (hc : t.cfg = s.cfg) (hm : t.mem = s.mem) (a : Nat) (bs : List Byte) :
    (ramWriteBytes a bs t).mem = (ramWriteBytes a bs s).mem := by
  induction bs generalizing a s t with
  | nil => exact hm
  | cons b rest ih =>
    refine ih (by simp [hc]) ?_ (a + 1)
    unfold ramWrite
    rw [hc, hm]
    split
    · rfl
    · exact hm

theorem cacheOp_congr {s t : State} (hc : t.cfg = s.cfg) (hm : t.mem = s.mem) (hk : t.cache = s.cache) (kind : CacheKind)
    (a : Word) : (cacheOp kind a t).mem = (cacheOp kind a s).mem ∧ (cacheOp kind a t).cache = (cacheOp kind a s).cache := by
  unfold cacheOp cacheEffect
  rw [hc, hk]
  split
  · rename_i ln _
    refine ⟨?_, rfl⟩
    change (writeBackLine _ ln t).mem = (writeBackLine _ ln s).mem
    unfold writeBackLine
    rw [hc]
    split
    · exact ramWriteBytes_congr hc hm _ _
    · exact hm
  · exact ⟨hm, hk⟩

/-- A walk changes RAM, cache and trace only, and its trace is its operations in ascending order. -/
theorem walkOps_shape (kind : CacheKind) (q n : Nat) (s : State) :
    walkOps kind q n s = { s with
      mem := (walkOps kind q n s).mem, cache := (walkOps kind q n s).cache
      trace := (List.range n).reverse.map (fun j =>
        Transaction.cacheOp kind (BitVec.ofNat 32 ((q + j) * s.cfg.lineSize))) ++ s.trace } := by
  induction n with
  | zero => rfl
  | succ n ih =>
    rw [walkOps, cacheOp_shape]
    generalize hm : (cacheOp kind _ _).mem = m
    generalize hc : (cacheOp kind _ _).cache = c
    rw [ih]
    simp only [List.range_succ, List.reverse_append, List.reverse_cons, List.reverse_nil, List.nil_append,
      List.cons_append, List.map_cons]

theorem walkOps_cfg (kind : CacheKind) (q n : Nat) (s : State) : (walkOps kind q n s).cfg = s.cfg := by
  rw [walkOps_shape]

/-- A walk's effect on RAM and cache depends on RAM and cache alone. -/
theorem walkOps_congr {s t : State} (hc : t.cfg = s.cfg) (hm : t.mem = s.mem) (hk : t.cache = s.cache) (kind : CacheKind)
    (q n : Nat) :
    (walkOps kind q n t).mem = (walkOps kind q n s).mem ∧ (walkOps kind q n t).cache = (walkOps kind q n s).cache := by
  induction n with
  | zero => exact ⟨hm, hk⟩
  | succ n ih =>
    simp only [walkOps]
    rw [hc]
    exact cacheOp_congr (by rw [walkOps_cfg, walkOps_cfg, hc]) ih.1 ih.2 kind _

theorem lineSize_dvd (c : Config) : ∃ g, 0x20000000 = c.lineSize * g := by
  refine ⟨2 ^ (29 - c.lineBits.val), ?_⟩
  have := c.lineBits.isLt
  unfold Config.lineSize
  rw [← Nat.pow_add, show c.lineBits.val + (29 - c.lineBits.val) = 29 by omega]

theorem div_split {n g : Nat} (hp : 0 < n) (hg : 0x20000000 = n * g) (x : Nat) :
    x / n = x / 0x20000000 * g + x % 0x20000000 / n := by
  conv_lhs => rw [← Nat.div_add_mod x 0x20000000]
  rw [show 0x20000000 * (x / 0x20000000) = n * (x / 0x20000000 * g) by rw [hg]; ring, Nat.mul_add_div hp]

/-- The line of a walk's `j`-th operation, when the walked range lies in RAM. -/
theorem walk_line {c : Config} {addr : Word} {j : Nat} (hl : c.legal = true)
    (hj : (ramPhys addr / c.lineSize + j) * c.lineSize < c.ramSize)
    (h32 : (addr.toNat / c.lineSize + j) * c.lineSize < 0x100000000) :
    ramPhys (BitVec.ofNat 32 ((addr.toNat / c.lineSize + j) * c.lineSize)) =
      (ramPhys addr / c.lineSize + j) * c.lineSize := by
  obtain ⟨hr, -⟩ := Config.legal_ram hl
  have hp := lineSize_pos c
  obtain ⟨g, hg⟩ := lineSize_dvd c
  rw [ramPhys_eq, BitVec.toNat_ofNat, Nat.mod_eq_of_lt (show _ < 2 ^ 32 from h32)]
  rw [ramPhys_eq] at hj ⊢
  have hdiv := div_split hp hg addr.toNat
  rw [hdiv, show (addr.toNat / 0x20000000 * g + addr.toNat % 0x20000000 / c.lineSize + j) * c.lineSize =
    (addr.toNat % 0x20000000 / c.lineSize + j) * c.lineSize + (c.lineSize * g) * (addr.toNat / 0x20000000) by ring, ← hg,
    Nat.add_mul_mod_self_left, Nat.mod_eq_of_lt (by omega)]

theorem lineFirst_eq (c : Config) (a : Word) :
    lineFirst c a = BitVec.ofNat 32 (a.toNat / c.lineSize * c.lineSize) := by
  unfold lineFirst
  congr 1
  have := Nat.div_add_mod' a.toNat c.lineSize
  omega

theorem toNat_pos {len : Word} (h : len ≠ 0#32) : 0 < len.toNat :=
  Nat.pos_of_ne_zero fun h' => h (BitVec.eq_of_toNat_eq h')

theorem lineLast_eq (c : Config) {addr len : Word} (h0 : len ≠ 0#32) (h32 : addr.toNat + len.toNat ≤ 0x100000000) :
    lineLast c addr len = BitVec.ofNat 32 ((addr.toNat + len.toNat - 1) / c.lineSize * c.lineSize) := by
  unfold lineLast
  rw [lineFirst_eq]
  have := toNat_pos h0
  congr 3
  rw [BitVec.toNat_add, BitVec.toNat_sub]
  simp only [BitVec.toNat_ofNat]
  omega

/-- The lines of a range in RAM: how many after the first, and where (41_cache_coherence R151). -/
theorem range_lines {c : Config} (hl : c.legal = true) {addr len : Word} (h0 : len ≠ 0#32)
    (h32 : addr.toNat + len.toNat ≤ 0x100000000) (hr : ramPhys addr + len.toNat ≤ c.ramSize) :
    ∃ m, (addr.toNat + len.toNat - 1) / c.lineSize = addr.toNat / c.lineSize + m ∧
      (addr.toNat / c.lineSize + m) * c.lineSize < 0x100000000 ∧
      ramPhys addr / c.lineSize + m = (ramPhys addr + len.toNat - 1) / c.lineSize ∧
      ∀ j, j ≤ m → (ramPhys addr / c.lineSize + j) * c.lineSize < c.ramSize ∧
        (addr.toNat / c.lineSize + j) * c.lineSize < 0x100000000 := by
  have hp := lineSize_pos c
  have hpos := toNat_pos h0
  obtain ⟨hram, -⟩ := Config.legal_ram hl
  obtain ⟨g, hg⟩ := lineSize_dvd c
  have d1 := div_split hp hg addr.toNat
  have d2 := div_split hp hg (addr.toNat + len.toNat - 1)
  rw [ramPhys_eq] at hr ⊢
  have hsum : addr.toNat % 0x20000000 + len.toNat - 1 < 0x20000000 := by omega
  have e1 : (addr.toNat + len.toNat - 1) / 0x20000000 = addr.toNat / 0x20000000 := by omega
  have e2 : (addr.toNat + len.toNat - 1) % 0x20000000 = addr.toNat % 0x20000000 + len.toNat - 1 := by omega
  rw [e1, e2] at d2
  have hle : addr.toNat % 0x20000000 / c.lineSize ≤ (addr.toNat % 0x20000000 + len.toNat - 1) / c.lineSize :=
    Nat.div_le_div_right (by omega)
  have hle' : addr.toNat / c.lineSize ≤ (addr.toNat + len.toNat - 1) / c.lineSize := Nat.div_le_div_right (by omega)
  refine ⟨(addr.toNat + len.toNat - 1) / c.lineSize - addr.toNat / c.lineSize, by omega, ?_, by omega, ?_⟩
  · rw [Nat.add_sub_cancel' hle']
    exact lt_of_le_of_lt (Nat.div_mul_le_self _ _) (by omega)
  · intro j hj
    constructor
    · refine lt_of_le_of_lt (Nat.mul_le_mul_right _ (show _ ≤ (addr.toNat % 0x20000000 + len.toNat - 1) / c.lineSize by omega)) ?_
      exact lt_of_le_of_lt (Nat.div_mul_le_self _ _) (by omega)
    · refine lt_of_le_of_lt (Nat.mul_le_mul_right _ (show _ ≤ (addr.toNat + len.toNat - 1) / c.lineSize by omega)) ?_
      exact lt_of_le_of_lt (Nat.div_mul_le_self _ _) (by omega)

/-- What the cache and RAM hold after `n` operations of a walk whose lines lie in RAM. -/
theorem walkOps_effect {kind : CacheKind} {addr : Word} {n : Nat} {s : State} (hl : s.cfg.legal = true)
    (hf : cacheFits s.cfg s.cache = true)
    (hr : ∀ j, j < n → (ramPhys addr / s.cfg.lineSize + j) * s.cfg.lineSize < s.cfg.ramSize)
    (h32 : ∀ j, j < n → (addr.toNat / s.cfg.lineSize + j) * s.cfg.lineSize < 0x100000000) :
    (∀ l, keyGet l (walkOps kind (addr.toNat / s.cfg.lineSize) n s).cache =
      if ramPhys addr / s.cfg.lineSize ≤ l ∧ l < ramPhys addr / s.cfg.lineSize + n then
        (match kind with | .wb => (keyGet l s.cache).map (fun ln => { ln with dirty := false }) | .wbinv => none)
      else keyGet l s.cache) ∧
    cacheFits s.cfg (walkOps kind (addr.toNat / s.cfg.lineSize) n s).cache = true ∧
    (∀ x, ¬ (ramPhys addr / s.cfg.lineSize ≤ x / s.cfg.lineSize ∧
        x / s.cfg.lineSize < ramPhys addr / s.cfg.lineSize + n) →
      (walkOps kind (addr.toNat / s.cfg.lineSize) n s).mem.read x = s.mem.read x) ∧
    (∀ b : Word, ramPhys b < s.cfg.ramSize →
      (ramPhys addr / s.cfg.lineSize ≤ lineIndex s.cfg b ∧ lineIndex s.cfg b < ramPhys addr / s.cfg.lineSize + n) →
      (∀ ln, keyGet (lineIndex s.cfg b) s.cache = some ln → ln.dirty = false →
        ln.data = ramReadBytes (lineIndex s.cfg b * s.cfg.lineSize) s.cfg.lineSize s) →
      (walkOps kind (addr.toNat / s.cfg.lineSize) n s).mem.read (ramPhys b) = cpuByte s b) := by
  induction n with
  | zero =>
    refine ⟨fun l => by rw [if_neg (by omega)]; rfl, hf, fun _ _ => rfl, fun b _ h => by omega⟩
  | succ n ih =>
    obtain ⟨h1, h2, h3, h4⟩ := ih (fun j hj => hr j (by omega)) (fun j hj => h32 j (by omega))
    have hcfg : (walkOps kind (addr.toNat / s.cfg.lineSize) n s).cfg = s.cfg := by rw [walkOps_shape]
    have hline : lineIndex s.cfg (BitVec.ofNat 32 ((addr.toNat / s.cfg.lineSize + n) * s.cfg.lineSize)) =
        ramPhys addr / s.cfg.lineSize + n := by
      unfold lineIndex
      rw [walk_line hl (hr n (by omega)) (h32 n (by omega)), Nat.mul_div_cancel _ (lineSize_pos _)]
    simp only [walkOps]
    generalize walkOps kind (addr.toNat / s.cfg.lineSize) n s = u at h1 h2 h3 h4 hcfg
    generalize BitVec.ofNat 32 ((addr.toNat / s.cfg.lineSize + n) * s.cfg.lineSize) = a at hline
    have hline : lineIndex u.cfg a = ramPhys addr / s.cfg.lineSize + n := by rw [hcfg]; exact hline
    rw [← hcfg] at h2
    have hself : keyGet (lineIndex u.cfg a) u.cache = keyGet (lineIndex u.cfg a) s.cache := by
      rw [h1, hline, if_neg (by omega)]
    have hother : ∀ j, j ≠ lineIndex u.cfg a → keyGet j (cacheOp kind a u).cache = keyGet j u.cache :=
      fun j hj => cacheEffect_other hj
    refine ⟨fun l => ?_, ?_, fun x hx => ?_, fun b hb hbl hns => ?_⟩
    · by_cases hla : l = lineIndex u.cfg a
      · rw [if_pos (by omega)]
        change keyGet l (cacheEffect kind a u).cache = _
        cases hk : keyGet (lineIndex u.cfg a) u.cache with
        | none =>
          rw [cacheEffect_absent hk, hla, hk, ← hself, hk]; cases kind <;> rfl
        | some ln =>
          rw [cacheEffect_present hk, hla]
          refine (cacheAfter_self kind _ ln u.cache).trans ?_
          rw [← hself, hk]; cases kind <;> rfl
      · rw [hother l hla, h1]
        by_cases hin : ramPhys addr / s.cfg.lineSize ≤ l ∧ l < ramPhys addr / s.cfg.lineSize + n
        · rw [if_pos hin, if_pos (by omega)]
        · rw [if_neg hin, if_neg (by omega)]
    · rw [← hcfg]
      change cacheFits u.cfg (cacheEffect kind a u).cache = true
      cases hk : keyGet (lineIndex u.cfg a) u.cache with
      | none => rw [cacheEffect_absent hk]; exact h2
      | some ln =>
        rw [cacheEffect_present hk]
        exact cacheAfter_fits h2 kind hk
    · refine Eq.trans ?_ (h3 x (by omega))
      exact cacheEffect_read_other h2 (by rw [hline, hcfg]; omega)
    · by_cases hla : lineIndex s.cfg b = lineIndex u.cfg a
      · have hview : cpuByte u b = cpuByte s b := by
          refine cpuByte_congr hcfg ?_ (fun _ => h3 _ ?_)
          · rw [h1, if_neg (by rw [hla, hline]; omega)]
          · rw [show ramPhys b / s.cfg.lineSize = lineIndex s.cfg b from rfl, hla, hline]; omega
        change (cacheEffect kind a u).mem.read (ramPhys b) = _
        cases hk : keyGet (lineIndex u.cfg a) u.cache with
        | none =>
          rw [cacheEffect_absent hk, ← hview]
          exact (cpuByte_absent (by rw [hcfg, hla]; exact hk)).symm
        | some ln =>
          rw [cacheEffect_present hk, ← hview]
          have hab : lineIndex u.cfg b = lineIndex u.cfg a := by rw [hcfg, hla, hcfg]
          rw [← hab] at hk ⊢
          refine writeBack_read h2 (by rw [hcfg]; exact hb) hk (fun hd => ?_)
          have hk' : keyGet (lineIndex s.cfg b) s.cache = some ln := by rw [hla, ← hself, ← hab]; exact hk
          rw [hns ln hk' hd, hcfg]
          unfold ramReadBytes
          apply List.map_congr_left
          intro i hi
          refine (h3 _ ?_).symm
          have hi' : i < s.cfg.lineSize := by simpa using hi
          have : (lineIndex s.cfg b * s.cfg.lineSize + i) / s.cfg.lineSize = lineIndex s.cfg b :=
            in_line_iff.1 ⟨by omega, by omega⟩
          rw [this, hla, hline]; omega
      · refine Eq.trans (cacheEffect_read_other h2 ?_) (h4 b hb (by omega) hns)
        rw [show ramPhys b / u.cfg.lineSize = lineIndex u.cfg b from rfl, hcfg]
        rw [hcfg] at hla; exact hla

theorem ramPhys_add {c : Config} (hl : c.legal = true) {a : Word} {j : Nat} (h : ramPhys a + j < c.ramSize)
    (h32 : a.toNat + j < 0x100000000) : ramPhys (a + BitVec.ofNat 32 j) = ramPhys a + j := by
  obtain ⟨hr, -⟩ := Config.legal_ram hl
  rw [ramPhys_eq] at h ⊢
  rw [ramPhys_eq, BitVec.toNat_add, BitVec.toNat_ofNat]
  omega

/-- A whole walk over a range in RAM: RAM holds what CLIENT read of the range's bytes on lines that were not stale; the
lines are clean (WB) or gone (WBINV), the others untouched; what CLIENT reads is unchanged. -/
theorem walk_range_effect {kind : CacheKind} {addr len : Word} {m : Nat} {s : State} (hl : s.cfg.legal = true)
    (hf : cacheFits s.cfg s.cache = true) (h0 : len ≠ 0#32) (h32 : addr.toNat + len.toNat ≤ 0x100000000)
    (hr : ramPhys addr + len.toNat ≤ s.cfg.ramSize)
    (hm : (addr.toNat + len.toNat - 1) / s.cfg.lineSize = addr.toNat / s.cfg.lineSize + m) :
    let t := walkOps kind (addr.toNat / s.cfg.lineSize) (m + 1) s
    cacheFits s.cfg t.cache = true ∧
    (∀ l, keyGet l t.cache =
      if ramPhys addr / s.cfg.lineSize ≤ l ∧ l ≤ (ramPhys addr + len.toNat - 1) / s.cfg.lineSize then
        (match kind with | .wb => (keyGet l s.cache).map (fun ln => { ln with dirty := false }) | .wbinv => none)
      else keyGet l s.cache) ∧
    (∀ j, j < len.toNat → s.notStale ((ramPhys addr + j) / s.cfg.lineSize) →
      t.mem.read (ramPhys addr + j) = cpuByte s (addr + BitVec.ofNat 32 j)) ∧
    (∀ x, ¬ (ramPhys addr / s.cfg.lineSize ≤ x / s.cfg.lineSize ∧
        x / s.cfg.lineSize ≤ (ramPhys addr + len.toNat - 1) / s.cfg.lineSize) → t.mem.read x = s.mem.read x) ∧
    (∀ b : Word, ramPhys b < s.cfg.ramSize → kind = .wb ∨ s.notStale (lineIndex s.cfg b) → cpuByte t b = cpuByte s b) := by
  obtain ⟨m', hm', h1, h2, h3⟩ := range_lines hl h0 h32 hr
  have : m' = m := by omega
  subst this
  obtain ⟨w1, w2, w3, w4⟩ := walkOps_effect (kind := kind) (n := m' + 1) hl hf
    (fun j hj => (h3 j (by omega)).1) (fun j hj => (h3 j (by omega)).2)
  have hin : ∀ l, (ramPhys addr / s.cfg.lineSize ≤ l ∧ l < ramPhys addr / s.cfg.lineSize + (m' + 1)) ↔
      (ramPhys addr / s.cfg.lineSize ≤ l ∧ l ≤ (ramPhys addr + len.toNat - 1) / s.cfg.lineSize) := fun l => by omega
  simp only [hin] at w1 w3 w4
  have hcfg : (walkOps kind (addr.toNat / s.cfg.lineSize) (m' + 1) s).cfg = s.cfg := by rw [walkOps_shape]
  intro t
  refine ⟨w2, w1, fun j hj hns => ?_, w3, fun b hb hk => ?_⟩
  · have ha := ramPhys_add hl (a := addr) (j := j) (by omega) (by omega)
    rw [← ha] at hns ⊢
    refine w4 _ (by rw [ha]; omega) ?_ hns
    unfold lineIndex
    rw [ha]
    exact ⟨Nat.div_le_div_right (by omega), Nat.div_le_div_right (by omega)⟩
  · by_cases hbl : ramPhys addr / s.cfg.lineSize ≤ lineIndex s.cfg b ∧
        lineIndex s.cfg b ≤ (ramPhys addr + len.toNat - 1) / s.cfg.lineSize
    · have hg := w1 (lineIndex s.cfg b)
      rw [if_pos hbl] at hg
      cases hkb : keyGet (lineIndex s.cfg b) s.cache with
      | none =>
        have hn : keyGet (lineIndex s.cfg b) t.cache = none := by
          rw [show keyGet _ t.cache = _ from hg, hkb]; cases kind <;> rfl
        rw [cpuByte_absent (s := t) (by rw [show t.cfg = s.cfg from hcfg]; exact hn)]
        exact w4 b hb hbl (fun ln h => by rw [hkb] at h; cases h)
      | some ln =>
        cases kind with
        | wb =>
          rw [hkb] at hg
          rw [cpuByte_present (s := t) (ln := { ln with dirty := false })
            (by rw [show t.cfg = s.cfg from hcfg]; exact hg), cpuByte_present hkb, show t.cfg = s.cfg from hcfg]
          rfl
        | wbinv =>
          rw [cpuByte_absent (s := t) (by rw [show t.cfg = s.cfg from hcfg]; exact hg)]
          exact w4 b hb hbl (hk.resolve_left (by simp))
    · refine cpuByte_congr hcfg ?_ (fun _ => w3 _ hbl)
      have hg := w1 (lineIndex s.cfg b)
      rw [if_neg hbl] at hg
      exact hg

end Sys2Proof.Machine
end

