-- ==== Sys2Proof/Laws/Sequencer.lean ====
section
/-! SUPPORT. What a step of SEQ can do, said once: its phase's one transaction, and otherwise only SEQ's registers and
CLIENT's responses (00_scope R12). Every routine between two transactions is covered by one lemma. -/

namespace Sys2Proof.Machine

/-- The state a routine leads to. -/
def Flow.state : Flow → State
  | .goto _ _ s => s
  | .ret _ s => s

/-- Two states differ at most in SEQ's registers. -/
def State.SeqOnly (s t : State) : Prop := ∃ q, t = s.setSeq q

/-- Two states differ at most in SEQ's registers and in the responses CLIENT has had. -/
def State.SeqAndResponses (s t : State) : Prop :=
  ∃ q rs, t = (s.setSeq q).setClient { s.client with responses := rs }

theorem State.SeqOnly.refl (s : State) : s.SeqOnly s := ⟨s.seq, rfl⟩

theorem State.SeqOnly.trans {s t u : State} (h : s.SeqOnly t) (h' : t.SeqOnly u) : s.SeqOnly u := by
  obtain ⟨q, rfl⟩ := h
  obtain ⟨q', rfl⟩ := h'
  exact ⟨q', rfl⟩

theorem State.SeqOnly.setSeq (s : State) (q : Sequencer) : s.SeqOnly (s.setSeq q) := ⟨q, rfl⟩

theorem State.SeqAndResponses.refl (s : State) : s.SeqAndResponses s := ⟨s.seq, s.client.responses, rfl⟩

theorem State.SeqOnly.responses {s t u : State} (h : s.SeqOnly t) (h' : t.SeqAndResponses u) : s.SeqAndResponses u := by
  obtain ⟨q, rfl⟩ := h
  obtain ⟨q', rs, rfl⟩ := h'
  exact ⟨q', rs, rfl⟩

theorem State.SeqOnly.toResponses {s t : State} (h : s.SeqOnly t) : s.SeqAndResponses t :=
  h.responses (.refl t)

theorem State.SeqAndResponses.dataOk {s t : State} (h : s.SeqAndResponses t) : t.dataOk = s.dataOk := by
  obtain ⟨q, rs, rfl⟩ := h; rfl

theorem State.SeqOnly.dataOk {s t : State} (h : s.SeqOnly t) : t.dataOk = s.dataOk := h.toResponses.dataOk

/-! ### Routines -/

theorem readLoop_seqOnly (s : State) : s.SeqOnly (readLoop s).state := by
  unfold readLoop
  split
  · exact .refl s
  · exact .setSeq s _

theorem writeLoop_seqOnly (s : State) : s.SeqOnly (writeLoop s).state := by
  unfold writeLoop
  split
  · exact .refl s
  · exact .setSeq s _

theorem initFrom_seqOnly (i : Nat) (s : State) : s.SeqOnly (initFrom i s).state := by
  unfold initFrom
  split <;> exact .refl s

theorem walkRange_seqOnly (kind : CacheKind) (addr len : Word) (s : State) :
    s.SeqOnly (walkRange kind addr len s).state := by
  unfold walkRange
  split <;> exact .refl s

/-- No routine between two transactions changes anything but SEQ's registers. -/
theorem afterCall_seqOnly (f : Frame) (r : Result) (s : State) : s.SeqOnly (afterCall f r s).state := by
  cases f with
  | waitRead =>
    simp only [afterCall, afterPoll]
    split
    · exact .setSeq s _
    · split <;> exact .setSeq s _
  | waitRecovery => exact .refl s
  | canRead => exact .refl s
  | canWrite => exact .refl s
  | dmaFirstWait x => exact .refl s
  | dmaLastWait => exact .refl s
  | readFirstWait buf len =>
    simp only [afterCall, afterReadFirstWait]
    split
    · exact .refl s
    · exact (State.SeqOnly.setSeq s _).trans (readLoop_seqOnly _)
  | readCommand => exact .setSeq s _
  | readWait =>
    simp only [afterCall, afterReadWait]
    split <;> exact .refl s
  | readInvalidate => exact .refl s
  | readDma => exact (State.SeqOnly.setSeq s _).trans (readLoop_seqOnly _)
  | writeArm buf len => exact (State.SeqOnly.setSeq s _).trans (writeLoop_seqOnly _)
  | writeBack => exact .refl s
  | writeDma => exact .refl s
  | writeCommand => exact .setSeq s _
  | writeWait =>
    simp only [afterCall, afterWriteWait]
    split
    · exact .refl s
    · exact (State.SeqOnly.setSeq s _).trans (writeLoop_seqOnly _)
  | initKey => exact .refl s
  | initSysCfg => exact .refl s
  | initCheck =>
    simp only [afterCall, afterInitCheck]
    split
    · exact .setSeq s _
    · exact .refl s
  | initDrain =>
    simp only [afterCall, afterInitDrain]
    split <;> exact .refl s
  | initRamCfg => exact .setSeq s _

theorem finish_outside (r : Result) (s : State) : s.SeqAndResponses (finish r s) := by
  cases r <;> exact ⟨_, _, rfl⟩

/-- Returning a result through any stack of callers changes nothing but SEQ's registers and CLIENT's responses. -/
theorem resume_outside (k : List Frame) (r : Result) (s : State) : s.SeqAndResponses (resume k r s) := by
  induction k generalizing r s with
  | nil => exact finish_outside r s
  | cons f k ih =>
    have h := afterCall_seqOnly f r s
    simp only [resume]
    cases hf : afterCall f r s with
    | goto p frames t =>
      rw [hf] at h
      exact h.responses (State.SeqOnly.setSeq t _).toResponses
    | ret r' t =>
      rw [hf] at h
      exact h.responses (ih r' t)

theorem follow_outside (k : List Frame) (fl : Flow) : fl.state.SeqAndResponses (follow k fl) := by
  cases fl with
  | goto p frames t => exact (State.SeqOnly.setSeq t _).toResponses
  | ret r t => exact resume_outside k r t

/-- A result returned to a caller: its routine runs, above the callers that are left. -/
theorem resume_cons (f : Frame) (k : List Frame) (r : Result) (s : State) :
    resume (f :: k) r s = follow k (afterCall f r s) := by
  simp only [resume, follow]

@[simp] theorem resume_nil (r : Result) (s : State) : resume [] r s = finish r s := rfl

@[simp] theorem follow_goto (k : List Frame) (p : Phase) (frames : List Frame) (s : State) :
    follow k (.goto p frames s) = s.jump p (frames ++ k) := rfl

@[simp] theorem follow_ret (k : List Frame) (r : Result) (s : State) : follow k (.ret r s) = resume k r s := rfl

/-! ### The step -/

/-- The transaction of SEQ's phase, alone. -/
def State.transaction (s : State) : State :=
  match s.seq.phase with
  | .idle => s
  | .rdReg off => registerRead off s
  | .wrReg off v => writeRegister off v s
  | .line kind a _ => cacheOp kind a s
  | .dmaPoll => readDone (dmaAddr s.cfg .status) (busData (dmaAddr s.cfg .status) s) s
  | .dmaArm _ => busWrite (dmaAddr s.cfg .status) s.cfg.dmaArm s
  | .dmaRam x => busWrite (dmaAddr s.cfg .ramAddr) x.ram s
  | .dmaPeriph x => busWrite (dmaAddr s.cfg .peripheralAddr) x.periph s
  | .dmaLen x => busWrite (dmaAddr s.cfg (lengthReg x.dir)) (x.len - 1#32) s
  | .initTiming i =>
    match s.cfg.dom1Timing[i]? with
    | some e => busWrite (uncached s.cfg e.1) e.2 s
    | none => s

/-- A step of SEQ is its phase's transaction and, beside it, only SEQ's registers and CLIENT's responses. -/
theorem sequencerStep_outside (s : State) : s.transaction.SeqAndResponses (sequencerStep s) := by
  unfold State.transaction sequencerStep
  cases s.seq.phase with
  | idle => exact .refl s
  | rdReg off => exact resume_outside _ _ _
  | wrReg off v => exact resume_outside _ _ _
  | line kind a last =>
    simp only [lineStep]
    split
    · exact resume_outside _ _ _
    · exact (State.SeqOnly.setSeq _ _).toResponses
  | dmaPoll =>
    simp only [dmaPollStep]
    split
    · exact resume_outside _ _ _
    · exact .refl _
  | dmaArm x => exact (State.SeqOnly.setSeq _ _).toResponses
  | dmaRam x => exact (State.SeqOnly.setSeq _ _).toResponses
  | dmaPeriph x => exact (State.SeqOnly.setSeq _ _).toResponses
  | dmaLen x => exact (State.SeqOnly.setSeq _ _).toResponses
  | initTiming i =>
    simp only [initTimingStep]
    cases s.cfg.dom1Timing[i]? with
    | none => exact follow_outside _ _
    | some e =>
      have h := initFrom_seqOnly (i + 1) (busWrite (uncached s.cfg e.1) e.2 s)
      exact h.responses (follow_outside _ _)

/-- A register write of SEQ that is no recovery write: the one bus write, then the callers. -/
theorem sequencerStep_wrReg {s : State} {off v : Word} {f : Frame} {k : List Frame} (hp : s.seq.phase = .wrReg off v)
    (hk : s.seq.stack = f :: k) (hf : f ≠ .waitRecovery) :
    sequencerStep s = resume s.seq.stack .ok (registerWrite off v s) := by
  unfold sequencerStep; rw [hp]
  show resume s.seq.stack .ok (writeRegister off v s) = _
  rw [writeRegister_of_ne hk hf]

theorem transaction_dataOk {s : State} (h : s.dataOk = true) : s.transaction.dataOk = true := by
  unfold State.transaction
  split
  · exact h
  · exact readDone_dataOk h _ _
  · exact writeRegister_dataOk h _ _
  · exact cacheOp_dataOk h _ _
  · exact readDone_dataOk h _ _
  · exact busWrite_dataOk h _ _
  · exact busWrite_dataOk h _ _
  · exact busWrite_dataOk h _ _
  · exact busWrite_dataOk h _ _
  · split
    · exact busWrite_dataOk h _ _
    · exact h

/-- A step of SEQ keeps the form of the data. -/
theorem sequencerStep_dataOk {s : State} (h : s.dataOk = true) : (sequencerStep s).dataOk = true := by
  rw [(sequencerStep_outside s).dataOk]; exact transaction_dataOk h

/-- An accepted operation keeps the form of the data if its routine changes only SEQ's registers. -/
theorem launch_dataOk {s : State} (h : s.dataOk = true) {op : Op} {args : List Word} {routine : State → Flow}
    (hr : ∀ t : State, t.SeqOnly (routine t).state) : (launch op args routine s).dataOk = true := by
  have hs := hr (s.latch op args)
  have hl : (s.latch op args).dataOk = true := h
  unfold launch
  cases hf : routine (s.latch op args) with
  | goto p frames t =>
    rw [hf] at hs
    have ht : t.dataOk = true := hs.dataOk.trans hl
    exact sequencerStep_dataOk ht
  | ret r t =>
    rw [hf] at hs
    have ht : t.dataOk = true := hs.dataOk.trans hl
    show (finish r t).dataOk = true
    rw [(finish_outside r t).dataOk]; exact ht

/-! ### The transaction's frame -/

@[simp] theorem transaction_cfg (s : State) : s.transaction.cfg = s.cfg := by
  unfold State.transaction; split <;> first | rfl | simp | (split <;> simp)

@[simp] theorem transaction_seq (s : State) : s.transaction.seq = s.seq := by
  unfold State.transaction; split <;> first | rfl | simp | (split <;> simp)

@[simp] theorem transaction_host (s : State) : s.transaction.host = s.host := by
  unfold State.transaction; split <;> first | rfl | simp | (split <;> simp)

@[simp] theorem transaction_client (s : State) : s.transaction.client = s.client := by
  unfold State.transaction; split <;> first | rfl | simp | (split <;> simp)

@[simp] theorem transaction_sched (s : State) : s.transaction.sched = s.sched := by
  unfold State.transaction; split <;> first | rfl | simp | (split <;> simp)

@[simp] theorem transaction_tail (s : State) : s.transaction.tail = s.tail := by
  unfold State.transaction; split <;> first | rfl | simp | (split <;> simp)

@[simp] theorem sequencerStep_cfg (s : State) : (sequencerStep s).cfg = s.cfg := by
  obtain ⟨q, rs, h⟩ := sequencerStep_outside s; rw [h]; simp

@[simp] theorem sequencerStep_host (s : State) : (sequencerStep s).host = s.host := by
  obtain ⟨q, rs, h⟩ := sequencerStep_outside s; rw [h]; simp

@[simp] theorem sequencerStep_sched (s : State) : (sequencerStep s).sched = s.sched := by
  obtain ⟨q, rs, h⟩ := sequencerStep_outside s; rw [h]; simp

@[simp] theorem sequencerStep_tail (s : State) : (sequencerStep s).tail = s.tail := by
  obtain ⟨q, rs, h⟩ := sequencerStep_outside s; rw [h]; simp

@[simp] theorem sequencerStep_loads (s : State) : (sequencerStep s).client.loads = s.client.loads := by
  obtain ⟨q, rs, h⟩ := sequencerStep_outside s; rw [h]; simp

end Sys2Proof.Machine
end

