-- ==== Sys2Proof/Laws/Control.lean ====
section
/-! SUPPORT. SEQ's control: a step of SEQ keeps phase, return stack, operation, packet registers and poll count in agreement
(10_state R22, R24 to R28; 95_test_vectors section 5, items 1 and 2). -/

namespace Sys2Proof.Machine

theorem readCallers_cases {op k} (h : readCallers op k = true) :
    (k = [] ∧ op = .read) ∨ (k = [.initDrain] ∧ op = .init) := by
  unfold readCallers at h; split at h <;> simp_all

theorem writeCallers_cases {op k} (h : writeCallers op k = true) : k = [] ∧ op = .write := by
  simpa [writeCallers] using h

/-- Where a transfer is between two packets: cursor and remaining length make its length, and while bytes remain the cursor is
a whole number of packets. -/
def Sequencer.BetweenPackets (q : Sequencer) : Prop := q.cursor.toNat + q.remaining.toNat = q.transferLen.toNat ∧
  (q.remaining ≠ 0#32 → q.cursor.toNat % 512 = 0) ∧ q.poll ≤ pollLimit

theorem finish_ok (r : Result) (s : State) (h : s.seq.poll ≤ pollLimit) : (finish r s).flowOk = true := by
  have : ∀ c v, (answer c v s).flowOk = true := by
    intro c v
    simp [State.flowOk, Sequencer.controlOk, Sequencer.packetOk, Sequencer.inPacket, Sequencer.operandsOk,
      Sequencer.pollOk, h]
  cases r <;> exact this _ _

theorem chunk_size_toNat (w : Word) : (chunkOf w).toNat = min 512 w.toNat := by
  simp [chunkOf, packetSize]

theorem readLoop_ok {k s} (hk : readCallers s.seq.op k = true) (h : s.seq.BetweenPackets) :
    (follow k (readLoop s)).flowOk = true := by
  obtain ⟨h1, h2, h3⟩ := h
  unfold readLoop
  split
  · rcases readCallers_cases hk with ⟨rfl, ho⟩ | ⟨rfl, ho⟩
    · exact finish_ok _ _ h3
    · simp [resume_cons, afterCall, afterInitDrain, Result.isTimeout, callCanRead, State.flowOk, Sequencer.controlOk,
      readRegCallers, ho,
        Sequencer.packetOk, Sequencer.inPacket, Sequencer.operandsOk, Sequencer.pollOk, h3, State.jump, Frame.inPacket]
  · next hr =>
    have h2 := h2 hr
    simp only [Sequencer.transferLen] at h1
    rcases readCallers_cases hk with ⟨rfl, ho⟩ | ⟨rfl, ho⟩
    · simp [follow, nextPacket, State.flowOk, Sequencer.controlOk, writeRegCallers, ho, readCallers,
      Sequencer.packetOk, Sequencer.inPacket, Sequencer.operandsOk, Sequencer.pollOk, h3, State.jump, Frame.inPacket,
      hr, h2, Sequencer.transferLen]
      simpa [ho] using h1
    · simp [follow, nextPacket, State.flowOk, Sequencer.controlOk, writeRegCallers, ho, readCallers,
      Sequencer.packetOk, Sequencer.inPacket, Sequencer.operandsOk, Sequencer.pollOk, h3, State.jump, Frame.inPacket,
      hr, h2, Sequencer.transferLen]
      simpa [ho] using h1

theorem writeLoop_ok {k s} (hk : writeCallers s.seq.op k = true) (h : s.seq.BetweenPackets) :
    (follow k (writeLoop s)).flowOk = true := by
  obtain ⟨h1, h2, h3⟩ := h
  obtain ⟨rfl, ho⟩ := writeCallers_cases hk
  unfold writeLoop
  split
  · exact finish_ok _ _ h3
  · next hr =>
    have h2 := h2 hr
    simp only [Sequencer.transferLen] at h1
    simp [follow, callWalk, nextPacket, State.flowOk, Sequencer.controlOk, walkCallers, ho, writeCallers,
      Sequencer.packetOk, Sequencer.inPacket, Sequencer.operandsOk, Sequencer.pollOk, h3, State.jump, Frame.inPacket,
      hr, h2, Sequencer.transferLen]
    simpa [ho] using h1

theorem advance_ok {s : State} (hr : s.seq.remaining ≠ 0#32) (hc : s.seq.chunk = chunkOf s.seq.remaining)
   (h : s.seq.BetweenPackets) : Sequencer.BetweenPackets (advanceCursor s).seq := by
  obtain ⟨h1, h2, h3⟩ := h
  have hl := s.seq.transferLen.isLt
  have hcn : (s.seq.chunk.setWidth 32).toNat = min 512 s.seq.remaining.toNat := by
    rw [BitVec.toNat_setWidth, hc, chunk_size_toNat]; omega
  have hr0 : 0 < s.seq.remaining.toNat := by
    rcases Nat.eq_zero_or_pos s.seq.remaining.toNat with h | h
    · exact absurd (BitVec.eq_of_toNat_eq (by simpa using h)) hr
    · exact h
  refine ⟨?_, ?_, h3⟩
  · have e : (advanceCursor s).seq.transferLen = s.seq.transferLen := rfl
    rw [e]
    simp only [advanceCursor, State.setSeq_seq, BitVec.toNat_add, BitVec.toNat_sub, hcn]
    omega
  · simp only [advanceCursor, State.setSeq_seq, BitVec.toNat_add, hcn]
    intro hne
    have h2 := h2 hr
    have : (s.seq.remaining - s.seq.chunk.setWidth 32).toNat ≠ 0 :=
      fun h => hne (BitVec.eq_of_toNat_eq (by simpa [advanceCursor] using h))
    rw [BitVec.toNat_sub, hcn] at this
    omega

theorem flowOk_split {s : State} : s.flowOk = true ↔ s.seq.controlOk = true ∧ s.seq.packetOk = true ∧
  s.seq.operandsOk = true ∧ s.seq.pollOk = true := by
  simp [State.flowOk]; tauto

theorem flowOk_congr {s t : State} (h : t.seq = s.seq) : t.flowOk = s.flowOk := by simp [State.flowOk, h]

/-- WAIT_NOT_BUSY's result returned to its callers. -/
theorem wait_return {k s} {r : Result} (hk : waitCallers s.seq.op k = true) (hp : ∀ f,
  s.seq.stack = f :: k →   s.seq.packetOk = true ∧ s.seq.operandsOk = true)
   (hs : ∃ f, s.seq.stack = f :: k ∧ f.inPacket = false)
   (h3 : s.seq.poll ≤ pollLimit) : (resume k r s).flowOk = true := by
  obtain ⟨f, hs, hf⟩ := hs
  obtain ⟨hp, hop⟩ := hp f hs
  unfold waitCallers at hk
  split at hk
  · exact finish_ok _ _ h3
  · next buf len k' =>
    simp only [resume_cons, afterCall, afterReadFirstWait]
    cases hr : r.isTimeout
    · simp only [Bool.false_eq_true, if_false]
      have : Sequencer.BetweenPackets (startTransfer buf len s).seq := by
        refine ⟨?_, by simp [startTransfer], h3⟩
        have : len = s.seq.transferLen := by
          simp [Sequencer.operandsOk, hs] at hop; exact hop.2.1
        simp only [startTransfer, State.setSeq_seq]
        simp [this, Sequencer.transferLen]
      have := readLoop_ok (k := k') (s := startTransfer buf len s) hk this
      revert this
      cases readLoop (startTransfer buf len s) <;> exact id
    · simp only [if_true]
      rcases readCallers_cases hk with ⟨rfl, ho⟩ | ⟨rfl, ho⟩
      · exact finish_ok _ _ h3
      · simp [resume_cons, afterCall, afterInitDrain, Result.isTimeout, initRamCfg, State.flowOk, Sequencer.controlOk,
        writeRegCallers, ho,
        Sequencer.packetOk, Sequencer.inPacket, Sequencer.operandsOk, Sequencer.pollOk, h3, State.jump, Frame.inPacket]
  · next k' =>
    simp only [resume_cons, afterCall, afterReadWait]
    cases hr : r.isTimeout
    · simp only [Bool.false_eq_true, if_false, callWalk]
      rcases readCallers_cases hk with ⟨rfl, ho⟩ | ⟨rfl, ho⟩ <;>
      (simp [Sequencer.packetOk, Sequencer.inPacket, hs, Frame.inPacket, ho, Sequencer.transferLen] at hp
       simp [State.flowOk, Sequencer.controlOk, walkCallers, ho, readCallers,
        Sequencer.packetOk, Sequencer.inPacket, Sequencer.operandsOk, Sequencer.pollOk, h3, State.jump,
          Frame.inPacket, Sequencer.transferLen]
       exact hp.1)
    · simp only [if_true]
      rcases readCallers_cases hk with ⟨rfl, ho⟩ | ⟨rfl, ho⟩
      · exact finish_ok _ _ h3
      · simp [resume_cons, afterCall, afterInitDrain, Result.isTimeout, initRamCfg, State.flowOk, Sequencer.controlOk,
        writeRegCallers, ho,
        Sequencer.packetOk, Sequencer.inPacket, Sequencer.operandsOk, Sequencer.pollOk, h3, State.jump, Frame.inPacket]
  · next k' =>
    obtain ⟨rfl, ho⟩ := writeCallers_cases hk
    simp only [resume_cons, afterCall, afterWriteWait]
    cases hr : r.isTimeout
    · simp only [Bool.false_eq_true, if_false]
      simp [Sequencer.packetOk, Sequencer.inPacket, hs, Frame.inPacket] at hp
      have := writeLoop_ok (k := []) (s := advanceCursor s) (by simp [writeCallers, advanceCursor, ho])
        (advance_ok hp.1.1.1.1.1 hp.1.1.1.1.2 ⟨hp.1.1.2, fun _ => hp.1.2, h3⟩)
      revert this
      cases writeLoop (advanceCursor s) <;> exact id
    · simp only [if_true]; exact finish_ok _ _ h3
  · simp at hk

/-- DMA_XFER's result returned to its callers. -/
theorem transfer_return {k s} {r : Result} {f} (hk : transferCallers s.seq.op k = true) (hs : s.seq.stack = f :: k)
    (hp : s.seq.packetOk = true) (h3 : s.seq.poll ≤ pollLimit) : (resume k r s).flowOk = true := by
  unfold transferCallers at hk
  split at hk
  · exact finish_ok _ _ h3
  · next k' =>
    simp only [resume_cons, afterCall]
    simp [Sequencer.packetOk, Sequencer.inPacket, hs, Frame.inPacket] at hp
    have := readLoop_ok (k := k') (s := advanceCursor s) (by simpa [advanceCursor] using hk)
      (advance_ok hp.1.1.1.1 hp.1.1.1.2 ⟨hp.1.2, fun _ => hp.2, h3⟩)
    revert this
    cases readLoop (advanceCursor s) <;> exact id
  · next k' =>
    obtain ⟨rfl, ho⟩ := writeCallers_cases hk
    simp [Sequencer.packetOk, Sequencer.inPacket, hs, Frame.inPacket, Sequencer.transferLen, ho] at hp
    simp [resume_cons, afterCall, writeActivate,  State.flowOk, Sequencer.controlOk, writeRegCallers, writeCallers, ho,
        Sequencer.packetOk, Sequencer.inPacket, Sequencer.operandsOk, Sequencer.pollOk, h3, State.jump,
          Frame.inPacket, Sequencer.transferLen]
    exact hp
  · simp at hk

theorem seq_of_jump (s : State) (p k) : (s.jump p k).seq = {s.seq with phase := p, stack := k} := rfl

/-- A step of SEQ keeps phase, return stack, packet registers and poll count in agreement. -/
theorem sequencerStep_flowOk {s : State} (h : s.flowOk = true) : (sequencerStep s).flowOk = true := by
  obtain ⟨hc, hp, ho, hl⟩ := flowOk_split.1 h
  have h3 : s.seq.poll ≤ pollLimit := by
    simp only [Sequencer.pollOk, Bool.and_eq_true, decide_eq_true_eq] at hl; exact hl.1
  unfold Sequencer.controlOk at hc
  unfold sequencerStep
  split <;> rename_i hph <;> simp only [hph] at hc
  · exact h
  · rename_i off
    have hseq : (registerRead off s).seq = s.seq := by simp
    generalize hd : (Result.data (registerData off s)) = r
    generalize registerRead off s = t at hseq
    unfold readRegCallers at hc
    split at hc <;> first | (simp at hc; done) | skip
    · rename_i hs; rw [hs]; exact finish_ok _ _ (by rw [hseq]; exact h3)
    · rename_i k hs
      rw [hs, resume_cons]
      simp only [afterCall, afterPoll]
      have hlt : s.seq.poll < pollLimit := by
        simp only [Sequencer.pollOk, hs, Bool.and_eq_true, decide_eq_true_eq] at hl; exact hl.2
      have hadd : (s.seq.poll + 1#14).toNat = s.seq.poll.toNat + 1 := by
        rw [BitVec.toNat_add]; simp only [pollLimit, BitVec.lt_def, BitVec.toNat_ofNat] at hlt; simp; omega
      have hle : s.seq.poll + 1#14 ≤ pollLimit := by
        rw [BitVec.le_def, hadd]; rw [BitVec.lt_def] at hlt; omega
      rw [hseq]
      split
      · rw [follow_ret]
        apply wait_return (k := k)
        · simpa using hc
        · intro f hf
          simp only [State.setSeq_seq]
          exact ⟨hp, ho⟩
        · exact ⟨.waitRead, by simpa using hs, rfl⟩
        · simpa using hle
      · simp only [State.setSeq_seq]
        by_cases hlt2 : s.seq.poll + 1#14 < pollLimit
        · simp only [hlt2, if_true, follow_goto]
          have e : (Frame.waitRead :: k) = s.seq.stack := hs.symm
          rw [flowOk_split]
          simp only [State.jump, State.setSeq_seq, List.cons_append, List.nil_append]
          rw [e]
          refine ⟨?_, hp, ho, ?_⟩
          · simp only [Sequencer.controlOk, hs, readRegCallers, hc]
          · simp [Sequencer.pollOk, hs, hle, hlt2]
        · simp only [hlt2, if_false, follow_goto]
          have hge := hlt2
          have heq : s.seq.poll + 1#14 = pollLimit := by
            apply BitVec.eq_of_toNat_eq
            rw [BitVec.le_def] at hle
            rw [BitVec.lt_def] at hge
            omega
          rw [flowOk_split]
          simp only [State.jump, State.setSeq_seq, List.cons_append, List.nil_append]
          refine ⟨?_, ?_, ?_, ?_⟩
          · simp only [Sequencer.controlOk, writeRegCallers, hc]
          · simp only [Sequencer.packetOk, Sequencer.inPacket, hs, List.any_cons, Frame.inPacket, Bool.false_or] at hp ⊢
            exact hp
          · simp only [Sequencer.operandsOk, hs, List.all_cons, Bool.true_and] at ho ⊢
            exact ho
          · simp [Sequencer.pollOk, heq]
    · rename_i hs; rw [hs]; exact finish_ok _ _ (by rw [hseq]; exact h3)
    · rename_i hs
      rw [hs]
      simp only [decide_eq_true_eq] at hc
      simp only [resume_cons, afterCall, afterInitCheck, follow_ret]
      split
      · simp [callRead, callWait, State.flowOk, Sequencer.controlOk, readRegCallers, waitCallers, readCallers, hseq, hc,
        Sequencer.packetOk, Sequencer.inPacket, Sequencer.operandsOk, Sequencer.pollOk, State.jump,
          Frame.inPacket, pollLimit, Sequencer.transferLen]
      · simp [initRamCfg, State.flowOk, Sequencer.controlOk, writeRegCallers, hseq, hc,
        Sequencer.packetOk, Sequencer.inPacket, Sequencer.operandsOk, Sequencer.pollOk, h3, State.jump, Frame.inPacket]
    · rename_i hs; rw [hs]; exact finish_ok _ _ (by rw [hseq]; exact h3)
  · rename_i off v
    have hseq : (writeRegister off v s).seq = s.seq := by simp
    generalize writeRegister off v s = t at hseq
    unfold writeRegCallers at hc
    split at hc <;> rename_i hs <;> first | (simp at hc; done) | rw [hs]
    · exact finish_ok _ _ (by rw [hseq]; exact h3)
    · rename_i k
      simp only [resume_cons, afterCall]
      apply wait_return (k := k)
      · rw [hseq]; exact hc
      · intro f hf; rw [hseq]; exact ⟨hp, ho⟩
      · exact ⟨.waitRecovery, by rw [hseq]; exact hs, rfl⟩
      · rw [hseq]; exact h3
    · rename_i k
      simp only [resume_cons, afterCall, callWait]
      rcases readCallers_cases hc with ⟨rfl, ho'⟩ | ⟨rfl, ho'⟩ <;>
      (simp [Sequencer.packetOk, Sequencer.inPacket, hs, Frame.inPacket, ho', Sequencer.transferLen] at hp
       simp [State.flowOk, Sequencer.controlOk, readRegCallers, waitCallers, ho', hseq, readCallers,
        Sequencer.packetOk, Sequencer.inPacket, Sequencer.operandsOk, Sequencer.pollOk, State.jump,
          Frame.inPacket, Sequencer.transferLen, pollLimit]
       exact hp)
    · rename_i buf len k
      obtain ⟨rfl, ho'⟩ := writeCallers_cases hc
      simp only [resume_cons, afterCall]
      have : len = s.seq.transferLen := by
          simp [Sequencer.operandsOk, hs] at ho; exact ho
      have := writeLoop_ok (k := []) (s := startTransfer buf len t) (by simp [writeCallers, startTransfer, hseq, ho'])
        ⟨by simp only [startTransfer, State.setSeq_seq, hseq]; simp [this, Sequencer.transferLen],
          by simp [startTransfer], by simpa [startTransfer, hseq] using h3⟩
      revert this
      cases writeLoop (startTransfer buf len t) <;> exact id
    · rename_i k
      obtain ⟨rfl, ho'⟩ := writeCallers_cases hc
      simp only [resume_cons, afterCall, callWait]
      simp [Sequencer.packetOk, Sequencer.inPacket, hs, Frame.inPacket, ho', Sequencer.transferLen] at hp
      simp [State.flowOk, Sequencer.controlOk, readRegCallers, waitCallers, ho', hseq, writeCallers,
        Sequencer.packetOk, Sequencer.inPacket, Sequencer.operandsOk, Sequencer.pollOk, State.jump,
          Frame.inPacket, Sequencer.transferLen, pollLimit]
      exact hp
    · simp only [decide_eq_true_eq] at hc
      simp [resume_cons, afterCall, State.flowOk, Sequencer.controlOk, writeRegCallers, hseq, hc,
        Sequencer.packetOk, Sequencer.inPacket, Sequencer.operandsOk, Sequencer.pollOk, h3, State.jump, Frame.inPacket]
    · simp only [decide_eq_true_eq] at hc
      simp [resume_cons, afterCall, callCanRead, State.flowOk, Sequencer.controlOk, readRegCallers, hseq, hc,
        Sequencer.packetOk, Sequencer.inPacket, Sequencer.operandsOk, Sequencer.pollOk, h3, State.jump, Frame.inPacket]
    · exact finish_ok _ _ (by simp only [setInitialized, State.setSeq_seq]; rw [hseq]; exact h3)
  · rename_i kind a last
    unfold lineStep
    have hseq : (cacheOp kind a s).seq = s.seq := by simp
    split
    · generalize cacheOp kind a s = t at hseq
      unfold walkCallers at hc
      split at hc <;> rename_i hs <;> first | (simp at hc; done) | rw [hs]
      · exact finish_ok _ _ (by rw [hseq]; exact h3)
      · exact finish_ok _ _ (by rw [hseq]; exact h3)
      · simp only [resume_cons, afterCall, readTransfer, callTransfer]
        rcases readCallers_cases hc with ⟨rfl, ho'⟩ | ⟨rfl, ho'⟩ <;>
        (simp [Sequencer.packetOk, Sequencer.inPacket, hs, Frame.inPacket, ho', Sequencer.transferLen] at hp
         simp [State.flowOk, Sequencer.controlOk, pollCallers, transferCallers, ho', hseq, readCallers,
          Sequencer.packetOk, Sequencer.inPacket, Sequencer.operandsOk, Sequencer.pollOk, State.jump,
            Frame.inPacket, Sequencer.transferLen, pollLimit]
         simp [pollLimit] at h3
         first | exact ⟨hp, h3⟩)
      · simp only [resume_cons, afterCall, writeTransfer, callTransfer]
        obtain ⟨rfl, ho'⟩ := writeCallers_cases hc
        simp [Sequencer.packetOk, Sequencer.inPacket, hs, Frame.inPacket, ho', Sequencer.transferLen] at hp
        simp [State.flowOk, Sequencer.controlOk, pollCallers, transferCallers, ho', hseq, writeCallers,
          Sequencer.packetOk, Sequencer.inPacket, Sequencer.operandsOk, Sequencer.pollOk, State.jump,
            Frame.inPacket, Sequencer.transferLen, pollLimit]
        simp [pollLimit] at h3
        exact ⟨hp, h3⟩
    · rw [flowOk_split]
      simp only [State.jump, State.setSeq_seq, cacheOp_seq]
      exact ⟨hc, hp, ho, hl⟩
  · unfold dmaPollStep
    simp only
    have hseq : (readDone (dmaAddr s.cfg .status) (busData (dmaAddr s.cfg .status) s) s).seq = s.seq := by simp
    generalize readDone (dmaAddr s.cfg .status) (busData (dmaAddr s.cfg .status) s) s = t at hseq
    split
    · unfold pollCallers at hc
      split at hc <;> rename_i hs <;> first | (simp at hc; done) | rw [hs]
      · exact finish_ok _ _ (by rw [hseq]; exact h3)
      · rename_i x k
        simp only [resume_cons, afterCall, follow_goto, List.nil_append]
        rw [flowOk_split]
        simp only [State.jump, State.setSeq_seq, hseq]
        refine ⟨by simpa [Sequencer.controlOk] using hc, ?_, ?_, ?_⟩
        · simp only [Sequencer.packetOk, Sequencer.inPacket, hs, List.any_cons, Frame.inPacket, Bool.false_or] at hp ⊢
          exact hp
        · simp only [Sequencer.operandsOk, hs, List.all_cons, Bool.true_and] at ho ⊢
          exact ho
        · simp only [Sequencer.pollOk, h3, decide_true, Bool.true_and]
          unfold transferCallers at hc
          split at hc <;> simp_all
      · rename_i k
        simp only [resume_cons, afterCall, follow_ret]
        exact transfer_return (by rw [hseq]; exact hc) (f := .dmaLastWait)
          (by rw [hseq]; exact hs) (by rw [hseq]; exact hp) (by rw [hseq]; exact h3)
    · rw [flowOk_congr hseq]; exact h
  · rw [flowOk_split]; simp only [transferWrite, State.jump, State.setSeq_seq, busWrite_seq]; exact ⟨hc, hp, ho, hl⟩
  · rw [flowOk_split]; simp only [transferWrite, State.jump, State.setSeq_seq, busWrite_seq]; exact ⟨hc, hp, ho, hl⟩
  · rw [flowOk_split]; simp only [transferWrite, State.jump, State.setSeq_seq, busWrite_seq]; exact ⟨hc, hp, ho, hl⟩
  · rw [flowOk_split]
    simp only [State.jump, State.setSeq_seq, busWrite_seq]
    refine ⟨hc, ?_, ?_, ?_⟩
    · simp only [Sequencer.packetOk, Sequencer.inPacket, List.any_cons, Frame.inPacket, Bool.false_or] at hp ⊢
      exact hp
    · simp only [Sequencer.operandsOk, List.all_cons, Bool.true_and] at ho ⊢
      exact ho
    · simp [Sequencer.pollOk, h3]
  · rename_i i
    simp only [Bool.and_eq_true, decide_eq_true_eq, List.isEmpty_iff] at hc
    unfold initTimingStep
    split
    · simp only [initFrom]
      split <;> simp [hc.2, follow, initKey, State.flowOk, Sequencer.controlOk, writeRegCallers, hc.1,
        Sequencer.packetOk, Sequencer.inPacket, Sequencer.operandsOk, Sequencer.pollOk, h3, State.jump, Frame.inPacket]
    · simp [hc.2, follow, initKey, State.flowOk, Sequencer.controlOk, writeRegCallers, hc.1,
        Sequencer.packetOk, Sequencer.inPacket, Sequencer.operandsOk, Sequencer.pollOk, h3, State.jump, Frame.inPacket]

/-! ### `seq.buf` (10_state R22) -/

/-- `seq.buf` and the buffers kept in a stack of callers are the transfer's first operand. -/
def Sequencer.Latched (q : Sequencer) (k : List Frame) : Prop :=
  (q.op = .read ∨ q.op = .write → q.args[0]? = some q.buf) ∧ ∀ f ∈ k, f.bufOk q = true

theorem Sequencer.bufOk_iff (q : Sequencer) : q.bufOk = true ↔ q.Latched q.stack := by
  simp only [Sequencer.bufOk, Sequencer.Latched, Bool.and_eq_true, Bool.or_eq_true, decide_eq_true_eq, List.all_eq_true]
  tauto

theorem Frame.bufOk_congr {q q' : Sequencer} (ho : q'.op = q.op) (ha : q'.args = q.args) (f : Frame) :
    f.bufOk q' = f.bufOk q := by
  cases f <;> simp [Frame.bufOk, ho, ha]

/-- The same operation, operands and buffer, above a stack whose frames keep them. -/
theorem Sequencer.Latched.mono {q q' : Sequencer} {k k' : List Frame} (h : q.Latched k) (ho : q'.op = q.op)
    (ha : q'.args = q.args) (hb : q'.buf = q.buf) (hk : ∀ f ∈ k', f ∈ k ∨ f.bufOk q = true) : q'.Latched k' := by
  refine ⟨by rw [ho, ha, hb]; exact h.1, fun f hf => ?_⟩
  rw [Frame.bufOk_congr ho ha]
  exact (hk f hf).elim (h.2 f) id

/-- What a routine leads to keeps the operation, and the buffers the callers below keep. -/
def Flow.Latched (op : Op) (k : List Frame) : Flow → Prop
  | .goto _ frames t => t.seq.op = op ∧ t.seq.Latched (frames ++ k)
  | .ret _ t => t.seq.op = op ∧ t.seq.Latched k

theorem readLoop_latched {s : State} {k : List Frame} (h : s.seq.Latched k) : (readLoop s).Latched s.seq.op k := by
  unfold readLoop
  split
  · exact ⟨rfl, h⟩
  · exact ⟨rfl, h.mono rfl rfl rfl (by simp [Frame.bufOk]; tauto)⟩

theorem writeLoop_latched {s : State} {k : List Frame} (h : s.seq.Latched k) : (writeLoop s).Latched s.seq.op k := by
  unfold writeLoop
  split
  · exact ⟨rfl, h⟩
  · exact ⟨rfl, h.mono rfl rfl rfl (by simp [Frame.bufOk]; tauto)⟩

theorem startTransfer_latched {s : State} {buf len : Word} {k : List Frame} (h : s.seq.Latched k)
    (hf : s.seq.op = .init ∨ s.seq.args[0]? = some buf) : (startTransfer buf len s).seq.Latched k := by
  refine ⟨fun ho => ?_, fun f hm => (Frame.bufOk_congr (q := s.seq) rfl rfl f).trans (h.2 f hm)⟩
  rcases hf with hf | hf
  · have ho : s.seq.op = .read ∨ s.seq.op = .write := ho
    simp [hf] at ho
  · exact hf

theorem afterCall_latched {f : Frame} {r : Result} {s : State} {k : List Frame} (h : s.seq.Latched (f :: k))
    (hi : f = .initCheck → s.seq.op = .init) : (afterCall f r s).Latched s.seq.op k := by
  have hk : s.seq.Latched k := h.mono rfl rfl rfl (fun g hg => .inl (List.mem_cons_of_mem _ hg))
  have up : ∀ {t : State} {frames : List Frame}, t.seq.op = s.seq.op → t.seq.args = s.seq.args → t.seq.buf = s.seq.buf →
      (∀ g ∈ frames, g.bufOk s.seq = true) → t.seq.op = s.seq.op ∧ t.seq.Latched (frames ++ k) := fun ho ha hb hg =>
    ⟨ho, hk.mono ho ha hb (fun g hm => (List.mem_append.1 hm).symm.imp id (hg g))⟩
  cases f with
  | waitRead =>
    simp only [afterCall, afterPoll]
    split
    · exact up (frames := []) rfl rfl rfl (by simp)
    · split <;> exact up rfl rfl rfl (by simp [Frame.bufOk])
  | readFirstWait buf len =>
    have hf := h.2 _ (List.mem_cons_self ..)
    simp only [Frame.bufOk, Bool.or_eq_true, decide_eq_true_eq] at hf
    simp only [afterCall, afterReadFirstWait]
    split
    · exact ⟨rfl, hk⟩
    · exact readLoop_latched (startTransfer_latched hk hf)
  | writeArm buf len =>
    have hf := h.2 _ (List.mem_cons_self ..)
    simp only [Frame.bufOk, Bool.or_eq_true, decide_eq_true_eq] at hf
    exact writeLoop_latched (startTransfer_latched hk hf)
  | readDma => exact readLoop_latched (s := advanceCursor s) (hk.mono rfl rfl rfl (fun g hg => .inl hg))
  | writeWait =>
    simp only [afterCall, afterWriteWait]
    split
    · exact ⟨rfl, hk⟩
    · exact writeLoop_latched (s := advanceCursor s) (hk.mono rfl rfl rfl (fun g hg => .inl hg))
  | readWait =>
    simp only [afterCall, afterReadWait]
    split
    · exact ⟨rfl, hk⟩
    · exact up rfl rfl rfl (by simp [Frame.bufOk])
  | initCheck =>
    simp only [afterCall, afterInitCheck]
    split
    · exact up rfl rfl rfl (by simp [Frame.bufOk, hi rfl])
    · exact up rfl rfl rfl (by simp [Frame.bufOk])
  | initDrain =>
    simp only [afterCall, afterInitDrain]
    split <;> exact up rfl rfl rfl (by simp [Frame.bufOk])
  | waitRecovery => exact ⟨rfl, hk⟩
  | canRead => exact ⟨rfl, hk⟩
  | canWrite => exact ⟨rfl, hk⟩
  | dmaLastWait => exact ⟨rfl, hk⟩
  | initRamCfg => exact ⟨rfl, hk.mono rfl rfl rfl (fun g hg => .inl hg)⟩
  | dmaFirstWait x => exact up (frames := []) rfl rfl rfl (by simp)
  | readCommand => exact up rfl rfl rfl (by simp [Frame.bufOk])
  | readInvalidate => exact up rfl rfl rfl (by simp [Frame.bufOk])
  | writeBack => exact up rfl rfl rfl (by simp [Frame.bufOk])
  | writeDma => exact up rfl rfl rfl (by simp [Frame.bufOk])
  | writeCommand => exact up rfl rfl rfl (by simp [Frame.bufOk])
  | initKey => exact up rfl rfl rfl (by simp [Frame.bufOk])
  | initSysCfg => exact up rfl rfl rfl (by simp [Frame.bufOk])

theorem finish_bufOk (r : Result) (s : State) : (finish r s).seq.bufOk = true := by
  have : ∀ c v, (answer c v s).seq.bufOk = true := fun c v => by simp [Sequencer.bufOk]
  cases r <;> exact this _ _

theorem jump_bufOk {s : State} {k : List Frame} (h : s.seq.Latched k) (p : Phase) : (s.jump p k).seq.bufOk = true :=
  (Sequencer.bufOk_iff _).2 (h.mono rfl rfl rfl (fun _ hf => .inl hf))

theorem resume_bufOk {k : List Frame} {r : Result} {s : State} (h : s.seq.Latched k)
    (hi : .initCheck ∈ k → s.seq.op = .init) : (resume k r s).seq.bufOk = true := by
  induction k generalizing r s with
  | nil => exact finish_bufOk r s
  | cons f k ih =>
    have hc := afterCall_latched (r := r) h (fun hf => hi (by simp [hf]))
    rw [resume_cons]
    cases hf : afterCall f r s with
    | goto p frames t => rw [hf] at hc; exact jump_bufOk hc.2 p
    | ret r' t =>
      rw [hf] at hc
      exact ih hc.2 (fun hm => by rw [hc.1]; exact hi (List.mem_cons_of_mem _ hm))

theorem follow_bufOk {k : List Frame} {fl : Flow} {op : Op} (h : fl.Latched op k) (hi : .initCheck ∈ k → op = .init) :
    (follow k fl).seq.bufOk = true := by
  cases fl with
  | goto p frames t => exact jump_bufOk h.2 p
  | ret r t => exact resume_bufOk h.2 (fun hm => by rw [h.1]; exact hi hm)

/-- A caller that waits for INIT's CAN_READ is INIT. -/
theorem init_of_check {q : Sequencer} (hc : q.controlOk = true) (hm : .initCheck ∈ q.stack) : q.op = .init := by
  have rc : ∀ {op k}, readCallers op k = true → .initCheck ∉ k := fun h => by
    rcases readCallers_cases h with ⟨rfl, -⟩ | ⟨rfl, -⟩ <;> simp
  have wc : ∀ {op k}, writeCallers op k = true → .initCheck ∉ k := fun h => by
    obtain ⟨rfl, -⟩ := writeCallers_cases h; simp
  have tc : ∀ {op k}, transferCallers op k = true → .initCheck ∉ k := fun h => by
    unfold transferCallers at h
    split at h <;> first | (simp at h; done) | (simp; done) | skip
    · simpa using rc h
    · simpa using wc h
  have bc : ∀ {op k}, waitCallers op k = true → .initCheck ∉ k := fun h => by
    unfold waitCallers at h
    split at h <;> first | (simp at h; done) | (simp; done) | skip
    · simpa using rc h
    · simpa using rc h
    · simpa using wc h
  unfold Sequencer.controlOk at hc
  generalize q.stack = k at hc hm
  split at hc
  · simp only [Bool.and_eq_true, List.isEmpty_iff] at hc; simp [hc.2] at hm
  · unfold readRegCallers at hc
    split at hc <;> first | (simp at hc; done) | (simp at hm; done) | skip
    · exact absurd hm (by simpa using bc hc)
    · simpa using hc
  · unfold writeRegCallers at hc
    split at hc <;> first | (simp at hc; done) | (simp at hm; done) | skip
    · exact absurd hm (by simpa using bc hc)
    · exact absurd hm (by simpa using rc hc)
    · exact absurd hm (by simpa using wc hc)
    · exact absurd hm (by simpa using wc hc)
  · unfold walkCallers at hc
    split at hc <;> first | (simp at hc; done) | (simp at hm; done) | skip
    · exact absurd hm (by simpa using rc hc)
    · exact absurd hm (by simpa using wc hc)
  · unfold pollCallers at hc
    split at hc <;> first | (simp at hc; done) | (simp at hm; done) | skip
    · exact absurd hm (by simpa using tc hc)
    · exact absurd hm (by simpa using tc hc)
  · exact absurd hm (tc hc)
  · exact absurd hm (tc hc)
  · exact absurd hm (tc hc)
  · exact absurd hm (tc hc)
  · simp only [Bool.and_eq_true, List.isEmpty_iff] at hc; simp [hc.2] at hm

/-- A step of SEQ keeps `seq.buf` the transfer's first operand. -/
theorem sequencerStep_bufOk {s : State} (hc : s.seq.controlOk = true) (h : s.seq.bufOk = true) :
    (sequencerStep s).seq.bufOk = true := by
  have hi := init_of_check hc
  have hl := (Sequencer.bufOk_iff _).1 h
  have same : ∀ {t : State}, t.seq = s.seq → ∀ r, (resume s.seq.stack r t).seq.bufOk = true := fun ht r =>
    resume_bufOk (by rw [ht]; exact hl) (by rw [ht]; exact hi)
  have jump : ∀ {t : State}, t.seq = s.seq → ∀ p k, (∀ f ∈ k, f ∈ s.seq.stack ∨ f.bufOk s.seq = true) →
      (t.jump p k).seq.bufOk = true := fun ht p k hk =>
    jump_bufOk (hl.mono (by rw [ht]) (by rw [ht]) (by rw [ht]) hk) p
  unfold sequencerStep
  split
  · exact h
  · exact same (by simp) _
  · exact same (by simp) _
  · unfold lineStep
    split
    · exact same (by simp) _
    · exact jump (by simp) _ _ (fun f hf => .inl hf)
  · unfold dmaPollStep
    simp only
    split
    · exact same (by simp) _
    · rw [readDone_seq]; exact h
  · exact jump (by simp) _ _ (fun f hf => .inl hf)
  · exact jump (by simp) _ _ (fun f hf => .inl hf)
  · exact jump (by simp) _ _ (fun f hf => .inl hf)
  · exact jump (by simp) _ _ (fun f hf => by
      rcases List.mem_cons.1 hf with rfl | hf
      · exact .inr rfl
      · exact .inl hf)
  · have init : ∀ {t : State} (i : Nat), t.seq = s.seq → (initFrom i t).Latched s.seq.op s.seq.stack := fun i ht => by
      unfold initFrom
      split
      · exact ⟨by rw [ht], by rw [ht]; exact hl⟩
      · exact ⟨by rw [ht], hl.mono (by rw [ht]) (by rw [ht]) (by rw [ht]) (by simp [Frame.bufOk]; tauto)⟩
    unfold initTimingStep
    split
    · exact follow_bufOk (init _ (by simp)) hi
    · exact follow_bufOk (op := s.seq.op) ⟨rfl, hl.mono rfl rfl rfl (by simp [Frame.bufOk]; tauto)⟩ hi

theorem State.seqOk_iff (s : State) : s.seqOk = true ↔ s.flowOk = true ∧ s.seq.bufOk = true := by
  simp [State.seqOk]

/-- A step of SEQ keeps its invariant. -/
theorem sequencerStep_seqOk {s : State} (h : s.seqOk = true) : (sequencerStep s).seqOk = true := by
  obtain ⟨h1, h2⟩ := (State.seqOk_iff s).1 h
  exact (State.seqOk_iff _).2 ⟨sequencerStep_flowOk h1, sequencerStep_bufOk (flowOk_split.1 h1).1 h2⟩

/-- With no operation in progress SEQ is at the idle point. -/
theorem idle_of_op {s : State} (h : s.seqOk = true) (ho : s.seq.op = .idle) : s.seq.phase = .idle ∧
  s.seq.stack = [] := by
  obtain ⟨hc, -⟩ := flowOk_split.1 ((State.seqOk_iff s).1 h).1
  unfold Sequencer.controlOk at hc
  rw [ho] at hc
  have rc : ∀ k, readCallers .idle k = false := by intro k; unfold readCallers; split <;> rfl
  have wc : ∀ k, writeCallers .idle k = false := by intro k; simp [writeCallers]
  have tc : ∀ k, transferCallers .idle k = false := by intro k; unfold transferCallers; split <;> simp [rc, wc]
  have bc : ∀ k, waitCallers .idle k = false := by intro k; unfold waitCallers; split <;> simp [rc, wc]
  have pc : ∀ k, pollCallers .idle k = false := by intro k; unfold pollCallers; split <;> simp [tc]
  split at hc
  · exact ⟨‹_›, by simpa using hc⟩
  · exfalso; revert hc; unfold readRegCallers; split <;> simp [bc]
  · exfalso; revert hc; unfold writeRegCallers; split <;> simp [bc, rc, wc]
  · exfalso; revert hc; unfold walkCallers; split <;> simp [rc, wc]
  · simp [pc] at hc
  · simp [tc] at hc
  · simp [tc] at hc
  · simp [tc] at hc
  · simp [tc] at hc
  · simp at hc

end Sys2Proof.Machine
end

