-- ==== Sys2Proof/Laws/Encoding.lean ====
section
/-! SUPPORT. The bit facts that the encoder and the decoder rest on: halves of a word, command words, masked addresses. -/

namespace Sys2Proof

@[simp] theorem Word.low16_ofHalves (hi lo : BitVec 16) : (Word.ofHalves hi lo).low16 = lo := by
  apply BitVec.eq_of_getLsbD_eq
  intro i hi'
  simp only [Word.low16, Word.ofHalves, BitVec.getLsbD_extractLsb', BitVec.getLsbD_append]
  simp [hi']

@[simp] theorem Word.high16_ofHalves (hi lo : BitVec 16) : (Word.ofHalves hi lo).high16 = hi := by
  apply BitVec.eq_of_getLsbD_eq
  intro i hi'
  simp only [Word.high16, Word.ofHalves, BitVec.getLsbD_extractLsb', BitVec.getLsbD_append]
  have : ¬ 16 + i < 16 := by omega
  simp [hi']

theorem Word.ofHalves_halves (v : Word) : Word.ofHalves v.high16 v.low16 = v := by
  apply BitVec.eq_of_getLsbD_eq
  intro i hi
  simp only [Word.high16, Word.low16, Word.ofHalves, BitVec.getLsbD_extractLsb', BitVec.getLsbD_append]
  by_cases h : i < 16
  · simp [h]
  · have : i - 16 < 16 := by omega
    simp only [h, if_false, this, decide_true, Bool.true_and]
    congr 1
    omega

@[simp] theorem low16_setWidth (w : BitVec 16) : Word.low16 (w.setWidth 32) = w := by
  apply BitVec.eq_of_getLsbD_eq
  intro i hi
  simp only [Word.low16, BitVec.getLsbD_extractLsb', BitVec.getLsbD_setWidth, Nat.zero_add, hi, decide_true,
    Bool.true_and]
  have : i < 32 := by omega
  simp [this]

@[simp] theorem high16_setWidth (w : BitVec 16) : Word.high16 (w.setWidth 32) = 0#16 := by
  apply BitVec.eq_of_getLsbD_eq
  intro i hi
  simp only [Word.high16, BitVec.getLsbD_extractLsb', BitVec.getLsbD_setWidth, hi, decide_true, Bool.true_and,
    BitVec.getLsbD_zero]
  rw [BitVec.getLsbD_of_ge w (16 + i) (by omega)]
  simp

theorem or_flags_and (f m : BitVec 16) (off : BitVec 9) (hm : ∀ i, i < 9 → m.getLsbD i = false) :
    (f ||| off.setWidth 16) &&& m = f &&& m := by
  apply BitVec.eq_of_getLsbD_eq
  intro i hi
  simp only [BitVec.getLsbD_and, BitVec.getLsbD_or, BitVec.getLsbD_setWidth]
  by_cases h : i < 9
  · simp [hm i h]
  · rw [BitVec.getLsbD_of_ge off i (by omega)]; simp

theorem flagMask_low (i : Nat) (h : i < 9) : (0xFE00#16).getLsbD i = false := by
  revert i; decide

theorem commandRead_mask (off : BitVec 9) : commandRead off &&& 0xFE00#16 = 0xC600#16 := by
  rw [commandRead, or_flags_and _ _ _ flagMask_low]; decide

theorem commandWrite_mask (off : BitVec 9) : commandWrite off &&& 0xFE00#16 = 0xC200#16 := by
  rw [commandWrite, or_flags_and _ _ _ flagMask_low]; decide

theorem commandOffset_or (f : BitVec 16) (off : BitVec 9) (hf : ∀ i, i < 9 → f.getLsbD i = false) :
    commandOffset (f ||| off.setWidth 16) = off := by
  apply BitVec.eq_of_getLsbD_eq
  intro i hi
  simp only [commandOffset, BitVec.getLsbD_extractLsb', BitVec.getLsbD_or, BitVec.getLsbD_setWidth, Nat.zero_add, hi,
    decide_true, Bool.true_and, hf i hi, Bool.false_or]
  have : i < 16 := by omega
  simp [this]

@[simp] theorem commandOffset_commandRead (off : BitVec 9) : commandOffset (commandRead off) = off :=
  commandOffset_or _ _ (by decide)

@[simp] theorem commandOffset_commandWrite (off : BitVec 9) : commandOffset (commandWrite off) = off :=
  commandOffset_or _ _ (by decide)

theorem ne_of_and_ne {w x m : BitVec 16} (h : w &&& m ≠ x &&& m) : w ≠ x := fun e => h (by rw [e])

@[simp] theorem decodeCommand_commandRead (off : BitVec 9) : decodeCommand (commandRead off) = .ok (.usbCmdRd off) := by
  unfold decodeCommand
  rw [if_neg (ne_of_and_ne (m := 0xFE00#16) (by rw [commandRead_mask]; decide)), if_pos (commandRead_mask off)]
  simp

@[simp] theorem decodeCommand_commandWrite (off : BitVec 9) : decodeCommand (commandWrite off) = .ok (.usbCmdWr off) := by
  unfold decodeCommand
  rw [if_neg (ne_of_and_ne (m := 0xFE00#16) (by rw [commandWrite_mask]; decide)),
    if_neg (by rw [commandWrite_mask]; decide),
    if_neg (ne_of_and_ne (m := 0xFE00#16) (by rw [commandWrite_mask]; decide)), if_pos (commandWrite_mask off)]
  simp

@[simp] theorem decodeDir_encodeDir (d : Dir) : decodeDir (encodeDir d) = some d := by cases d <;> rfl

theorem setWidth29_toNat (p : BitVec 29) : (p.setWidth 32).toNat < 0x20000000 := by
  rw [BitVec.toNat_setWidth]
  have := p.isLt
  omega

theorem extract_setWidth29 (p : BitVec 29) : (p.setWidth 32).extractLsb' 0 29 = p := by
  apply BitVec.eq_of_getLsbD_eq
  intro i hi
  simp only [BitVec.getLsbD_extractLsb', BitVec.getLsbD_setWidth, Nat.zero_add, hi, decide_true, Bool.true_and]
  have : i < 32 := by omega
  simp [this]

end Sys2Proof
end

