-- ==== Sys2Proof/Laws/PerInstr.lean ====
section
/-! SUPPORT. Families of statements about each instruction as syntax, one lemma per constructor: RoundTrip, that the
decoder reads an encoded well-formed instruction back. -/

namespace Sys2Proof.Laws

/-- Decoding what the encoder writes for a well-formed instruction gives that instruction, whatever the parameters. -/
def RoundTrip.Statement (i : Instr) : Prop :=
  ∀ c : Config, i.wellFormed c = true → decode c (encode c i) = .ok i

theorem RoundTrip.new : RoundTrip.Statement .new := by intro c _; rfl

theorem RoundTrip.init : RoundTrip.Statement .init := by intro c _; rfl

theorem RoundTrip.read (buf : Word) (len : Word) : RoundTrip.Statement (.read buf len) := by intro c _; rfl

theorem RoundTrip.write (buf : Word) (len : Word) : RoundTrip.Statement (.write buf len) := by intro c _; rfl

theorem RoundTrip.rdReg (off : Word) : RoundTrip.Statement (.rdReg off) := by intro c _; rfl

theorem RoundTrip.wrReg (off : Word) (value : Word) : RoundTrip.Statement (.wrReg off value) := by intro c _; rfl

theorem RoundTrip.cacheWb (addr : Word) (len : Word) : RoundTrip.Statement (.cacheWb addr len) := by intro c _; rfl

theorem RoundTrip.cacheWbinv (addr : Word) (len : Word) : RoundTrip.Statement (.cacheWbinv addr len) := by intro c _; rfl

theorem RoundTrip.dmaXfer (ram : Word) (periph : Word) (len : Word) (dir : Dir) : RoundTrip.Statement (.dmaXfer ram periph len dir) := by intro c _; cases dir <;> rfl

theorem RoundTrip.waitNotBusy : RoundTrip.Statement .waitNotBusy := by intro c _; rfl

theorem RoundTrip.canRead : RoundTrip.Statement .canRead := by intro c _; rfl

theorem RoundTrip.canWrite : RoundTrip.Statement .canWrite := by intro c _; rfl

theorem RoundTrip.dmaWaitIdle : RoundTrip.Statement .dmaWaitIdle := by intro c _; rfl

theorem RoundTrip.usbCmdRdNop : RoundTrip.Statement .usbCmdRdNop := by intro c _; rfl

theorem RoundTrip.usbCmdRd (off : BitVec 9) : RoundTrip.Statement (.usbCmdRd off) := by intro c _; simp [decode, encode, oneValue]

theorem RoundTrip.usbCmdWrNop : RoundTrip.Statement .usbCmdWrNop := by intro c _; rfl

theorem RoundTrip.usbCmdWr (off : BitVec 9) : RoundTrip.Statement (.usbCmdWr off) := by intro c _; simp [decode, encode, oneValue]

theorem RoundTrip.keyUnlock (hi : BitVec 16) : RoundTrip.Statement (.keyUnlock hi) := by intro c _; simp [decode, encode, oneValue, decodeBridgeWrite]

theorem RoundTrip.sysCfgClear (hi : BitVec 16) : RoundTrip.Statement (.sysCfgClear hi) := by intro c _; simp [decode, encode, oneValue, decodeBridgeWrite]

theorem RoundTrip.saveOff (hi : BitVec 16) : RoundTrip.Statement (.saveOff hi) := by intro c _; simp [decode, encode, oneValue, decodeBridgeWrite]

theorem RoundTrip.usbStatus : RoundTrip.Statement .usbStatus := by intro c _; rfl

theorem RoundTrip.dmaArm : RoundTrip.Statement .dmaArm := by intro c _; simp [decode, encode, oneValue, decodeDmaWrite]

theorem RoundTrip.dmaSetRam (ram : Word) : RoundTrip.Statement (.dmaSetRam ram) := by intro c _; rfl

theorem RoundTrip.dmaSetPeriph (p : BitVec 29) : RoundTrip.Statement (.dmaSetPeriph p) := by
  intro c _
  simp only [decode, encode, oneValue, decodeDmaWrite]
  rw [if_neg (by decide), if_neg (by decide), if_pos (by decide), if_pos (setWidth29_toNat p), extract_setWidth29]

theorem RoundTrip.dmaStartIn (n : Word) : RoundTrip.Statement (.dmaStartIn n) := by intro c _; rfl

theorem RoundTrip.dmaStartOut (n : Word) : RoundTrip.Statement (.dmaStartOut n) := by intro c _; rfl

theorem RoundTrip.dmaStatus : RoundTrip.Statement .dmaStatus := by intro c _; rfl

theorem RoundTrip.dom1Set (i : Nat) : RoundTrip.Statement (.dom1Set i) := by
  intro c h
  have hi : i < c.dom1Timing.length := by simpa [Instr.wellFormed, timingIndexOk] using h
  simp [decode, encode, oneValue, decodeTimingWrite, timingValue, List.getElem?_eq_getElem hi]

end Sys2Proof.Laws
end

