-- ==== Sys2Proof/Laws/Status.lean ====
section
/-! SUPPORT. Each test of a status word on data is the test on the data's word, and the bits of a status word are those
it was composed from (43_handshake R209; 42_dma R179). -/

namespace Sys2Proof.Machine

theorem usbStatus_mask (a r t p : Bool) (drawn m : Word) (hm : m &&& 0xFFFFE1FF#32 = 0#32) :
    (BusData.usbStatus a r t p drawn).value &&& m =
      (flagBit a 0x0200#32 ||| flagBit r 0x0400#32 ||| flagBit t 0x0800#32 ||| flagBit p 0x1000#32) &&& m := by
  have hz : drawn &&& 0xFFFFE1FF#32 &&& m = 0#32 := by
    rw [BitVec.and_assoc, BitVec.and_comm 0xFFFFE1FF#32 m, hm, BitVec.and_zero]
  simp only [BusData.value, BitVec.or_assoc]
  rw [BitVec.and_comm, BitVec.and_or_distrib_left, BitVec.and_comm m, hz, BitVec.zero_or, BitVec.and_comm]

/-- The ACTIVE test on data is the ACTIVE test on its word. -/
theorem BusData.activeSet_eq (d : BusData) : d.activeSet = activeBit d.value := by
  cases d with
  | word v => rfl
  | dmaStatus busy mask drawn => rfl
  | usbStatus a r t p drawn =>
    simp only [BusData.activeSet, activeBit]
    rw [usbStatus_mask _ _ _ _ _ _ (by decide)]
    cases a <;> cases r <;> cases t <;> cases p <;> decide

/-- The CAN_READ test on data is the CAN_READ test on its word. -/
theorem BusData.canReadSet_eq (d : BusData) : d.canReadSet = canReadBits d.value := by
  cases d with
  | word v => rfl
  | dmaStatus busy mask drawn => rfl
  | usbStatus a r t p drawn =>
    simp only [BusData.canReadSet, canReadBits]
    rw [usbStatus_mask _ _ _ _ _ _ (by decide)]
    cases a <;> cases r <;> cases t <;> cases p <;> decide

/-- The CAN_WRITE test on data is the CAN_WRITE test on its word. -/
theorem BusData.canWriteSet_eq (d : BusData) : d.canWriteSet = canWriteBits d.value := by
  cases d with
  | word v => rfl
  | dmaStatus busy mask drawn => rfl
  | usbStatus a r t p drawn =>
    simp only [BusData.canWriteSet, canWriteBits]
    rw [usbStatus_mask _ _ _ _ _ _ (by decide)]
    cases a <;> cases r <;> cases t <;> cases p <;> decide

/-- The one law of the DMA status word: its masked bits are zero exactly when the engine is idle (42_dma R179), the mask
being nonzero (92 D6). -/
theorem dmaStatus_law (busy : Bool) {mask : Word} (hm : mask ≠ 0#32) (drawn : Word) :
    (BusData.dmaStatus busy mask drawn).value &&& mask = 0#32 ↔ busy = false := by
  cases busy with
  | false => simp [BusData.value, BitVec.and_assoc, BitVec.not_and_self]
  | true =>
    simp only [BusData.value, if_true]
    split
    · next h =>
      simp only [Bool.true_eq_false, iff_false]
      intro h2
      apply hm
      have : (drawn ||| mask) &&& mask = mask := by
        ext i hi
        simp only [BitVec.getElem_and, BitVec.getElem_or]
        cases mask[i] <;> simp
      rw [this] at h2
      exact h2
    · next h => simp [h]

/-- The idle test on data is the idle test on its word. -/
theorem BusData.idleSet_eq (mask : Word) (d : BusData) : d.idleSet mask = idleBits mask d.value := by
  cases d with
  | word v => rfl
  | usbStatus a r t p drawn => rfl
  | dmaStatus busy m drawn =>
    simp only [BusData.idleSet, idleBits]
    split
    · next h =>
      subst h
      by_cases hm : m = 0#32
      · subst hm; simp
      · cases busy with
        | false => simp [(dmaStatus_law false hm drawn).2 rfl]
        | true =>
          have : ¬ (BusData.dmaStatus true m drawn).value &&& m = 0#32 := fun h => by
            have := (dmaStatus_law true hm drawn).1 h
            simp at this
          simp [hm, this]
    · rfl

/-- A status word of the DMA block reports idle exactly when the engine is (42_dma R166, R179). -/
theorem dmaStatusData_idle (s : State) (hm : s.cfg.dmaBusyMask ≠ 0#32) :
    (dmaStatusData s).idleSet s.cfg.dmaBusyMask = !s.dma.busy := by
  simp [dmaStatusData, BusData.idleSet, hm]

@[simp] theorem usbStatusData_active (s : State) : (usbStatusData s).activeSet = s.brg.active := rfl

@[simp] theorem usbStatusData_canRead (s : State) :
    (usbStatusData s).canReadSet = (s.host.powered && !rxfLevel s) := rfl

@[simp] theorem usbStatusData_canWrite (s : State) :
    (usbStatusData s).canWriteSet = (s.host.powered && !txfLevel s) := rfl

theorem usbStatus_bits (a r t p : Bool) (drawn : Word) :
    (BusData.usbStatus a r t p drawn).value.getLsbD 9 = a ∧ (BusData.usbStatus a r t p drawn).value.getLsbD 10 = r ∧
      (BusData.usbStatus a r t p drawn).value.getLsbD 11 = t ∧
      (BusData.usbStatus a r t p drawn).value.getLsbD 12 = p := by
  simp only [BusData.value, flagBit]
  cases a <;> cases r <;> cases t <;> cases p <;> simp

end Sys2Proof.Machine
end

