-- ==== Sys2Proof/Laws/Runs.lean ====
section
/-! SUPPORT. Runs of several steps: how they join, and what a stretch of one kind of step does: SEQ's polls, the bridge's
bytes, the engine's bytes. -/

namespace Sys2Proof.Machine

/-! ### Joining runs -/

@[simp] theorem runSteps_zero (s : State) : runSteps 0 s = .next s := rfl

theorem runSteps_step {s t : State} (h : step s = .next t) (n : Nat) : runSteps (n + 1) s = runSteps n t := by
  simp only [runSteps, h]

theorem runSteps_one {s t : State} (h : step s = .next t) : runSteps 1 s = .next t := runSteps_step h 0

/-- Two states with the same next step have the same runs. -/
theorem runSteps_same {s u : State} (h : step s = step u) (n : Nat) : runSteps (n + 1) s = runSteps (n + 1) u := by
  simp only [runSteps, h]

theorem runSteps_add {m : Nat} {s t : State} (h : runSteps m s = .next t) (n : Nat) :
    runSteps (m + n) s = runSteps n t := by
  induction m generalizing s with
  | zero => rw [runSteps_zero] at h; cases h; simp
  | succ m ih =>
    rw [show m + 1 + n = (m + n) + 1 by omega]
    simp only [runSteps] at h ⊢
    split at h
    · exact ih h
    · cases h
    · cases h

theorem runSteps_trans {m n : Nat} {s t u : State} (h : runSteps m s = .next t) (h' : runSteps n t = .next u) :
    runSteps (m + n) s = .next u := (runSteps_add h n).trans h'

/-- A run through the states `g 0`, `g 1`, … -/
theorem runSteps_states (g : Nat → State) (n : Nat) (h : ∀ k, k < n → step (g k) = .next (g (k + 1))) :
    runSteps n (g 0) = .next (g n) := by
  induction n with
  | zero => rfl
  | succ n ih =>
    exact runSteps_trans (ih fun k hk => h k (by omega)) (runSteps_one (h n (by omega)))

/-! ### One step, by what the schedule names -/

theorem step_seq {s : State} {es : List Event} (h : s.sched = .seq :: es) :
    step s = .next (sequencerStep (s.setSched es)) := by simp only [step, h, runMove]

/-- Placing a request whose words decode runs the instruction. -/
theorem runMove_placing {s : State} {r : Request} {i : Instr} (hd : decode s.cfg r = .ok i) :
    runMove (placing r) s = exec i s := by
  unfold placing
  cases hp : placeable r.fmt <;> simp [runMove, placedStep, hp, offerStep, fetchInstr, hd]

theorem step_placing {s : State} {es : List Event} {r : Request} {i : Instr} (h : s.sched = placing r :: es)
    (hd : decode s.cfg r = .ok i) : step s = exec i (s.setSched es) := by
  simp only [step, h]
  exact runMove_placing hd

theorem step_offer {s : State} {es : List Event} {r : Request} {i : Instr} (h : s.sched = .offer r :: es)
    (hp : placeable r.fmt = true) (hd : decode s.cfg r = .ok i) : step s = exec i (s.setSched es) :=
  step_placing (by rw [h, placing, if_pos hp]) hd

/-- No move is listed, and those after the list are the default order's. -/
def State.atDefault (s : State) : Prop := s.sched = [] ∧ s.tail = .default

theorem step_default {s : State} (h : s.atDefault) : step s = .next (defaultMove s) := by
  simp only [step, h.1, runTail, h.2]

/-- A repeating tail's next move, its others listed after it. -/
theorem step_cycle {s : State} {e : Event} {rest : List Event} (h : s.sched = []) (ht : s.tail = .cycle e rest) :
    step s = runMove e (s.setSched rest) := by
  simp only [step, h, runTail, ht]

theorem bridgeEnabled_inactive {s : State} (h : s.brg.active = false) : bridgeEnabled s = false := by
  simp [bridgeEnabled, h]

/-- The default move of an idle engine and a bridge with nothing to do is SEQ's. -/
theorem step_default_seq {s : State} (h : s.atDefault) (hb : s.dma.busy = false) (he : bridgeEnabled s = false) :
    step s = .next (sequencerStep s) := by
  rw [step_default h]
  unfold defaultMove
  rw [if_neg (by simp [hb]), if_neg (by simp [he])]

/-! ### Acceptance -/

theorem whenIdle_idle {s : State} (h : s.seq.op = .idle) (f : State → State) : whenIdle f s = .next (f s) := if_pos h

theorem whenIdleAnd_idle {s : State} (h : s.seq.op = .idle) {ok : Bool} (ho : ok = true) (why : Refusal)
    (f : State → State) : whenIdleAnd ok why f s = .next (f s) := by
  unfold whenIdleAnd; rw [if_pos h, if_pos ho]

theorem runTransfer_ready {s : State} (h : s.seq.op = .idle) (hi : s.seq.initialized = true) {buf len : Word}
    (hr : buf.toNat + len.toNat ≤ 0x100000000) (op : Op) (routine : State → Flow) :
    runTransfer op buf len routine s = .next (launch op [buf, len] (fun t => routine (latchBuf buf t)) s) := by
  unfold runTransfer
  rw [if_neg (by simp [hi])]
  exact whenIdleAnd_idle h (by simp [rangeOk, hr]) _ _

/-! ### The status word and the polls of a wait (43_handshake R197) -/

/-- What SEQ reads of USB_CFG in this state. -/
def statusWord (s : State) : Word := (registerData offUsbCfg s).value

theorem active_clear (d : BusData) : d.activeSet = false ↔ d.value &&& 0x0200#32 = 0#32 := by
  rw [BusData.activeSet_eq]; simp [activeBit]

theorem statusWord_active {s : State} (h : s.bridgeReady) : statusWord s &&& 0x0200#32 = 0#32 ↔ s.brg.active = false := by
  unfold statusWord
  rw [← active_clear, registerData_usbCfg h.1 h.2]
  exact Iff.rfl

/-- After a poll, by the word that was read. -/
theorem afterPoll_data (d : BusData) (s : State) :
    afterPoll (.data d) s =
      if d.value &&& 0x0200#32 = 0#32 then .ret .ok (s.setSeq { s.seq with poll := s.seq.poll + 1#14 })
      else if s.seq.poll + 1#14 < pollLimit then
        .goto (.rdReg offUsbCfg) [.waitRead] (s.setSeq { s.seq with poll := s.seq.poll + 1#14 })
      else .goto (.wrReg offUsbCfg (commandReadNop.setWidth 32)) [.waitRecovery]
        (s.setSeq { s.seq with poll := s.seq.poll + 1#14 }) := by
  unfold afterPoll
  simp only [Result.active]
  by_cases h : d.value &&& 0x0200#32 = 0#32
  · rw [if_pos h, if_pos ((active_clear d).2 h)]
  · rw [if_neg h, if_neg (fun h' => h ((active_clear d).1 h'))]; rfl

/-- A poll of a wait, whoever called it, whatever the bridge is: by the word read, the wait returns, polls again or leads to
the recovery write. -/
theorem poll_cases {s : State} {k : List Frame} (hp : s.seq.phase = .rdReg offUsbCfg) (hk : s.seq.stack = .waitRead :: k) :
    sequencerStep s =
      let u := ({ s with seq := { s.seq with poll := s.seq.poll + 1#14 } } : State).transacted
        (.busRead (regAddr s.cfg offUsbCfg) (statusWord s))
      if statusWord s &&& 0x0200#32 = 0#32 then resume k .ok u
      else if s.seq.poll + 1#14 < pollLimit then u.jump (.rdReg offUsbCfg) (.waitRead :: k)
      else u.jump (.wrReg offUsbCfg (commandReadNop.setWidth 32)) (.waitRecovery :: k) := by
  have h1 : sequencerStep s = resume s.seq.stack (.data (registerData offUsbCfg s)) (registerRead offUsbCfg s) := by
    unfold sequencerStep; rw [hp]
  refine h1.trans ((congrArg (fun q => resume q (.data (registerData offUsbCfg s)) (registerRead offUsbCfg s)) hk).trans ?_)
  simp only [resume, afterCall, afterPoll_data]
  by_cases hv : (registerData offUsbCfg s).value &&& 0x0200#32 = 0#32
  · rw [if_pos hv, if_pos (show statusWord s &&& 0x0200#32 = 0#32 from hv)]; rfl
  · rw [if_neg hv, if_neg (show ¬ statusWord s &&& 0x0200#32 = 0#32 from hv)]
    by_cases hl : s.seq.poll + 1#14 < pollLimit
    · rw [if_pos hl, if_pos (show (registerRead offUsbCfg s).seq.poll + 1#14 < pollLimit from hl)]; rfl
    · rw [if_neg hl, if_neg (show ¬ (registerRead offUsbCfg s).seq.poll + 1#14 < pollLimit from hl)]; rfl

/-- One poll while ACTIVE is set, below the limit: only the count, the trace and the draws change. -/
theorem poll_again {s : State} {k : List Frame} (hr : s.bridgeReady) (ha : s.brg.active = true)
    (hp : s.seq.phase = .rdReg offUsbCfg) (hk : s.seq.stack = .waitRead :: k) (hn : s.seq.poll.toNat + 1 < 8192) :
    sequencerStep s =
      ({ s with seq := { s.seq with poll := s.seq.poll + 1#14 } } : State).transacted
        (.busRead (regAddr s.cfg offUsbCfg) (statusWord s)) := by
  have hv : ¬ (registerData offUsbCfg s).value &&& 0x0200#32 = 0#32 := fun h =>
    by simp [(statusWord_active hr).1 h] at ha
  have hlt : (registerRead offUsbCfg s).seq.poll + 1#14 < pollLimit := by
    simp [pollLimit, BitVec.lt_def]; omega
  unfold sequencerStep
  rw [hp]
  simp only
  rw [hk, resume]
  simp only [afterCall, afterPoll_data, if_neg hv, if_pos hlt]
  simp only [State.jump, State.setSeq, registerRead, readDone, State.record, State.tick, State.setTrace, State.setDraws,
    State.transacted, statusWord]
  rw [List.cons_append, List.nil_append, ← hk, ← hp]

/-- The last poll, while ACTIVE is set: the recovery write is next. -/
theorem poll_last {s : State} {k : List Frame} (hr : s.bridgeReady) (ha : s.brg.active = true)
    (hp : s.seq.phase = .rdReg offUsbCfg) (hk : s.seq.stack = .waitRead :: k) (hn : s.seq.poll.toNat + 1 = 8192) :
    sequencerStep s =
      ({ s with seq := { s.seq with
        poll := 8192#14, phase := .wrReg offUsbCfg (commandReadNop.setWidth 32), stack := .waitRecovery :: k } } :
          State).transacted (.busRead (regAddr s.cfg offUsbCfg) (statusWord s)) := by
  have hv : ¬ (registerData offUsbCfg s).value &&& 0x0200#32 = 0#32 := fun h =>
    by simp [(statusWord_active hr).1 h] at ha
  have hlt : ¬ (registerRead offUsbCfg s).seq.poll + 1#14 < pollLimit := by
    simp [pollLimit, BitVec.le_def]; omega
  have h8 : s.seq.poll + 1#14 = 8192#14 := by apply BitVec.eq_of_toNat_eq; simp; omega
  unfold sequencerStep
  rw [hp]
  simp only
  rw [hk, resume]
  simp only [afterCall, afterPoll_data, if_neg hv, if_neg hlt]
  simp only [State.jump, State.setSeq, registerRead, readDone, State.record, State.tick, State.setTrace, State.setDraws,
    State.transacted, statusWord, h8, List.cons_append, List.nil_append]

/-- `n` polls in a row while ACTIVE is set, below the limit. -/
theorem polls_run (n : Nat) {s : State} {k : List Frame} {es : List Event} (hr : s.bridgeReady)
    (ha : s.brg.active = true) (hp : s.seq.phase = .rdReg offUsbCfg) (hk : s.seq.stack = .waitRead :: k)
    (hs : s.sched = List.replicate n Event.seq ++ es) (hn : s.seq.poll.toNat + n < 8192) :
    ∃ vs : List Word, vs.length = n ∧
      runSteps n s = .next { s with
        sched := es
        seq := { s.seq with poll := s.seq.poll + BitVec.ofNat 14 n }
        draws := s.draws + n
        trace := vs.map (fun v => Transaction.busRead (regAddr s.cfg offUsbCfg) v) ++ s.trace } := by
  induction n generalizing s with
  | zero => refine ⟨[], rfl, ?_⟩; simp at hs; simp [← hs]
  | succ n ih =>
    rw [List.replicate_succ, List.cons_append] at hs
    have h1 := step_seq hs
    rw [poll_again (s := s.setSched (List.replicate n Event.seq ++ es)) hr ha hp hk (by simp [State.setSched]; omega)] at h1
    have hlt : (s.seq.poll + 1#14).toNat + n < 8192 := by
      rw [BitVec.toNat_add]; simp only [BitVec.toNat_ofNat]; omega
    obtain ⟨vs, hl, hv⟩ := ih (s := State.transacted { s.setSched (List.replicate n Event.seq ++ es) with
      seq := { s.seq with poll := s.seq.poll + 1#14 } } _) hr ha hp hk rfl hlt
    refine ⟨vs ++ [statusWord (s.setSched (List.replicate n Event.seq ++ es))], by simp [hl], ?_⟩
    refine (runSteps_step h1 n).trans (hv.trans ?_)
    simp only [State.transacted, State.setSched, List.map_append, List.map_cons, List.map_nil, List.append_assoc,
      List.cons_append, List.nil_append]
    rw [BitVec.add_assoc, Nat.add_assoc, Nat.add_comm 1 n]
    congr 4
    rw [Nat.add_comm n 1, BitVec.ofNat_add]

/-- The recovery write of a wait that timed out, and what it returns to the wait's caller (43_handshake R197). -/
theorem recovery_write {s : State} {k : List Frame} (hr : s.bridgeReady)
    (hp : s.seq.phase = .wrReg offUsbCfg (commandReadNop.setWidth 32)) (hk : s.seq.stack = .waitRecovery :: k) :
    ∃ w : Vector Byte 512, (packetWait k = true → s.keepsBelow w) ∧ (packetWait k = false → w = s.brg.pkt) ∧
      sequencerStep s =
        resume k .timeout (({ s with brg := { s.brg with
          cmd := commandReadNop, pkt := w, active := false, dir := .rd, ptr := Config.freePtr s.draws } } :
            State).transacted (.busWrite (regAddr s.cfg offUsbCfg) (commandReadNop.setWidth 32))) := by
  have hw : registerWrite offUsbCfg (commandReadNop.setWidth 32) s =
      ({ s with brg := { s.brg with
        cmd := commandReadNop, active := false, dir := .rd, ptr := Config.freePtr s.draws } } : State).transacted
          (.busWrite (regAddr s.cfg offUsbCfg) (commandReadNop.setWidth 32)) := by
    unfold registerWrite
    rw [registerEffect_usbCfg hr.1 hr.2]
    rfl
  have h1 : sequencerStep s = resume k .timeout (writeRegister offUsbCfg (commandReadNop.setWidth 32) s) := by
    unfold sequencerStep
    rw [hp]
    simp only
    rw [hk, resume]
    rfl
  rw [h1, writeRegister_recovery hk]
  cases hpw : packetWait k with
  | true =>
    obtain ⟨w, he, hb⟩ := abandonPacket_eq (registerWrite offUsbCfg (commandReadNop.setWidth 32) s)
    refine ⟨w, fun _ j hj => ?_, fun h => (by cases h), ?_⟩
    · rw [hb j (by rw [registerWrite_seq]; exact hj), hw]; rfl
    · rw [if_pos rfl, he, hw]; rfl
  | false => exact ⟨s.brg.pkt, fun h => (by cases h), fun _ => rfl, by rw [if_neg (by simp), hw]⟩

/-- A wait with ACTIVE set and only SEQ moving, with `n + 1` reads still to make (`n` is 8191 at its first): the reads, the
recovery write, and the error to its caller (43_handshake R198 (b)). -/
theorem wait_times_out (n : Nat) {s : State} {k : List Frame} {es : List Event} (hr : s.bridgeReady)
    (ha : s.brg.active = true) (hp : s.seq.phase = .rdReg offUsbCfg) (hk : s.seq.stack = .waitRead :: k)
    (h0 : s.seq.poll.toNat + n + 1 = 8192) (hs : s.sched = List.replicate (n + 2) Event.seq ++ es) :
    ∃ (vs : List Word) (p : Fin 513) (w : Vector Byte 512), vs.length = n + 1 ∧
      (packetWait k = true → s.keepsBelow w) ∧ (packetWait k = false → w = s.brg.pkt) ∧
      runSteps (n + 2) s = .next (resume k .timeout { s with
        sched := es
        seq := { s.seq with
          poll := 8192#14, phase := .wrReg offUsbCfg (commandReadNop.setWidth 32), stack := .waitRecovery :: k }
        brg := { s.brg with cmd := commandReadNop, pkt := w, active := false, dir := .rd, ptr := p }
        draws := s.draws + (n + 2)
        trace := .busWrite (regAddr s.cfg offUsbCfg) (commandReadNop.setWidth 32) ::
          (vs.map (fun v => Transaction.busRead (regAddr s.cfg offUsbCfg) v) ++ s.trace) }) := by
  obtain ⟨vs, hl, hv⟩ := polls_run n (es := .seq :: .seq :: es) hr ha hp hk
    (by rw [hs, ← List.replicate_append_replicate, List.append_assoc]; rfl) (by omega)
  generalize hu : ({ s with
          sched := .seq :: .seq :: es
          seq := { s.seq with poll := s.seq.poll + BitVec.ofNat 14 n }
          draws := s.draws + n
          trace := vs.map (fun v => Transaction.busRead (regAddr s.cfg offUsbCfg) v) ++ s.trace } : State) = u at hv
  have hpoll : (u.setSched (.seq :: es)).seq.poll.toNat + 1 = 8192 := by
    subst hu
    change (s.seq.poll + BitVec.ofNat 14 n).toNat + 1 = 8192
    rw [BitVec.toNat_add, BitVec.toNat_ofNat]
    have := s.seq.poll.isLt
    omega
  have h1 := step_seq (s := u) (es := .seq :: es) (by subst hu; rfl)
  rw [poll_last (k := k) (by subst hu; exact hr) (by subst hu; exact ha) (by subst hu; exact hp)
    (by subst hu; exact hk) hpoll] at h1
  generalize hw : State.transacted _ _ = w at h1
  have h2 := step_seq (s := w) (es := es) (by subst hw; rfl)
  obtain ⟨pkt, hpkt, hpkt', h3⟩ := recovery_write (s := w.setSched es) (k := k) (by subst hw; subst hu; exact hr)
    (by subst hw; rfl) (by subst hw; rfl)
  rw [h3] at h2
  refine ⟨statusWord (u.setSched (.seq :: es)) :: vs, Config.freePtr (s.draws + n + 1), pkt, by simp [hl], ?_, ?_, ?_⟩
  · subst hw; subst hu; exact hpkt
  · subst hw; subst hu; exact hpkt'
  refine (runSteps_trans hv (runSteps_trans (runSteps_one h1) (runSteps_one h2))).trans ?_
  subst hw; subst hu
  rfl

/-- The same from the wait's first read, made by a step that some other move or request brought about: `u` is the state
before that read. -/
theorem first_wait_times_out {s u : State} {k : List Frame} {es : List Event} (hstep : step s = .next (sequencerStep u))
    (hr : u.bridgeReady) (ha : u.brg.active = true) (hp : u.seq.phase = .rdReg offUsbCfg)
    (hk : u.seq.stack = .waitRead :: k) (h0 : u.seq.poll = 0#14) (m : Nat) (hm : m = 8192)
    (hs : u.sched = List.replicate m Event.seq ++ es) :
    ∃ (vs : List Word) (p : Fin 513) (w : Vector Byte 512), vs.length = m ∧
      (packetWait k = true → u.keepsBelow w) ∧ (packetWait k = false → w = u.brg.pkt) ∧
      runSteps (m + 1) s = .next (resume k .timeout { u with
        sched := es
        seq := { u.seq with
          poll := 8192#14, phase := .wrReg offUsbCfg (commandReadNop.setWidth 32), stack := .waitRecovery :: k }
        brg := { u.brg with cmd := commandReadNop, pkt := w, active := false, dir := .rd, ptr := p }
        draws := u.draws + (m + 1)
        trace := .busWrite (regAddr u.cfg offUsbCfg) (commandReadNop.setWidth 32) ::
          (vs.map (fun v => Transaction.busRead (regAddr u.cfg offUsbCfg) v) ++ u.trace) }) := by
  obtain ⟨n, rfl⟩ : ∃ n, m = n + 2 := ⟨m - 2, by omega⟩
  rw [poll_again (s := u) hr ha hp hk (by rw [h0]; decide)] at hstep
  generalize hw : State.transacted _ _ = w at hstep
  obtain ⟨vs, p, pkt, hl, hpkt, hpkt', hv⟩ := wait_times_out (s := w) n (k := k) (es := es) (by subst hw; exact hr)
    (by subst hw; exact ha) (by subst hw; exact hp) (by subst hw; exact hk)
    (by subst hw; change (u.seq.poll + 1#14).toNat + n + 1 = 8192
        rw [h0, show (0#14 + 1#14).toNat = 1 from rfl]; omega) (by subst hw; exact hs)
  refine ⟨vs ++ [statusWord u], p, pkt, by simp [hl], by subst hw; exact hpkt, by subst hw; exact hpkt', ?_⟩
  refine (runSteps_step hstep (n + 2)).trans (hv.trans ?_)
  subst hw
  simp only [State.transacted, List.map_append, List.map_cons, List.map_nil, List.append_assoc, List.cons_append,
    List.nil_append]
  congr 3
  omega

/-! ### The bridge's bytes (43_handshake R205 to R208) -/

theorem bridgeReadStep_byte {b : Bridge} {x : Byte} {rest : List Byte} (h : b.ptr.val < 512) (hq : b.rxFifo = x :: rest) :
    bridgeReadStep b = { b with pkt := b.pkt.set b.ptr.val x, ptr := nextPtr b.ptr h, rxFifo := rest } := by
  unfold bridgeReadStep; rw [dif_pos h, hq]

theorem bridgeReadStep_done {b : Bridge} (h : b.ptr.val = 512) : bridgeReadStep b = { b with active := false } := by
  unfold bridgeReadStep; rw [dif_neg (by omega)]

theorem bridgeWriteStep_byte {depth : Option Nat} {b : Bridge} (h : b.ptr.val < 512) (hq : hasRoom depth b.txFifo = true) :
    bridgeWriteStep depth b =
      { b with txFifo := b.txFifo ++ [b.pkt[b.ptr.val]], ptr := nextPtr b.ptr h } := by
  unfold bridgeWriteStep; rw [dif_pos h, if_pos hq]

theorem bridgeWriteStep_done {depth : Option Nat} {b : Bridge} (h : b.ptr.val = 512) :
    bridgeWriteStep depth b = { b with active := false } := by
  unfold bridgeWriteStep; rw [dif_neg (by omega)]

/-- `n` bytes from the receive FIFO into the window, from the pointer up. -/
theorem bridgeReadStep_iterate (n : Nat) {b : Bridge} (hp : b.ptr.val + n ≤ 512) (hq : n ≤ b.rxFifo.length) :
    ∃ (w : Vector Byte 512) (p : Fin 513), p.val = b.ptr.val + n ∧
      bridgeReadStep^[n] b = { b with pkt := w, ptr := p, rxFifo := b.rxFifo.drop n } ∧
      ∀ k : Fin 512, w[k] =
        if b.ptr.val ≤ k.val ∧ k.val < b.ptr.val + n then (b.rxFifo[k.val - b.ptr.val]?).getD (b.pkt[k]) else b.pkt[k] := by
  induction n generalizing b with
  | zero => exact ⟨b.pkt, b.ptr, rfl, rfl, fun k => by rw [if_neg (by omega)]⟩
  | succ n ih =>
    match hf : b.rxFifo with
    | [] => rw [hf] at hq; simp at hq
    | x :: rest =>
      have hlt : b.ptr.val < 512 := by omega
      rw [Function.iterate_succ_apply, bridgeReadStep_byte hlt hf]
      obtain ⟨w, p, h1, h2, h3⟩ := ih (b := { b with
        pkt := b.pkt.set b.ptr.val x, ptr := nextPtr b.ptr hlt, rxFifo := rest })
        (by simp only [nextPtr]; omega) (by rw [hf] at hq; simpa using hq)
      have h1' : p.val = b.ptr.val + 1 + n := h1
      have h3' : ∀ k : Fin 512, w[k] =
          if b.ptr.val + 1 ≤ k.val ∧ k.val < b.ptr.val + 1 + n then
            (rest[k.val - (b.ptr.val + 1)]?).getD ((b.pkt.set b.ptr.val x)[k]) else (b.pkt.set b.ptr.val x)[k] := h3
      refine ⟨w, p, by omega, by rw [h2]; simp, fun k => ?_⟩
      rw [h3' k]
      simp only [Fin.getElem_fin]
      by_cases hk : k.val = b.ptr.val
      · rw [if_neg (by omega), if_pos (by omega)]; simp [hk]
      · rw [Vector.getElem_set_ne _ _ (by omega)]
        by_cases h : b.ptr.val ≤ k.val ∧ k.val < b.ptr.val + (n + 1)
        · rw [if_pos (by omega), if_pos h, show k.val - b.ptr.val = (k.val - (b.ptr.val + 1)) + 1 by omega]; simp
        · rw [if_neg (by omega), if_neg h]

/-- `n` bytes from the window, from the pointer up, to the transmit FIFO. -/
theorem bridgeWriteStep_iterate (n : Nat) {depth : Option Nat} {b : Bridge} (hp : b.ptr.val + n ≤ 512)
    (hq : ∀ d, depth = some d → b.txFifo.length + n ≤ d) :
    ∃ p : Fin 513, p.val = b.ptr.val + n ∧
      (bridgeWriteStep depth)^[n] b =
        { b with ptr := p, txFifo := b.txFifo ++ (b.pkt.toList.drop b.ptr.val).take n } := by
  induction n generalizing b with
  | zero => exact ⟨b.ptr, rfl, by simp⟩
  | succ n ih =>
    have hlt : b.ptr.val < 512 := by omega
    have hroom : hasRoom depth b.txFifo = true := by
      unfold hasRoom; split
      · rfl
      · have := hq _ rfl; simp; omega
    rw [Function.iterate_succ_apply, bridgeWriteStep_byte hlt hroom]
    obtain ⟨p, h1, h2⟩ := ih (b := { b with
      txFifo := b.txFifo ++ [b.pkt[b.ptr.val]], ptr := nextPtr b.ptr hlt })
      (by simp only [nextPtr]; omega) (fun d hd => by have := hq d hd; simp; omega)
    have h1' : p.val = b.ptr.val + 1 + n := h1
    refine ⟨p, by omega, ?_⟩
    rw [h2]
    simp only [nextPtr, List.append_assoc, List.cons_append, List.nil_append]
    congr 2
    rw [List.drop_eq_getElem_cons (i := b.ptr.val) (by simpa using hlt), List.take_succ_cons]
    simp

theorem bridgeStep_setSched (s : State) (l : List Event) : bridgeStep (s.setSched l) = (bridgeStep s).setSched l := by
  unfold bridgeStep
  rw [show (s.setSched l).brg = s.brg from rfl, show (s.setSched l).cfg = s.cfg from rfl]
  cases s.brg.active
  · rfl
  · cases s.brg.dir <;> rfl

/-- `n` moves of an active bridge, named by the schedule (`named`) or made by default, while `f` is its step. -/
theorem bridge_run (n : Nat) {s : State} {es : List Event} (named : Bool) (f : Bridge → Bridge)
    (hact : ∀ k, k < n → bridgeStep (s.setBrg (f^[k] s.brg)) = s.setBrg (f^[k + 1] s.brg))
    (hdef : named = false → es = [] ∧ s.tail = .default ∧ s.dma.busy = false ∧
      ∀ k, k < n → bridgeEnabled (s.setBrg (f^[k] s.brg)) = true)
    (hs : s.sched = (if named then List.replicate n Event.bridge else []) ++ es) :
    runSteps n s = .next { s with sched := es, brg := f^[n] s.brg } := by
  have key := runSteps_states (fun k => { s with
    sched := (if named then List.replicate (n - k) Event.bridge else []) ++ es, brg := f^[k] s.brg }) n ?_
  · simp only [Nat.sub_zero, Function.iterate_zero, id, Nat.sub_self, List.replicate_zero] at key
    rw [show (if named = true then ([] : List Event) else []) = [] by split <;> rfl, List.nil_append] at key
    rw [← key, ← hs]
  · intro k hk
    have hmove : ∀ l : List Event, bridgeStep { s with sched := l, brg := f^[k] s.brg } =
        { s with sched := l, brg := f^[k + 1] s.brg } := fun l =>
      (bridgeStep_setSched (s.setBrg (f^[k] s.brg)) l).trans (by rw [hact k hk]; rfl)
    cases named with
    | true =>
      simp only [if_true]
      rw [show n - k = (n - (k + 1)) + 1 by omega, List.replicate_succ, List.cons_append]
      simp only [step, runMove, State.setSched]
      exact congrArg _ (hmove _)
    | false =>
      obtain ⟨rfl, ht, hb, he⟩ := hdef rfl
      have he' : bridgeEnabled { s with sched := [], brg := f^[k] s.brg } = true := he k hk
      refine (step_default (s := { s with sched := [], brg := f^[k] s.brg }) ⟨rfl, ht⟩).trans ?_
      unfold defaultMove
      rw [if_neg (by simp [hb]), if_pos he']
      exact congrArg _ (hmove _)

/-- A read packet's bytes and its completion: window bytes from the pointer up are the bytes taken. -/
theorem read_packet_run {s : State} {es : List Event} (named : Bool) (ha : s.brg.active = true) (hd : s.brg.dir = .rd)
    {n : Nat} (hp : s.brg.ptr.val + n = 512) (hq : n ≤ s.brg.rxFifo.length)
    (hdef : named = false → es = [] ∧ s.tail = .default ∧ s.dma.busy = false)
    (hs : s.sched = (if named then List.replicate (n + 1) Event.bridge else []) ++ es) :
    ∃ w : Vector Byte 512,
      runSteps (n + 1) s = .next { s with
        sched := es
        brg := { s.brg with pkt := w, active := false, ptr := 512, rxFifo := s.brg.rxFifo.drop n } } ∧
      ∀ k : Fin 512, w[k] =
        if s.brg.ptr.val ≤ k.val then (s.brg.rxFifo[k.val - s.brg.ptr.val]?).getD (s.brg.pkt[k]) else s.brg.pkt[k] := by
  have hit : ∀ m, m ≤ n → ∃ (w : Vector Byte 512) (p : Fin 513), p.val = s.brg.ptr.val + m ∧
      bridgeReadStep^[m] s.brg = { s.brg with pkt := w, ptr := p, rxFifo := s.brg.rxFifo.drop m } ∧ _ :=
    fun m hm => bridgeReadStep_iterate m (by omega) (by omega)
  obtain ⟨w, p, h1, h2, h3⟩ := hit n le_rfl
  have hp5 : p = 512 := Fin.ext (by rw [h1, hp]; rfl)
  refine ⟨w, ?_, fun k => ?_⟩
  · refine (bridge_run (n + 1) named bridgeReadStep (fun k hk => ?_) (fun hn => ⟨(hdef hn).1, (hdef hn).2.1, (hdef hn).2.2, fun k hk => ?_⟩)
      hs).trans ?_
    · obtain ⟨w', p', -, h2', -⟩ := hit k (by omega)
      rw [Function.iterate_succ_apply', h2']
      unfold bridgeStep
      simp only [State.setBrg, ha, hd, if_true]
    · obtain ⟨w', p', h1', h2', -⟩ := hit k (by omega)
      rw [h2']
      simp only [bridgeEnabled, State.setBrg, ha, hd, Bool.true_and, Bool.or_eq_true, decide_eq_true_eq]
      by_cases hk' : k = n
      · left; omega
      · right
        have : s.brg.rxFifo.drop k ≠ [] := by
          intro h; have := congrArg List.length h; simp at this; omega
        simpa using this
    · rw [Function.iterate_succ_apply', h2, bridgeReadStep_done (by simp only [hp5]; rfl), hp5]
  · rw [h3 k]
    by_cases h : s.brg.ptr.val ≤ k.val
    · rw [if_pos h, if_pos (by omega)]
    · rw [if_neg h, if_neg (by omega)]

/-- A write packet's bytes and its completion: the window from the pointer up has joined the transmit FIFO. -/
theorem write_packet_run {s : State} {es : List Event} (named : Bool) (ha : s.brg.active = true) (hd : s.brg.dir = .wr)
    {n : Nat} (hp : s.brg.ptr.val + n = 512) (hq : ∀ d, s.cfg.txDepth = some d → s.brg.txFifo.length + n ≤ d)
    (hdef : named = false → es = [] ∧ s.tail = .default ∧ s.dma.busy = false)
    (hs : s.sched = (if named then List.replicate (n + 1) Event.bridge else []) ++ es) :
    runSteps (n + 1) s = .next { s with
      sched := es
      brg := { s.brg with
        active := false, ptr := 512, txFifo := s.brg.txFifo ++ s.brg.pkt.toList.drop s.brg.ptr.val } } := by
  have hit : ∀ m, m ≤ n → ∃ p : Fin 513, p.val = s.brg.ptr.val + m ∧
      (bridgeWriteStep s.cfg.txDepth)^[m] s.brg = { s.brg with
        ptr := p, txFifo := s.brg.txFifo ++ (s.brg.pkt.toList.drop s.brg.ptr.val).take m } :=
    fun m hm => bridgeWriteStep_iterate m (by omega) (fun d hd => by have := hq d hd; omega)
  obtain ⟨p, h1, h2⟩ := hit n le_rfl
  have hp5 : p = 512 := Fin.ext (by rw [h1, hp]; rfl)
  refine (bridge_run (n + 1) named (bridgeWriteStep s.cfg.txDepth) (fun k hk => ?_)
    (fun hn => ⟨(hdef hn).1, (hdef hn).2.1, (hdef hn).2.2, fun k hk => ?_⟩) hs).trans ?_
  · obtain ⟨p', -, h2'⟩ := hit k (by omega)
    rw [Function.iterate_succ_apply', h2']
    unfold bridgeStep
    simp only [State.setBrg, ha, hd, if_true]
  · obtain ⟨p', h1', h2'⟩ := hit k (by omega)
    rw [h2']
    simp only [bridgeEnabled, State.setBrg, ha, hd, Bool.true_and, Bool.or_eq_true, decide_eq_true_eq]
    by_cases hk' : k = n
    · left; omega
    · right
      unfold hasRoom
      split
      · rfl
      · rename_i d hd'
        have := hq d hd'
        simp; omega
  · rw [Function.iterate_succ_apply', h2, bridgeWriteStep_done (by simp only [hp5]; rfl), hp5,
      List.take_of_length_le (by simp; omega)]

/-! ### The engine's bytes, in ascending order (42_dma R176, R178) -/

theorem indexInsert_range (k : Nat) : indexInsert k (List.range k) = List.range (k + 1) := by
  have h : ∀ l : List Nat, (∀ i ∈ l, i < k) → indexInsert k l = l ++ [k] := by
    intro l
    induction l with
    | nil => intro _; rfl
    | cons j rest ih =>
      intro h
      have hj := h j (by simp)
      rw [indexInsert, if_neg (by omega), if_neg (by omega), ih (fun i hi => h i (by simp [hi]))]
      rfl
  rw [h _ (fun i hi => by simpa using hi), List.range_succ]

theorem firstMissing_range (k : Nat) : firstMissing 0 (List.range k) = k := by
  have h : ∀ n i, firstMissing i (List.range' i n) = i + n := by
    intro n
    induction n with
    | zero => intro i; simp [firstMissing]
    | succ n ih => intro i; rw [List.range'_succ, firstMissing, if_pos rfl, ih]; omega
  rw [List.range_eq_range', h, Nat.zero_add]

/-- RAM after the first `n` bytes of an incoming job, the window at `k`. -/
def ramAfter (m : Memory) (w : Vector Byte 512) (a k : Nat) : Nat → Memory
  | 0 => m
  | n + 1 => (ramAfter m w a k n).write (a + n) ((w[k + n]?).getD 0#8)

theorem ramAfter_read (m : Memory) (w : Vector Byte 512) (a k n x : Nat) :
    (ramAfter m w a k n).read x = if a ≤ x ∧ x < a + n then (w[k + (x - a)]?).getD 0#8 else m.read x := by
  induction n with
  | zero => rw [if_neg (by omega)]; rfl
  | succ n ih =>
    rw [ramAfter, Memory.read_write, ih]
    by_cases h : x = a + n
    · rw [if_pos h, if_pos (by omega), h]; congr 3; omega
    · rw [if_neg h]
      by_cases h' : a ≤ x ∧ x < a + n
      · rw [if_pos h', if_pos (by omega)]
      · rw [if_neg h', if_neg (by omega)]

/-- The window after the first `n` bytes of an outgoing job. -/
def windowAfter (m : Memory) (w : Vector Byte 512) (a k : Nat) : Nat → Vector Byte 512
  | 0 => w
  | n + 1 => (windowAfter m w a k n).setIfInBounds (k + n) (m.read (a + n))

theorem windowAfter_get (m : Memory) (w : Vector Byte 512) (a k n : Nat) (j : Fin 512) :
    (windowAfter m w a k n)[j] = if k ≤ j.val ∧ j.val < k + n then m.read (a + (j.val - k)) else w[j] := by
  induction n with
  | zero => rw [if_neg (by omega)]; rfl
  | succ n ih =>
    simp only [Fin.getElem_fin] at ih ⊢
    rw [windowAfter, Vector.getElem_setIfInBounds]
    by_cases h : k + n = j.val
    · rw [if_pos h, if_pos (by omega)]; congr 1; omega
    · rw [if_neg h, ih]
      by_cases h' : k ≤ j.val ∧ j.val < k + n
      · rw [if_pos h', if_pos (by omega)]
      · rw [if_neg h', if_neg (by omega)]

theorem windowIndex_at {c : Config} {p : Word} {k : Nat} (hp : p.toNat = c.bridgeBase.toNat + 0x0400 + k)
    (hk : k < 512) : windowIndex c p = some ⟨k, hk⟩ := by
  have h : p.toNat - (c.bridgeBase.toNat + 0x0400) = k := by omega
  unfold windowIndex
  simp only [h]
  rw [dif_pos ⟨by omega, hk⟩]

theorem windowIndex_job {c : Config} (hb : c.bridgeBase.toNat + 0x801B < 0x20000000) {p : Word} {k i : Nat}
    (hp : p.toNat = c.bridgeBase.toNat + 0x0400 + k) (hi : k + i < 512) :
    windowIndex c (p + BitVec.ofNat 32 i) = some ⟨k + i, hi⟩ := by
  refine windowIndex_at ?_ hi
  rw [BitVec.toNat_add, BitVec.toNat_ofNat]
  omega

theorem alignOk_all {c : Config} (h : c.alignsAll) (j : Job) : alignOk c j = true := by
  obtain ⟨h1, h2, h3⟩ := h
  simp [alignOk, h1, h2, h3, Nat.mod_one]

/-- One incoming byte, the window not the bridge's. -/
theorem transferByte_incoming {s : State} {j : Job} {i k : Nat} (hd : j.dir = .incoming) (hc : s.cfg.alignsAll)
    (ha : s.brg.active = false) {hk : k < 512} (hw : windowIndex s.cfg (jobPeriph j i) = some ⟨k, hk⟩)
    (hr : jobRam j i < s.cfg.ramSize) : transferByte j i s = s.setMem (s.mem.write (jobRam j i) (s.brg.pkt[k])) := by
  have hin : incomingByte j i s = s.brg.pkt[k] := by
    unfold incomingByte periphByte; rw [if_pos (alignOk_all hc j), hw]; simp [ha]
  unfold transferByte ramWrite
  simp only [hd, if_pos hr, hin]

/-- One outgoing byte, the window not the bridge's. -/
theorem transferByte_outgoing {s : State} {j : Job} {i k : Nat} (hd : j.dir = .outgoing) (hc : s.cfg.alignsAll)
    (ha : s.brg.active = false) {hk : k < 512} (hw : windowIndex s.cfg (jobPeriph j i) = some ⟨k, hk⟩)
    (hr : jobRam j i < s.cfg.ramSize) :
    transferByte j i s = s.setBrg { s.brg with pkt := s.brg.pkt.set k (s.mem.read (jobRam j i)) } := by
  have hout : outgoingByte j i s = s.mem.read (jobRam j i) := by
    unfold outgoingByte; rw [if_pos (alignOk_all hc j), if_pos hr]
  unfold transferByte periphWrite
  simp only [hd, hw, hout, ha]
  rfl

theorem engine_move_step {s : State} (hs : s.atDefault) (hb : s.dma.busy = true) {i : Nat}
    (hd : s.dma.job.done = List.range i) (hi : i < s.dma.job.count.toNat) :
    step s = .next ((transferByte s.dma.job i s).setDma
      { s.dma with job := { s.dma.job with done := List.range (i + 1) } }).tick := by
  have hc : jobComplete s.dma.job = false := by simp [jobComplete, hd, hi]
  have hm : moveEnabled i s.dma = true := by simp [moveEnabled, hb, hd, hi]
  rw [step_default hs]
  unfold defaultMove engineDefault dmaMove
  rw [if_pos hb, hc, if_neg (by simp), hd, firstMissing_range, if_pos hm, indexInsert_range]

theorem engine_complete_step {s : State} (hs : s.atDefault) (hb : s.dma.busy = true)
    (hd : s.dma.job.done = List.range s.dma.job.count.toNat) :
    step s = .next (s.setDma { s.dma with busy := false }) := by
  have hc : jobComplete s.dma.job = true := by simp [jobComplete, hd]
  rw [step_default hs]
  simp only [defaultMove, hb, if_true, engineDefault, hc, dmaComplete, Bool.and_self]

/-- An idle-to-idle run of the engine on a job just started, by default moves: `count` bytes in ascending order, then the
completion. -/
theorem engine_run {s : State} (hl : s.cfg.bridgeBase.toNat + 0x801B < 0x20000000) (hc : s.cfg.alignsAll)
    (hs : s.atDefault) (hb : s.dma.busy = true) (hd : s.dma.job.done = []) (ha : s.brg.active = false) {n k : Nat}
    (hn : s.dma.job.count.toNat = n) (hk : k + n ≤ 512)
    (hp : s.dma.job.periph.toNat = s.cfg.bridgeBase.toNat + 0x0400 + k)
    (hr : ramPhys s.dma.job.ram + n ≤ s.cfg.ramSize) :
    ∃ j : Job,
      (s.dma.job.dir = .incoming → runSteps (n + 1) s = .next { s with
        mem := ramAfter s.mem s.brg.pkt (ramPhys s.dma.job.ram) k n
        dma := { s.dma with busy := false, job := j }, draws := s.draws + n }) ∧
      (s.dma.job.dir = .outgoing → runSteps (n + 1) s = .next { s with
        brg := { s.brg with pkt := windowAfter s.mem s.brg.pkt (ramPhys s.dma.job.ram) k n }
        dma := { s.dma with busy := false, job := j }, draws := s.draws + n }) := by
  have hwin : ∀ i, i < n → ∃ h : k + i < 512, windowIndex s.cfg (jobPeriph s.dma.job i) = some ⟨k + i, h⟩ := fun i hi =>
    ⟨by omega, windowIndex_job hl hp (by omega)⟩
  have hram : ∀ i, i < n → jobRam s.dma.job i < s.cfg.ramSize := fun i hi => by unfold jobRam; omega
  refine ⟨{ s.dma.job with done := List.range n }, fun hdir => ?_, fun hdir => ?_⟩
  · have key := runSteps_states (fun i => { s with
      mem := ramAfter s.mem s.brg.pkt (ramPhys s.dma.job.ram) k i
      dma := { s.dma with job := { s.dma.job with done := List.range i } }, draws := s.draws + i }) n ?_
    · have h0 : ({ s with
        mem := ramAfter s.mem s.brg.pkt (ramPhys s.dma.job.ram) k 0
        dma := { s.dma with job := { s.dma.job with done := List.range 0 } }, draws := s.draws + 0 } : State) = s := by
        rw [List.range_zero, ← hd]; rfl
      rw [h0] at key
      refine runSteps_trans key (runSteps_one ?_)
      exact engine_complete_step (s := { s with
        mem := ramAfter s.mem s.brg.pkt (ramPhys s.dma.job.ram) k n
        dma := { s.dma with job := { s.dma.job with done := List.range n } }, draws := s.draws + n })
        hs hb (by simp only [hn])
    · intro i hi
      obtain ⟨hki, hwi⟩ := hwin i hi
      refine (engine_move_step (s := { s with
        mem := ramAfter s.mem s.brg.pkt (ramPhys s.dma.job.ram) k i
        dma := { s.dma with job := { s.dma.job with done := List.range i } }, draws := s.draws + i })
        hs hb rfl (by simp only [hn]; exact hi)).trans ?_
      rw [transferByte_incoming (by exact hdir) (by exact hc) (by exact ha) (by exact hwi) (by exact hram i hi)]
      simp only [State.setMem, State.setDma, State.tick, State.setDraws, ramAfter, jobRam]
      rw [Vector.getElem?_eq_getElem hki]
      rfl
  · have key := runSteps_states (fun i => { s with
      brg := { s.brg with pkt := windowAfter s.mem s.brg.pkt (ramPhys s.dma.job.ram) k i }
      dma := { s.dma with job := { s.dma.job with done := List.range i } }, draws := s.draws + i }) n ?_
    · have h0 : ({ s with
        brg := { s.brg with pkt := windowAfter s.mem s.brg.pkt (ramPhys s.dma.job.ram) k 0 }
        dma := { s.dma with job := { s.dma.job with done := List.range 0 } }, draws := s.draws + 0 } : State) = s := by
        rw [List.range_zero, ← hd]; rfl
      rw [h0] at key
      refine runSteps_trans key (runSteps_one ?_)
      exact engine_complete_step (s := { s with
        brg := { s.brg with pkt := windowAfter s.mem s.brg.pkt (ramPhys s.dma.job.ram) k n }
        dma := { s.dma with job := { s.dma.job with done := List.range n } }, draws := s.draws + n })
        hs hb (by simp only [hn])
    · intro i hi
      obtain ⟨hki, hwi⟩ := hwin i hi
      refine (engine_move_step (s := { s with
        brg := { s.brg with pkt := windowAfter s.mem s.brg.pkt (ramPhys s.dma.job.ram) k i }
        dma := { s.dma with job := { s.dma.job with done := List.range i } }, draws := s.draws + i })
        hs hb rfl (by simp only [hn]; exact hi)).trans ?_
      rw [transferByte_outgoing (by exact hdir) (by exact hc) (by exact ha) (by exact hwi) (by exact hram i hi)]
      simp only [State.setBrg, State.setDma, State.tick, State.setDraws, windowAfter, jobRam]
      have hset : ∀ (w : Vector Byte 512) (b : Byte), w.set (k + i) b = w.setIfInBounds (k + i) b := fun w b => by
        ext x hx; simp [Vector.getElem_set, Vector.getElem_setIfInBounds]
      rw [hset]
      rfl

/-! ### DMA_XFER's transactions (42_dma R167) -/

theorem status_idle {s : State} (hl : s.cfg.legal = true) :
    (busData (dmaAddr s.cfg .status) s).idleSet s.cfg.dmaBusyMask = !s.dma.busy := by
  rw [busData_status hl, dmaStatusData_idle s (Config.legal_mask hl)]

theorem status_word {s : State} (hl : s.cfg.legal = true) :
    (busData (dmaAddr s.cfg .status) s).value &&& s.cfg.dmaBusyMask = 0#32 ↔ s.dma.busy = false := by
  have h := status_idle hl
  rw [BusData.idleSet_eq] at h
  simp only [idleBits] at h
  have h' := congrArg (· = true) h
  simpa using h'

/-- The word that SEQ reads of `status`. -/
def dmaStatusWord (s : State) : Word := (busData (dmaAddr s.cfg .status) s).value

theorem dmaPoll_idle {s : State} (hl : s.cfg.legal = true) (hb : s.dma.busy = false) (hp : s.seq.phase = .dmaPoll) :
    sequencerStep s =
      resume s.seq.stack .ok (s.transacted (.busRead (dmaAddr s.cfg .status) (dmaStatusWord s))) := by
  have h := status_idle hl
  unfold sequencerStep
  rw [hp]
  simp only [dmaPollStep, h, hb, Bool.not_false, if_true]
  rfl

/-- A `status` read of a busy engine is all that happens: the poll stands, whoever waits (42_dma R172). -/
theorem dmaPoll_busy {s : State} (hl : s.cfg.legal = true) (hb : s.dma.busy = true) (hp : s.seq.phase = .dmaPoll) :
    sequencerStep s = s.transacted (.busRead (dmaAddr s.cfg .status) (dmaStatusWord s)) := by
  have h := status_idle hl
  unfold sequencerStep
  rw [hp]
  simp only [dmaPollStep, h, hb, Bool.not_true, Bool.false_eq_true, if_false]
  rfl

/-- The DMA block after a write to a register while the engine is idle; `status` takes the arm value. -/
def dmaAfter (r : DmaReg) (v : Word) (d : Dma) : Dma :=
  match r with
  | .ramAddr => { d with ramAddr := v }
  | .peripheralAddr => { d with peripheralAddr := v }
  | .readLen => { d with readLen := v, busy := true, job := startedJob .incoming v d }
  | .writeLen => { d with writeLen := v, busy := true, job := startedJob .outgoing v d }
  | .status => d

/-- A DMA register of an idle engine written by SEQ. -/
theorem busWrite_dma_idle {s : State} (hl : s.cfg.legal = true) (hb : s.dma.busy = false) (r : DmaReg) (v : Word)
    (hv : r = .status → v = s.cfg.dmaArm) :
    busWrite (dmaAddr s.cfg r) v s =
      ({ s with dma := dmaAfter r v s.dma } : State).transacted (.busWrite (dmaAddr s.cfg r) v) := by
  unfold busWrite
  rw [busEffect_dma hl]
  have hi : ∀ (f : State → State) (t : State), t.dma.busy = false → whenEngineIdle f t = f t := fun f t h => by
    unfold whenEngineIdle; rw [if_neg (by simp [h])]
  have hn : ∀ slot, lengthAfter slot v s = v := fun slot => by simp [lengthAfter, hb]
  cases r
  case status => simp only [dmaWrite, statusWrite]; rw [if_pos ⟨hb, hv rfl⟩]; rfl
  all_goals simp only [dmaWrite, hn]; rw [hi _ _ (by exact hb)]; rfl

/-- A phase of DMA_XFER that writes a register and goes on to the next phase. -/
theorem transferWrite_idle {s : State} (hl : s.cfg.legal = true) (hb : s.dma.busy = false) (r : DmaReg) (v : Word)
    (hv : r = .status → v = s.cfg.dmaArm) (next : Phase) :
    transferWrite r v next s = { s with
      seq := { s.seq with phase := next }
      dma := dmaAfter r v s.dma
      draws := s.draws + 1
      trace := .busWrite (dmaAddr s.cfg r) v :: s.trace } := by
  unfold transferWrite
  rw [busWrite_dma_idle hl hb r v hv]
  rfl

/-- The states of DMA_XFER from its first wait to its second, the engine idle: the status read, the four writes in order,
`len - 1` last. -/
def transferStates (x : Xfer) (k : List Frame) (s : State) : Nat → State
  | 0 => s
  | 1 => { s with
      seq := { s.seq with phase := .dmaArm x, stack := k }
      draws := s.draws + 1
      trace := .busRead (dmaAddr s.cfg .status) (dmaStatusWord s) :: s.trace }
  | 2 => { s with
      seq := { s.seq with phase := .dmaRam x, stack := k }
      draws := s.draws + 2
      trace := [.busWrite (dmaAddr s.cfg .status) s.cfg.dmaArm,
        .busRead (dmaAddr s.cfg .status) (dmaStatusWord s)] ++ s.trace }
  | 3 => { s with
      seq := { s.seq with phase := .dmaPeriph x, stack := k }
      dma := { s.dma with ramAddr := x.ram }
      draws := s.draws + 3
      trace := [.busWrite (dmaAddr s.cfg .ramAddr) x.ram, .busWrite (dmaAddr s.cfg .status) s.cfg.dmaArm,
        .busRead (dmaAddr s.cfg .status) (dmaStatusWord s)] ++ s.trace }
  | 4 => { s with
      seq := { s.seq with phase := .dmaLen x, stack := k }
      dma := { s.dma with ramAddr := x.ram, peripheralAddr := x.periph }
      draws := s.draws + 4
      trace := [.busWrite (dmaAddr s.cfg .peripheralAddr) x.periph, .busWrite (dmaAddr s.cfg .ramAddr) x.ram,
        .busWrite (dmaAddr s.cfg .status) s.cfg.dmaArm,
        .busRead (dmaAddr s.cfg .status) (dmaStatusWord s)] ++ s.trace }
  | _ => { s with
      seq := { s.seq with phase := .dmaPoll, stack := .dmaLastWait :: k }
      dma := { s.dma with
        ramAddr := x.ram, peripheralAddr := x.periph
        readLen := if x.dir = .incoming then x.len - 1#32 else s.dma.readLen
        writeLen := if x.dir = .outgoing then x.len - 1#32 else s.dma.writeLen
        busy := true
        job := ⟨x.dir, x.ram, x.periph, (x.len - 1#32).setWidth 33 + 1#33, []⟩ }
      draws := s.draws + 5
      trace := [.busWrite (dmaAddr s.cfg (lengthReg x.dir)) (x.len - 1#32),
        .busWrite (dmaAddr s.cfg .peripheralAddr) x.periph, .busWrite (dmaAddr s.cfg .ramAddr) x.ram,
        .busWrite (dmaAddr s.cfg .status) s.cfg.dmaArm,
        .busRead (dmaAddr s.cfg .status) (dmaStatusWord s)] ++ s.trace }

theorem transferStates_idle {x : Xfer} {k : List Frame} {s : State} (hb : s.dma.busy = false) {i : Nat} (hi : i < 5) :
    (transferStates x k s i).dma.busy = false ∧ (transferStates x k s i).brg = s.brg ∧
      (transferStates x k s i).sched = s.sched ∧ (transferStates x k s i).tail = s.tail := by
  have : i = 0 ∨ i = 1 ∨ i = 2 ∨ i = 3 ∨ i = 4 := by omega
  rcases this with rfl | rfl | rfl | rfl | rfl <;> exact ⟨hb, rfl, rfl, rfl⟩

theorem transferStates_step {s : State} {x : Xfer} {k : List Frame} (hl : s.cfg.legal = true) (hb : s.dma.busy = false)
    (hp : s.seq.phase = .dmaPoll) (hk : s.seq.stack = .dmaFirstWait x :: k) {i : Nat} (hi : i < 5) :
    sequencerStep (transferStates x k s i) = transferStates x k s (i + 1) := by
  have : i = 0 ∨ i = 1 ∨ i = 2 ∨ i = 3 ∨ i = 4 := by omega
  rcases this with rfl | rfl | rfl | rfl | rfl
  · rw [transferStates, dmaPoll_idle hl hb hp, hk]; rfl
  · exact transferWrite_idle (s := transferStates x k s 1) hl hb .status _ (fun _ => rfl) (.dmaRam x)
  · exact transferWrite_idle (s := transferStates x k s 2) hl hb .ramAddr x.ram (fun h => nomatch h) (.dmaPeriph x)
  · exact transferWrite_idle (s := transferStates x k s 3) hl hb .peripheralAddr x.periph (fun h => nomatch h) (.dmaLen x)
  · change (busWrite (dmaAddr s.cfg (lengthReg x.dir)) (x.len - 1#32) (transferStates x k s 4)).jump .dmaPoll
      (.dmaLastWait :: k) = _
    rw [show s.cfg = (transferStates x k s 4).cfg from rfl,
      busWrite_dma_idle (s := transferStates x k s 4) hl hb _ _ (fun h => by cases hx : x.dir <;> rw [hx] at h <;> cases h)]
    cases hx : x.dir <;> simp only [lengthReg, dmaAfter, startedJob, transferStates, hx] <;> rfl

/-- DMA_XFER from its first wait to the programmed engine, SEQ moving by default. -/
theorem transfer_program_run {s : State} {x : Xfer} {k : List Frame} (hl : s.cfg.legal = true) (hb : s.dma.busy = false)
    (ha : s.brg.active = false) (hs : s.atDefault) (hp : s.seq.phase = .dmaPoll) (hk : s.seq.stack = .dmaFirstWait x :: k) :
    runSteps 5 s = .next (transferStates x k s 5) :=
  runSteps_states (transferStates x k s) 5 fun i hi => by
    obtain ⟨h1, h2, h3, h4⟩ := transferStates_idle (x := x) (k := k) hb hi
    rw [← transferStates_step hl hb hp hk hi]
    exact step_default_seq ⟨h3.trans hs.1, h4.trans hs.2⟩ h1 (bridgeEnabled_inactive (by rw [h2]; exact ha))

theorem count_of_len {len : Word} (h : len ≠ 0#32) : ((len - 1#32).setWidth 33 + 1#33).toNat = len.toNat := by
  have h0 : len.toNat ≠ 0 := fun h' => h (BitVec.eq_of_toNat_eq h')
  rw [BitVec.toNat_add, BitVec.toNat_setWidth, BitVec.toNat_sub]
  simp only [BitVec.toNat_ofNat]
  omega

/-- A whole DMA_XFER from its first wait, between RAM and the packet window, all moves by default: the block has moved
and the result goes to its caller. -/
theorem transfer_run {s : State} {x : Xfer} {c : List Frame} {k : Nat} (hl : s.cfg.legal = true) (hc : s.cfg.alignsAll)
    (hb : s.dma.busy = false) (ha : s.brg.active = false) (hs : s.atDefault) (hp : s.seq.phase = .dmaPoll)
    (hk : s.seq.stack = .dmaFirstWait x :: c) (hx : x.len ≠ 0#32)
    (hw : x.periph.toNat = s.cfg.bridgeBase.toNat + 0x0400 + k) (hkn : k + x.len.toNat ≤ 512)
    (hr : ramPhys x.ram + x.len.toNat ≤ s.cfg.ramSize) :
    ∃ (n : Nat) (d : Dma) (m : Memory) (w : Vector Byte 512) (tr : List Transaction) (dr : Nat),
      runSteps (n + 1) s = .next (resume c .ok { s with
        seq := { s.seq with phase := .dmaPoll, stack := .dmaLastWait :: c }
        dma := d, mem := m, brg := { s.brg with pkt := w }, trace := tr, draws := dr }) ∧
      d.busy = false ∧ d.timing = s.dma.timing ∧
      (x.dir = .incoming → w = s.brg.pkt ∧ m = ramAfter s.mem s.brg.pkt (ramPhys x.ram) k x.len.toNat) ∧
      (x.dir = .outgoing → m = s.mem ∧ w = windowAfter s.mem s.brg.pkt (ramPhys x.ram) k x.len.toNat) := by
  have h1 := transfer_program_run hl hb ha hs hp hk
  generalize hu : transferStates x c s 5 = u at h1
  have hjob : u.dma.job = ⟨x.dir, x.ram, x.periph, (x.len - 1#32).setWidth 33 + 1#33, []⟩ := by subst hu; rfl
  obtain ⟨j, hin, hout⟩ := engine_run (s := u) (n := x.len.toNat) (k := k) (by subst hu; exact Config.legal_bridge hl)
    (by subst hu; exact hc) (by subst hu; exact hs) (by subst hu; rfl) (by rw [hjob]) (by subst hu; exact ha)
    (by rw [hjob]; exact count_of_len hx) hkn (by rw [hjob]; subst hu; exact hw) (by rw [hjob]; subst hu; exact hr)
  have last : ∀ v : State, v.cfg = s.cfg → v.dma.busy = false → v.brg.active = false → v.atDefault →
      v.seq.phase = .dmaPoll → v.seq.stack = .dmaLastWait :: c →
      step v = .next (resume c .ok (v.transacted (.busRead (dmaAddr v.cfg .status) (dmaStatusWord v)))) := by
    intro v e1 e2 e3 e4 e5 e6
    rw [step_default_seq e4 e2 (bridgeEnabled_inactive e3), dmaPoll_idle (by rw [e1]; exact hl) e2 e5, e6]
    rfl
  rw [hjob] at hin hout
  cases hdir : x.dir with
  | incoming =>
    have h2 := hin hdir
    generalize hv : ({ u with
        mem := _, dma := _, draws := _ } : State) = v at h2
    have h3 := last v (by subst hv; subst hu; rfl) (by subst hv; rfl) (by subst hv; subst hu; exact ha)
      (by subst hv; subst hu; exact hs) (by subst hv; subst hu; rfl) (by subst hv; subst hu; rfl)
    refine ⟨x.len.toNat + 6, v.dma, v.mem, v.brg.pkt, Transaction.busRead (dmaAddr v.cfg .status) (dmaStatusWord v) :: v.trace,
      v.draws + 1, (congrArg (runSteps · s) (by omega)).trans ((runSteps_trans h1 (runSteps_trans h2 (runSteps_one h3))).trans ?_), by subst hv; rfl,
      by subst hv; subst hu; rfl, fun _ => ⟨by subst hv; subst hu; rfl, by subst hv; subst hu; rfl⟩, fun h => nomatch h⟩
    subst hv; subst hu; rfl
  | outgoing =>
    have h2 := hout hdir
    generalize hv : ({ u with
        brg := _, dma := _, draws := _ } : State) = v at h2
    have h3 := last v (by subst hv; subst hu; rfl) (by subst hv; rfl) (by subst hv; subst hu; exact ha)
      (by subst hv; subst hu; exact hs) (by subst hv; subst hu; rfl) (by subst hv; subst hu; rfl)
    refine ⟨x.len.toNat + 6, v.dma, v.mem, v.brg.pkt, Transaction.busRead (dmaAddr v.cfg .status) (dmaStatusWord v) :: v.trace,
      v.draws + 1, (congrArg (runSteps · s) (by omega)).trans ((runSteps_trans h1 (runSteps_trans h2 (runSteps_one h3))).trans ?_), by subst hv; rfl,
      by subst hv; subst hu; rfl, fun h => (by cases h), fun _ => ⟨by subst hv; subst hu; rfl, by subst hv; subst hu; rfl⟩⟩
    subst hv; subst hu; rfl

/-! ### The cache walk's operations (41_cache_coherence R153, R154) -/

theorem walk_ne {c : Config} {q i m : Nat} (hi : i < m) (h : (q + m) * c.lineSize < 0x100000000) :
    BitVec.ofNat 32 ((q + i) * c.lineSize) ≠ BitVec.ofNat 32 ((q + m) * c.lineSize) := by
  intro e
  have hp := lineSize_pos c
  have hlt : (q + i) * c.lineSize < (q + m) * c.lineSize := Nat.mul_lt_mul_of_pos_right (by omega) hp
  have := congrArg BitVec.toNat e
  rw [BitVec.toNat_ofNat, BitVec.toNat_ofNat, Nat.mod_eq_of_lt (show _ < 2 ^ 32 by omega),
    Nat.mod_eq_of_lt (show _ < 2 ^ 32 from h)] at this
  omega

theorem walk_next {c : Config} (q i : Nat) :
    lineNext c (BitVec.ofNat 32 ((q + i) * c.lineSize)) = BitVec.ofNat 32 ((q + (i + 1)) * c.lineSize) := by
  unfold lineNext
  rw [← BitVec.ofNat_add, show (q + i) * c.lineSize + c.lineSize = (q + (i + 1)) * c.lineSize by ring]

/-- A cache walk from its first line to its result, SEQ's moves named by the schedule (`named`) or made by default. -/
theorem walk_run (named : Bool) {s : State} {kind : CacheKind} {q m : Nat} {es : List Event}
    (hp : s.seq.phase = .line kind (BitVec.ofNat 32 (q * s.cfg.lineSize)) (BitVec.ofNat 32 ((q + m) * s.cfg.lineSize)))
    (h32 : (q + m) * s.cfg.lineSize < 0x100000000)
    (hdef : named = false → es = [] ∧ s.tail = .default ∧ s.dma.busy = false ∧ s.brg.active = false)
    (hs : s.sched = (if named then List.replicate (m + 1) Event.seq else []) ++ es) :
    runSteps (m + 1) s = .next (resume s.seq.stack .ok { walkOps kind q (m + 1) s with
      seq := { s.seq with
        phase := .line kind (BitVec.ofNat 32 ((q + m) * s.cfg.lineSize)) (BitVec.ofNat 32 ((q + m) * s.cfg.lineSize)) }
      sched := es }) := by
  have hmove : ∀ (i : Nat) (l : List Event) (u : State), u.sched = (if named then Event.seq :: l else []) →
      (named = false → l = [] ∧ u.tail = .default ∧ u.dma.busy = false ∧ u.brg.active = false) →
      step u = .next (sequencerStep (u.setSched l)) := by
    intro i l u hu hd
    cases named with
    | true => exact step_seq hu
    | false =>
      obtain ⟨rfl, ht, h1, h2⟩ := hd rfl
      rw [step_default_seq ⟨hu, ht⟩ h1 (bridgeEnabled_inactive h2), show u.setSched [] = u by
        rw [show ([] : List Event) = u.sched from hu.symm]; rfl]
  have hcfg : ∀ i, (walkOps kind q i s).cfg = s.cfg := fun i => by rw [walkOps_shape]
  have hdma : ∀ i, (walkOps kind q i s).dma = s.dma := fun i => by rw [walkOps_shape]
  have hbrg : ∀ i, (walkOps kind q i s).brg = s.brg := fun i => by rw [walkOps_shape]
  have htail : ∀ i, (walkOps kind q i s).tail = s.tail := fun i => by rw [walkOps_shape]
  have hlist : ∀ i, i ≤ m → (if named then List.replicate (m + 1 - i) Event.seq else []) ++ es =
      (if named then Event.seq :: (List.replicate (m - i) Event.seq ++ es) else []) := fun i hi => by
    cases named with
    | true => rw [if_pos rfl, if_pos rfl, show m + 1 - i = (m - i) + 1 by omega]; rfl
    | false => rw [if_neg (by simp), if_neg (by simp), (hdef rfl).1]; rfl
  let g : Nat → State := fun i => { walkOps kind q i s with
    seq := { s.seq with
      phase := .line kind (BitVec.ofNat 32 ((q + i) * s.cfg.lineSize)) (BitVec.ofNat 32 ((q + m) * s.cfg.lineSize)) }
    sched := (if named then List.replicate (m + 1 - i) Event.seq else []) ++ es }
  have hstep : ∀ i, i ≤ m → step (g i) = .next (sequencerStep ((g i).setSched (List.replicate
      (if named then m - i else 0) Event.seq ++ es))) := fun i hi => by
    refine hmove i _ _ ((hlist i hi).trans ?_) (fun hn => ⟨?_, ?_, ?_, ?_⟩)
    · cases named <;> rfl
    · rw [hn, (hdef hn).1]; rfl
    · exact (htail i).trans (hdef hn).2.1
    · exact (congrArg Dma.busy (hdma i)).trans (hdef hn).2.2.1
    · exact (congrArg Bridge.active (hbrg i)).trans (hdef hn).2.2.2
  have hop : ∀ i (l : List Event), cacheOp kind (BitVec.ofNat 32 ((q + i) * s.cfg.lineSize)) ((g i).setSched l) =
      ((walkOps kind q (i + 1) s).setSeq (g i).seq).setSched l := fun i l => by
    have : (g i).setSched l = ((walkOps kind q i s).setSeq (g i).seq).setSched l := rfl
    rw [this, cacheOp_setSched, cacheOp_setSeq]; rfl
  have h0 : g 0 = s := by
    have : ({ s with
      seq := { s.seq with phase := s.seq.phase }
      sched := s.sched } : State) = s := rfl
    rw [hp, hs] at this
    exact this
  have key := runSteps_states g m (fun i hi => by
    rw [hstep i (by omega)]
    have hlne := walk_ne (c := s.cfg) hi h32
    have e : sequencerStep ((g i).setSched (List.replicate (if named then m - i else 0) Event.seq ++ es)) =
        lineStep kind (BitVec.ofNat 32 ((q + i) * s.cfg.lineSize)) (BitVec.ofNat 32 ((q + m) * s.cfg.lineSize))
          ((g i).setSched (List.replicate (if named then m - i else 0) Event.seq ++ es)) := rfl
    rw [e]
    unfold lineStep
    rw [if_neg hlne, hop, show ((g i).setSched (List.replicate (if named then m - i else 0) Event.seq ++ es)).cfg = s.cfg
      from hcfg i, walk_next]
    have hl : List.replicate (if named then m - i else 0) Event.seq ++ es =
        (if named then List.replicate (m + 1 - (i + 1)) Event.seq else []) ++ es := by
      cases named
      · rfl
      · rw [if_pos rfl, if_pos rfl, show m + 1 - (i + 1) = m - i by omega]
    rw [hl]
    rfl)
  rw [h0] at key
  refine runSteps_trans key (runSteps_one ?_)
  rw [hstep m le_rfl]
  have e : sequencerStep ((g m).setSched (List.replicate (if named then m - m else 0) Event.seq ++ es)) =
      lineStep kind (BitVec.ofNat 32 ((q + m) * s.cfg.lineSize)) (BitVec.ofNat 32 ((q + m) * s.cfg.lineSize))
        ((g m).setSched (List.replicate (if named then m - m else 0) Event.seq ++ es)) := rfl
  rw [e]
  unfold lineStep
  rw [if_pos rfl, hop]
  have hl : List.replicate (if named then m - m else 0) Event.seq ++ es = es := by
    cases named <;> simp
  rw [hl]
  rfl

end Sys2Proof.Machine
end

