-- ==== Sys2Proof/Laws/Programming.lean ====
section
/-! SUPPORT. SEQ programs the engine only after its first wait found it idle (70_reset_and_hazards R319; 42_dma R167). -/

namespace Sys2Proof.Machine

/-- No `CALL` on the stack is DMA_XFER's first wait. -/
def noFirstWait (k : List Frame) : Bool := k.all (fun f => match f with | .dmaFirstWait _ => false | _ => true)
/-- The routine goes on at a point that programs nothing, or returns. -/
def Flow.plain : Flow → Bool
  | .goto p fr _ => !p.programs && noFirstWait fr
  | .ret _ _ => true

theorem readLoop_plain (s) : Flow.plain (readLoop s) = true := by unfold readLoop; split <;> rfl
theorem writeLoop_plain (s) : Flow.plain (writeLoop s) = true := by unfold writeLoop; split <;> rfl
/-- Only the return of a first wait leads to a programming write. -/
theorem afterCall_programs (f : Frame) (r) (s) (h : noFirstWait [f] = true) (p fr t) (hf : afterCall f r s = .goto p fr t) : p.programs = false := by
  have : Flow.plain (afterCall f r s) = true ∨ f = .readInvalidate ∨ f = .writeBack := by
    cases f with
    | waitRead => left; simp only [afterCall, afterPoll]; split; · rfl
                  · split <;> rfl
    | dmaFirstWait x => cases h
    | readInvalidate => right; left; rfl
    | writeBack => right; right; rfl
    | readFirstWait b l => left; simp only [afterCall, afterReadFirstWait]; split; · rfl
                           · exact readLoop_plain _
    | readWait => left; simp only [afterCall, afterReadWait]; split <;> rfl
    | writeWait => left; simp only [afterCall, afterWriteWait]; split; · rfl
                   · exact writeLoop_plain _
    | readDma => left; exact readLoop_plain _
    | writeArm b l => left; exact writeLoop_plain _
    | initCheck => left; simp only [afterCall, afterInitCheck]; split <;> rfl
    | initDrain => left; simp only [afterCall, afterInitDrain]; split <;> rfl
    | _ => left; rfl
  rcases this with h | rfl | rfl
  · rw [hf] at h
    simp only [Flow.plain, Bool.and_eq_true, Bool.not_eq_true'] at h
    exact h.1
  · simp only [afterCall, readTransfer, callTransfer, Flow.goto.injEq] at hf; rw [← hf.1]; rfl
  · simp only [afterCall, writeTransfer, callTransfer, Flow.goto.injEq] at hf; rw [← hf.1]; rfl

theorem resume_programs (k r s) (h : noFirstWait k = true) : (resume k r s).seq.phase.programs = false := by
  induction k generalizing r s with
  | nil => cases r <;> rfl
  | cons f k ih =>
    have h' : noFirstWait [f] = true ∧ noFirstWait k = true := by simpa [noFirstWait] using h
    simp only [resume]
    cases hf : afterCall f r s with
    | goto p fr t => exact afterCall_programs f r s h'.1 p fr t hf
    | ret r' t => exact ih r' t h'.2

theorem initFrom_programs (i s) (k) : (follow k (initFrom i s)).seq.phase.programs = false := by
  unfold initFrom; split <;> rfl

/-- A step of SEQ that leads to a programming write leaves the engine idle, if SEQ programmed an idle engine so far. -/
theorem sequencerStep_programs {s : State} (hl : s.cfg.legal = true) (hP : s.seq.phase.programs = true → s.dma.busy = false)
    (hk : s.seq.phase ≠ .dmaPoll → noFirstWait s.seq.stack = true) :
    (sequencerStep s).seq.phase.programs = true → (sequencerStep s).dma.busy = false := by
  intro hp
  cases hph : s.seq.phase with
  | idle => unfold sequencerStep at hp; simp only [hph] at hp; cases hp
  | rdReg off =>
    exfalso; unfold sequencerStep at hp; simp only [hph] at hp
    rw [resume_programs _ _ _ (hk (by simp [hph]))] at hp; cases hp
  | wrReg off v =>
    exfalso; unfold sequencerStep at hp; simp only [hph] at hp
    rw [resume_programs _ _ _ (hk (by simp [hph]))] at hp; cases hp
  | line a b c =>
    exfalso; unfold sequencerStep at hp; simp only [hph, lineStep] at hp
    split at hp
    · rw [resume_programs _ _ _ (hk (by simp [hph]))] at hp; cases hp
    · cases hp
  | dmaPoll =>
    by_cases hb : s.dma.busy = true
    · rw [dmaPoll_busy hl hb hph] at hp
      have : s.seq.phase.programs = true := hp
      rw [hph] at this; cases this
    · have hb : s.dma.busy = false := by simpa using hb
      rw [dmaPoll_idle hl hb hph] at hp ⊢
      obtain ⟨q, rs, e⟩ := resume_outside s.seq.stack .ok (s.transacted (.busRead (dmaAddr s.cfg .status) (dmaStatusWord s)))
      rw [e]; exact hb
  | dmaArm x =>
    unfold sequencerStep; simp only [hph]
    rw [transferWrite_idle hl (hP (by rw [hph]; rfl)) _ _ (fun _ => rfl)]
    exact hP (by rw [hph]; rfl)
  | dmaRam x =>
    unfold sequencerStep; simp only [hph]
    rw [transferWrite_idle hl (hP (by rw [hph]; rfl)) .ramAddr x.ram (fun h => nomatch h)]
    exact hP (by rw [hph]; rfl)
  | dmaPeriph x =>
    unfold sequencerStep; simp only [hph]
    rw [transferWrite_idle hl (hP (by rw [hph]; rfl)) .peripheralAddr x.periph (fun h => nomatch h)]
    exact hP (by rw [hph]; rfl)
  | dmaLen x => unfold sequencerStep at hp; simp only [hph] at hp; cases hp
  | initTiming i =>
    exfalso; unfold sequencerStep at hp; simp only [hph, initTimingStep] at hp
    split at hp
    · rw [initFrom_programs] at hp; cases hp
    · cases hp

end Sys2Proof.Machine
end

