-- ==== Sys2Proof/Laws/Transfers.lean ====
section
/-! SUPPORT. One packet of READ and of WRITE, and the loops over packets, when the engine and the bridge move whenever
they can (log 7): 44_packet_transfer R232, R238, R244, R245. -/

namespace Sys2Proof.Machine

/-! ### The command words as the bridge reads them -/

theorem setWidth_or_offset (f : BitVec 16) (off : BitVec 9) :
    (f ||| off.setWidth 16).setWidth 32 = f.setWidth 32 ||| off.setWidth 32 := by
  apply BitVec.eq_of_getLsbD_eq
  intro i hi
  simp

theorem offset_wide {base : BitVec 10} (h : base.toNat < 512) : (base.setWidth 9).setWidth 32 = base.setWidth 32 := by
  apply BitVec.eq_of_toNat_eq
  simp only [BitVec.toNat_setWidth]
  omega

theorem commandValue_read {base : BitVec 10} (h : base.toNat < 512) :
    commandValue 0xC600#32 base = (commandRead (base.setWidth 9)).setWidth 32 := by
  unfold commandValue commandRead
  rw [setWidth_or_offset, offset_wide h]; rfl

theorem commandValue_write {base : BitVec 10} (h : base.toNat < 512) :
    commandValue 0xC200#32 base = (commandWrite (base.setWidth 9)).setWidth 32 := by
  unfold commandValue commandWrite
  rw [setWidth_or_offset, offset_wide h]; rfl

theorem commandRead_fields (off : BitVec 9) :
    commandDefined (commandRead off) = true ∧ commandActivates (commandRead off) = true ∧
      commandDir (commandRead off) = .rd ∧ commandOffset (commandRead off) = off := by
  have h : ∀ i, i < 9 → (0xC600#16).getLsbD i = false := by decide
  have hb : ∀ i, 9 ≤ i → i < 16 → (commandRead off).getLsbD i = (0xC600#16).getLsbD i := fun i h9 h16 => by
    simp only [commandRead, BitVec.getLsbD_or, BitVec.getLsbD_setWidth]
    rw [BitVec.getLsbD_of_ge off i h9]; simp
  have ho : commandOffset (commandRead off) = off := commandOffset_or _ _ h
  have h9 := hb 9 (by omega) (by omega)
  have h10 := hb 10 (by omega) (by omega)
  have h14 := hb 14 (by omega) (by omega)
  have h15 := hb 15 (by omega) (by omega)
  have hmid : (commandRead off).extractLsb' 11 3 = 0#3 := by
    apply BitVec.eq_of_getLsbD_eq
    intro i hi
    rw [BitVec.getLsbD_extractLsb', hb (11 + i) (by omega) (by omega)]
    have : i = 0 ∨ i = 1 ∨ i = 2 := by omega
    rcases this with rfl | rfl | rfl <;> rfl
  refine ⟨?_, h9.trans rfl, ?_, ho⟩
  · unfold commandDefined commandActivates
    rw [h15, h14, hmid, h9]; rfl
  · unfold commandDir
    rw [h10]; rfl

theorem commandWrite_fields (off : BitVec 9) :
    commandDefined (commandWrite off) = true ∧ commandActivates (commandWrite off) = true ∧
      commandDir (commandWrite off) = .wr ∧ commandOffset (commandWrite off) = off := by
  have h : ∀ i, i < 9 → (0xC200#16).getLsbD i = false := by decide
  have hb : ∀ i, 9 ≤ i → i < 16 → (commandWrite off).getLsbD i = (0xC200#16).getLsbD i := fun i h9 h16 => by
    simp only [commandWrite, BitVec.getLsbD_or, BitVec.getLsbD_setWidth]
    rw [BitVec.getLsbD_of_ge off i h9]; simp
  have ho : commandOffset (commandWrite off) = off := commandOffset_or _ _ h
  have h9 := hb 9 (by omega) (by omega)
  have h10 := hb 10 (by omega) (by omega)
  have h14 := hb 14 (by omega) (by omega)
  have h15 := hb 15 (by omega) (by omega)
  have hmid : (commandWrite off).extractLsb' 11 3 = 0#3 := by
    apply BitVec.eq_of_getLsbD_eq
    intro i hi
    rw [BitVec.getLsbD_extractLsb', hb (11 + i) (by omega) (by omega)]
    have : i = 0 ∨ i = 1 ∨ i = 2 := by omega
    rcases this with rfl | rfl | rfl <;> rfl
  refine ⟨?_, h9.trans rfl, ?_, ho⟩
  · unfold commandDefined commandActivates
    rw [h15, h14, hmid, h9]; rfl
  · unfold commandDir
    rw [h10]; rfl

/-! ### The packet arithmetic (44_packet_transfer R235) -/

theorem chunkOf_toNat (remaining : Word) : (chunkOf remaining).toNat = min 512 remaining.toNat := by
  unfold chunkOf packetSize
  rw [BitVec.toNat_ofNat]
  omega

theorem baseOffsetOf_toNat {remaining : Word} (h : remaining ≠ 0#32) :
    (baseOffsetOf (chunkOf remaining)).toNat = 512 - (chunkOf remaining).toNat ∧
      (baseOffsetOf (chunkOf remaining)).toNat < 512 := by
  have h1 := chunkOf_toNat remaining
  have h2 := toNat_pos h
  unfold baseOffsetOf
  rw [BitVec.toNat_sub]
  simp only [BitVec.toNat_ofNat]
  omega

/-! ### The bridge under SEQ's commands -/

/-- An activate command to an idle bridge (43_handshake R203), by SEQ. -/
theorem registerWrite_activate {s : State} (hr : s.bridgeReady) (ha : s.brg.active = false) {w : BitVec 16}
    (hd : commandDefined w = true) (hact : commandActivates w = true) :
    registerWrite offUsbCfg (w.setWidth 32) s =
      ({ s with brg := { s.brg with cmd := w, active := true, dir := commandDir w, ptr := commandPtr w } } :
        State).transacted (.busWrite (regAddr s.cfg offUsbCfg) (w.setWidth 32)) := by
  unfold registerWrite
  rw [registerEffect_usbCfg hr.1 hr.2, low16_setWidth]
  unfold command
  simp only [hd, hact, ha]
  rfl

/-- A poll with ACTIVE clear ends the wait (43_handshake R197). -/
theorem poll_done {s : State} {k : List Frame} (hr : s.bridgeReady) (ha : s.brg.active = false)
    (hp : s.seq.phase = .rdReg offUsbCfg) (hk : s.seq.stack = .waitRead :: k) :
    sequencerStep s = resume k .ok
      (({ s with seq := { s.seq with poll := s.seq.poll + 1#14 } } : State).transacted
        (.busRead (regAddr s.cfg offUsbCfg) (statusWord s))) := by
  rw [poll_cases hp hk, if_pos ((statusWord_active hr).2 ha)]

/-! ### One packet of READ -/

/-- What READ needs of a state between packets. -/
structure ReadReady (s : State) : Prop where
  bridge : s.bridgeReady
  aligns : s.cfg.alignsAll
  cache : cacheFits s.cfg s.cache = true
  idle : s.dma.busy = false
  inactive : s.brg.active = false
  sched : s.atDefault

/-- The place of the packet's window block. -/
theorem packet_place {c : Config} (hl : c.legal = true) {base : BitVec 10} (h : base.toNat < 512) :
    (physical (packetAddr c base)).toNat = c.bridgeBase.toNat + 0x0400 + base.toNat := by
  have hb := Config.legal_bridge hl
  have hoff : (0x0400#32 + base.setWidth 32).toNat = 0x0400 + base.toNat := by
    rw [BitVec.toNat_add, BitVec.toNat_setWidth]
    simp only [BitVec.toNat_ofNat]
    omega
  unfold packetAddr
  refine (physical_regAddr_toNat hl (by omega)).trans ?_
  rw [hoff]
  omega

theorem setWidth_chunk (ch : BitVec 10) : (ch.setWidth 32).toNat = ch.toNat := by
  rw [BitVec.toNat_setWidth]
  omega

/-- One packet of READ, from its "read + activate" command to the return of its DMA job. -/
theorem read_packet {s : State} {c : List Frame} (hs : ReadReady s) {n base : Nat}
    (hn : s.seq.chunk.toNat = n) (hn0 : 0 < n) (hbase : s.seq.baseOffset.toNat = base) (hnb : base + n = 512)
    (hp : s.seq.phase = .wrReg offUsbCfg (commandValue 0xC600#32 s.seq.baseOffset)) (hk : s.seq.stack = .readCommand :: c)
    (hq : n ≤ s.brg.rxFifo.length) (h32 : (packetRam s).toNat + n ≤ 0x100000000)
    (hr : ramPhys (packetRam s) + n ≤ s.cfg.ramSize) :
    ∃ (k m : Nat) (d : Dma) (mem : Memory) (b : Bridge) (tr : List Transaction) (dr : Nat) (p : Phase) (st : List Frame),
      runSteps (k + 1) s = .next (resume (.readDma :: c) .ok { s with
        cache := (walkOps .wbinv ((packetRam s).toNat / s.cfg.lineSize) (m + 1) s).cache
        seq := { s.seq with poll := 1#14, phase := p, stack := st }
        dma := d, mem := mem, brg := b, trace := tr, draws := dr }) ∧
      ((packetRam s).toNat + n - 1) / s.cfg.lineSize = (packetRam s).toNat / s.cfg.lineSize + m ∧
      d.busy = false ∧ b.active = false ∧ b.unlocked = true ∧ b.rxFifo = s.brg.rxFifo.drop n ∧ b.txFifo = s.brg.txFifo ∧
      ∀ x, mem.read x =
        if ramPhys (packetRam s) ≤ x ∧ x < ramPhys (packetRam s) + n then
          (s.brg.rxFifo[x - ramPhys (packetRam s)]?).getD 0#8
        else (walkOps .wbinv ((packetRam s).toNat / s.cfg.lineSize) (m + 1) s).mem.read x := by
  have hl := hs.bridge.1
  have hb512 : s.seq.baseOffset.toNat < 512 := by omega
  have hlen : packetLen s ≠ 0#32 := by
    intro h
    have := congrArg BitVec.toNat h
    unfold packetLen at this
    rw [setWidth_chunk] at this
    simp at this; omega
  have hlenN : (packetLen s).toNat = n := by unfold packetLen; rw [setWidth_chunk, hn]
  obtain ⟨cd, ca, cdir, coff⟩ := commandRead_fields (s.seq.baseOffset.setWidth 9)
  -- the command
  have e1 : step s = .next (sequencerStep s) := step_default_seq hs.sched hs.idle (bridgeEnabled_inactive hs.inactive)
  have e1' : sequencerStep s = resume s.seq.stack .ok (registerWrite offUsbCfg (commandValue 0xC600#32 s.seq.baseOffset) s) :=
    sequencerStep_wrReg hp hk (fun h => nomatch h)
  rw [e1', commandValue_read hb512, registerWrite_activate hs.bridge hs.inactive cd ca, hk] at e1
  have hptr : (commandPtr (commandRead (s.seq.baseOffset.setWidth 9))).val = base := by
    unfold commandPtr
    simp only [coff, BitVec.toNat_setWidth]
    omega
  generalize hu1 : resume _ _ _ = u1 at e1
  have f1 : u1 = { s with
      seq := { s.seq with poll := 0#14, phase := .rdReg offUsbCfg, stack := .waitRead :: .readWait :: c }
      brg := { s.brg with
        cmd := commandRead (s.seq.baseOffset.setWidth 9), active := true, dir := .rd
        ptr := commandPtr (commandRead (s.seq.baseOffset.setWidth 9)) }
      trace := u1.trace, draws := u1.draws } := by
    rw [← hu1, ← cdir]; rfl
  -- the bridge
  obtain ⟨w, e2, hw⟩ := read_packet_run (s := u1) (es := []) false (by rw [f1]) (by rw [f1]) (n := n)
    (by rw [f1]; simp only [hptr]; exact hnb) (by rw [f1]; exact hq) (fun _ => ⟨rfl, by rw [f1]; exact hs.sched.2, by rw [f1]; exact hs.idle⟩)
    (by rw [f1]; exact hs.sched.1)
  generalize hu2 : ({ u1 with sched := _, brg := _ } : State) = u2 at e2
  have f2 : u2 = { s with
      seq := { s.seq with poll := 0#14, phase := .rdReg offUsbCfg, stack := .waitRead :: .readWait :: c }
      brg := { s.brg with
        cmd := commandRead (s.seq.baseOffset.setWidth 9), active := false, dir := .rd
        ptr := 512, pkt := w, rxFifo := s.brg.rxFifo.drop n }
      trace := u2.trace, draws := u2.draws } := by
    rw [← hu2, f1, hs.sched.1]
  -- the poll
  have e3 : step u2 = .next (sequencerStep u2) := step_default_seq (by rw [f2]; exact hs.sched) (by rw [f2]; exact hs.idle)
    (bridgeEnabled_inactive (by rw [f2]))
  rw [poll_done (k := .readWait :: c) (by rw [f2]; exact hs.bridge) (by rw [f2]) (by rw [f2]) (by rw [f2])] at e3
  generalize hu3 : resume _ _ _ = u3 at e3
  have f3 : u3 = { s with
      seq := { s.seq with poll := 1#14, stack := .readInvalidate :: c
                          phase := .line .wbinv (lineFirst s.cfg (packetRam s)) (lineLast s.cfg (packetRam s) (packetLen s)) }
      brg := { s.brg with
        cmd := commandRead (s.seq.baseOffset.setWidth 9), active := false, dir := .rd
        ptr := 512, pkt := w, rxFifo := s.brg.rxFifo.drop n }
      trace := u3.trace, draws := u3.draws } := by
    rw [← hu3, f2]; rfl
  -- the walk
  obtain ⟨m, hm, h1, -, -⟩ := range_lines (addr := packetRam s) hl hlen (by rw [hlenN]; exact h32) (by rw [hlenN]; exact hr)
  have e4 := walk_run false (s := u3) (kind := .wbinv) (q := (packetRam s).toNat / s.cfg.lineSize) (m := m) (es := [])
    (by rw [f3]; simp only; rw [lineFirst_eq, lineLast_eq _ hlen (by rw [hlenN]; exact h32), hm])
    (by rw [f3]; exact h1) (fun _ => ⟨rfl, by rw [f3]; exact hs.sched.2, by rw [f3]; exact hs.idle, by rw [f3]⟩) (by rw [f3]; exact hs.sched.1)
  rw [show u3.seq.stack = .readInvalidate :: c by rw [f3]] at e4
  obtain ⟨wm, wc⟩ := walkOps_congr (s := s) (t := u3) (by rw [f3]) (by rw [f3]) (by rw [f3]) .wbinv
    ((packetRam s).toNat / s.cfg.lineSize) (m + 1)
  generalize hu4 : resume _ _ _ = u4 at e4
  have f4 : u4 = { s with
      mem := (walkOps .wbinv ((packetRam s).toNat / s.cfg.lineSize) (m + 1) s).mem
      cache := (walkOps .wbinv ((packetRam s).toNat / s.cfg.lineSize) (m + 1) s).cache
      seq := { s.seq with
        poll := 1#14
        stack := .dmaFirstWait ⟨packetRam s, physical (packetAddr s.cfg s.seq.baseOffset), packetLen s, .incoming⟩ ::
          .readDma :: c
        phase := .dmaPoll }
      brg := { s.brg with
        cmd := commandRead (s.seq.baseOffset.setWidth 9), active := false, dir := .rd
        ptr := 512, pkt := w, rxFifo := s.brg.rxFifo.drop n }
      trace := u4.trace, draws := u4.draws } := by
    rw [← hu4, ← wm, ← wc, walkOps_shape, f3, hs.sched.1]; rfl
  -- the job
  obtain ⟨k5, d, mem, w', tr, dr, e5, hd, -, hin, -⟩ := transfer_run (s := u4) (k := base)
    (x := ⟨packetRam s, physical (packetAddr s.cfg s.seq.baseOffset), packetLen s, .incoming⟩) (c := .readDma :: c)
    (by rw [f4]; exact hl) (by rw [f4]; exact hs.aligns) (by rw [f4]; exact hs.idle) (by rw [f4]) (by rw [f4]; exact hs.sched)
    (by rw [f4]) (by rw [f4]) hlen (by rw [f4, ← hbase]; exact packet_place hl hb512) (by rw [hlenN]; omega)
    (by rw [f4, hlenN]; exact hr)
  obtain ⟨hw', hmem⟩ := hin rfl
  refine ⟨_, m, d, mem, { u4.brg with pkt := w' }, tr, dr, .dmaPoll,
    .dmaLastWait :: .readDma :: c,
    (runSteps_trans (runSteps_one e1) (runSteps_trans e2 (runSteps_trans (runSteps_one e3) (runSteps_trans e4 e5)))).trans ?_,
    by rw [← hm, hlenN], hd, by rw [f4], by rw [f4]; exact hs.bridge.2, by rw [f4], by rw [f4], fun x => ?_⟩
  · rw [f4]
  · rw [hmem, ramAfter_read, hlenN, f4]
    simp only
    by_cases hx : ramPhys (packetRam s) ≤ x ∧ x < ramPhys (packetRam s) + n
    · rw [if_pos hx, if_pos hx]
      have hlt : base + (x - ramPhys (packetRam s)) < 512 := by omega
      rw [Vector.getElem?_eq_getElem hlt]
      have hwx := hw ⟨base + (x - ramPhys (packetRam s)), hlt⟩
      have hp1 : u1.brg.ptr.val = base := by rw [f1]; exact hptr
      have hq1 : u1.brg.rxFifo = s.brg.rxFifo := by rw [f1]
      rw [hp1, hq1, if_pos (by simp)] at hwx
      simp only [Fin.getElem_fin, Nat.add_sub_cancel_left] at hwx
      rw [Option.getD_some, hwx, List.getElem?_eq_getElem (by omega)]
      rfl
    · rw [if_neg hx, if_neg hx]

/-! ### READ's loop -/

/-- From `s` to `t`, `n` bytes have gone from the receive FIFO to RAM at `a`: where they are, what CLIENT reads, which lines
have left the cache. -/
structure Delivered (s t : State) (a : Word) (n : Nat) : Prop where
  ready : ReadReady t
  cfg : t.cfg = s.cfg
  host : t.host = s.host
  cursor : t.seq.cursor = s.seq.cursor + BitVec.ofNat 32 n
  rx : t.brg.rxFifo = s.brg.rxFifo.drop n
  tx : t.brg.txFifo = s.brg.txFifo
  lines : ∀ l, keyGet l t.cache =
    if 0 < n ∧ ramPhys a / s.cfg.lineSize ≤ l ∧ l ≤ (ramPhys a + n - 1) / s.cfg.lineSize then none else keyGet l s.cache
  outside : ∀ x, ¬ (0 < n ∧ ramPhys a / s.cfg.lineSize ≤ x / s.cfg.lineSize ∧
    x / s.cfg.lineSize ≤ (ramPhys a + n - 1) / s.cfg.lineSize) → t.mem.read x = s.mem.read x
  bytes : ∀ b : Word, ramPhys b < s.cfg.ramSize → ramPhys a ≤ ramPhys b → ramPhys b < ramPhys a + n →
    cpuByte t b = (s.brg.rxFifo[ramPhys b - ramPhys a]?).getD 0#8
  others : ∀ b : Word, ramPhys b < s.cfg.ramSize → ¬ (ramPhys a ≤ ramPhys b ∧ ramPhys b < ramPhys a + n) →
    s.notStale (lineIndex s.cfg b) → cpuByte t b = cpuByte s b

theorem Delivered.none (s : State) (h : ReadReady s) (a : Word) : Delivered s s a 0 where
  ready := h
  cfg := rfl
  host := rfl
  cursor := by simp
  rx := by simp
  tx := rfl
  lines := fun l => by rw [if_neg (by omega)]
  outside := fun _ _ => rfl
  bytes := fun b _ h1 h2 => by omega
  others := fun _ _ _ _ => rfl

/-- A line that the first part dropped, or did not touch, is not stale for the second. -/
theorem Delivered.notStale {s t : State} {a : Word} {n : Nat} (h : Delivered s t a n) {l : Nat} (hs : s.notStale l) :
    t.notStale l := by
  intro ln hk hd
  rw [h.lines] at hk
  split at hk
  · cases hk
  · rename_i hn
    rw [h.cfg, hs ln hk hd]
    unfold ramReadBytes
    apply List.map_congr_left
    intro i hi
    refine (h.outside _ fun hx => hn ?_).symm
    have hi' : i < s.cfg.lineSize := by simpa using hi
    have : (l * s.cfg.lineSize + i) / s.cfg.lineSize = l := in_line_iff.1 ⟨by omega, by omega⟩
    rw [this] at hx
    exact hx

theorem Delivered.trans {s t u : State} {a b : Word} {n m : Nat} (h : Delivered s t a n) (h' : Delivered t u b m)
    (hab : ramPhys b = ramPhys a + n) : Delivered s u a (n + m) where
  ready := h'.ready
  cfg := h'.cfg.trans h.cfg
  host := h'.host.trans h.host
  cursor := by rw [h'.cursor, h.cursor, BitVec.add_assoc, ← BitVec.ofNat_add]
  rx := by rw [h'.rx, h.rx, List.drop_drop]
  tx := h'.tx.trans h.tx
  lines := fun l => by
    rw [h'.lines, h.lines, h.cfg, hab]
    have hp := lineSize_pos s.cfg
    rcases Nat.eq_zero_or_pos n with rfl | hn
    · simp
    · rcases Nat.eq_zero_or_pos m with rfl | hm
      · simp
      · have h1 : ramPhys a / s.cfg.lineSize ≤ (ramPhys a + n) / s.cfg.lineSize := Nat.div_le_div_right (by omega)
        have h2 : (ramPhys a + n - 1) / s.cfg.lineSize ≤ (ramPhys a + (n + m) - 1) / s.cfg.lineSize :=
          Nat.div_le_div_right (by omega)
        have h3 : (ramPhys a + n) / s.cfg.lineSize ≤ (ramPhys a + n - 1) / s.cfg.lineSize + 1 := by
          rw [← Nat.add_div_right _ hp]; exact Nat.div_le_div_right (by omega)
        have h4 : ramPhys a + n + m - 1 = ramPhys a + (n + m) - 1 := by omega
        rw [h4]
        by_cases hin : ramPhys a / s.cfg.lineSize ≤ l ∧ l ≤ (ramPhys a + (n + m) - 1) / s.cfg.lineSize
        · rw [if_pos (⟨by omega, hin⟩ : 0 < n + m ∧ _)]
          by_cases hb : (ramPhys a + n) / s.cfg.lineSize ≤ l
          · rw [if_pos ⟨hm, hb, hin.2⟩]
          · rw [if_neg (fun hx => hb hx.2.1), if_pos ⟨hn, hin.1, by omega⟩]
        · rw [if_neg (fun hx : 0 < n + m ∧ _ => hin hx.2), if_neg (fun hx => hin ⟨by omega, hx.2.2⟩),
            if_neg (fun hx => hin ⟨hx.2.1, by omega⟩)]
  outside := fun x hx => by
    have hp := lineSize_pos s.cfg
    have h2 : (ramPhys a + n - 1) / s.cfg.lineSize ≤ (ramPhys a + (n + m) - 1) / s.cfg.lineSize :=
      Nat.div_le_div_right (by omega)
    have h1 : ramPhys a / s.cfg.lineSize ≤ (ramPhys a + n) / s.cfg.lineSize := Nat.div_le_div_right (by omega)
    rw [h'.outside x ?_, h.outside x ?_]
    · exact fun hx' => hx ⟨by omega, hx'.2.1, by omega⟩
    · rw [h.cfg, hab]
      intro hx'
      refine hx ⟨by omega, by omega, ?_⟩
      rw [show ramPhys a + (n + m) - 1 = ramPhys a + n + m - 1 by omega]
      exact hx'.2.2
  bytes := fun x hx h1 h2 => by
    by_cases hx2 : ramPhys x < ramPhys a + n
    · have hns : t.notStale (lineIndex t.cfg x) := by
        intro ln hk _
        rw [h.lines, h.cfg, if_pos] at hk
        · cases hk
        · unfold lineIndex
          exact ⟨by omega, Nat.div_le_div_right h1, Nat.div_le_div_right (by omega)⟩
      rw [h'.others x (by rw [h.cfg]; exact hx) (by omega) hns]
      exact h.bytes x hx h1 hx2
    · rw [h'.bytes x (by rw [h.cfg]; exact hx) (by omega) (by omega), h.rx, List.getElem?_drop, hab]
      congr 2
      omega
  others := fun x hx h1 hns => by
    have hns' : t.notStale (lineIndex t.cfg x) := by rw [h.cfg]; exact h.notStale hns
    rw [h'.others x (by rw [h.cfg]; exact hx) (by omega) hns', h.others x hx (by omega) hns]

/-- What one packet delivers. -/
theorem read_packet_delivered {s : State} {c : List Frame} (hs : ReadReady s) (hrem : s.seq.remaining ≠ 0#32)
    (hchunk : s.seq.chunk = chunkOf s.seq.remaining) (hbase : s.seq.baseOffset = baseOffsetOf s.seq.chunk)
    (hp : s.seq.phase = .wrReg offUsbCfg (commandValue 0xC600#32 s.seq.baseOffset)) (hk : s.seq.stack = .readCommand :: c)
    (hq : s.seq.chunk.toNat ≤ s.brg.rxFifo.length) (h32 : (packetRam s).toNat + s.seq.chunk.toNat ≤ 0x100000000)
    (hr : ramPhys (packetRam s) + s.seq.chunk.toNat ≤ s.cfg.ramSize) :
    ∃ (k : Nat) (t : State), runSteps (k + 1) s = .next (follow c (readLoop t)) ∧
      Delivered s t (packetRam s) s.seq.chunk.toNat ∧ t.seq.buf = s.seq.buf ∧
      t.seq.remaining = s.seq.remaining - s.seq.chunk.setWidth 32 ∧ t.seq.initialized = s.seq.initialized := by
  have hl := hs.bridge.1
  have hc1 := chunkOf_toNat s.seq.remaining
  have hpos := toNat_pos hrem
  obtain ⟨hb1, hb2⟩ := baseOffsetOf_toNat hrem
  rw [← hchunk] at hc1 hb1 hb2
  rw [← hbase] at hb1 hb2
  obtain ⟨k, m, d, mem, b, tr, dr, p, st, hrun, hm, hd, hba, hbu, hbr, hbt, hread⟩ :=
    read_packet hs rfl (by omega) rfl (by omega) hp hk hq h32 hr
  have hlen : packetLen s ≠ 0#32 := by
    intro h
    have := congrArg BitVec.toNat h
    unfold packetLen at this
    rw [setWidth_chunk] at this
    simp at this; omega
  have hlenN : (packetLen s).toNat = s.seq.chunk.toNat := by unfold packetLen; rw [setWidth_chunk]
  obtain ⟨w1, w2, w3, w4, w5⟩ := walk_range_effect (kind := .wbinv) (addr := packetRam s) (len := packetLen s) (m := m) hl
    hs.cache hlen (by rw [hlenN]; exact h32) (by rw [hlenN]; exact hr) (by rw [hlenN]; exact hm)
  rw [hlenN] at w2 w4
  generalize hwalk : walkOps .wbinv ((packetRam s).toNat / s.cfg.lineSize) (m + 1) s = wk at *
  generalize ht : advanceCursor { s with
        cache := wk.cache
        seq := { s.seq with poll := 1#14, phase := p, stack := st }
        dma := d, mem := mem, brg := b, trace := tr, draws := dr } = t
  have tcfg : t.cfg = s.cfg := by rw [← ht]; rfl
  have tmem : t.mem = mem := by rw [← ht]; rfl
  have tcache : t.cache = wk.cache := by rw [← ht]; rfl
  refine ⟨k, t, hrun.trans ?_, ?_, by rw [← ht]; rfl, by rw [← ht]; rfl, by rw [← ht]; rfl⟩
  · rw [resume_cons, ← ht]; rfl
  have hcache : ∀ l, keyGet l wk.cache =
      if 0 < s.seq.chunk.toNat ∧ ramPhys (packetRam s) / s.cfg.lineSize ≤ l ∧
        l ≤ (ramPhys (packetRam s) + s.seq.chunk.toNat - 1) / s.cfg.lineSize then none else keyGet l s.cache := fun l => by
    rw [w2]
    by_cases h : ramPhys (packetRam s) / s.cfg.lineSize ≤ l ∧
        l ≤ (ramPhys (packetRam s) + s.seq.chunk.toNat - 1) / s.cfg.lineSize
    · rw [if_pos h, if_pos ⟨by omega, h⟩]
    · rw [if_neg h, if_neg (fun hx => h hx.2)]
  rw [← tcache] at hcache
  refine ⟨⟨⟨by rw [tcfg]; exact hl, by rw [← ht]; exact hbu⟩, by rw [tcfg]; exact hs.aligns, by rw [tcfg, tcache]; exact w1,
    by rw [← ht]; exact hd, by rw [← ht]; exact hba, by rw [← ht]; exact hs.sched⟩, tcfg, by rw [← ht]; rfl, ?_, by rw [← ht]; exact hbr,
    by rw [← ht]; exact hbt, hcache, fun x hx => ?_, fun y hy h1 h2 => ?_, fun y hy h1 hns => ?_⟩
  · have : t.seq.cursor = s.seq.cursor + s.seq.chunk.setWidth 32 := by rw [← ht]; rfl
    refine this.trans (congrArg (s.seq.cursor + ·) (BitVec.eq_of_toNat_eq ?_))
    rw [setWidth_chunk, BitVec.toNat_ofNat]
    omega
  · rw [tmem, hread, if_neg]
    · exact w4 x (fun h => hx ⟨by omega, h⟩)
    · intro h
      exact hx ⟨by omega, Nat.div_le_div_right h.1, Nat.div_le_div_right (by omega)⟩
  · have habs : keyGet (lineIndex t.cfg y) t.cache = none := by
      rw [hcache, tcfg, if_pos]
      unfold lineIndex
      exact ⟨by omega, Nat.div_le_div_right h1, Nat.div_le_div_right (by omega)⟩
    rw [cpuByte_absent habs, tmem, hread, if_pos ⟨h1, h2⟩]
  · have hcfg : wk.cfg = s.cfg := by rw [← hwalk, walkOps_cfg]
    refine (cpuByte_congr (s := wk) (t := t) (by rw [tcfg, hcfg]) (by rw [tcache]) (fun _ => ?_)).trans
      (w5 y hy (.inr hns))
    rw [tmem, hread, if_neg h1]

/-- READ's loop, to its end: every byte that remained is delivered. -/
theorem read_loop (N : Nat) {s : State} {c : List Frame} (hN : s.seq.remaining.toNat ≤ N) (hs : ReadReady s)
    (hq : s.seq.remaining.toNat ≤ s.brg.rxFifo.length)
    (h32 : (packetRam s).toNat + s.seq.remaining.toNat ≤ 0x100000000)
    (hr : ramPhys (packetRam s) + s.seq.remaining.toNat ≤ s.cfg.ramSize) :
    ∃ (k : Nat) (t : State), runSteps k (follow c (readLoop s)) = .next (resume c .ok t) ∧
      Delivered s t (packetRam s) s.seq.remaining.toNat ∧ t.seq.remaining = 0#32 ∧
      t.seq.initialized = s.seq.initialized := by
  induction N generalizing s with
  | zero =>
    have h0 : s.seq.remaining = 0#32 := BitVec.eq_of_toNat_eq (by simp; omega)
    refine ⟨0, s, ?_, by rw [h0]; exact Delivered.none s hs _, h0, rfl⟩
    unfold readLoop
    rw [if_pos h0]; rfl
  | succ N ih =>
    by_cases h0 : s.seq.remaining = 0#32
    · refine ⟨0, s, ?_, by rw [h0]; exact Delivered.none s hs _, h0, rfl⟩
      unfold readLoop
      rw [if_pos h0]; rfl
    have hpos := toNat_pos h0
    have hc := chunkOf_toNat s.seq.remaining
    let u : State := (nextPacket s).jump (.wrReg offUsbCfg (commandValue 0xC600#32 (nextPacket s).seq.baseOffset))
      (.readCommand :: c)
    have hu : follow c (readLoop s) = u := by
      unfold readLoop
      rw [if_neg h0]; rfl
    have hchunk : u.seq.chunk.toNat = min 512 s.seq.remaining.toNat := hc
    obtain ⟨k1, v, hrun1, hd1, hbuf, hrem, hini⟩ := read_packet_delivered (s := u) (c := c)
      ⟨hs.bridge, hs.aligns, hs.cache, hs.idle, hs.inactive, hs.sched⟩ h0 rfl rfl rfl rfl
      (by rw [hchunk]; exact Nat.le_trans (Nat.min_le_right _ _) hq)
      (by rw [hchunk]; change (packetRam s).toNat + _ ≤ _; omega)
      (by rw [hchunk]; change ramPhys (packetRam s) + _ ≤ s.cfg.ramSize; omega)
    have hd1' : Delivered s v (packetRam s) u.seq.chunk.toNat :=
      ⟨hd1.ready, hd1.cfg, hd1.host, hd1.cursor, hd1.rx, hd1.tx, hd1.lines, hd1.outside, hd1.bytes, hd1.others⟩
    have hremN : v.seq.remaining.toNat = s.seq.remaining.toNat - u.seq.chunk.toNat := by
      rw [hrem, BitVec.toNat_sub, setWidth_chunk]
      change (2 ^ 32 - u.seq.chunk.toNat + s.seq.remaining.toNat) % 2 ^ 32 = _
      have := s.seq.remaining.isLt
      omega
    have hram : packetRam v = packetRam s + BitVec.ofNat 32 u.seq.chunk.toNat := by
      unfold packetRam
      rw [hbuf, hd1'.cursor, ← BitVec.add_assoc]; rfl
    have hlt32 : (packetRam s).toNat + u.seq.chunk.toNat ≤ 0x100000000 := by omega
    by_cases hlast : v.seq.remaining = 0#32
    · refine ⟨k1 + 1, v, by rw [hu, hrun1]; unfold readLoop; rw [if_pos hlast]; rfl, ?_, hlast, hini⟩
      have : u.seq.chunk.toNat = s.seq.remaining.toNat := by
        have := congrArg BitVec.toNat hlast
        rw [hremN] at this; simp at this; omega
      rw [← this]; exact hd1'
    have hposv := toNat_pos hlast
    have hphys : ramPhys (packetRam v) = ramPhys (packetRam s) + u.seq.chunk.toNat := by
      rw [hram]
      exact ramPhys_add hs.bridge.1 (by omega) (by omega)
    have hv32 : (packetRam v).toNat = (packetRam s).toNat + u.seq.chunk.toNat := by
      rw [hram, BitVec.toNat_add, BitVec.toNat_ofNat]
      omega
    obtain ⟨k2, t, hrun2, hd2, hr2, hi2⟩ := ih (s := v) (by omega) hd1'.ready (by rw [hd1'.rx, List.length_drop]; omega)
      (by omega) (by rw [hphys, hd1'.cfg]; omega)
    refine ⟨k1 + 1 + k2, t, by rw [hu]; exact runSteps_trans hrun1 hrun2, ?_, hr2, hi2.trans hini⟩
    have := hd1'.trans hd2 hphys
    rw [show u.seq.chunk.toNat + v.seq.remaining.toNat = s.seq.remaining.toNat by omega] at this
    exact this

/-- A pass of INIT's drain that finds CAN_READ true and 512 bytes waiting: READ of the scratch region, and back to the check
(45_init_lifecycle R265). -/
theorem drain_pass {s : State} (hs : ReadReady s) (hrx : s.cfg.rxfActiveLow = true) (hpow : s.host.powered = true)
    (hp : s.seq.phase = .rdReg offUsbCfg) (hk : s.seq.stack = [.canRead, .initCheck])
    (hq : 512 ≤ s.brg.rxFifo.length) :
    ∃ (k : Nat) (t : State), runSteps (k + 1) s = .next t ∧ ReadReady t ∧ t.cfg = s.cfg ∧ t.host = s.host ∧
      t.seq.phase = .rdReg offUsbCfg ∧ t.seq.stack = [.canRead, .initCheck] ∧
      t.brg.rxFifo = s.brg.rxFifo.drop 512 := by
  have hl := hs.bridge.1
  have e1 : step s = .next (sequencerStep s) := step_default_seq hs.sched hs.idle (bridgeEnabled_inactive hs.inactive)
  have hcan : (registerData offUsbCfg s).canReadSet = true := by
    rw [registerData_usbCfg hl hs.bridge.2, usbStatusData_canRead, hpow, rxfLevel, if_pos hrx]
    cases hf : s.brg.rxFifo with
    | nil => rw [hf] at hq; simp at hq
    | cons x rest => rfl
  have e1' : sequencerStep s = resume s.seq.stack (.data (registerData offUsbCfg s)) (registerRead offUsbCfg s) := by
    unfold sequencerStep; rw [hp]
  rw [e1', hk] at e1
  simp only [resume, afterCall, afterInitCheck, Result.holds, Result.readable, hcan, if_true, callRead, callWait] at e1
  generalize hu1 : State.jump _ _ _ = u1 at e1
  have f1 : u1 = { s with
      seq := { s.seq with
        poll := 0#14, phase := .rdReg offUsbCfg, stack := [.waitRead, .readFirstWait s.cfg.scratchAddr 512#32, .initDrain] }
      trace := u1.trace, draws := u1.draws } := by
    rw [← hu1]; rfl
  have e2 : step u1 = .next (sequencerStep u1) := step_default_seq (by rw [f1]; exact hs.sched) (by rw [f1]; exact hs.idle)
    (bridgeEnabled_inactive (by rw [f1]; exact hs.inactive))
  rw [poll_done (k := [.readFirstWait s.cfg.scratchAddr 512#32, .initDrain]) (by rw [f1]; exact hs.bridge)
    (by rw [f1]; exact hs.inactive) (by rw [f1]) (by rw [f1]), resume_cons] at e2
  generalize hv : startTransfer s.cfg.scratchAddr 512#32 (State.transacted
    { u1 with seq := { u1.seq with poll := u1.seq.poll + 1#14 } }
      (.busRead (regAddr u1.cfg offUsbCfg) (statusWord u1))) = v
  have e2' : step u1 = .next (follow [.initDrain] (readLoop v)) := by rw [← hv]; exact e2
  have fv : v = { s with
      seq := { s.seq with
        buf := s.cfg.scratchAddr, cursor := 0#32, remaining := 512#32, poll := v.seq.poll, phase := v.seq.phase
        stack := v.seq.stack }
      trace := v.trace, draws := v.draws } := by
    rw [← hv, f1]; rfl
  have hv1 : ReadReady v := by rw [fv]; exact ⟨hs.bridge, hs.aligns, hs.cache, hs.idle, hs.inactive, hs.sched⟩
  have hrem : v.seq.remaining = 512#32 := by rw [fv]
  have hram : packetRam v = s.cfg.scratchAddr := by rw [fv]; simp [packetRam]
  have hcfg : v.cfg = s.cfg := by rw [fv]
  obtain ⟨h32, hsz⟩ := Config.legal_scratch hl
  obtain ⟨k, t, hrun, hd, -, -⟩ := read_loop 512 (s := v) (c := [.initDrain]) (by rw [hrem]; decide) hv1
    (by rw [hrem, fv]; exact hq) (by rw [hrem, hram]; exact h32) (by rw [hrem, hram, hcfg]; exact hsz)
  refine ⟨1 + k, _, (runSteps_step e1 (1 + k)).trans (runSteps_trans (runSteps_one e2') hrun), ?_⟩
  have hrx' : t.brg.rxFifo = s.brg.rxFifo.drop 512 := by rw [hd.rx, hrem, fv]; rfl
  exact ⟨⟨hd.ready.bridge, hd.ready.aligns, hd.ready.cache, hd.ready.idle, hd.ready.inactive, hd.ready.sched⟩,
    hd.cfg.trans hcfg, hd.host.trans (by rw [fv]), rfl, rfl, hrx'⟩

/-! ### One packet of WRITE -/

/-- The second half of a packet of WRITE: its "write + activate" command, the bridge's bytes, the wait. -/
theorem write_send {s : State} {c : List Frame} (hr : s.bridgeReady) (hb : s.dma.busy = false) (ha : s.brg.active = false)
    (hs : s.atDefault) {n base : Nat} (hbase : s.seq.baseOffset.toNat = base) (hnb : base + n = 512) (hn0 : 0 < n)
    (hp : s.seq.phase = .wrReg offUsbCfg (commandValue 0xC200#32 s.seq.baseOffset)) (hk : s.seq.stack = .writeCommand :: c)
    (hq : ∀ d, s.cfg.txDepth = some d → s.brg.txFifo.length + n ≤ d) :
    ∃ (k : Nat) (b : Bridge) (tr : List Transaction) (dr : Nat),
      runSteps (k + 1) s = .next (resume (.writeWait :: c) .ok { s with
        seq := { s.seq with poll := 1#14, phase := .rdReg offUsbCfg, stack := .waitRead :: .writeWait :: c }
        brg := b, trace := tr, draws := dr }) ∧
      b.active = false ∧ b.unlocked = true ∧ b.rxFifo = s.brg.rxFifo ∧
      b.txFifo = s.brg.txFifo ++ s.brg.pkt.toList.drop base := by
  have hb512 : s.seq.baseOffset.toNat < 512 := by omega
  obtain ⟨cd, ca, cdir, coff⟩ := commandWrite_fields (s.seq.baseOffset.setWidth 9)
  have e3 : step s = .next (sequencerStep s) := step_default_seq hs hb (bridgeEnabled_inactive ha)
  have e3' : sequencerStep s = resume s.seq.stack .ok (registerWrite offUsbCfg (commandValue 0xC200#32 s.seq.baseOffset) s) :=
    sequencerStep_wrReg hp hk (fun h => nomatch h)
  rw [e3', commandValue_write hb512, registerWrite_activate hr ha cd ca, hk] at e3
  have hptr : (commandPtr (commandWrite (s.seq.baseOffset.setWidth 9))).val = base := by
    unfold commandPtr
    simp only [coff, BitVec.toNat_setWidth]
    omega
  generalize hu3 : resume _ _ _ = u3 at e3
  have f3 : u3 = { s with
      seq := { s.seq with poll := 0#14, phase := .rdReg offUsbCfg, stack := .waitRead :: .writeWait :: c }
      brg := { s.brg with
        cmd := commandWrite (s.seq.baseOffset.setWidth 9), active := true, dir := .wr
        ptr := commandPtr (commandWrite (s.seq.baseOffset.setWidth 9)) }
      trace := u3.trace, draws := u3.draws } := by
    rw [← hu3, ← cdir]; rfl
  have e4 := write_packet_run (s := u3) (es := []) false (by rw [f3]) (by rw [f3]) (n := n)
    (by rw [f3]; simp only [hptr]; exact hnb) (by rw [f3]; exact hq) (fun _ => ⟨rfl, by rw [f3]; exact hs.2, by rw [f3]; exact hb⟩)
    (by rw [f3]; exact hs.1)
  generalize hu4 : ({ u3 with sched := _, brg := _ } : State) = u4 at e4
  have hp3 : u3.brg.ptr.val = base := by rw [f3]; exact hptr
  have f4 : u4 = { s with
      seq := { s.seq with poll := 0#14, phase := .rdReg offUsbCfg, stack := .waitRead :: .writeWait :: c }
      brg := { s.brg with
        cmd := commandWrite (s.seq.baseOffset.setWidth 9), active := false, dir := .wr
        ptr := 512, txFifo := s.brg.txFifo ++ s.brg.pkt.toList.drop base }
      trace := u4.trace, draws := u4.draws } := by
    rw [← hu4, hp3, f3, hs.1]
  have e5 : step u4 = .next (sequencerStep u4) := step_default_seq (by rw [f4]; exact hs) (by rw [f4]; exact hb)
    (bridgeEnabled_inactive (by rw [f4]))
  rw [poll_done (k := .writeWait :: c) (by rw [f4]; exact hr) (by rw [f4]) (by rw [f4]) (by rw [f4])] at e5
  generalize hu5 : State.transacted _ _ = u5 at e5
  refine ⟨1 + (n + 1), u4.brg, u5.trace, u5.draws,
    (congrArg (runSteps · s) (by omega)).trans
      ((runSteps_trans (runSteps_one e3) (runSteps_trans e4 (runSteps_one e5))).trans ?_),
    by rw [f4], by rw [f4]; exact hr.2, by rw [f4], by rw [f4]⟩
  rw [← hu5, f4]; rfl

/-- The first half of a packet of WRITE: its cache walk and its DMA job. -/
theorem write_fetch {s : State} {c : List Frame} (hs : ReadReady s) {n base : Nat}
    (hn : s.seq.chunk.toNat = n) (hn0 : 0 < n) (hbase : s.seq.baseOffset.toNat = base) (hnb : base + n = 512)
    (hp : s.seq.phase = .line .wb (lineFirst s.cfg (packetRam s)) (lineLast s.cfg (packetRam s) (packetLen s)))
    (hk : s.seq.stack = .writeBack :: c) (h32 : (packetRam s).toNat + n ≤ 0x100000000)
    (hr : ramPhys (packetRam s) + n ≤ s.cfg.ramSize) :
    ∃ (k m : Nat) (d : Dma) (w : Vector Byte 512) (tr : List Transaction) (dr : Nat),
      runSteps (k + 1) s = .next { s with
        mem := (walkOps .wb ((packetRam s).toNat / s.cfg.lineSize) (m + 1) s).mem
        cache := (walkOps .wb ((packetRam s).toNat / s.cfg.lineSize) (m + 1) s).cache
        seq := { s.seq with
          stack := .writeCommand :: c, phase := .wrReg offUsbCfg (commandValue 0xC200#32 s.seq.baseOffset) }
        brg := { s.brg with pkt := w }
        dma := d, trace := tr, draws := dr } ∧
      ((packetRam s).toNat + n - 1) / s.cfg.lineSize = (packetRam s).toNat / s.cfg.lineSize + m ∧ d.busy = false ∧
      w = windowAfter (walkOps .wb ((packetRam s).toNat / s.cfg.lineSize) (m + 1) s).mem s.brg.pkt
        (ramPhys (packetRam s)) base n := by
  have hl := hs.bridge.1
  have hb512 : s.seq.baseOffset.toNat < 512 := by omega
  have hlen : packetLen s ≠ 0#32 := by
    intro h
    have := congrArg BitVec.toNat h
    unfold packetLen at this
    rw [setWidth_chunk] at this
    simp at this; omega
  have hlenN : (packetLen s).toNat = n := by unfold packetLen; rw [setWidth_chunk, hn]
  obtain ⟨m, hm, h1, -, -⟩ := range_lines (addr := packetRam s) hl hlen (by rw [hlenN]; exact h32) (by rw [hlenN]; exact hr)
  have e1 := walk_run false (s := s) (kind := .wb) (q := (packetRam s).toNat / s.cfg.lineSize) (m := m) (es := [])
    (by rw [hp, lineFirst_eq, lineLast_eq _ hlen (by rw [hlenN]; exact h32), hm])
    h1 (fun _ => ⟨rfl, hs.sched.2, hs.idle, hs.inactive⟩) hs.sched.1
  rw [hk] at e1
  have hm' : ((packetRam s).toNat + n - 1) / s.cfg.lineSize = (packetRam s).toNat / s.cfg.lineSize + m := by
    rw [← hm, hlenN]
  generalize hwm : (walkOps .wb ((packetRam s).toNat / s.cfg.lineSize) (m + 1) s).mem = wm
  generalize hwc : (walkOps .wb ((packetRam s).toNat / s.cfg.lineSize) (m + 1) s).cache = wc
  generalize hu1 : resume _ _ _ = u1 at e1
  have f1 : u1 = { s with
      mem := wm, cache := wc
      seq := { s.seq with
        stack := .dmaFirstWait ⟨packetRam s, physical (packetAddr s.cfg s.seq.baseOffset), packetLen s, .outgoing⟩ ::
          .writeDma :: c
        phase := .dmaPoll }
      trace := u1.trace, draws := u1.draws } := by
    rw [← hu1, ← hwm, ← hwc, walkOps_shape, hs.sched.1]; rfl
  obtain ⟨k2, d, mem, w, tr, dr, e2, hd, -, -, hout⟩ := transfer_run (s := u1) (k := base)
    (x := ⟨packetRam s, physical (packetAddr s.cfg s.seq.baseOffset), packetLen s, .outgoing⟩) (c := .writeDma :: c)
    (by rw [f1]; exact hl) (by rw [f1]; exact hs.aligns) (by rw [f1]; exact hs.idle) (by rw [f1]; exact hs.inactive)
    (by rw [f1]; exact hs.sched) (by rw [f1]) (by rw [f1]) hlen (by rw [f1, ← hbase]; exact packet_place hl hb512)
    (by rw [hlenN]; omega) (by rw [f1, hlenN]; exact hr)
  obtain ⟨hmem, hw⟩ := hout rfl
  rw [hlenN, f1] at hw
  rw [f1] at hmem
  simp only at hmem hw
  refine ⟨m + 1 + k2, m, d, w, tr, dr, (runSteps_trans (n := k2 + 1) e1 e2).trans ?_, hm', hd, by rw [hwm, hw]⟩
  rw [hwm, hwc, ← hmem, f1]; rfl

/-- One packet of WRITE, from its first cache operation to the end of its last wait. -/
theorem write_packet {s : State} {c : List Frame} (hs : ReadReady s) {n base : Nat}
    (hn : s.seq.chunk.toNat = n) (hn0 : 0 < n) (hbase : s.seq.baseOffset.toNat = base) (hnb : base + n = 512)
    (hp : s.seq.phase = .line .wb (lineFirst s.cfg (packetRam s)) (lineLast s.cfg (packetRam s) (packetLen s)))
    (hk : s.seq.stack = .writeBack :: c)
    (hq : ∀ d, s.cfg.txDepth = some d → s.brg.txFifo.length + n ≤ d) (h32 : (packetRam s).toNat + n ≤ 0x100000000)
    (hr : ramPhys (packetRam s) + n ≤ s.cfg.ramSize) :
    ∃ (k m : Nat) (d : Dma) (b : Bridge) (tr : List Transaction) (dr : Nat) (p : Phase) (st : List Frame),
      runSteps (k + 1) s = .next (resume (.writeWait :: c) .ok { s with
        mem := (walkOps .wb ((packetRam s).toNat / s.cfg.lineSize) (m + 1) s).mem
        cache := (walkOps .wb ((packetRam s).toNat / s.cfg.lineSize) (m + 1) s).cache
        seq := { s.seq with poll := 1#14, phase := p, stack := st }
        dma := d, brg := b, trace := tr, draws := dr }) ∧
      ((packetRam s).toNat + n - 1) / s.cfg.lineSize = (packetRam s).toNat / s.cfg.lineSize + m ∧
      d.busy = false ∧ b.active = false ∧ b.unlocked = true ∧ b.rxFifo = s.brg.rxFifo ∧
      b.txFifo = s.brg.txFifo ++ (List.range n).map (fun i =>
        (walkOps .wb ((packetRam s).toNat / s.cfg.lineSize) (m + 1) s).mem.read (ramPhys (packetRam s) + i)) := by
  obtain ⟨k1, m, d, w, tr, dr, e1, hm, hd, hw⟩ := write_fetch hs hn hn0 hbase hnb hp hk h32 hr
  generalize hu : ({ s with mem := _, cache := _, seq := _, brg := _, dma := _, trace := _, draws := _ } : State) = u at e1
  obtain ⟨k2, b, tr', dr', e2, h1, h2, h3, h4⟩ := write_send (s := u) (c := c) (n := n) (base := base)
    (by subst hu; exact hs.bridge) (by subst hu; exact hd) (by subst hu; exact hs.inactive) (by subst hu; exact hs.sched)
    (by subst hu; exact hbase) hnb hn0 (by subst hu; rfl) (by subst hu; rfl) (by subst hu; exact hq)
  refine ⟨k1 + 1 + k2, m, d, b, tr', dr', .rdReg offUsbCfg, .waitRead :: .writeWait :: c,
    (runSteps_trans e1 e2).trans ?_, hm, hd, h1, h2, ?_, ?_⟩
  · subst hu; rfl
  · subst hu; exact h3
  · rw [h4]
    have hpkt : u.brg.pkt = w := by subst hu; rfl
    have htx : u.brg.txFifo = s.brg.txFifo := by subst hu; rfl
    rw [hpkt, htx]
    refine congrArg (s.brg.txFifo ++ ·) ?_
    apply List.ext_getElem
    · simp; omega
    · intro i h1 h2
      have hi : i < n := by simpa using h2
      have hlt : base + i < 512 := by omega
      have hwi := windowAfter_get (walkOps .wb ((packetRam s).toNat / s.cfg.lineSize) (m + 1) s).mem s.brg.pkt
        (ramPhys (packetRam s)) base n ⟨base + i, hlt⟩
      rw [← hw, if_pos (by simp; exact hi)] at hwi
      simp only [Fin.getElem_fin, Nat.add_sub_cancel_left] at hwi
      simp only [List.getElem_drop, List.getElem_map, List.getElem_range]
      exact hwi

theorem in_ram_of_line {r n l i : Nat} (hd : r % n = 0) (hl : l * n < r) (hi : i < n) : l * n + i < r := by
  obtain ⟨q, rfl⟩ := Nat.dvd_of_mod_eq_zero hd
  have hlq : l + 1 ≤ q := Nat.lt_of_mul_lt_mul_left (Nat.mul_comm l n ▸ hl)
  calc l * n + i < l * n + n := by omega
    _ = (l + 1) * n := by rw [Nat.add_mul, Nat.one_mul]
    _ ≤ q * n := Nat.mul_le_mul_right n hlq
    _ = n * q := Nat.mul_comm q n

/-- A write-back walk leaves a line that was not stale not stale. -/
theorem walk_notStale {addr len : Word} {m : Nat} {s : State} (hl : s.cfg.legal = true)
    (hf : cacheFits s.cfg s.cache = true) (h0 : len ≠ 0#32) (h32 : addr.toNat + len.toNat ≤ 0x100000000)
    (hr : ramPhys addr + len.toNat ≤ s.cfg.ramSize)
    (hm : (addr.toNat + len.toNat - 1) / s.cfg.lineSize = addr.toNat / s.cfg.lineSize + m) {l : Nat}
    (hin : l * s.cfg.lineSize < s.cfg.ramSize) (hns : s.notStale l) :
    (walkOps .wb (addr.toNat / s.cfg.lineSize) (m + 1) s).notStale l := by
  obtain ⟨m', hm', h1, h2, h3⟩ := range_lines hl h0 h32 hr
  have : m' = m := by omega
  subst this
  obtain ⟨w1, w2, w3, w4⟩ := walkOps_effect (kind := .wb) (n := m' + 1) hl hf
    (fun j hj => (h3 j (by omega)).1) (fun j hj => (h3 j (by omega)).2)
  have hcfg : (walkOps .wb (addr.toNat / s.cfg.lineSize) (m' + 1) s).cfg = s.cfg := by rw [walkOps_shape]
  obtain ⟨hr29, hdiv⟩ := Config.legal_ram hl
  intro ln hk hd
  rw [w1] at hk
  rw [hcfg]
  unfold ramReadBytes
  by_cases hw : ramPhys addr / s.cfg.lineSize ≤ l ∧ l < ramPhys addr / s.cfg.lineSize + (m' + 1)
  · rw [if_pos hw] at hk
    simp only [Option.map_eq_some_iff] at hk
    obtain ⟨l0, hk0, rfl⟩ := hk
    have hlen0 : l0.data.length = s.cfg.lineSize := cacheFits_line hf hk0
    apply List.ext_getElem
    · simp [hlen0]
    intro i hi _
    have hi' : i < s.cfg.lineSize := by rw [← hlen0]; exact hi
    have hb : l * s.cfg.lineSize + i < s.cfg.ramSize := in_ram_of_line hdiv hin hi'
    have hb' : ramPhys (BitVec.ofNat 32 (l * s.cfg.lineSize + i)) = l * s.cfg.lineSize + i := by
      rw [ramPhys_eq, BitVec.toNat_ofNat]; omega
    have hline : lineIndex s.cfg (BitVec.ofNat 32 (l * s.cfg.lineSize + i)) = l := by
      unfold lineIndex
      rw [hb']
      exact in_line_iff.1 ⟨by omega, by omega⟩
    have hoff : lineOffset s.cfg (BitVec.ofNat 32 (l * s.cfg.lineSize + i)) = i := by
      unfold lineOffset
      rw [hb', Nat.mul_comm, Nat.mul_add_mod, Nat.mod_eq_of_lt hi']
    have hread := w4 (BitVec.ofNat 32 (l * s.cfg.lineSize + i)) (by rw [hb']; exact hb) (by rw [hline]; exact hw)
      (by rw [hline]; exact hns)
    rw [cpuByte_present (by rw [hline]; exact hk0), hb', hoff] at hread
    simp only [List.getElem_map, List.getElem_range]
    rw [hread]
    simp [Line.byte, hi]
  · rw [if_neg hw] at hk
    rw [hns ln hk hd]
    apply List.map_congr_left
    intro i hi
    refine (w3 _ ?_).symm
    have hi' : i < s.cfg.lineSize := by simpa using hi
    rw [show (l * s.cfg.lineSize + i) / s.cfg.lineSize = l from in_line_iff.1 ⟨by omega, by omega⟩]
    exact hw

/-! ### WRITE's loop -/

/-- From `s` to `t`, the `n` bytes that CLIENT read at `a` have joined the transmit FIFO, and CLIENT reads what it read. -/
structure Sent (s t : State) (a : Word) (n : Nat) : Prop where
  ready : ReadReady t
  cfg : t.cfg = s.cfg
  cursor : t.seq.cursor = s.seq.cursor + BitVec.ofNat 32 n
  rx : t.brg.rxFifo = s.brg.rxFifo
  tx : t.brg.txFifo = s.brg.txFifo ++ (List.range n).map (fun i => cpuByte s (a + BitVec.ofNat 32 i))
  view : ∀ b : Word, ramPhys b < s.cfg.ramSize → cpuByte t b = cpuByte s b
  notStale : ∀ l, l * s.cfg.lineSize < s.cfg.ramSize → s.notStale l → t.notStale l

theorem Sent.none (s : State) (h : ReadReady s) (a : Word) : Sent s s a 0 where
  ready := h
  cfg := rfl
  cursor := by simp
  rx := rfl
  tx := by simp
  view := fun _ _ => rfl
  notStale := fun _ _ h => h

theorem Sent.trans {s t u : State} {a b : Word} {n m : Nat} (h : Sent s t a n) (h' : Sent t u b m)
    (hab : b = a + BitVec.ofNat 32 n) (hin : ∀ i, i < m → ramPhys (b + BitVec.ofNat 32 i) < s.cfg.ramSize) :
    Sent s u a (n + m) where
  ready := h'.ready
  cfg := h'.cfg.trans h.cfg
  cursor := by rw [h'.cursor, h.cursor, BitVec.add_assoc, ← BitVec.ofNat_add]
  rx := h'.rx.trans h.rx
  tx := by
    rw [h'.tx, h.tx, List.range_add, List.map_append, List.append_assoc, List.map_map]
    congr 2
    apply List.map_congr_left
    intro i hi
    rw [h.view _ (hin i (by simpa using hi)), hab, Function.comp, BitVec.add_assoc, ← BitVec.ofNat_add]
  view := fun x hx => by rw [h'.view x (by rw [h.cfg]; exact hx), h.view x hx]
  notStale := fun l hl hs => h'.notStale l (by rw [h.cfg]; exact hl) (h.notStale l hl hs)

/-- One packet of WRITE, with what CLIENT reads: its bytes are sent, and nothing CLIENT reads has changed. -/
theorem write_packet_sent {s : State} {c : List Frame} (hs : ReadReady s) (hrem : s.seq.remaining ≠ 0#32)
    (hchunk : s.seq.chunk = chunkOf s.seq.remaining) (hbase : s.seq.baseOffset = baseOffsetOf s.seq.chunk)
    (hp : s.seq.phase = .line .wb (lineFirst s.cfg (packetRam s)) (lineLast s.cfg (packetRam s) (packetLen s)))
    (hk : s.seq.stack = .writeBack :: c)
    (hq : ∀ d, s.cfg.txDepth = some d → s.brg.txFifo.length + s.seq.chunk.toNat ≤ d)
    (h32 : (packetRam s).toNat + s.seq.chunk.toNat ≤ 0x100000000)
    (hr : ramPhys (packetRam s) + s.seq.chunk.toNat ≤ s.cfg.ramSize)
    (hns : ∀ i, i < s.seq.chunk.toNat → s.notStale ((ramPhys (packetRam s) + i) / s.cfg.lineSize)) :
    ∃ (k : Nat) (t : State), runSteps (k + 1) s = .next (follow c (writeLoop t)) ∧
      Sent s t (packetRam s) s.seq.chunk.toNat ∧ t.seq.buf = s.seq.buf ∧
      t.seq.remaining = s.seq.remaining - s.seq.chunk.setWidth 32 ∧ t.seq.initialized = s.seq.initialized := by
  have hl := hs.bridge.1
  have hc1 := chunkOf_toNat s.seq.remaining
  have hpos := toNat_pos hrem
  obtain ⟨hb1, hb2⟩ := baseOffsetOf_toNat hrem
  rw [← hchunk] at hc1 hb1 hb2
  rw [← hbase] at hb1 hb2
  obtain ⟨k, m, d, b, tr, dr, p, st, hrun, hm, hd, hba, hbu, hbr, hbt⟩ :=
    write_packet hs rfl (by omega) rfl (by omega) hp hk hq h32 hr
  have hlen : packetLen s ≠ 0#32 := by
    intro h
    have := congrArg BitVec.toNat h
    unfold packetLen at this
    rw [setWidth_chunk] at this
    simp at this; omega
  have hlenN : (packetLen s).toNat = s.seq.chunk.toNat := by unfold packetLen; rw [setWidth_chunk]
  have h32' : (packetRam s).toNat + (packetLen s).toNat ≤ 0x100000000 := by rw [hlenN]; exact h32
  have hr' : ramPhys (packetRam s) + (packetLen s).toNat ≤ s.cfg.ramSize := by rw [hlenN]; exact hr
  have hm' : ((packetRam s).toNat + (packetLen s).toNat - 1) / s.cfg.lineSize =
    (packetRam s).toNat / s.cfg.lineSize + m := by rw [hlenN]; exact hm
  obtain ⟨w1, -, w3, -, w5⟩ := walk_range_effect (kind := .wb) hl hs.cache hlen h32' hr' hm'
  have w6 := fun l => walk_notStale (l := l) hl hs.cache hlen h32' hr' hm'
  rw [hlenN] at w3
  have hcfg : (walkOps .wb ((packetRam s).toNat / s.cfg.lineSize) (m + 1) s).cfg = s.cfg := by rw [walkOps_shape]
  generalize hwalk : walkOps .wb ((packetRam s).toNat / s.cfg.lineSize) (m + 1) s = wk at *
  generalize ht : advanceCursor { s with
        mem := wk.mem
        cache := wk.cache
        seq := { s.seq with poll := 1#14, phase := p, stack := st }
        dma := d, brg := b, trace := tr, draws := dr } = t
  have tcfg : t.cfg = s.cfg := by rw [← ht]; rfl
  have tmem : t.mem = wk.mem := by rw [← ht]; rfl
  have tcache : t.cache = wk.cache := by rw [← ht]; rfl
  refine ⟨k, t, hrun.trans ?_, ?_, by rw [← ht]; rfl, by rw [← ht]; rfl, by rw [← ht]; rfl⟩
  · rw [resume_cons, ← ht]; rfl
  refine ⟨⟨⟨by rw [tcfg]; exact hl, by rw [← ht]; exact hbu⟩, by rw [tcfg]; exact hs.aligns, by rw [tcfg, tcache]; exact w1,
    by rw [← ht]; exact hd, by rw [← ht]; exact hba, by rw [← ht]; exact hs.sched⟩, tcfg, ?_, by rw [← ht]; exact hbr,
    ?_, fun y hy => ?_, fun l hin hnl => ?_⟩
  · have : t.seq.cursor = s.seq.cursor + s.seq.chunk.setWidth 32 := by rw [← ht]; rfl
    refine this.trans (congrArg (s.seq.cursor + ·) (BitVec.eq_of_toNat_eq ?_))
    rw [setWidth_chunk, BitVec.toNat_ofNat]
    omega
  · have htx : t.brg.txFifo = b.txFifo := by rw [← ht]; rfl
    rw [htx, hbt]
    refine congrArg (s.brg.txFifo ++ ·) (List.map_congr_left fun i hi => ?_)
    have hi' : i < s.seq.chunk.toNat := by simpa using hi
    exact w3 i hi' (hns i hi')
  · exact (cpuByte_congr (s := wk) (t := t) (by rw [tcfg, hcfg]) (by rw [tcache]) (fun _ => by rw [tmem])).trans
      (w5 y hy (.inl rfl))
  · intro ln hk1 hd1
    have := w6 l hin hnl ln (by rw [← tcache]; exact hk1) hd1
    rw [this, hcfg, tcfg]
    unfold ramReadBytes
    rw [tmem]

/-- WRITE's loop, to its end: every byte that remained is sent. -/
theorem write_loop (N : Nat) {s : State} {c : List Frame} (hN : s.seq.remaining.toNat ≤ N) (hs : ReadReady s)
    (hq : ∀ d, s.cfg.txDepth = some d → s.brg.txFifo.length + s.seq.remaining.toNat ≤ d)
    (h32 : (packetRam s).toNat + s.seq.remaining.toNat ≤ 0x100000000)
    (hr : ramPhys (packetRam s) + s.seq.remaining.toNat ≤ s.cfg.ramSize)
    (hns : ∀ i, i < s.seq.remaining.toNat → s.notStale ((ramPhys (packetRam s) + i) / s.cfg.lineSize)) :
    ∃ (k : Nat) (t : State), runSteps k (follow c (writeLoop s)) = .next (resume c .ok t) ∧
      Sent s t (packetRam s) s.seq.remaining.toNat ∧ t.seq.remaining = 0#32 ∧
      t.seq.initialized = s.seq.initialized := by
  induction N generalizing s with
  | zero =>
    have h0 : s.seq.remaining = 0#32 := BitVec.eq_of_toNat_eq (by simp; omega)
    refine ⟨0, s, ?_, by rw [h0]; exact Sent.none s hs _, h0, rfl⟩
    unfold writeLoop
    rw [if_pos h0]; rfl
  | succ N ih =>
    by_cases h0 : s.seq.remaining = 0#32
    · refine ⟨0, s, ?_, by rw [h0]; exact Sent.none s hs _, h0, rfl⟩
      unfold writeLoop
      rw [if_pos h0]; rfl
    have hpos := toNat_pos h0
    have hc := chunkOf_toNat s.seq.remaining
    let u : State := (nextPacket s).jump
      (.line .wb (lineFirst s.cfg (packetRam s)) (lineLast s.cfg (packetRam s) (packetLen (nextPacket s))))
      (.writeBack :: c)
    have hu : follow c (writeLoop s) = u := by
      unfold writeLoop callWalk
      rw [if_neg h0]; rfl
    have hchunk : u.seq.chunk.toNat = min 512 s.seq.remaining.toNat := hc
    obtain ⟨k1, v, hrun1, hd1, hbuf, hrem, hini⟩ := write_packet_sent (s := u) (c := c)
      ⟨hs.bridge, hs.aligns, hs.cache, hs.idle, hs.inactive, hs.sched⟩ h0 rfl rfl rfl rfl
      (by rw [hchunk]; exact fun d h => Nat.le_trans (Nat.add_le_add_left (Nat.min_le_right _ _) _) (hq d h))
      (by rw [hchunk]; change (packetRam s).toNat + _ ≤ _; omega)
      (by rw [hchunk]; change ramPhys (packetRam s) + _ ≤ s.cfg.ramSize; omega)
      (fun i hi => hns i (by omega))
    have hd1' : Sent s v (packetRam s) u.seq.chunk.toNat :=
      ⟨hd1.ready, hd1.cfg, hd1.cursor, hd1.rx, hd1.tx, hd1.view, hd1.notStale⟩
    have hremN : v.seq.remaining.toNat = s.seq.remaining.toNat - u.seq.chunk.toNat := by
      rw [hrem, BitVec.toNat_sub, setWidth_chunk]
      change (2 ^ 32 - u.seq.chunk.toNat + s.seq.remaining.toNat) % 2 ^ 32 = _
      have := s.seq.remaining.isLt
      omega
    have hram : packetRam v = packetRam s + BitVec.ofNat 32 u.seq.chunk.toNat := by
      unfold packetRam
      rw [hbuf, hd1'.cursor, ← BitVec.add_assoc]; rfl
    by_cases hlast : v.seq.remaining = 0#32
    · refine ⟨k1 + 1, v, by rw [hu, hrun1]; unfold writeLoop; rw [if_pos hlast]; rfl, ?_, hlast, hini⟩
      have : u.seq.chunk.toNat = s.seq.remaining.toNat := by
        have := congrArg BitVec.toNat hlast
        rw [hremN] at this; simp at this; omega
      rw [← this]; exact hd1'
    have hposv := toNat_pos hlast
    have hphys : ramPhys (packetRam v) = ramPhys (packetRam s) + u.seq.chunk.toNat := by
      rw [hram]
      exact ramPhys_add hs.bridge.1 (by omega) (by omega)
    have hv32 : (packetRam v).toNat = (packetRam s).toNat + u.seq.chunk.toNat := by
      rw [hram, BitVec.toNat_add, BitVec.toNat_ofNat]
      omega
    have hlp := lineSize_pos s.cfg
    obtain ⟨k2, t, hrun2, hd2, hr2, hi2⟩ := ih (s := v) (by omega) hd1'.ready
      (fun d h => by
        rw [hd1'.tx, List.length_append, List.length_map, List.length_range]
        have := hq d (by rw [← hd1'.cfg]; exact h)
        omega)
      (by omega) (by rw [hphys, hd1'.cfg]; omega)
      (fun i hi => by
        rw [hphys, hd1'.cfg]
        refine hd1'.notStale _ ?_ ?_
        · have := Nat.div_mul_le_self (ramPhys (packetRam s) + u.seq.chunk.toNat + i) s.cfg.lineSize
          omega
        · rw [Nat.add_assoc]; exact hns _ (by omega))
    refine ⟨k1 + 1 + k2, t, by rw [hu]; exact runSteps_trans hrun1 hrun2, ?_, hr2, hi2.trans hini⟩
    have := hd1'.trans hd2 hram (fun i hi => by
      rw [ramPhys_add hs.bridge.1 (by rw [hphys]; omega) (by omega), hphys]; omega)
    rw [show u.seq.chunk.toNat + v.seq.remaining.toNat = s.seq.remaining.toNat by omega] at this
    exact this

end Sys2Proof.Machine
end

