-- ==== Sys2Proof/Tests/Slice0.lean ====
section
/-! SUPPORT. Tests, each on one word, one operation or one step. The expected results are those of 95_test_vectors (the
vector is named) or hand calculations from the rule named; the parameters are the reference set of its section 1. The
second half holds, for every statement with hypotheses, a state that meets them together. -/

namespace Sys2Proof.Tests
open Sys2Proof Sys2Proof.Machine

/-! ### Helpers -/

/-- What a step left, if it answered a next state. -/
def after : Host.Outcome State Fault Refusal → Option State
  | .next t => some t
  | .fault _ => none
  | .refused _ => none

/-- Why a step was refused, if it was. -/
def refusal : Host.Outcome State Fault Refusal → Option Refusal
  | .refused why => some why
  | .fault _ => none
  | .next _ => none

/-- What a step faulted with, if it did. -/
def faultOf : Host.Outcome State Fault Refusal → Option Fault
  | .fault f => some f
  | .refused _ => none
  | .next _ => none

/-- What the decoder reads, if it reads anything. -/
def reads (r : Request) : Option Instr := (decode Config.reference r).toOption

/-- Why the decoder refuses, if it does. -/
def rejects (r : Request) : Option Reject :=
  match decode Config.reference r with
  | .ok _ => none
  | .error why => some why

/-- A machine after INIT: unlocked, initialised, idle, powered, FIFOs empty. -/
def bench : State :=
  { State.reset with
    seq := { Sequencer.reset with initialized := true }
    brg := { Bridge.reset with unlocked := true }
    host := { State.reset.host with powered := true } }

/-- `bench` with ACTIVE set. -/
def active : State := { bench with brg := { bench.brg with active := true } }

/-- `bench` with a one-byte incoming job in flight (95_test_vectors C6). -/
def inFlight : State :=
  { bench with dma := { bench.dma with busy := true, job := ⟨.incoming, 0x80200000#32, 0x1F8005FF#32, 1#33, []⟩ } }

/-- Sixteen bytes. -/
def bytes16 : List Byte := (List.range 16).map (BitVec.ofNat 8)

/-- `bench` with line 0x20040 present and dirty (95_test_vectors B20). -/
def dirtyLine : State := { bench with cache := [(0x20040, ⟨bytes16, true⟩)] }

/-- `bench` with an operation in progress. -/
def occupied : State := { bench with seq := { bench.seq with op := .dmaWaitIdle, phase := .dmaPoll } }

/-- `bench` with a schedule. -/
def given (es : List Event) : State := { bench with sched := es }

/-! ### WellFormed refuses ill-formed terms -/

theorem test_range_across_top : rangeOk 0xFFFFFFF8#32 16#32 = false := by decide
theorem test_range_to_top : rangeOk 0xFFFFFFF0#32 16#32 = true := by decide
theorem test_illformed_read : (Instr.read 0xFFFFFFF0#32 0x20#32).wellFormed Config.reference = false := by decide
theorem test_illformed_write : (Instr.write 0xFFFFFFFF#32 2#32).wellFormed Config.reference = false := by decide
theorem test_illformed_cacheWb : (Instr.cacheWb 0xFFFFFFF8#32 16#32).wellFormed Config.reference = false := by decide
theorem test_illformed_cacheWbinv : (Instr.cacheWbinv 0x80000000#32 0x80000001#32).wellFormed Config.reference = false := by
  decide
theorem test_illformed_dmaXfer :
    (Instr.dmaXfer 0x80200000#32 0xBF800400#32 0#32 .incoming).wellFormed Config.reference = false := by decide
theorem test_illformed_dom1Set : (Instr.dom1Set 2).wellFormed Config.reference = false := by decide

/-! ### Decoding: every constructor's word, written out from 30_encoding R102, R106, R107, R112, R121 -/

theorem test_decode_new : reads ⟨.opd, [0x00000000#32]⟩ = some .new := by decide
theorem test_decode_init : reads ⟨.opd, [0x00000001#32]⟩ = some .init := by decide
theorem test_decode_read :
    reads ⟨.opd, [0x00000002#32, 0x80200000#32, 0x00000514#32]⟩ = some (.read 0x80200000#32 1300#32) := by decide
theorem test_decode_write :
    reads ⟨.opd, [0x00000003#32, 0x80200000#32, 0x00000514#32]⟩ = some (.write 0x80200000#32 1300#32) := by decide
theorem test_decode_rdReg : reads ⟨.opd, [0x00000004#32, 0x00000004#32]⟩ = some (.rdReg 0x0004#32) := by decide
theorem test_decode_wrReg :
    reads ⟨.opd, [0x00000005#32, 0x00008004#32, 0x0000AA55#32]⟩ = some (.wrReg 0x8004#32 0xAA55#32) := by decide
theorem test_decode_cacheWb :
    reads ⟨.opd, [0x00000006#32, 0x80200404#32, 0x00000114#32]⟩ = some (.cacheWb 0x80200404#32 276#32) := by decide
theorem test_decode_cacheWbinv :
    reads ⟨.opd, [0x00000007#32, 0x80200000#32, 0x00000200#32]⟩ = some (.cacheWbinv 0x80200000#32 512#32) := by decide
theorem test_decode_dmaXfer_in :
    reads ⟨.opd, [0x00000008#32, 0x80200400#32, 0xBF8004EC#32, 0x00000114#32, 0x00000000#32]⟩ =
      some (.dmaXfer 0x80200400#32 0xBF8004EC#32 276#32 .incoming) := by decide
theorem test_decode_dmaXfer_out :
    reads ⟨.opd, [0x00000008#32, 0x80200000#32, 0xBF800400#32, 0x00000200#32, 0x00000001#32]⟩ =
      some (.dmaXfer 0x80200000#32 0xBF800400#32 512#32 .outgoing) := by decide
theorem test_decode_waitNotBusy : reads ⟨.opd, [0x00000009#32]⟩ = some .waitNotBusy := by decide
theorem test_decode_canRead : reads ⟨.opd, [0x0000000A#32]⟩ = some .canRead := by decide
theorem test_decode_canWrite : reads ⟨.opd, [0x0000000B#32]⟩ = some .canWrite := by decide
theorem test_decode_dmaWaitIdle : reads ⟨.opd, [0x0000000C#32]⟩ = some .dmaWaitIdle := by decide
theorem test_decode_usbCmdRdNop : reads ⟨.cmd16, [0xC400#32]⟩ = some .usbCmdRdNop := by decide
theorem test_decode_usbCmdRd : reads ⟨.cmd16, [0xC7FB#32]⟩ = some (.usbCmdRd 507#9) := by decide
theorem test_decode_usbCmdWrNop : reads ⟨.cmd16, [0xC000#32]⟩ = some .usbCmdWrNop := by decide
theorem test_decode_usbCmdWr : reads ⟨.cmd16, [0xC3FF#32]⟩ = some (.usbCmdWr 511#9) := by decide
theorem test_decode_keyUnlock : reads ⟨.brgWr 0x8004, [0xFFFFAA55#32]⟩ = some (.keyUnlock 0xFFFF#16) := by decide
theorem test_decode_sysCfgClear : reads ⟨.brgWr 0x8000, [0x00010000#32]⟩ = some (.sysCfgClear 1#16) := by decide
theorem test_decode_saveOff : reads ⟨.brgWr 0x8018, [0x00000000#32]⟩ = some (.saveOff 0#16) := by decide
theorem test_decode_usbStatus : reads ⟨.brgRd 0x0004, []⟩ = some .usbStatus := by decide
theorem test_decode_dmaArm : reads ⟨.dmaWr 0x10, [0x00000003#32]⟩ = some .dmaArm := by decide
theorem test_decode_dmaSetRam : reads ⟨.dmaWr 0x00, [0x80200400#32]⟩ = some (.dmaSetRam 0x80200400#32) := by decide
theorem test_decode_dmaSetPeriph : reads ⟨.dmaWr 0x04, [0x1F8004EC#32]⟩ = some (.dmaSetPeriph 0x1F8004EC#29) := by decide
theorem test_decode_dmaStartIn : reads ⟨.dmaWr 0x08, [0x00000113#32]⟩ = some (.dmaStartIn 0x113#32) := by decide
theorem test_decode_dmaStartOut : reads ⟨.dmaWr 0x0C, [0x000001FF#32]⟩ = some (.dmaStartOut 0x1FF#32) := by decide
theorem test_decode_dmaStatus : reads ⟨.dmaRd 0x10, []⟩ = some .dmaStatus := by decide
theorem test_decode_dom1Set : reads ⟨.timWr 1, [0x0000000C#32]⟩ = some (.dom1Set 1) := by decide

/-! Refused words (95_test_vectors 3.7, C8 and the command table of 3.4; 30_encoding R115). -/

theorem test_reject_reserved : rejects ⟨.opd, [0x0000000D#32]⟩ = some .reservedOpcode := by decide
theorem test_reject_high_bits : rejects ⟨.opd, [0x00000012#32, 0x80200000#32, 0x10#32]⟩ = some .nonzeroHighBits := by decide
theorem test_reject_direction :
    rejects ⟨.opd, [0x8#32, 0x80200000#32, 0xBF800400#32, 0x10#32, 0x2#32]⟩ = some .badDirection := by decide
theorem test_reject_truncated : rejects ⟨.opd, [0x2#32, 0x80200000#32]⟩ = some .truncated := by decide
theorem test_reject_noop_offset : rejects ⟨.cmd16, [0xC401#32]⟩ = some .notACommandWord := by decide
theorem test_reject_strobe : rejects ⟨.cmd16, [0x8600#32]⟩ = some .notACommandWord := by decide
theorem test_reject_bit12 : rejects ⟨.cmd16, [0xD600#32]⟩ = some .notACommandWord := by decide

/-! The host's table words (log 10). -/

theorem test_table_read : decodeTableWord 32 2 = some (.read 0#32 0#32) := by decide
theorem test_table_command : decodeTableWord 16 0xC6EC = some (.usbCmdRd 236#9) := by decide
theorem test_table_offered :
    ((after (step (State.reset.withFetchWord 32 5))).map (·.trace)) =
      some [.busWrite 0xBF800000#32 0#32] := by decide

/-! ### One step of each instruction -/

theorem test_new : ((after (exec .new bench)).map (fun t => (t.seq.initialized, t.trace, t.client.responses))) =
    some (false, [], [⟨0#32, 0#32⟩]) := by decide

/-- 95_test_vectors I3, the first of its six transactions. -/
theorem test_init : ((after (exec .init State.reset)).map (fun t => (t.trace, t.seq.op, t.seq.phase))) =
    some ([.busWrite 0xA4600014#32 0x04#32], .init, .initTiming 1) := by decide

/-- 95_test_vectors T2; and with ACTIVE set, the buffer's address latched before the first wait ends (10_state R22). -/
theorem test_read_empty : ((after (exec (.read 0x80200000#32 0#32) bench)).map
    (fun t => (t.client.responses, t.seq.phase, t.trace.length))) = some ([⟨0#32, 0#32⟩], .idle, 1) ∧
    ((after (exec (.read 0x80200000#32 5#32) active)).map (fun t => (t.seq.buf, t.seq.remaining))) =
      some (0x80200000#32, 0#32) := by decide

/-- 95_test_vectors T1: "read + activate" with base offset 507 comes next. -/
theorem test_read_five : ((after (exec (.read 0x80200000#32 5#32) bench)).map
    (fun t => (t.seq.chunk, t.seq.baseOffset, t.seq.phase))) =
    some (5#10, 507#10, .wrReg 0x0004#32 0x0000C7FB#32) := by decide

/-- 95_test_vectors T4. -/
theorem test_write_empty : ((after (exec (.write 0x80200000#32 0#32) bench)).map
    (fun t => (t.client.responses, t.trace))) =
    some ([⟨0#32, 0#32⟩], [.busWrite 0xBF800004#32 0x0000C000#32]) := by decide

/-- The arming no-op, then the walk of 95_test_vectors B9. -/
theorem test_write_276 : ((after (exec (.write 0x80200404#32 276#32) bench)).map
    (fun t => (t.trace, t.seq.phase))) =
    some ([.busWrite 0xBF800004#32 0x0000C000#32], .line .wb 0x80200400#32 0x80200510#32) := by decide

/-- 95_test_vectors A1: one transaction, and SEQ is idle again. -/
theorem test_rdReg : ((after (exec (.rdReg 0x0004#32) bench)).map (fun t => (t.trace.length, t.seq.op, t.seq.args))) =
    some (1, .idle, [0x0004#32]) := by decide

/-- 95_test_vectors A4. -/
theorem test_wrReg_key : ((after (exec (.wrReg 0x8004#32 0xFFFFAA55#32) State.reset)).map
    (fun t => (t.brg.unlocked, t.trace))) = some (true, [.busWrite 0xBF808004#32 0xFFFFAA55#32]) := by decide

/-- 95_test_vectors A7. -/
theorem test_wrReg_ramCfg : ((after (exec (.wrReg 0x8018#32 0x00010003#32) bench)).map (·.brg.ramCfg)) = some 3#16 := by
  decide

/-- 95_test_vectors B20. -/
theorem test_cacheWb : ((after (exec (.cacheWb 0x80200400#32 1#32) dirtyLine)).map
    (fun t => (t.cache, t.mem.read 0x20040F, t.trace))) =
    some ([(0x20040, ⟨bytes16, false⟩)], 15#8, [.cacheOp .wb 0x80200400#32]) := by decide

/-- 95_test_vectors B4: two lines, the first done. -/
theorem test_cacheWb_two_lines : ((after (exec (.cacheWb 0x8020000F#32 2#32) bench)).map (fun t => t.seq.phase)) =
    some (.line .wb 0x80200010#32 0x80200010#32) := by decide

/-- 95_test_vectors B21. -/
theorem test_cacheWbinv : ((after (exec (.cacheWbinv 0x80200400#32 1#32) dirtyLine)).map
    (fun t => (t.cache, t.mem.read 0x20040F, t.client.responses))) = some ([], 15#8, [⟨0#32, 0#32⟩]) := by decide

/-- 95_test_vectors C4: idle at the first read, so the arm write is next, with the masked address. -/
theorem test_dmaXfer : ((after (exec (.dmaXfer 0x80200400#32 0xBF8004EC#32 276#32 .incoming) bench)).map (·.seq.phase)) =
    some (.dmaArm ⟨0x80200400#32, 0x1F8004EC#32, 276#32, .incoming⟩) := by decide

/-- 95_test_vectors C9: a busy engine, and nothing is written. -/
theorem test_dmaXfer_waits : ((after (exec (.dmaXfer 0x80200400#32 0xBF8004EC#32 276#32 .incoming) inFlight)).map
    (fun t => (t.seq.phase, t.dma))) = some (.dmaPoll, inFlight.dma) := by decide

/-- 95_test_vectors H1. -/
theorem test_waitNotBusy : ((after (exec .waitNotBusy bench)).map (fun t => (t.seq.poll, t.client.responses))) =
    some (1#14, [⟨0#32, 0#32⟩]) := by decide

/-- 95_test_vectors H2, its first read. -/
theorem test_waitNotBusy_active : ((after (exec .waitNotBusy active)).map
    (fun t => (t.seq.poll, t.seq.phase, t.client.responses))) = some (1#14, .rdReg 0x0004#32, []) := by decide

/-- 95_test_vectors 3.4, status composition: nothing to read. -/
theorem test_canRead_empty : ((after (exec .canRead bench)).map (·.client.responses)) = some [⟨0#32, 0#32⟩] := by decide

/-- The same table: bytes wait. -/
theorem test_canRead : ((after (exec .canRead { bench with brg := { bench.brg with rxFifo := [1#8] } })).map
    (·.client.responses)) = some [⟨0#32, 1#32⟩] := by decide

/-- The same table: room to write. -/
theorem test_canWrite : ((after (exec .canWrite bench)).map (·.client.responses)) = some [⟨0#32, 1#32⟩] := by decide

/-- The same table, unpowered. -/
theorem test_canWrite_unpowered : ((after (exec .canWrite { bench with host := State.reset.host })).map
    (·.client.responses)) = some [⟨0#32, 0#32⟩] := by decide

/-- 95_test_vectors C1. -/
theorem test_dmaWaitIdle : ((after (exec .dmaWaitIdle bench)).map (fun t => (t.client.responses, t.trace.length))) =
    some ([⟨0#32, 0#32⟩], 1) := by decide

/-- 95_test_vectors C2: busy at the first read. -/
theorem test_dmaWaitIdle_busy : ((after (exec .dmaWaitIdle inFlight)).map (fun t => (t.client.responses, t.seq.phase))) =
    some ([], .dmaPoll) := by decide

/-- The command table of 95_test_vectors 3.4. -/
theorem test_usbCmdRdNop : ((after (exec .usbCmdRdNop active)).map (fun t => (t.brg.active, t.brg.dir, t.brg.cmd))) =
    some (false, .rd, 0xC400#16) := by decide
theorem test_usbCmdRd : ((after (exec (.usbCmdRd 236#9) bench)).map (fun t => (t.brg.active, t.brg.dir, t.brg.ptr))) =
    some (true, .rd, 236) := by decide
theorem test_usbCmdWrNop : ((after (exec .usbCmdWrNop active)).map (fun t => (t.brg.active, t.brg.dir, t.brg.cmd))) =
    some (false, .wr, 0xC000#16) := by decide
theorem test_usbCmdWr : ((after (exec (.usbCmdWr 511#9) bench)).map (fun t => (t.brg.active, t.brg.dir, t.brg.ptr))) =
    some (true, .wr, 511) := by decide

theorem test_keyUnlock : ((after (exec (.keyUnlock 0#16) State.reset)).map (·.brg.unlocked)) = some true := by decide
theorem test_sysCfgClear : ((after (exec (.sysCfgClear 0#16) { bench with brg := { bench.brg with sysCfg := 7#16 } })).map
    (fun t => (t.brg.sysCfg, t.trace))) = some (0#16, [.busWrite 0xBF808000#32 0#32]) := by decide
theorem test_saveOff : ((after (exec (.saveOff 0#16) { bench with brg := { bench.brg with ramCfg := 7#16 } })).map
    (fun t => (t.brg.ramCfg, t.trace))) = some (0#16, [.busWrite 0xBF808018#32 0#32]) := by decide
theorem test_usbStatus : ((after (exec .usbStatus bench)).map (fun t => (t.trace.length, t.seq.args))) =
    some (1, [0x0004#32]) := by decide

/-- 95_test_vectors C4, its writes one by one. -/
theorem test_dmaArm : ((after (exec .dmaArm bench)).map (fun t => (t.dma, t.trace))) =
    some (bench.dma, [.busWrite 0xA4600010#32 0x3#32]) := by decide
theorem test_dmaSetRam : ((after (exec (.dmaSetRam 0x80200400#32) bench)).map (fun t => (t.dma.ramAddr, t.trace))) =
    some (0x80200400#32, [.busWrite 0xA4600000#32 0x80200400#32]) := by decide
theorem test_dmaSetPeriph : ((after (exec (.dmaSetPeriph 0x1F8004EC#29) bench)).map
    (fun t => (t.dma.peripheralAddr, t.trace))) =
    some (0x1F8004EC#32, [.busWrite 0xA4600004#32 0x1F8004EC#32]) := by decide
theorem test_dmaStartIn : ((after (exec (.dmaStartIn 0x113#32) bench)).map
    (fun t => (t.dma.busy, t.dma.job.dir, t.dma.job.count, t.dma.readLen))) =
    some (true, .incoming, 276#33, 0x113#32) := by decide
theorem test_dmaStartOut : ((after (exec (.dmaStartOut 0xFFFFFFFF#32) bench)).map
    (fun t => (t.dma.busy, t.dma.job.dir, t.dma.job.count, t.dma.writeLen))) =
    some (true, .outgoing, 0x100000000#33, 0xFFFFFFFF#32) := by decide
theorem test_dmaStatus : ((after (exec .dmaStatus bench)).map (fun t => (t.trace.length, t.client.responses, t.dma))) =
    some (1, [], bench.dma) := by decide

/-- 95_test_vectors I3, its second transaction. -/
theorem test_dom1Set : ((after (exec (.dom1Set 1) bench)).map (fun t => (t.dma.timing, t.trace))) =
    some ([(0x04600014, 0#32), (0x04600018, 0x0C#32)], [.busWrite 0xA4600018#32 0x0C#32]) := by decide

/-- 00_scope R6: the reference `UNCACHED(p)` is `0xA0000000 | p`, above the bus space too; another function, as a list. -/
theorem test_uncached : uncached Config.reference 0x1F800004#32 = 0xBF800004#32 ∧
    uncached Config.reference 0x5F800000#32 = 0xFF800000#32 ∧
    uncached { Config.reference with uncachedAt := [(0x04600000#32, 0x84600000#32)] } 0x04600000#32 = 0x84600000#32 := by
  decide

/-! ### Moves of the other agents -/

/-- 95_test_vectors C6: the last window byte goes to RAM. -/
theorem test_dmaMove : ((after (step { inFlight with
      sched := [.dmaMove 0], brg := { inFlight.brg with pkt := inFlight.brg.pkt.set 511 9#8 } })).map
    (fun t => (t.mem.read 0x200000, t.dma.job.done))) = some (9#8, [0]) := by
  set_option maxRecDepth 8000 in decide

/-- 95_test_vectors H20, its first read-progress step. -/
theorem test_bridge : ((after (step { active with
      sched := [.bridge], brg := { active.brg with ptr := 502, rxFifo := [7#8, 8#8] } })).map
    (fun t => (t.brg.pkt[502], t.brg.ptr, t.brg.rxFifo))) = some (7#8, 503, [8#8]) := by
  set_option maxRecDepth 8000 in decide

/-- A store goes to the cache and not to RAM (20_memory R73). -/
theorem test_cpuWrite : ((after (step { dirtyLine with sched := [.cpuWrite 0x80200401#32 0xEE#8] })).map
    (fun t => (cpuByte t 0x80200401#32, t.mem))) = some (0xEE#8, bench.mem) := by decide

/-- There is no byte at `RAM_SIZE` (log 19). -/
theorem test_cpuRead_outside : faultOf (step (given [.cpuRead 0x80400000#32])) = some .clientOutsideRam := by decide

/-! ### Witnesses: for each statement with hypotheses, a state and operands that meet them together

A statement with several clauses has each clause's hypotheses met, at a boundary of its range where it has one. -/

theorem bench_ready : bench.bridgeReady := ⟨by decide, by decide⟩
theorem active_ready : active.bridgeReady := ⟨by decide, by decide⟩

theorem witness_DecodeReadsEncodedInstruction :
    (Instr.read 0xFFFFFFF0#32 16#32).wellFormed Config.reference = true ∧
    (Instr.dmaXfer 0#32 0#32 1#32 .outgoing).wellFormed Config.reference = true ∧
    (Instr.dom1Set 1).wellFormed Config.reference = true := by decide

theorem witness_DecodedWordsAreEncoded :
    decode Config.reference ⟨.opd, [0x4#32, 0xFFFFFFFF#32, 0x1#32]⟩ = .ok (.rdReg 0xFFFFFFFF#32) := rfl

theorem witness_DescriptorLengthFollowsOpcode :
    (encode Config.reference .new).fmt = .opd ∧ 0 < (encode Config.reference .new).words.length ∧
    (encode Config.reference (.rdReg 0#32)).fmt = .opd ∧ (encode Config.reference (.write 0#32 0#32)).fmt = .opd ∧
    (encode Config.reference (.dmaXfer 0#32 0#32 1#32 .outgoing)).fmt = .opd ∧
    4 < (encode Config.reference (.dmaXfer 0#32 0#32 1#32 .outgoing)).words.length := by decide

theorem witness_ReservedDescriptorsRefused :
    (given [.offer ⟨.opd, 16#32 :: []⟩]).sched = .offer ⟨.opd, 16#32 :: []⟩ :: [] ∧ 16 ≤ (16#32).toNat ∧
    (given [.offer ⟨.opd, 0xD#32 :: []⟩]).sched = .offer ⟨.opd, 0xD#32 :: []⟩ :: [] ∧
    (given [.offer ⟨.opd, 0xF#32 :: []⟩]).sched = .offer ⟨.opd, 0xF#32 :: []⟩ :: [] ∧
    (given [.offer ⟨.opd, 0x8#32 :: [0#32, 0#32, 1#32, 2#32]⟩]).sched =
      .offer ⟨.opd, 0x8#32 :: [0#32, 0#32, 1#32, 2#32]⟩ :: [] ∧
    (2#32 : Word) ≠ 0#32 ∧ (2#32 : Word) ≠ 1#32 := by decide

theorem witness_StepRunsOfferedInstruction :
    (given [.offer ⟨.opd, [0xA#32]⟩]).sched = .offer ⟨.opd, [0xA#32]⟩ :: [] ∧
    decode bench.cfg ⟨.opd, [0xA#32]⟩ = .ok .canRead ∧
    ({ bench with tail := .cycle (.offer ⟨.opd, [0xA#32]⟩) [.seq] } : State).sched = [] ∧
    ({ bench with tail := .cycle (.offer ⟨.opd, [0xA#32]⟩) [.seq] } : State).tail =
      .cycle (placing ⟨.opd, [0xA#32]⟩) [.seq] ∧
    placing ⟨.opd, [0xA#32]⟩ = .offer ⟨.opd, [0xA#32]⟩ ∧
    placing ⟨.dmaWr 0x00, [5#32]⟩ = .bare ⟨.dmaWr 0x00, [5#32]⟩ := ⟨rfl, rfl, rfl, rfl, rfl, rfl⟩

/-- 70_reset_and_hazards R319: CLIENT has no operation that writes one DMA register; the row's own move runs it. -/
theorem test_dma_register_placer :
    refusal (step (given [.offer ⟨.dmaWr 0x00, [5#32]⟩])) = some .wrongPlacer ∧
    refusal (step (given [.bare ⟨.opd, [0#32]⟩])) = some .wrongPlacer ∧
    (after (step (given [.bare ⟨.dmaWr 0x00, [5#32]⟩]))).map (·.dma.ramAddr) = some 5#32 := by decide

theorem witness_BusyBlockRefusesEveryRequest : occupied.seq.op ≠ .idle := by decide

theorem witness_ExecRefusesOnlyAsListed :
    refusal (exec .new occupied) = some .busy ∧
    refusal (exec (.read 0x80200000#32 0x10#32) State.reset) = some .notInitialised ∧
    refusal (exec (.write 0xFFFFFFF0#32 0x20#32) bench) = some .rangeCrosses ∧
    refusal (exec (.dmaXfer 0x80200000#32 0xBF800400#32 0#32 .incoming) bench) = some .zeroLength ∧
    refusal (exec (.dom1Set 2) bench) = some .noTimingRegister := by decide

theorem witness_TransferBeforeInitRefused : State.reset.seq.op = .idle ∧ State.reset.seq.initialized = false := by decide

theorem witness_BadOperandsRefused :
    bench.seq.op = .idle ∧ 0x100000000 < (0xFFFFFFFF#32 : Word).toNat + (2#32 : Word).toNat ∧
    bench.seq.initialized = true := by decide

theorem witness_ReadRegisterIsOneRead : bench.seq.op = .idle := by decide

theorem witness_StatusWordReadsBridge : bench.seq.op = .idle ∧ bench.bridgeReady := ⟨by decide, bench_ready⟩

theorem witness_WriteRegisterIsOneWrite :
    State.reset.cfg.legal = true ∧ State.reset.seq.op = .idle ∧
    (0x0400 ≤ (0x05FF#32 : Word).toNat ∧ (0x05FF#32 : Word).toNat ≤ 0x05FF) ∧ (0x0004#32 : Word).toNat = 0x0004 := by decide

theorem witness_KeyWriteUnlocks :
    State.reset.cfg.legal = true ∧ State.reset.seq.op = .idle ∧ Word.low16 0xFFFFAA55#32 = 0xAA55#16 := by decide

theorem witness_ConfigurationRegistersStore : bench.bridgeReady ∧ bench.seq.op = .idle := ⟨bench_ready, by decide⟩

theorem witness_ActivateCommandStartsPacket :
    bench.bridgeReady ∧ bench.seq.op = .idle ∧ bench.brg.active = false ∧
    Word.low16 0xFFFFC7FF#32 = 0xC600#16 ||| (511#9 : BitVec 9).setWidth 16 ∧
    Word.low16 0x0001C3FF#32 = 0xC200#16 ||| (511#9 : BitVec 9).setWidth 16 :=
  ⟨bench_ready, by decide, by decide, by decide, by decide⟩

theorem witness_NoOpCommandIdlesBridge :
    active.bridgeReady ∧ active.seq.op = .idle ∧ Word.low16 0xFFFFC400#32 = 0xC400#16 ∧
    Word.low16 0x0001C000#32 = 0xC000#16 := ⟨active_ready, by decide, by decide, by decide⟩

theorem witness_UndefinedCommandStaysInBridge :
    active.bridgeReady ∧ active.seq.op = .idle ∧
    (0x4600#32 : Word).getLsbD 15 = false ∧ (0x8600#32 : Word).getLsbD 14 = false ∧
    (0xC800#32 : Word).extractLsb' 11 3 ≠ 0#3 ∧
    ((0xC401#32 : Word).getLsbD 9 = false ∧ (0xC401#32 : Word).extractLsb' 0 9 ≠ 0#9) ∧
    ((0xC600#32 : Word).getLsbD 9 = true ∧ active.brg.active = true) := ⟨active_ready, by decide⟩

theorem witness_CanReadTestsStatus : bench.seq.op = .idle ∧ bench.bridgeReady := ⟨by decide, bench_ready⟩
theorem witness_CanWriteTestsStatus : bench.seq.op = .idle ∧ bench.bridgeReady := ⟨by decide, bench_ready⟩
theorem witness_WaitNotBusyFirstPoll : active.seq.op = .idle ∧ active.bridgeReady := ⟨by decide, active_ready⟩

/-- Before a further read of a wait with these callers, with `n` made, ACTIVE set or clear. -/
def polling (base : State) (op : Op) (k : List Frame) (n : BitVec 14) : State :=
  { base with
    sched := [.seq]
    seq := { base.seq with
      op := op, args := [0#32, 1#32], phase := .rdReg 0x0004#32, stack := .waitRead :: k, poll := n
      chunk := 1#10, remaining := 1#32 } }

theorem polling_meets (base : State) (op : Op) (k : List Frame) (n : BitVec 14) :
    (polling base op k n).sched = .seq :: [] ∧ (polling base op k n).seq.phase = .rdReg 0x0004#32 ∧
    (polling base op k n).seq.stack = .waitRead :: k := ⟨rfl, rfl, rfl⟩

/-- Callers of each kind, at the first and the last poll, with ACTIVE set (`active`) and clear (`bench`). -/
theorem witness_WaitNotBusyPollStep :
    ((polling active .waitNotBusy [] 0#14).seq.poll.toNat + 1 < 8192 ∧
      (polling active .read [.readWait] 8191#14).seq.poll.toNat + 1 = 8192 ∧
      (polling active .read [.readWait] 8191#14).brg.active = true) ∧
    ((polling bench .read [.readFirstWait 0#32 0#32] 0#14).seq.stack = .waitRead :: [.readFirstWait 0#32 0#32] ∧
      (polling bench .read [.readFirstWait 0#32 1#32] 0#14).seq.stack = .waitRead :: [.readFirstWait 0#32 1#32] ∧
      (polling bench .write [.writeWait] 0#14).seq.remaining -
        (polling bench .write [.writeWait] 0#14).seq.chunk.setWidth 32 = 0#32 ∧
      (polling bench .write [.writeWait] 0#14).brg.active = false) ∧
    (polling active .read [.readWait] 8191#14).bridgeReady ∧ (polling bench .write [.writeWait] 0#14).bridgeReady :=
  ⟨by decide, by decide, active_ready, bench_ready⟩

/-- 43_handshake R197 in a packet's wait: ACTIVE set, the wait polls again below the limit and recovers at it. -/
theorem test_packet_wait_polls :
    (after (step (polling active .write [.writeWait] 7#14))).map (fun t => (t.seq.phase, t.seq.stack, t.seq.poll)) =
      some (.rdReg 0x0004#32, [.waitRead, .writeWait], 8#14) ∧
    (after (step (polling active .write [.writeWait] 8191#14))).map (fun t => (t.seq.phase, t.seq.stack)) =
      some (.wrReg 0x0004#32 0x0000C400#32, [.waitRecovery, .writeWait]) := by decide

theorem witness_WaitNotBusyTimesOut : ∃ s : State, s.bridgeReady ∧ s.seq.op = .idle ∧ s.brg.active = true ∧
    s.sched = .offer ⟨.opd, [0x9#32]⟩ :: (List.replicate 8192 Event.seq ++ []) :=
  ⟨{ active with sched := .offer ⟨.opd, [0x9#32]⟩ :: (List.replicate 8192 Event.seq ++ []) },
    active_ready, rfl, rfl, rfl⟩

/-- Before the recovery write of a wait with these callers. -/
def recovering (op : Op) (k : List Frame) : State :=
  { active with
    sched := [.seq]
    seq := { active.seq with
      op := op, args := [0#32, 0#32], phase := .wrReg 0x0004#32 0x0000C400#32, stack := .waitRecovery :: k, poll := 8192#14 } }

theorem recovering_meets (op : Op) (k : List Frame) :
    (recovering op k).bridgeReady ∧ (recovering op k).sched = .seq :: [] ∧
    (recovering op k).seq.phase = .wrReg 0x0004#32 0x0000C400#32 ∧ (recovering op k).seq.stack = .waitRecovery :: k :=
  ⟨active_ready, rfl, rfl, rfl⟩

theorem witness_TimeoutEndsOperation :
    (recovering .waitNotBusy []).seq.stack = .waitRecovery :: [] ∧
    (recovering .read [.readFirstWait 0#32 1#32]).seq.stack = .waitRecovery :: [.readFirstWait 0#32 1#32] ∧
    (recovering .read [.readWait]).seq.stack = .waitRecovery :: [.readWait] ∧
    (recovering .write [.writeWait]).seq.stack = .waitRecovery :: [.writeWait] ∧
    (recovering .write [.writeWait]).bridgeReady ∧ (recovering .write [.writeWait]).sched = .seq :: [] ∧
    (recovering .write [.writeWait]).seq.phase = .wrReg 0x0004#32 0x0000C400#32 :=
  ⟨rfl, rfl, rfl, rfl, active_ready, rfl, rfl⟩

/-- INIT before SEQ's next move, at a phase of its drain. -/
def draining (p : Phase) (k : List Frame) : State :=
  { bench with
    sched := [.seq]
    seq := { bench.seq with
      initialized := false, op := .init, phase := p, stack := k, chunk := 512#10, remaining := 512#32 } }

/-- INIT at its drain's check, with two passes' bytes waiting. -/
def feeding : State :=
  { draining (.rdReg 0x0004#32) [.canRead, .initCheck] with
    sched := [], brg := { bench.brg with rxFifo := List.replicate (512 * 2) 7#8 } }

theorem witness_DrainTimeoutIsDropped_passes :
    feeding.bridgeReady ∧ feeding.cfg.alignsAll ∧ feeding.dataOk = true ∧ feeding.cfg.rxfActiveLow = true ∧
    feeding.host.powered = true ∧ feeding.dma.busy = false ∧ feeding.brg.active = false ∧
    feeding.seq.phase = .rdReg 0x0004#32 ∧ feeding.seq.stack = [.canRead, .initCheck] ∧ feeding.sched = [] ∧
    feeding.tail = .default ∧ 512 * 2 ≤ feeding.brg.rxFifo.length :=
  ⟨bench_ready, ⟨rfl, rfl, rfl⟩, rfl, rfl, rfl, rfl, rfl, rfl, rfl, rfl, rfl,
    (List.length_replicate (n := 512 * 2) (a := (7#8 : Byte))).ge⟩

/-- 43_handshake R204: the recovery write of WAIT_NOT_BUSY, outside any packet, leaves the window. -/
theorem test_recovery_keeps_window :
    (after (step (recovering .waitNotBusy []))).map (fun t => (t.brg.active, t.brg.pkt)) =
      some (false, active.brg.pkt) := rfl

theorem witness_DrainTimeoutIsDropped_branches :
    ((draining (.rdReg 0x0004#32) [.canRead, .initCheck]).bridgeReady ∧
      (draining (.rdReg 0x0004#32) [.canRead, .initCheck]).sched = .seq :: [] ∧
      (draining (.rdReg 0x0004#32) [.canRead, .initCheck]).seq.phase = .rdReg 0x0004#32 ∧
      (draining (.rdReg 0x0004#32) [.canRead, .initCheck]).seq.stack = [.canRead, .initCheck]) ∧
    ((draining .dmaPoll [.dmaLastWait, .readDma, .initDrain]).bridgeReady ∧
      (draining .dmaPoll [.dmaLastWait, .readDma, .initDrain]).sched = .seq :: [] ∧
      (draining .dmaPoll [.dmaLastWait, .readDma, .initDrain]).seq.phase = .dmaPoll ∧
      (draining .dmaPoll [.dmaLastWait, .readDma, .initDrain]).seq.stack = [.dmaLastWait, .readDma, .initDrain] ∧
      (draining .dmaPoll [.dmaLastWait, .readDma, .initDrain]).dma.busy = false ∧
      (draining .dmaPoll [.dmaLastWait, .readDma, .initDrain]).seq.remaining =
        (draining .dmaPoll [.dmaLastWait, .readDma, .initDrain]).seq.chunk.setWidth 32) :=
  ⟨⟨bench_ready, rfl, rfl, rfl⟩, bench_ready, rfl, rfl, rfl, rfl, rfl⟩

theorem witness_DrainTimeoutIsDropped :
    (recovering .init [.readFirstWait 0x803FFE00#32 512#32, .initDrain]).seq.stack =
      .waitRecovery :: [.readFirstWait 0x803FFE00#32 512#32, .initDrain] ∧
    (recovering .init [.readWait, .initDrain]).seq.stack = .waitRecovery :: [.readWait, .initDrain] ∧
    (recovering .init [.readWait, .initDrain]).bridgeReady ∧ (recovering .init [.readWait, .initDrain]).sched = .seq :: [] ∧
    (recovering .init [.readWait, .initDrain]).seq.phase = .wrReg 0x0004#32 0x0000C400#32 :=
  ⟨rfl, rfl, active_ready, rfl, rfl⟩

/-- An active bridge about to step. -/
def stepping (d : BrgDir) (p : Fin 513) (rx tx : List Byte) (depth : Option Nat) : State :=
  { active with
    cfg := { active.cfg with txDepth := depth }, sched := [.bridge]
    brg := { active.brg with dir := d, ptr := p, rxFifo := rx, txFifo := tx } }

theorem witness_BridgeStepMovesOneByte :
    (∀ d p rx tx depth, (stepping d p rx tx depth).sched = .bridge :: [] ∧ (stepping d p rx tx depth).brg.active = true) ∧
    ((stepping .rd 511 [1#8] [] none).brg.ptr.val < 512 ∧ (stepping .rd 511 [1#8] [] none).brg.rxFifo = 1#8 :: []) ∧
    ((stepping .rd 0 [] [] none).brg.ptr.val < 512 ∧ (stepping .rd 0 [] [] none).brg.rxFifo = []) ∧
    ((stepping .wr 511 [] [2#8] (some 2)).brg.ptr.val < 512 ∧
      ∀ d, (stepping .wr 511 [] [2#8] (some 2)).cfg.txDepth = some d →
        (stepping .wr 511 [] [2#8] (some 2)).brg.txFifo.length < d) ∧
    ((stepping .wr 0 [] [2#8] (some 1)).brg.ptr.val < 512 ∧ (stepping .wr 0 [] [2#8] (some 1)).cfg.txDepth = some 1 ∧
      1 ≤ (stepping .wr 0 [] [2#8] (some 1)).brg.txFifo.length) ∧
    (stepping .wr 512 [] [] none).brg.ptr.val = 512 :=
  ⟨fun _ _ _ _ _ => ⟨rfl, rfl⟩, by decide, by decide, ⟨by decide, fun d h => by cases h; decide⟩, by decide, by decide⟩

/-- An active read command at `off`, with `n` bytes waiting and the bridge's steps scheduled. -/
def filling (p : Fin 513) (n : Nat) : State :=
  { active with
    sched := List.replicate (512 - p.val + 1) Event.bridge ++ []
    brg := { active.brg with dir := .rd, ptr := p, rxFifo := List.replicate n 5#8 } }

theorem witness_BridgeFillsWindow :
    (511 < 512 ∧ (filling 511 1).brg.active = true ∧ (filling 511 1).brg.dir = .rd ∧ (filling 511 1).brg.ptr.val = 511 ∧
      512 - 511 ≤ (filling 511 1).brg.rxFifo.length ∧
      (filling 511 1).sched = List.replicate (512 - 511 + 1) Event.bridge ++ []) ∧
    (0 < 512 ∧ (filling 0 512).brg.ptr.val = 0 ∧ 512 - 0 ≤ (filling 0 512).brg.rxFifo.length) :=
  ⟨⟨by decide, rfl, rfl, rfl, by decide, rfl⟩, by decide, rfl,
    (List.length_replicate (n := 512) (a := (5#8 : Byte))).ge⟩

/-- A bridge with one byte in the receive FIFO, of depth 2, and one in the transmit FIFO. -/
def hosted (e : Event) : State :=
  { bench with
    cfg := { bench.cfg with rxDepth := some 2 }, sched := [e], brg := { bench.brg with rxFifo := [1#8], txFifo := [2#8] } }

theorem witness_HostStepsMoveBytes :
    (hosted (.hostSend 3#8)).sched = .hostSend 3#8 :: [] ∧
    (∀ d, (hosted (.hostSend 3#8)).cfg.rxDepth = some d → (hosted (.hostSend 3#8)).brg.rxFifo.length < d) ∧
    (hosted .hostTake).sched = .hostTake :: [] ∧ (hosted .hostTake).brg.txFifo = 2#8 :: [] ∧
    (hosted (.hostPower false)).sched = .hostPower false :: [] ∧
    (hosted .hostLoopback).sched = .hostLoopback :: [] ∧ (hosted .hostLoopback).brg.txFifo = 2#8 :: [] ∧
    (∀ d, (hosted .hostLoopback).cfg.rxDepth = some d → (hosted .hostLoopback).brg.rxFifo.length < d) :=
  ⟨rfl, fun d h => by cases h; decide, rfl, rfl, rfl, rfl, rfl, fun d h => by cases h; decide⟩

theorem witness_PeripheralMaskLaws :
    Config.reference.legal = true ∧ (0x1FFFFFFF#32 : Word).toNat < 0x20000000 ∧ (0x801B#32 : Word).toNat ≤ 0x801B := by decide

/-- Before a `status` read for these callers; the engine of `base` is busy or idle. -/
def statusPolling (base : State) (op : Op) (k : List Frame) : State :=
  { base with
    sched := [.seq]
    seq := { base.seq with
      op := op, args := [0#32, 513#32], phase := .dmaPoll, stack := k, chunk := 512#10, remaining := 513#32 } }

theorem statusPolling_meets (base : State) (op : Op) (k : List Frame) :
    (statusPolling base op k).sched = .seq :: [] ∧ (statusPolling base op k).seq.phase = .dmaPoll ∧
    (statusPolling base op k).seq.stack = k := ⟨rfl, rfl, rfl⟩

/-- 95_test_vectors C3: DMA_WAIT_IDLE in progress, the engine busy and never scheduled. -/
def stuck : State :=
  { inFlight with
    tail := .cycle .seq [], seq := { inFlight.seq with op := .dmaWaitIdle, phase := .dmaPoll } }

theorem test_stuck : (after (runSteps 3 stuck)).map (fun t => (t.seq.op, t.dma.busy, t.trace.length, t.sched)) =
    some (.dmaWaitIdle, true, 3, []) := by decide

/-- A repeating tail makes its moves in order, over and over. -/
theorem test_cycle : (after (runSteps 5 { bench with tail := .cycle (.hostSend 1#8) [.hostSend 2#8] })).map
    (·.brg.rxFifo) = some [1#8, 2#8, 1#8, 2#8, 1#8] := by decide

theorem witness_DmaWaitIdlePolls_stuck :
    stuck.cfg.legal = true ∧ stuck.sched = [] ∧ stuck.tail = .cycle .seq [] ∧ stuck.seq.phase = .dmaPoll ∧
    stuck.dma.busy = true := by decide

theorem witness_DmaWaitIdlePolls :
    bench.cfg.legal = true ∧ bench.seq.op = .idle ∧
    (statusPolling inFlight .write [.dmaLastWait, .writeDma]).dma.busy = true ∧
    (statusPolling bench .dmaXfer [.dmaLastWait]).dma.busy = false ∧
    (statusPolling bench .write [.dmaLastWait, .writeDma]).dma.busy = false ∧
    (statusPolling bench .read [.dmaLastWait, .readDma]).seq.remaining -
      (statusPolling bench .read [.dmaLastWait, .readDma]).seq.chunk.setWidth 32 = 1#32 ∧
    (draining .dmaPoll [.dmaLastWait, .readDma]).seq.remaining -
      (draining .dmaPoll [.dmaLastWait, .readDma]).seq.chunk.setWidth 32 = 0#32 := by decide

/-- CLIENT offers a pseudo-operation of the DMA block; and DMA_XFER stands at its last programming write. -/
theorem witness_DmaTransferWaitsForIdle_placer :
    (given [.offer ⟨.dmaRd 0x10, []⟩]).sched = .offer ⟨.dmaRd 0x10, []⟩ :: [] ∧
    (∃ k, (⟨.dmaRd 0x10, []⟩ : Request).fmt = .dmaWr k ∨ (⟨.dmaRd 0x10, []⟩ : Request).fmt = .dmaRd k ∨
      (⟨.dmaRd 0x10, []⟩ : Request).fmt = .timWr k) := ⟨rfl, 0x10, .inr (.inl rfl)⟩

theorem witness_DmaTransferWaitsForIdle_programs :
    ({ bench with
      sched := [.seq]
      seq := { bench.seq with
        op := .dmaXfer, args := [0#32, 0#32, 1#32, 0#32], phase := .dmaArm ⟨0#32, 0#32, 1#32, .incoming⟩ } } :
      State).seqOk = true ∧
    (after (step { bench with
      sched := [.seq]
      seq := { bench.seq with
        op := .dmaXfer, args := [0#32, 0#32, 1#32, 0#32], phase := .dmaArm ⟨0#32, 0#32, 1#32, .incoming⟩ } })).map
      (fun t => (t.seq.phase.programs, t.dma.busy)) = some (true, false) := by decide

theorem witness_DmaTransferWaitsForIdle :
    inFlight.cfg.legal = true ∧ inFlight.seq.op = .idle ∧ (1#32 : Word) ≠ 0#32 ∧
    (statusPolling inFlight .dmaXfer [.dmaFirstWait ⟨0#32, 0#32, 1#32, .incoming⟩]).dma.busy = true ∧
    (statusPolling bench .write [.dmaFirstWait ⟨0#32, 0#32, 1#32, .outgoing⟩, .writeDma]).dma.busy = false := by decide

/-- 42_dma R172: a second wait does not go on while the engine is busy, in a DMA_XFER nor in READ. -/
theorem test_second_wait_holds :
    (after (step (statusPolling inFlight .dmaXfer [.dmaLastWait]))).map (fun t => (t.seq.op, t.seq.phase, t.seq.stack)) =
      some (.dmaXfer, .dmaPoll, [.dmaLastWait]) ∧
    (after (step (statusPolling inFlight .read [.dmaLastWait, .readDma]))).map (fun t => (t.seq.phase, t.seq.cursor)) =
      some (.dmaPoll, 0#32) := by decide

theorem witness_DmaTransferProgramsEngine : ∃ s : State, s.cfg.legal = true ∧ s.seq.op = .idle ∧ (276#32 : Word) ≠ 0#32 ∧
    s.dma.busy = false ∧
    s.sched = .offer ⟨.opd, [0x8#32, 0x80200400#32, 0xBF8004EC#32, 276#32, encodeDir .incoming]⟩ ::
      .seq :: .seq :: .seq :: .seq :: [] :=
  ⟨given (.offer ⟨.opd, [0x8#32, 0x80200400#32, 0xBF8004EC#32, 276#32, encodeDir .incoming]⟩ ::
    .seq :: .seq :: .seq :: .seq :: []), by decide, rfl, by decide, rfl, rfl⟩

/-- `bench` offered a one-byte DMA_XFER between the last byte of RAM and the last byte of the window. -/
def lastByte (dir : Dir) : State := given [.offer ⟨.opd, [0x8#32, 0x803FFFFF#32, 0xBF8005FF#32, 1#32, encodeDir dir]⟩]

theorem witness_DmaTransferMovesBlock (dir : Dir) :
    (lastByte dir).cfg.legal = true ∧ (lastByte dir).cfg.alignsAll ∧ (lastByte dir).seq.op = .idle ∧
    (1#32 : Word) ≠ 0#32 ∧ (lastByte dir).dma.busy = false ∧ (lastByte dir).brg.active = false ∧
    (0xBF8005FF#32 &&& 0x1FFFFFFF#32).toNat = (lastByte dir).cfg.bridgeBase.toNat + 0x0400 + 511 ∧
    511 + (1#32 : Word).toNat ≤ 512 ∧ ramPhys 0x803FFFFF#32 + (1#32 : Word).toNat ≤ (lastByte dir).cfg.ramSize ∧
    (lastByte dir).sched = [.offer ⟨.opd, [0x8#32, 0x803FFFFF#32, 0xBF8005FF#32, 1#32, encodeDir dir]⟩] ∧
    (lastByte dir).tail = .default :=
  ⟨(by decide : Config.reference.legal = true), ⟨rfl, rfl, rfl⟩, rfl, by decide, rfl, rfl,
    (by decide : _ = Config.reference.bridgeBase.toNat + 0x0400 + 511), by decide,
    (by decide : _ ≤ Config.reference.ramSize), rfl, rfl⟩

theorem witness_DmaAddressRegistersStore : bench.cfg.legal = true ∧ bench.seq.op = .idle ∧ bench.dma.busy = false := by decide
theorem witness_LengthWriteStartsJob : bench.cfg.legal = true ∧ bench.seq.op = .idle ∧ bench.dma.busy = false := by decide
theorem witness_DmaStatusReportsIdle : inFlight.cfg.legal = true ∧ inFlight.seq.op = .idle := by decide

/-- The engine about to move the one byte of its job. -/
def moving (dir : Dir) : State :=
  { inFlight with
    sched := [.dmaMove 0], dma := { inFlight.dma with job := { inFlight.dma.job with dir := dir, ram := 0x803FFFFF#32 } } }

theorem witness_BusyEngineDisturbanceIsBounded :
    inFlight.cfg.legal = true ∧ inFlight.seq.op = .idle ∧ inFlight.dma.busy = true ∧ inFlight.dma.job.dir = .incoming ∧
    ramPhys inFlight.dma.job.ram + inFlight.dma.job.count.toNat ≤ inFlight.cfg.ramSize ∧
    (moving .outgoing).cfg.legal = true ∧ (moving .outgoing).seq.op = .idle ∧ (moving .outgoing).dma.busy = true ∧
    (moving .outgoing).dma.job.dir = .outgoing ∧
    windowIndex (moving .outgoing).cfg (moving .outgoing).dma.job.periph = some 511 ∧
    511 + (moving .outgoing).dma.job.count.toNat ≤ 512 ∧
    ((7#29 : BitVec 29).setWidth 32 : Word) = 7#32 := by decide

theorem witness_TimingWriteStores :
    bench.cfg.legal = true ∧ bench.seq.op = .idle ∧ bench.cfg.dom1Timing[1]? = some (0x04600018#32, 0x0C#32) ∧
    bench.cfg.dom1Timing.length ≤ 2 := by decide

theorem witness_EngineMovesAnyByte (dir : Dir) :
    (moving dir).sched = .dmaMove 0 :: [] ∧ (moving dir).cfg.alignsAll ∧ (moving dir).dma.busy = true ∧
    0 < (moving dir).dma.job.count.toNat ∧ 0 ∉ (moving dir).dma.job.done ∧ (moving dir).brg.active = false ∧
    ((moving dir).dma.job.periph + BitVec.ofNat 32 0).toNat = (moving dir).cfg.bridgeBase.toNat + 0x0400 + 511 ∧
    ramPhys (moving dir).dma.job.ram + 0 < (moving dir).cfg.ramSize ∧ (moving dir).dma.job.dir = dir :=
  ⟨rfl, ⟨rfl, rfl, rfl⟩, rfl, by cases dir <;> decide, by cases dir <;> decide, rfl, by cases dir <;> decide,
    by cases dir <;> decide, rfl⟩

/-- The engine about to complete, with these indices done. -/
def completing (done : List Nat) : State :=
  { inFlight with
    sched := [.dmaComplete], dma := { inFlight.dma with job := { inFlight.dma.job with done := done } } }

theorem witness_EngineCompletesWhenAllMoved :
    ((completing [0]).sched = .dmaComplete :: [] ∧ (completing [0]).dma.busy = true ∧ (completing [0]).dma.job.fits = true ∧
      ∀ i, i < (completing [0]).dma.job.count.toNat → i ∈ (completing [0]).dma.job.done) ∧
    ((completing []).dma.job.fits = true ∧
      ∃ i, i < (completing []).dma.job.count.toNat ∧ i ∉ (completing []).dma.job.done) := by
  refine ⟨⟨rfl, rfl, by decide, fun i h => ?_⟩, by decide, 0, by decide, by decide⟩
  have h : i < 1 := h
  have : i = 0 := by omega
  subst this
  decide

/-- `dirtyLine` before a cache operation on the line of `a`. -/
def caching (kind : CacheKind) (a : Word) : State :=
  { dirtyLine with sched := [.seq], seq := { dirtyLine.seq with op := .cacheWb, phase := .line kind a a } }

theorem witness_CacheOperationActsOnOneLine :
    ((caching .wb 0x80200400#32).cfg.legal = true ∧ (caching .wb 0x80200400#32).dataOk = true ∧
      (caching .wb 0x80200400#32).sched = .seq :: [] ∧
      (caching .wb 0x80200400#32).seq.phase = .line .wb 0x80200400#32 0x80200400#32 ∧
      ramPhys 0x80200400#32 < (caching .wb 0x80200400#32).cfg.ramSize ∧
      keyGet (lineIndex (caching .wb 0x80200400#32).cfg 0x80200400#32) (caching .wb 0x80200400#32).cache =
        some ⟨bytes16, true⟩) ∧
    (ramPhys 0x803FFFF0#32 < (caching .wbinv 0x803FFFF0#32).cfg.ramSize ∧
      keyGet (lineIndex (caching .wbinv 0x803FFFF0#32).cfg 0x803FFFF0#32) (caching .wbinv 0x803FFFF0#32).cache = none) := by
  decide

theorem dirtyLine_notStale (l : Nat) : dirtyLine.notStale l := by
  intro ln hk hd
  simp only [dirtyLine, keyGet] at hk
  split at hk <;> cases hk
  cases hd

theorem witness_CacheMaintenanceKeepsClientView :
    ((caching .wbinv 0x80200400#32).cfg.legal = true ∧ (caching .wbinv 0x80200400#32).dataOk = true ∧
      (∃ t, step (caching .wbinv 0x80200400#32) = .next t) ∧ (caching .wbinv 0x80200400#32).sched = .seq :: [] ∧
      (caching .wbinv 0x80200400#32).notStale (lineIndex (caching .wbinv 0x80200400#32).cfg 0x80200400#32)) ∧
    ((∃ t, step { dirtyLine with sched := [.evict 0x20040] } = .next t) ∧ dirtyLine.notStale 0x20040) :=
  ⟨⟨by decide, by decide, ⟨_, rfl⟩, rfl, dirtyLine_notStale _⟩, ⟨_, rfl⟩, dirtyLine_notStale _⟩

theorem witness_CacheWalkBegins :
    bench.seq.op = .idle ∧ (0xFFFFFFF0#32 : Word).toNat + (16#32 : Word).toNat ≤ 0x100000000 ∧
    (0xFFFFFFFF#32 : Word).toNat + (0#32 : Word).toNat ≤ 0x100000000 := by decide

/-- `dirtyLine` offered the walk of 95_test_vectors B9. -/
def walking (kind : CacheKind) : State :=
  { dirtyLine with
    sched := .offer ⟨.opd, [match kind with | .wb => 0x6#32 | .wbinv => 0x7#32, 0x80200404#32, 276#32]⟩ ::
      (List.replicate 17 Event.seq ++ []) }

theorem witness_CacheWalkCoversRange (kind : CacheKind) :
    (walking kind).cfg.legal = true ∧ (walking kind).dataOk = true ∧ (walking kind).seq.op = .idle ∧
    (276#32 : Word) ≠ 0#32 ∧ (0x80200404#32 : Word).toNat + (276#32 : Word).toNat ≤ 0x100000000 ∧
    ramPhys 0x80200404#32 + (276#32 : Word).toNat ≤ (walking kind).cfg.ramSize ∧
    17 = ((0x80200404#32 : Word).toNat + (276#32 : Word).toNat - 1) / (walking kind).cfg.lineSize -
      (0x80200404#32 : Word).toNat / (walking kind).cfg.lineSize ∧
    (walking kind).notStale 0x20040 :=
  ⟨by cases kind <;> decide, by cases kind <;> decide, rfl, by decide, by decide, by cases kind <;> decide,
    by cases kind <;> decide, dirtyLine_notStale _⟩

theorem witness_ClientAccessGoesThroughCache :
    dirtyLine.cfg.legal = true ∧ dirtyLine.dataOk = true ∧ ramPhys 0x803FFFFF#32 < dirtyLine.cfg.ramSize ∧
    keyGet (lineIndex dirtyLine.cfg 0x803FFFFF#32) dirtyLine.cache = none ∧
    ramPhys 0x8020040F#32 < dirtyLine.cfg.ramSize ∧
    keyGet (lineIndex dirtyLine.cfg 0x8020040F#32) dirtyLine.cache = some ⟨bytes16, true⟩ ∧
    ({ dirtyLine with sched := [.cpuRead 0x8020040F#32] } : State).sched = .cpuRead 0x8020040F#32 :: [] ∧
    ({ dirtyLine with sched := [.cpuWrite 0x8020040F#32 1#8] } : State).sched = .cpuWrite 0x8020040F#32 1#8 :: [] := by decide

theorem witness_ChunkArithmetic : (1#32 : Word) ≠ 0#32 ∧ (512#32 : Word) ≠ 0#32 ∧ (0xFFFFFFFF#32 : Word) ≠ 0#32 := by decide

theorem witness_ReadBeginsWithWait :
    bench.seq.op = .idle ∧ bench.seq.initialized = true ∧
    (0x80200000#32 : Word).toNat + (1300#32 : Word).toNat ≤ 0x100000000 ∧
    (0xFFFFFFFF#32 : Word).toNat + (1#32 : Word).toNat ≤ 0x100000000 ∧ bench.bridgeReady :=
  ⟨by decide, by decide, by decide, by decide, bench_ready⟩

theorem witness_WriteBeginsWithArming :
    active.bridgeReady ∧ active.seq.op = .idle ∧ active.seq.initialized = true ∧
    (0x80200000#32 : Word).toNat + (0#32 : Word).toNat ≤ 0x100000000 ∧
    (0x80200000#32 : Word).toNat + (1300#32 : Word).toNat ≤ 0x100000000 := ⟨active_ready, by decide⟩

theorem witness_ReadFirstWaitTimesOut : ∃ s : State, s.bridgeReady ∧ s.seq.op = .idle ∧ s.seq.initialized = true ∧
    (0x80200000#32 : Word).toNat + (16#32 : Word).toNat ≤ 0x100000000 ∧ s.brg.active = true ∧
    s.sched = .offer ⟨.opd, [0x2#32, 0x80200000#32, 16#32]⟩ :: (List.replicate 8192 Event.seq ++ []) :=
  ⟨{ active with sched := .offer ⟨.opd, [0x2#32, 0x80200000#32, 16#32]⟩ :: (List.replicate 8192 Event.seq ++ []) },
    active_ready, rfl, rfl, by decide, rfl, rfl⟩

/-- `dirtyLine`, with 513 bytes in the receive FIFO and room for 513 in the transmit FIFO, offered a transfer of 513
bytes whose buffer ends with RAM. -/
def transferring (opcode : Word) : State :=
  { dirtyLine with
    cfg := { dirtyLine.cfg with txDepth := some 513 }
    brg := { dirtyLine.brg with rxFifo := List.replicate 513 6#8 }
    sched := [.offer ⟨.opd, [opcode, 0x803FFDFF#32, 513#32]⟩] }

theorem transferring_notStale (opcode : Word) (l : Nat) : (transferring opcode).notStale l := by
  intro ln hk hd
  simp only [transferring, dirtyLine, keyGet] at hk
  split at hk <;> cases hk
  cases hd

theorem witness_ReadDeliversFifoBytes :
    (transferring 0x2#32).bridgeReady ∧ (transferring 0x2#32).cfg.alignsAll ∧ (transferring 0x2#32).dataOk = true ∧
    (transferring 0x2#32).seq.op = .idle ∧ (transferring 0x2#32).seq.initialized = true ∧
    (transferring 0x2#32).dma.busy = false ∧ (transferring 0x2#32).brg.active = false ∧
    (0x803FFDFF#32 : Word).toNat + (513#32 : Word).toNat ≤ 0x100000000 ∧
    ramPhys 0x803FFDFF#32 + (513#32 : Word).toNat ≤ (transferring 0x2#32).cfg.ramSize ∧
    (513#32 : Word).toNat ≤ (transferring 0x2#32).brg.rxFifo.length ∧
    (transferring 0x2#32).sched = [.offer ⟨.opd, [0x2#32, 0x803FFDFF#32, 513#32]⟩] ∧
    (transferring 0x2#32).tail = .default ∧ (transferring 0x2#32).notStale 0 :=
  ⟨⟨by decide, rfl⟩, ⟨rfl, rfl, rfl⟩, by decide, rfl, rfl, rfl, rfl, by decide, by decide,
    (List.length_replicate (n := 513) (a := (6#8 : Byte))).ge, rfl, rfl, transferring_notStale _ _⟩

theorem witness_WriteDeliversBufferBytes :
    (transferring 0x3#32).bridgeReady ∧ (transferring 0x3#32).cfg.alignsAll ∧ (transferring 0x3#32).dataOk = true ∧
    (transferring 0x3#32).seq.op = .idle ∧ (transferring 0x3#32).seq.initialized = true ∧
    (transferring 0x3#32).dma.busy = false ∧
    (0x803FFDFF#32 : Word).toNat + (513#32 : Word).toNat ≤ 0x100000000 ∧
    ramPhys 0x803FFDFF#32 + (513#32 : Word).toNat ≤ (transferring 0x3#32).cfg.ramSize ∧
    (∀ d, (transferring 0x3#32).cfg.txDepth = some d →
      (transferring 0x3#32).brg.txFifo.length + (513#32 : Word).toNat ≤ d) ∧
    (∀ i, i < (513#32 : Word).toNat →
      (transferring 0x3#32).notStale ((ramPhys 0x803FFDFF#32 + i) / (transferring 0x3#32).cfg.lineSize)) ∧
    (transferring 0x3#32).sched = [.offer ⟨.opd, [0x3#32, 0x803FFDFF#32, 513#32]⟩] ∧
    (transferring 0x3#32).tail = .default :=
  ⟨⟨by decide, rfl⟩, ⟨rfl, rfl, rfl⟩, by decide, rfl, rfl, rfl, by decide, by decide, fun d h => by cases h; decide,
    fun _ _ => transferring_notStale _ _, rfl, rfl⟩

theorem witness_NewClearsLifecycleFlag : bench.seq.op = .idle := by decide

theorem witness_InitBeginsWithTimingWrites :
    (State.reset.cfg.legal = true ∧ State.reset.seq.op = .idle ∧
      State.reset.cfg.dom1Timing = (0x04600014#32, 0x04#32) :: [(0x04600018#32, 0x0C#32)]) ∧
    (({ State.reset.cfg with dom1Timing := [(0x04600014#32, 0x04#32)] } : Config).legal = true ∧
      ({ State.reset.cfg with dom1Timing := [] } : Config).legal = true) := by decide

/-- Offered INIT, with SEQ's remaining moves scheduled. -/
def starting (s : State) : State :=
  { s with sched := .offer ⟨.opd, [0x1#32]⟩ :: (List.replicate (s.cfg.dom1Timing.length + 3) Event.seq ++ []) }

theorem witness_InitWithNothingToDrain :
    ((starting State.reset).cfg.legal = true ∧ (starting State.reset).seq.op = .idle ∧
      (starting State.reset).host.powered = false) ∧
    ((starting bench).cfg.rxfActiveLow = true ∧ (starting bench).brg.rxFifo = []) ∧
    (({ bench with cfg := { bench.cfg with rxfActiveLow := false }, brg := { bench.brg with rxFifo := [1#8] } } :
      State).brg.rxFifo ≠ []) ∧
    (bench.cfg.dom1Timing.map (·.1)).Nodup := by decide

/-- INIT before its last transaction. -/
def finishing : State :=
  { bench with
    sched := [.seq]
    seq := { bench.seq with initialized := false, op := .init, phase := .wrReg 0x8018#32 0#32, stack := [.initRamCfg] } }

theorem witness_LifecycleFlagChangesOnlyByNewAndInit :
    ((given [.offer ⟨.opd, [0#32]⟩]).seqOk = true ∧
      (given [.offer ⟨.opd, [0#32]⟩]).nextMove = some (.offer ⟨.opd, [0#32]⟩) ∧
      ((after (step (given [.offer ⟨.opd, [0#32]⟩]))).map (·.seq.initialized)) = some false ∧
      (given [.offer ⟨.opd, [0#32]⟩]).seq.initialized = true) ∧
    (finishing.seqOk = true ∧ ((after (step finishing)).map (·.seq.initialized)) = some true ∧
      finishing.seq.initialized = false) := by decide

theorem witness_OtherAgentsLeaveSequencerAlone :
    (given [.bridge]).sched = .bridge :: [] ∧ Event.bridge ≠ .seq ∧ (∀ r, Event.bridge ≠ .offer r) ∧
    (∀ r, Event.bridge ≠ .bare r) ∧
    ∃ t, step (given [.bridge]) = .next t := ⟨rfl, by decide, by simp, by simp, _, rfl⟩

theorem witness_EveryStepKeepsDataForm :
    (caching .wb 0x80200400#32).dataOk = true ∧ ∃ t, step (caching .wb 0x80200400#32) = .next t := ⟨by decide, _, rfl⟩

theorem witness_EveryStepKeepsSequencerInvariant :
    (recovering .read [.readFirstWait 0#32 0#32]).seqOk = true ∧
    ∃ t, step (recovering .read [.readFirstWait 0#32 0#32]) = .next t := ⟨by decide, _, rfl⟩

end Sys2Proof.Tests
end

section
/-! PROOFS. Scope: what a placed request runs, and what the moves of the other agents leave of SEQ (00_scope R7, R12). -/

namespace Sys2Proof.Machine

/-! ### A placed request -/

/-- Settles O6, by where the placing move stands: at the head of the list, or first in a repeating tail. -/
theorem stepRunsOfferedInstruction : Obligations.StepRunsOfferedInstruction := by
  intro s r es i hd hplace
  rcases hplace with hs | ⟨hs, ht⟩
  · exact step_placing hs hd
  · calc
      step s = runMove (placing r) (s.setSched es) := step_cycle hs ht
      _ = exec i (s.setSched es) := runMove_placing hd

/-! ### What the engine's own steps leave of the DMA block -/

/-- A byte moved is noted in the job; the block's registers are for SEQ's writes alone (42_dma R176). -/
theorem dmaMove_dma (i : Nat) (s : State) : ∃ j, (dmaMove i s).dma = { s.dma with job := j } := by
  unfold dmaMove
  split
  · exact ⟨_, rfl⟩
  · exact ⟨s.dma.job, rfl⟩

/-- Completion only makes the engine idle (42_dma R178). -/
theorem dmaComplete_dma (s : State) : ∃ b, (dmaComplete s).dma = { s.dma with busy := b } := by
  unfold dmaComplete
  split
  · exact ⟨false, rfl⟩
  · exact ⟨s.dma.busy, rfl⟩

/-! ### CLIENT's loads and stores -/

@[simp] theorem cpuRead_responses (a : Word) (s : State) :
    (cpuRead a s).client.responses = s.client.responses := rfl

/-- An access that does not fault finds its byte in RAM and has its effect (log 19). -/
theorem clientAccess_next {a : Word} {f : State → State} {s t : State} (h : clientAccess a f s = .next t) :
    ramPhys a < s.cfg.ramSize ∧ t = f s := by
  unfold clientAccess at h
  split at h
  · next hin => cases h; exact ⟨hin, rfl⟩
  · cases h

/-! ### The moves of the other agents -/

/-- What SEQ and CLIENT's requests alone change, and the moves to come, are the same in both states: SEQ's registers, its
trace, its answers and the registers that its bus writes program. -/
structure State.LeavesSequencerAlone (s t : State) : Prop where
  seq : t.seq = s.seq
  trace : t.trace = s.trace
  responses : t.client.responses = s.client.responses
  sched : t.sched = s.sched
  tail : t.tail = s.tail
  ramAddr : t.dma.ramAddr = s.dma.ramAddr
  peripheralAddr : t.dma.peripheralAddr = s.dma.peripheralAddr
  timing : t.dma.timing = s.dma.timing

theorem dmaMove_leavesSequencerAlone (i : Nat) (s : State) : s.LeavesSequencerAlone (dmaMove i s) := by
  obtain ⟨j, hdma⟩ := dmaMove_dma i s
  constructor <;> simp [hdma]

theorem dmaComplete_leavesSequencerAlone (s : State) : s.LeavesSequencerAlone (dmaComplete s) := by
  obtain ⟨b, hdma⟩ := dmaComplete_dma s
  constructor <;> simp [hdma]

theorem bridgeStep_leavesSequencerAlone (s : State) : s.LeavesSequencerAlone (bridgeStep s) := by
  constructor <;> simp

theorem evictLine_leavesSequencerAlone (l : Nat) (s : State) : s.LeavesSequencerAlone (evictLine l s) := by
  constructor <;> simp

theorem hostSend_leavesSequencerAlone (b : Byte) (s : State) : s.LeavesSequencerAlone (hostSend b s) := by
  constructor <;> simp

theorem hostTake_leavesSequencerAlone (s : State) : s.LeavesSequencerAlone (hostTake s) := by
  constructor <;> simp

theorem hostPower_leavesSequencerAlone (v : Bool) (s : State) : s.LeavesSequencerAlone (hostPower v s) := by
  constructor <;> simp

theorem hostLoopback_leavesSequencerAlone (s : State) : s.LeavesSequencerAlone (hostLoopback s) := by
  constructor <;> simp

theorem cpuRead_leavesSequencerAlone (a : Word) (s : State) : s.LeavesSequencerAlone (cpuRead a s) := by
  constructor <;> simp

theorem cpuWrite_leavesSequencerAlone (a : Word) (b : Byte) (s : State) :
    s.LeavesSequencerAlone (cpuWrite a b s) := by
  constructor <;> simp

/-- Every move but SEQ's own and those that place a request (00_scope R12). -/
theorem runMove_leavesSequencerAlone {e : Event} {s t : State} (hseq : e ≠ .seq) (hoffer : ∀ r, e ≠ .offer r)
    (hbare : ∀ r, e ≠ .bare r) (h : runMove e s = .next t) : s.LeavesSequencerAlone t := by
  cases e with
  | offer r => exact absurd rfl (hoffer r)
  | bare r => exact absurd rfl (hbare r)
  | seq => exact absurd rfl hseq
  | dmaMove i => cases h; exact dmaMove_leavesSequencerAlone i s
  | dmaComplete => cases h; exact dmaComplete_leavesSequencerAlone s
  | bridge => cases h; exact bridgeStep_leavesSequencerAlone s
  | evict l => cases h; exact evictLine_leavesSequencerAlone l s
  | hostSend b => cases h; exact hostSend_leavesSequencerAlone b s
  | hostTake => cases h; exact hostTake_leavesSequencerAlone s
  | hostPower v => cases h; exact hostPower_leavesSequencerAlone v s
  | hostLoopback => cases h; exact hostLoopback_leavesSequencerAlone s
  | cpuRead a =>
    obtain ⟨-, rfl⟩ := clientAccess_next h
    exact cpuRead_leavesSequencerAlone a s
  | cpuWrite a b =>
    obtain ⟨-, rfl⟩ := clientAccess_next h
    exact cpuWrite_leavesSequencerAlone a b s

/-- The next listed move, the others left listed. -/
theorem step_listed {s : State} {e : Event} {es : List Event} (h : s.sched = e :: es) :
    step s = runMove e (s.setSched es) := by
  simp only [step, h]

/-- Settles O57, by whose move the listed one is. -/
theorem otherAgentsLeaveSequencerAlone : Obligations.OtherAgentsLeaveSequencerAlone := by
  intro s t e es hs hseq hoffer hbare hstep
  rw [step_listed hs] at hstep
  obtain ⟨seq, trace, responses, sched, tail, ramAddr, peripheralAddr, timing⟩ :=
    runMove_leavesSequencerAlone hseq hoffer hbare hstep
  exact ⟨seq, trace, responses, sched, tail, ramAddr, peripheralAddr, timing⟩

end Sys2Proof.Machine
end

section
/-! PROOFS. The state (10_state): what a step can be, the form of the data and the sequencer's invariant over every step, the
lifecycle flag, and READ's first busy-wait. -/

namespace Sys2Proof.Machine

/-! ### What a step can be

A step is a move: the one that the schedule or its tail names, or the default order's. A move that places a request runs an
instruction, which port CMD accepts while SEQ is idle. -/

/-- The same state but for the moves to come. -/
def State.MovesOn (s u : State) : Prop := ∃ es l, u = (s.setSched es).setTail l

theorem step_cases {s t : State} (h : step s = .next t) :
    t = defaultMove s ∨ ∃ e u, s.nextMove = some e ∧ s.MovesOn u ∧ runMove e u = .next t := by
  cases hs : s.sched with
  | cons e es => exact .inr ⟨e, s.setSched es, by simp [State.nextMove, hs], ⟨es, s.tail, rfl⟩, step_listed hs ▸ h⟩
  | nil =>
    cases ht : s.tail with
    | default => rw [step_default ⟨hs, ht⟩] at h; cases h; exact .inl rfl
    | cycle e rest =>
      exact .inr ⟨e, s.setSched rest, by simp [State.nextMove, hs, ht], ⟨rest, s.tail, rfl⟩, step_cycle hs ht ▸ h⟩
    | free which next =>
      simp only [step, hs, runTail, ht] at h
      exact .inr ⟨_, _, by simp [State.nextMove, hs, ht], ⟨s.sched, _, rfl⟩, h⟩

/-- A placed request that is not refused is by a placer that has an operation for it, and it decodes. -/
theorem placedStep_next {ok : Bool} {r : Request} {s t : State} (h : placedStep ok r s = .next t) :
    ok = true ∧ ∃ i, decode s.cfg r = .ok i ∧ exec i s = .next t := by
  unfold placedStep at h
  split at h
  · next hok =>
    unfold offerStep fetchInstr at h
    cases hd : decode s.cfg r with
    | ok i => rw [hd] at h; exact ⟨hok, i, rfl, h⟩
    | error why => rw [hd] at h; cases h
  · cases h

/-- A move places a request, or is SEQ's, or leaves SEQ alone. -/
theorem runMove_cases {e : Event} {s t : State} (h : runMove e s = .next t) :
    (∃ r i, (e = .offer r ∨ e = .bare r ∧ placeable r.fmt = false) ∧ decode s.cfg r = .ok i ∧ exec i s = .next t) ∨
      t = sequencerStep s ∨ s.LeavesSequencerAlone t := by
  by_cases hseq : e = .seq
  · subst hseq; cases h; exact .inr (.inl rfl)
  by_cases hoffer : ∃ r, e = .offer r
  · obtain ⟨r, rfl⟩ := hoffer
    obtain ⟨-, i, hd, hi⟩ := placedStep_next h
    exact .inl ⟨r, i, .inl rfl, hd, hi⟩
  by_cases hbare : ∃ r, e = .bare r
  · obtain ⟨r, rfl⟩ := hbare
    obtain ⟨hp, i, hd, hi⟩ := placedStep_next h
    exact .inl ⟨r, i, .inr ⟨rfl, by simpa using hp⟩, hd, hi⟩
  · exact .inr (.inr (runMove_leavesSequencerAlone hseq (fun r hr => hoffer ⟨r, hr⟩) (fun r hr => hbare ⟨r, hr⟩) h))

theorem engineDefault_leavesSequencerAlone (s : State) : s.LeavesSequencerAlone (engineDefault s) := by
  unfold engineDefault
  split
  · exact dmaComplete_leavesSequencerAlone s
  · exact dmaMove_leavesSequencerAlone _ s

/-- The default order's move is SEQ's or leaves SEQ alone (log 7). -/
theorem defaultMove_cases (s : State) :
    defaultMove s = sequencerStep s ∨ s.LeavesSequencerAlone (defaultMove s) := by
  unfold defaultMove
  split
  · exact .inr (engineDefault_leavesSequencerAlone s)
  · split
    · exact .inr (bridgeStep_leavesSequencerAlone s)
    · exact .inl rfl

/-! ### What an accepted instruction can do -/

/-- What an accepted descriptor latches, and the routine it starts with: one case per operation of 30_encoding R112. -/
inductive Opens : Op → List Word → (State → Flow) → Prop
  | new : Opens .new [] (fun t => .ret .ok (setInitialized false t))
  | init : Opens .init [] (initFrom 0)
  | read (buf len : Word) : Opens .read [buf, len] (fun t => callRead buf len [] (latchBuf buf t))
  | write (buf len : Word) : Opens .write [buf, len] (fun t => callWrite buf len [] (latchBuf buf t))
  | rdReg (off : Word) : Opens .rdReg [off] (fun t => .goto (.rdReg off) [] t)
  | wrReg (off value : Word) : Opens .wrReg [off, value] (fun t => .goto (.wrReg off value) [] t)
  | cacheWb (addr len : Word) : Opens .cacheWb [addr, len] (walkRange .wb addr len)
  | cacheWbinv (addr len : Word) : Opens .cacheWbinv [addr, len] (walkRange .wbinv addr len)
  | dmaXfer (ram periph len : Word) (dir : Dir) :
    Opens .dmaXfer [ram, periph, len, encodeDir dir] (callTransfer ram periph len dir [])
  | waitNotBusy : Opens .waitNotBusy [] (callWait [])
  | canRead : Opens .canRead [] (callCanRead [])
  | canWrite : Opens .canWrite [] (callCanWrite [])
  | dmaWaitIdle : Opens .dmaWaitIdle [] (fun t => .goto .dmaPoll [] t)

/-- What an instruction makes of the state: an operation begun, or, by a pseudo-operation on the DMA block or a timing
register, one bus transaction and no operation (30_encoding R121; log 9). -/
inductive State.Accepts (s : State) (i : Instr) : State → Prop
  | opened {op args routine} (h : Opens op args routine) (hnew : op = .new → i = .new) :
    s.Accepts i (launch op args routine s)
  | wrote (a v : Word) : s.Accepts i (busWrite a v s)
  | looked (a : Word) (d : BusData) : s.Accepts i (readDone a d s)

theorem whenIdle_accepts {f : State → State} {i : Instr} {s t : State} (h : whenIdle f s = .next t)
    (ha : s.Accepts i (f s)) : s.seq.op = .idle ∧ s.Accepts i t := by
  unfold whenIdle at h
  split at h
  · next ho => cases h; exact ⟨ho, ha⟩
  · cases h

theorem whenIdleAnd_accepts {ok : Bool} {why : Refusal} {f : State → State} {i : Instr} {s t : State}
    (h : whenIdleAnd ok why f s = .next t) (ha : s.Accepts i (f s)) : s.seq.op = .idle ∧ s.Accepts i t := by
  unfold whenIdleAnd at h
  split at h
  · next ho =>
    split at h
    · cases h; exact ⟨ho, ha⟩
    · cases h
  · cases h

theorem runTransfer_accepts {op : Op} {buf len : Word} {routine : State → Flow} {i : Instr} {s t : State}
    (h : runTransfer op buf len routine s = .next t)
    (ha : s.Accepts i (launch op [buf, len] (fun t => routine (latchBuf buf t)) s)) :
    s.seq.op = .idle ∧ s.Accepts i t := by
  unfold runTransfer at h
  split at h
  · cases h
  · exact whenIdleAnd_accepts h ha

/-- An instruction that is not refused finds SEQ idle, and begins one of the operations or makes one transaction. -/
theorem exec_accepts {i : Instr} {s t : State} (h : exec i s = .next t) : s.seq.op = .idle ∧ s.Accepts i t := by
  have readRegister : ∀ {off}, runReadRegister off s = .next t → s.seq.op = .idle ∧ s.Accepts i t := fun h =>
    whenIdle_accepts h (.opened (.rdReg _) nofun)
  have writeRegister : ∀ {off v}, runWriteRegister off v s = .next t → s.seq.op = .idle ∧ s.Accepts i t := fun h =>
    whenIdle_accepts h (.opened (.wrReg _ _) nofun)
  cases i with
  | new => exact whenIdle_accepts h (.opened .new fun _ => rfl)
  | init => exact whenIdle_accepts h (.opened .init nofun)
  | read buf len => exact runTransfer_accepts h (.opened (.read buf len) nofun)
  | write buf len => exact runTransfer_accepts h (.opened (.write buf len) nofun)
  | rdReg off => exact readRegister h
  | wrReg off value => exact writeRegister h
  | cacheWb addr len => exact whenIdleAnd_accepts h (.opened (.cacheWb addr len) nofun)
  | cacheWbinv addr len => exact whenIdleAnd_accepts h (.opened (.cacheWbinv addr len) nofun)
  | dmaXfer ram periph len dir => exact whenIdleAnd_accepts h (.opened (.dmaXfer ram periph len dir) nofun)
  | waitNotBusy => exact whenIdle_accepts h (.opened .waitNotBusy nofun)
  | canRead => exact whenIdle_accepts h (.opened .canRead nofun)
  | canWrite => exact whenIdle_accepts h (.opened .canWrite nofun)
  | dmaWaitIdle => exact whenIdle_accepts h (.opened .dmaWaitIdle nofun)
  | usbCmdRdNop => exact writeRegister h
  | usbCmdRd off => exact writeRegister h
  | usbCmdWrNop => exact writeRegister h
  | usbCmdWr off => exact writeRegister h
  | keyUnlock ignored => exact writeRegister h
  | sysCfgClear ignored => exact writeRegister h
  | saveOff ignored => exact writeRegister h
  | usbStatus => exact readRegister h
  | dmaArm => exact whenIdle_accepts h (.wrote _ _)
  | dmaSetRam ram => exact whenIdle_accepts h (.wrote _ _)
  | dmaSetPeriph periph => exact whenIdle_accepts h (.wrote _ _)
  | dmaStartIn lenMinus1 => exact whenIdle_accepts h (.wrote _ _)
  | dmaStartOut lenMinus1 => exact whenIdle_accepts h (.wrote _ _)
  | dmaStatus => exact whenIdle_accepts h (.looked _ _)
  | dom1Set n => exact whenIdleAnd_accepts h (.wrote _ _)

theorem launch_goto {op : Op} {args : List Word} {routine : State → Flow} {s u : State} {p : Phase} {k : List Frame}
    (h : routine (s.latch op args) = .goto p k u) : launch op args routine s = sequencerStep (u.jump p k) := by
  simp only [launch, h]

theorem launch_ret {op : Op} {args : List Word} {routine : State → Flow} {s u : State} {r : Result}
    (h : routine (s.latch op args) = .ret r u) : launch op args routine s = finish r u := by
  simp only [launch, h]

/-- No operation's registers but SEQ's change before its first transaction (log 8). -/
theorem Opens.seqOnly {op : Op} {args : List Word} {routine : State → Flow} (h : Opens op args routine) (t : State) :
    t.SeqOnly (routine t).state := by
  cases h with
  | init => exact initFrom_seqOnly 0 t
  | cacheWb addr len => exact walkRange_seqOnly .wb addr len t
  | cacheWbinv addr len => exact walkRange_seqOnly .wbinv addr len t
  | new | read | write | waitNotBusy => exact ⟨_, rfl⟩
  | rdReg | wrReg | dmaXfer | canRead | canWrite | dmaWaitIdle => exact .refl t

/-! ### The form of the data -/

/-- The data keep their form and the parameters are the same (log 1). -/
structure State.KeepsData (s t : State) : Prop where
  dataOk : s.dataOk = true → t.dataOk = true
  cfg : t.cfg = s.cfg

theorem State.SeqOnly.cfg {s t : State} (h : s.SeqOnly t) : t.cfg = s.cfg := by
  obtain ⟨q, rfl⟩ := h; rfl

theorem finish_cfg (r : Result) (s : State) : (finish r s).cfg = s.cfg := by
  cases r <;> rfl

theorem launch_cfg {op : Op} {args : List Word} {routine : State → Flow} {s : State}
    (hr : ∀ t : State, t.SeqOnly (routine t).state) : (launch op args routine s).cfg = s.cfg := by
  have hcfg := (hr (s.latch op args)).cfg
  cases hf : routine (s.latch op args) with
  | goto p k u => rw [hf] at hcfg; rw [launch_goto hf, sequencerStep_cfg]; exact hcfg
  | ret r u => rw [hf] at hcfg; rw [launch_ret hf, finish_cfg]; exact hcfg

theorem sequencerStep_keepsData (s : State) : s.KeepsData (sequencerStep s) :=
  ⟨sequencerStep_dataOk, sequencerStep_cfg s⟩

theorem dmaMove_keepsData (i : Nat) (s : State) : s.KeepsData (dmaMove i s) :=
  ⟨fun h => dmaMove_dataOk h i, dmaMove_cfg i s⟩

theorem dmaComplete_keepsData (s : State) : s.KeepsData (dmaComplete s) := ⟨dmaComplete_dataOk, dmaComplete_cfg s⟩

theorem bridgeStep_keepsData (s : State) : s.KeepsData (bridgeStep s) := ⟨bridgeStep_dataOk, bridgeStep_cfg s⟩

theorem exec_keepsData {i : Instr} {s t : State} (h : exec i s = .next t) : s.KeepsData t := by
  cases (exec_accepts h).2 with
  | opened ho => exact ⟨fun hs => launch_dataOk hs ho.seqOnly, launch_cfg ho.seqOnly⟩
  | wrote a v => exact ⟨fun hs => busWrite_dataOk hs a v, busWrite_cfg a v s⟩
  | looked a d => exact ⟨fun hs => readDone_dataOk hs a d, readDone_cfg a d s⟩

theorem placedStep_keepsData {ok : Bool} {r : Request} {s t : State} (h : placedStep ok r s = .next t) :
    s.KeepsData t := by
  obtain ⟨-, i, -, hi⟩ := placedStep_next h
  exact exec_keepsData hi

theorem runMove_keepsData {e : Event} {s t : State} (h : runMove e s = .next t) : s.KeepsData t := by
  cases e with
  | offer r => exact placedStep_keepsData h
  | bare r => exact placedStep_keepsData h
  | seq => cases h; exact sequencerStep_keepsData s
  | dmaMove i => cases h; exact dmaMove_keepsData i s
  | dmaComplete => cases h; exact dmaComplete_keepsData s
  | bridge => cases h; exact bridgeStep_keepsData s
  | evict l => cases h; exact ⟨fun hs => evictLine_dataOk hs l, evictLine_cfg l s⟩
  | hostSend b => cases h; exact ⟨fun hs => hostSend_dataOk hs b, hostSend_cfg b s⟩
  | hostTake => cases h; exact ⟨hostTake_dataOk, hostTake_cfg s⟩
  | hostPower v => cases h; exact ⟨fun hs => hostPower_dataOk hs v, hostPower_cfg v s⟩
  | hostLoopback => cases h; exact ⟨hostLoopback_dataOk, hostLoopback_cfg s⟩
  | cpuRead a =>
    obtain ⟨-, rfl⟩ := clientAccess_next h
    exact ⟨fun hs => cpuRead_dataOk hs a, cpuRead_cfg a s⟩
  | cpuWrite a b =>
    obtain ⟨-, rfl⟩ := clientAccess_next h
    exact ⟨fun hs => cpuWrite_dataOk hs a b, cpuWrite_cfg a b s⟩

theorem engineDefault_keepsData (s : State) : s.KeepsData (engineDefault s) := by
  unfold engineDefault
  split
  · exact dmaComplete_keepsData s
  · exact dmaMove_keepsData _ s

theorem defaultMove_keepsData (s : State) : s.KeepsData (defaultMove s) := by
  unfold defaultMove
  split
  · exact engineDefault_keepsData s
  · split
    · exact bridgeStep_keepsData s
    · exact sequencerStep_keepsData s

/-- Settles O58, by whose move the step is. -/
theorem everyStepKeepsDataForm : Obligations.EveryStepKeepsDataForm := by
  intro s t hs h
  rcases step_cases h with rfl | ⟨e, u, -, ⟨es, l, rfl⟩, hmove⟩
  · obtain ⟨hdata, hcfg⟩ := defaultMove_keepsData s
    exact ⟨hdata hs, hcfg⟩
  · obtain ⟨hdata, hcfg⟩ := runMove_keepsData hmove
    exact ⟨hdata hs, hcfg⟩

/-! ### The sequencer's invariant -/

/-- The invariant is about SEQ's registers alone. -/
theorem seqOk_congr {s t : State} (h : t.seq = s.seq) : t.seqOk = s.seqOk := by
  simp only [State.seqOk, State.flowOk, h]

theorem poll_le_of_seqOk {s : State} (h : s.seqOk = true) : s.seq.poll ≤ pollLimit := by
  obtain ⟨hflow, -⟩ := (State.seqOk_iff s).1 h
  obtain ⟨-, -, -, hpoll⟩ := flowOk_split.1 hflow
  simp only [Sequencer.pollOk, Bool.and_eq_true, decide_eq_true_eq] at hpoll
  exact hpoll.1

theorem finish_seqOk (r : Result) {s : State} (h : s.seq.poll ≤ pollLimit) : (finish r s).seqOk = true :=
  (State.seqOk_iff _).2 ⟨finish_ok r s h, finish_bufOk r s⟩

/-- A routine's outcome, with nobody to return to, from which SEQ goes on with its invariant. -/
def Flow.SeqOk : Flow → Prop
  | .goto p k t => (t.jump p k).seqOk = true
  | .ret _ t => t.seq.poll ≤ pollLimit

theorem launch_seqOk {op : Op} {args : List Word} {routine : State → Flow} {s : State}
    (h : (routine (s.latch op args)).SeqOk) : (launch op args routine s).seqOk = true := by
  cases hf : routine (s.latch op args) with
  | goto p k u => rw [hf] at h; rw [launch_goto hf]; exact sequencerStep_seqOk h
  | ret r u => rw [hf] at h; rw [launch_ret hf]; exact finish_seqOk r h

/-- Control at a phase with its callers meets the invariant when each of its parts does. -/
theorem jump_seqOk {s : State} {p : Phase} {k : List Frame} (hcontrol : (s.jump p k).seq.controlOk = true)
    (hpacket : (s.jump p k).seq.packetOk = true) (hoperands : (s.jump p k).seq.operandsOk = true)
    (hpoll : (s.jump p k).seq.pollOk = true) (hbuf : (s.jump p k).seq.bufOk = true) : (s.jump p k).seqOk = true :=
  (State.seqOk_iff _).2 ⟨flowOk_split.2 ⟨hcontrol, hpacket, hoperands, hpoll⟩, hbuf⟩

/-- Outside a wait the count need only be in its bounds. -/
theorem pollOk_of_not_waiting {q : Sequencer} (h : q.poll ≤ pollLimit) (hread : ∀ k, q.stack ≠ .waitRead :: k)
    (hrecovery : ∀ k, q.stack ≠ .waitRecovery :: k) : q.pollOk = true := by
  unfold Sequencer.pollOk
  split
  · next k hk => exact absurd hk (hread k)
  · next k hk => exact absurd hk (hrecovery k)
  · simpa using h

/-- Every operation begins in agreement with what was latched: no packet is in progress, and the count is in its bounds. -/
theorem Opens.seqOk {op : Op} {args : List Word} {routine : State → Flow} (h : Opens op args routine) {s : State}
    (hpoll : s.seq.poll ≤ pollLimit) : (routine (s.latch op args)).SeqOk := by
  cases h with
  | new => exact hpoll
  | init =>
    unfold initFrom
    split
    · exact jump_seqOk rfl rfl rfl (pollOk_of_not_waiting hpoll nofun nofun) rfl
    · exact jump_seqOk rfl rfl rfl (pollOk_of_not_waiting hpoll nofun nofun) rfl
  | read buf len =>
    exact jump_seqOk rfl rfl (by simp [Sequencer.operandsOk, Sequencer.transferLen]) rfl
      (by simp [Sequencer.bufOk, Frame.bufOk])
  | write buf len =>
    exact jump_seqOk rfl rfl (by simp [Sequencer.operandsOk, Sequencer.transferLen])
      (pollOk_of_not_waiting hpoll nofun nofun) (by simp [Sequencer.bufOk, Frame.bufOk])
  | cacheWb addr len | cacheWbinv addr len =>
    unfold walkRange
    split
    · exact hpoll
    · exact jump_seqOk rfl rfl rfl (pollOk_of_not_waiting hpoll nofun nofun) rfl
  | waitNotBusy => exact jump_seqOk rfl rfl rfl rfl rfl
  | rdReg | wrReg | dmaXfer | canRead | canWrite | dmaWaitIdle =>
    exact jump_seqOk rfl rfl rfl (pollOk_of_not_waiting hpoll nofun nofun) rfl

theorem exec_seqOk {i : Instr} {s t : State} (hs : s.seqOk = true) (h : exec i s = .next t) : t.seqOk = true := by
  cases (exec_accepts h).2 with
  | opened ho => exact launch_seqOk (ho.seqOk (poll_le_of_seqOk hs))
  | wrote a v => exact (seqOk_congr (busWrite_seq a v s)).trans hs
  | looked a d => exact hs

theorem State.LeavesSequencerAlone.seqOk {s t : State} (h : s.LeavesSequencerAlone t) (hs : s.seqOk = true) :
    t.seqOk = true := (seqOk_congr h.seq).trans hs

theorem runMove_seqOk {e : Event} {s t : State} (hs : s.seqOk = true) (h : runMove e s = .next t) : t.seqOk = true := by
  rcases runMove_cases h with ⟨r, i, -, -, hexec⟩ | rfl | hleft
  · exact exec_seqOk hs hexec
  · exact sequencerStep_seqOk hs
  · exact hleft.seqOk hs

theorem defaultMove_seqOk {s : State} (hs : s.seqOk = true) : (defaultMove s).seqOk = true := by
  rcases defaultMove_cases s with heq | hleft
  · rw [heq]; exact sequencerStep_seqOk hs
  · exact hleft.seqOk hs

/-- Settles O59, by whose move the step is. -/
theorem everyStepKeepsSequencerInvariant : Obligations.EveryStepKeepsSequencerInvariant := by
  intro s t hs h
  rcases step_cases h with rfl | ⟨e, u, -, ⟨es, l, rfl⟩, hmove⟩
  · exact defaultMove_seqOk hs
  · exact runMove_seqOk (s := (s.setSched es).setTail l) hs hmove

/-- Settles O60: the reset state is one concrete state. -/
theorem resetStateIsWellFormed : Obligations.ResetStateIsWellFormed := by
  refine ⟨?_, ?_, ?_, ?_, rfl, rfl⟩ <;> decide

/-! ### The lifecycle flag (45_init_lifecycle R271) -/

theorem readLoop_initialized (s : State) : (readLoop s).state.seq.initialized = s.seq.initialized := by
  unfold readLoop
  split <;> rfl

theorem writeLoop_initialized (s : State) : (writeLoop s).state.seq.initialized = s.seq.initialized := by
  unfold writeLoop
  split <;> rfl

theorem initFrom_initialized (i : Nat) (s : State) : (initFrom i s).state.seq.initialized = s.seq.initialized := by
  unfold initFrom
  split <;> rfl

theorem walkRange_initialized (kind : CacheKind) (addr len : Word) (s : State) :
    (walkRange kind addr len s).state.seq.initialized = s.seq.initialized := by
  unfold walkRange
  split <;> rfl

/-- No routine but the one after INIT's last write touches the flag. -/
theorem afterCall_initialized {f : Frame} (hf : f ≠ .initRamCfg) (r : Result) (s : State) :
    (afterCall f r s).state.seq.initialized = s.seq.initialized := by
  cases f with
  | initRamCfg => exact absurd rfl hf
  | waitRead =>
    simp only [afterCall, afterPoll]
    split
    · rfl
    · split <;> rfl
  | readFirstWait buf len =>
    simp only [afterCall, afterReadFirstWait]
    split
    · rfl
    · exact readLoop_initialized _
  | readWait =>
    simp only [afterCall, afterReadWait]
    split <;> rfl
  | readDma => exact readLoop_initialized _
  | writeArm buf len => exact writeLoop_initialized _
  | writeWait =>
    simp only [afterCall, afterWriteWait]
    split
    · rfl
    · exact writeLoop_initialized _
  | initCheck =>
    simp only [afterCall, afterInitCheck]
    split <;> rfl
  | initDrain =>
    simp only [afterCall, afterInitDrain]
    split <;> rfl
  | waitRecovery | canRead | canWrite | dmaFirstWait | dmaLastWait | readCommand | readInvalidate | writeBack | writeDma
  | writeCommand | initKey | initSysCfg => rfl

@[simp] theorem finish_initialized (r : Result) (s : State) : (finish r s).seq.initialized = s.seq.initialized := by
  cases r <;> rfl

theorem resume_initialized {k : List Frame} (hk : .initRamCfg ∉ k) (r : Result) (s : State) :
    (resume k r s).seq.initialized = s.seq.initialized := by
  induction k generalizing r s with
  | nil => exact finish_initialized r s
  | cons f k ih =>
    obtain ⟨hf, hk⟩ := not_or.1 (fun h => hk (List.mem_cons.2 h))
    have hcall := afterCall_initialized (Ne.symm hf) r s
    rw [resume_cons]
    cases hflow : afterCall f r s with
    | goto p frames t => rw [hflow] at hcall; exact hcall
    | ret r' t => rw [hflow] at hcall; exact (ih hk r' t).trans hcall

theorem follow_initialized {k : List Frame} (hk : .initRamCfg ∉ k) (fl : Flow) :
    (follow k fl).seq.initialized = fl.state.seq.initialized := by
  cases fl with
  | goto p frames t => rfl
  | ret r t => exact resume_initialized hk r t

/-- A step of SEQ that does not return from INIT's last write leaves the flag. -/
theorem sequencerStep_initialized {s : State} (hk : .initRamCfg ∉ s.seq.stack) :
    (sequencerStep s).seq.initialized = s.seq.initialized := by
  have returned : ∀ {t : State} (r : Result), t.seq = s.seq →
      (resume s.seq.stack r t).seq.initialized = s.seq.initialized := fun r ht => by
    rw [resume_initialized hk, ht]
  unfold sequencerStep
  split
  · rfl
  · exact returned _ (by simp)
  · exact returned _ (by simp)
  · unfold lineStep
    split
    · exact returned _ (by simp)
    · simp
  · simp only [dmaPollStep]
    split
    · exact returned _ (by simp)
    · simp
  · simp [transferWrite]
  · simp [transferWrite]
  · simp [transferWrite]
  · simp
  · unfold initTimingStep
    split
    · rw [follow_initialized hk, initFrom_initialized, busWrite_seq]
    · exact follow_initialized hk _

theorem initRamCfg_not_mem_readCallers {op : Op} {k : List Frame} (h : readCallers op k = true) : .initRamCfg ∉ k := by
  rcases readCallers_cases h with ⟨rfl, -⟩ | ⟨rfl, -⟩ <;> simp

theorem initRamCfg_not_mem_writeCallers {op : Op} {k : List Frame} (h : writeCallers op k = true) : .initRamCfg ∉ k := by
  obtain ⟨rfl, -⟩ := writeCallers_cases h
  simp

theorem initRamCfg_not_mem_transferCallers {op : Op} {k : List Frame} (h : transferCallers op k = true) :
    .initRamCfg ∉ k := by
  unfold transferCallers at h
  split at h
  · simp
  · simpa using initRamCfg_not_mem_readCallers h
  · simpa using initRamCfg_not_mem_writeCallers h
  · cases h

theorem initRamCfg_not_mem_waitCallers {op : Op} {k : List Frame} (h : waitCallers op k = true) : .initRamCfg ∉ k := by
  unfold waitCallers at h
  split at h
  · simp
  · simpa using initRamCfg_not_mem_readCallers h
  · simpa using initRamCfg_not_mem_readCallers h
  · simpa using initRamCfg_not_mem_writeCallers h
  · cases h

theorem initRamCfg_not_mem_readRegCallers {op : Op} {k : List Frame} (h : readRegCallers op k = true) :
    .initRamCfg ∉ k := by
  unfold readRegCallers at h
  split at h
  · simp
  · simpa using initRamCfg_not_mem_waitCallers h
  · simp
  · simp
  · simp
  · cases h

theorem initRamCfg_not_mem_walkCallers {op : Op} {kind : CacheKind} {k : List Frame}
    (h : walkCallers op kind k = true) : .initRamCfg ∉ k := by
  unfold walkCallers at h
  split at h
  · simp
  · simp
  · simpa using initRamCfg_not_mem_readCallers h
  · simpa using initRamCfg_not_mem_writeCallers h
  · cases h

theorem initRamCfg_not_mem_pollCallers {op : Op} {k : List Frame} (h : pollCallers op k = true) : .initRamCfg ∉ k := by
  unfold pollCallers at h
  split at h
  · simp
  · simpa using initRamCfg_not_mem_transferCallers h
  · simpa using initRamCfg_not_mem_transferCallers h
  · cases h

/-- Only INIT's last register write has INIT's last label as its caller, and then no other. -/
theorem writeRegCallers_initRamCfg {op : Op} {k : List Frame} (h : writeRegCallers op k = true)
    (hm : .initRamCfg ∈ k) : k = [.initRamCfg] ∧ op = .init := by
  unfold writeRegCallers at h
  split at h
  · simp at hm
  · exact absurd hm (by simpa using initRamCfg_not_mem_waitCallers h)
  · exact absurd hm (by simpa using initRamCfg_not_mem_readCallers h)
  · exact absurd hm (by simpa using initRamCfg_not_mem_writeCallers h)
  · exact absurd hm (by simpa using initRamCfg_not_mem_writeCallers h)
  · simp at hm
  · simp at hm
  · exact ⟨rfl, by simpa using h⟩
  · cases h

/-- Where INIT's last label waits for its write, SEQ stands at that write (45_init_lifecycle R261, R266). -/
theorem controlOk_initRamCfg {q : Sequencer} (h : q.controlOk = true) (hm : .initRamCfg ∈ q.stack) :
    q.op = .init ∧ q.stack = [.initRamCfg] ∧ ∃ off v, q.phase = .wrReg off v := by
  unfold Sequencer.controlOk at h
  cases hp : q.phase with
  | wrReg off v =>
    rw [hp] at h
    obtain ⟨hk, hop⟩ := writeRegCallers_initRamCfg h hm
    exact ⟨hop, hk, off, v, rfl⟩
  | idle =>
    rw [hp] at h
    obtain ⟨-, hk⟩ := Bool.and_eq_true_iff.1 h
    simp [List.isEmpty_iff.1 hk] at hm
  | rdReg off => rw [hp] at h; exact absurd hm (initRamCfg_not_mem_readRegCallers h)
  | line kind a last => rw [hp] at h; exact absurd hm (initRamCfg_not_mem_walkCallers h)
  | dmaPoll => rw [hp] at h; exact absurd hm (initRamCfg_not_mem_pollCallers h)
  | dmaArm x | dmaRam x | dmaPeriph x | dmaLen x =>
    rw [hp] at h; exact absurd hm (initRamCfg_not_mem_transferCallers h)
  | initTiming i =>
    rw [hp] at h
    obtain ⟨-, hk⟩ := Bool.and_eq_true_iff.1 h
    simp [List.isEmpty_iff.1 hk] at hm

/-- INIT's last step sets the flag and answers Ok (45_init_lifecycle R267). -/
theorem sequencerStep_initRamCfg {s : State} {off v : Word} (hp : s.seq.phase = .wrReg off v)
    (hk : s.seq.stack = [.initRamCfg]) :
    (sequencerStep s).seq.initialized = true ∧ (sequencerStep s).answered ⟨0#32, 0#32⟩ := by
  rw [sequencerStep_wrReg hp hk nofun, hk]
  exact ⟨rfl, rfl, rfl, rfl, rfl⟩

/-- A step of SEQ that changes the flag is INIT's last. -/
theorem sequencerStep_changes_initialized {s : State} (hs : s.seqOk = true)
    (hne : (sequencerStep s).seq.initialized ≠ s.seq.initialized) :
    (sequencerStep s).seq.initialized = true ∧ s.seq.op = .init ∧ (sequencerStep s).answered ⟨0#32, 0#32⟩ := by
  have hm : .initRamCfg ∈ s.seq.stack := by
    by_contra hk
    exact hne (sequencerStep_initialized hk)
  obtain ⟨hflow, -⟩ := (State.seqOk_iff s).1 hs
  obtain ⟨hop, hk, off, v, hp⟩ := controlOk_initRamCfg (flowOk_split.1 hflow).1 hm
  obtain ⟨hflag, hanswered⟩ := sequencerStep_initRamCfg hp hk
  exact ⟨hflag, hop, hanswered⟩

/-- The callers that a routine pushes below its transaction. -/
def Flow.frames : Flow → List Frame
  | .goto _ k _ => k
  | .ret _ _ => []

/-- An operation that begins, other than NEW, leaves the flag up to its first transaction, which is not INIT's last. -/
theorem Opens.initialized {op : Op} {args : List Word} {routine : State → Flow} (h : Opens op args routine)
    (hop : op ≠ .new) (t : State) :
    (routine t).state.seq.initialized = t.seq.initialized ∧ .initRamCfg ∉ (routine t).frames := by
  cases h with
  | new => exact absurd rfl hop
  | init =>
    refine ⟨initFrom_initialized 0 t, ?_⟩
    unfold initFrom
    split <;> simp [Flow.frames, initKey]
  | cacheWb addr len | cacheWbinv addr len =>
    refine ⟨walkRange_initialized _ addr len t, ?_⟩
    unfold walkRange
    split <;> simp [Flow.frames, callWalk]
  | read | write | rdReg | wrReg | dmaXfer | waitNotBusy | canRead | canWrite | dmaWaitIdle =>
    exact ⟨rfl, by simp [Flow.frames, callRead, callWrite, callWait, callTransfer, callCanRead, callCanWrite]⟩

theorem launch_initialized {op : Op} {args : List Word} {routine : State → Flow} (h : Opens op args routine)
    (hop : op ≠ .new) (s : State) : (launch op args routine s).seq.initialized = s.seq.initialized := by
  obtain ⟨hflag, hframes⟩ := h.initialized hop (s.latch op args)
  cases hf : routine (s.latch op args) with
  | goto p k u =>
    rw [hf] at hflag hframes
    rw [launch_goto hf, sequencerStep_initialized (s := u.jump p k) hframes]
    exact hflag
  | ret r u =>
    rw [hf] at hflag
    rw [launch_ret hf, finish_initialized]
    exact hflag

/-- An accepted instruction that changes the flag is NEW. -/
theorem exec_changes_initialized {i : Instr} {s t : State} (h : exec i s = .next t)
    (hne : t.seq.initialized ≠ s.seq.initialized) : i = .new := by
  cases (exec_accepts h).2 with
  | @opened op args routine ho hnew =>
    by_contra hi
    exact hne (launch_initialized ho (fun hop => hi (hnew hop)) s)
  | wrote a v => exact absurd (congrArg Sequencer.initialized (busWrite_seq a v s)) hne
  | looked a d => exact absurd rfl hne

/-- NEW clears the flag (45_init_lifecycle R260). -/
theorem execNew_initialized {s t : State} (h : exec .new s = .next t) : t.seq.initialized = false := by
  obtain ⟨hidle, -⟩ := exec_accepts h
  rw [show exec .new s = whenIdle (launch .new [] (fun u => .ret .ok (setInitialized false u))) s from rfl,
    whenIdle_idle hidle] at h
  cases h
  rfl

theorem oneValue_ok {k : Word → Except Reject Instr} {ws : List Word} {i : Instr} (h : oneValue k ws = .ok i) :
    ∃ v, k v = .ok i := by
  cases ws with
  | nil => cases h
  | cons v rest => exact ⟨v, h⟩

theorem decodeDmaWrite_ne_new (c : Config) (off : Nat) (v : Word) : decodeDmaWrite c off v ≠ .ok .new := by
  unfold decodeDmaWrite
  repeat' split
  all_goals nofun

theorem decodeTimingWrite_ne_new (c : Config) (i : Nat) (v : Word) : decodeTimingWrite c i v ≠ .ok .new := by
  unfold decodeTimingWrite
  repeat' split
  all_goals nofun

/-- NEW is a descriptor's: no row on the DMA block or a timing register reads as it. -/
theorem placeable_of_decode_new {c : Config} {r : Request} (h : decode c r = .ok .new) : placeable r.fmt = true := by
  unfold decode at h
  cases hf : r.fmt with
  | opd | cmd16 | brgWr | brgRd => rfl
  | dmaWr off =>
    rw [hf] at h
    obtain ⟨v, hv⟩ := oneValue_ok h
    exact absurd hv (decodeDmaWrite_ne_new c off v)
  | dmaRd off =>
    rw [hf] at h
    change (if off = 0x10 then _ else _) = _ at h
    split at h <;> cases h
  | timWr i =>
    rw [hf] at h
    obtain ⟨v, hv⟩ := oneValue_ok h
    exact absurd hv (decodeTimingWrite_ne_new c i v)
/-- Settles O56, by whose move the step is. -/
theorem lifecycleFlagChangesOnlyByNewAndInit : Obligations.LifecycleFlagChangesOnlyByNewAndInit := by
  intro s t hs h hne
  rcases step_cases h with rfl | ⟨e, u, hnext, ⟨es, l, rfl⟩, hmove⟩
  · rcases defaultMove_cases s with heq | hleft
    · rw [heq] at hne ⊢
      exact .inr (sequencerStep_changes_initialized hs hne)
    · exact absurd (congrArg Sequencer.initialized hleft.seq) hne
  · rcases runMove_cases hmove with ⟨r, i, hplaced, hdecode, hexec⟩ | rfl | hleft
    · obtain rfl : i = .new := exec_changes_initialized hexec hne
      obtain rfl : e = .offer r := hplaced.resolve_right fun hbare => by
        simp [placeable_of_decode_new hdecode] at hbare
      exact .inl ⟨execNew_initialized hexec, r, hnext, hdecode⟩
    · exact .inr (sequencerStep_changes_initialized (s := (s.setSched es).setTail l) hs hne)
    · exact absurd (congrArg Sequencer.initialized hleft.seq) hne

/-! ### READ's first busy-wait (44_packet_transfer R232, R234) -/

/-- The word SEQ reads of an unlocked bridge's USB_CFG is one that a read may return (43_handshake R209 to R212, R215). -/
theorem statusWord_reads {s : State} (h : s.bridgeReady) : s.statusReads (statusWord s) := by
  obtain ⟨hlegal, hunlocked⟩ := h
  have hword : statusWord s = (usbStatusData s).value := by
    unfold statusWord
    rw [registerData_usbCfg hlegal hunlocked]
  obtain ⟨hactive, hrx, htx, hpowered⟩ :=
    usbStatus_bits s.brg.active (rxfLevel s) (txfLevel s) s.host.powered (Config.freeWord s.draws 0)
  have hroom : hasRoom s.cfg.txDepth s.brg.txFifo = true ↔ ∀ d, s.cfg.txDepth = some d → s.brg.txFifo.length < d := by
    cases s.cfg.txDepth <;> simp [hasRoom]
  rw [hword]
  refine ⟨hactive, hpowered, fun hlow => ?_, fun hlow => ?_, fun hlow => ?_, fun hlow => ?_⟩
  · exact (congrArg (· = true) hrx).to_iff.trans (by simp [rxfLevel, hlow])
  · exact (congrArg (· = false) hrx).to_iff.trans (by simp [rxfLevel, hlow])
  · exact (congrArg (· = true) htx).to_iff.trans (by simp [txfLevel, hlow])
  · exact (congrArg (· = false) htx).to_iff.trans (by simp [txfLevel, hlow, hroom])

/-- READ accepted, before its first status read: its operands and `seq.buf` latched, and the poll count 0. -/
def State.readAccepted (s : State) (buf len : Word) : State :=
  ({ s with seq := { s.seq with buf := buf, poll := 0#14 } } : State).within .read [buf, len] (.rdReg offUsbCfg)
    [.waitRead, .readFirstWait buf len]

/-- READ begins with the first status read of its first wait (44_packet_transfer R232). -/
theorem exec_read {s : State} (hop : s.seq.op = .idle) (hinit : s.seq.initialized = true) {buf len : Word}
    (hrange : buf.toNat + len.toNat ≤ 0x100000000) :
    exec (.read buf len) s = .next (sequencerStep (s.readAccepted buf len)) :=
  runTransfer_ready hop hinit hrange .read (callRead buf len [])

/-- A step in which CLIENT offers READ and the block accepts it. -/
theorem step_read {s : State} {es : List Event} (hop : s.seq.op = .idle) (hinit : s.seq.initialized = true)
    {buf len : Word} (hrange : buf.toNat + len.toNat ≤ 0x100000000)
    (hsched : s.sched = .offer ⟨.opd, [0x2#32, buf, len]⟩ :: es) :
    step s = .next (sequencerStep ((s.setSched es).readAccepted buf len)) :=
  (step_offer hsched rfl rfl).trans (exec_read (s := s.setSched es) hop hinit hrange)

/-- READ's first wait over, with nothing to read: the operation returns (44_packet_transfer R241). -/
theorem resume_readFirstWait_empty (buf : Word) (k : List Frame) (s : State) :
    resume (.readFirstWait buf 0#32 :: k) .ok s = resume k .ok (startTransfer buf 0#32 s) := by
  rw [resume_cons]; rfl

/-- READ's first wait over, with bytes to read: the first packet's "read + activate" command is next. -/
theorem resume_readFirstWait_packet {len : Word} (h : len ≠ 0#32) (buf : Word) (k : List Frame) (s : State) :
    resume (.readFirstWait buf len :: k) .ok s =
      (nextPacket (startTransfer buf len s)).jump
        (.wrReg offUsbCfg (commandValue 0xC600#32 (baseOffsetOf (chunkOf len)))) (.readCommand :: k) := by
  have hloop : readLoop (startTransfer buf len s) = .goto
      (.wrReg offUsbCfg (commandValue 0xC600#32 (baseOffsetOf (chunkOf len)))) [.readCommand]
      (nextPacket (startTransfer buf len s)) := if_neg h
  rw [resume_cons]
  exact congrArg (follow k) hloop

/-- Settles O48: the poll's outcomes, by the word read and, where the wait returns, by the length. -/
theorem readBeginsWithWait : Obligations.ReadBeginsWithWait := by
  intro s buf len hop hinit hrange
  refine ⟨statusWord (s.readAccepted buf len), fun hr => statusWord_reads (s := s.readAccepted buf len) hr, ?_⟩
  rw [exec_read hop hinit hrange, poll_cases (s := s.readAccepted buf len) rfl rfl]
  generalize statusWord (s.readAccepted buf len) = v
  by_cases hv : v &&& 0x0200#32 = 0#32
  · by_cases hlen : len = 0#32
    · subst hlen
      simp only [if_pos hv, if_neg (not_not.2 hv), if_true, resume_readFirstWait_empty]
      rfl
    · simp only [if_pos hv, if_neg (not_not.2 hv), if_neg hlen, resume_readFirstWait_packet hlen]
      rfl
  · have hagain : (s.readAccepted buf len).seq.poll + 1#14 < pollLimit := (by decide : (0#14 : BitVec 14) + 1#14 < pollLimit)
    simp only [if_neg hv, if_pos hv, if_pos hagain]
    rfl

/-- READ offered with ACTIVE set and only SEQ moving: its wait's `m` reads and the recovery write, whose error READ passes
on. -/
theorem read_first_wait_run {s : State} {es : List Event} {buf len : Word} {m : Nat} (hm : m = 8192)
    (hr : s.bridgeReady) (hop : s.seq.op = .idle) (hinit : s.seq.initialized = true)
    (hrange : buf.toNat + len.toNat ≤ 0x100000000) (hactive : s.brg.active = true)
    (hsched : s.sched = .offer ⟨.opd, [0x2#32, buf, len]⟩ :: (List.replicate m .seq ++ es)) :
    ∃ (vs : List Word) (p : Fin 513), vs.length = m ∧ runSteps (m + 1) s = .next (raiseTimeout { s with
      sched := es
      seq := { s.seq with
        op := .read, args := [buf, len], buf := buf, poll := 8192#14
        phase := .wrReg offUsbCfg (commandReadNop.setWidth 32), stack := [.waitRecovery, .readFirstWait buf len] }
      brg := { s.brg with cmd := commandReadNop, active := false, dir := .rd, ptr := p }
      draws := s.draws + (m + 1)
      trace := .busWrite (regAddr s.cfg offUsbCfg) (commandReadNop.setWidth 32) ::
        (vs.map (fun v => Transaction.busRead (regAddr s.cfg offUsbCfg) v) ++ s.trace) }) := by
  generalize hu : (s.setSched (List.replicate m .seq ++ es)).readAccepted buf len = u
  have hstep : step s = .next (sequencerStep u) := by
    rw [← hu]
    exact step_read hop hinit hrange hsched
  obtain ⟨vs, p, w, hlength, -, hwindow, hrun⟩ := first_wait_times_out hstep (by subst hu; exact hr)
    (by subst hu; exact hactive) (by subst hu; rfl) (k := [.readFirstWait buf len]) (by subst hu; rfl) (by subst hu; rfl)
    m hm (es := es) (by subst hu; rfl)
  have hpkt : w = u.brg.pkt := hwindow rfl
  subst hpkt hu
  exact ⟨vs, p, hlength, hrun⟩

/-- Settles O50: the run of READ's first wait gives each field of the last state. -/
theorem readFirstWaitTimesOut : Obligations.ReadFirstWaitTimesOut := by
  intro s es buf len hr hop hinit hrange hactive hsched
  obtain ⟨vs, p, hlength, hrun⟩ := read_first_wait_run rfl hr hop hinit hrange hactive hsched
  generalize ht : raiseTimeout _ = t at hrun
  refine ⟨t, vs, hrun, ?_⟩
  subst ht
  exact ⟨⟨rfl, rfl, rfl, rfl⟩, hlength, rfl, rfl, rfl, rfl, rfl, hinit, rfl, rfl, rfl, rfl, rfl, rfl⟩

end Sys2Proof.Machine
end

section
/-! PROOFS. Memory (20_memory): the mask of the bus space (R64, R66), and CLIENT's loads and stores through the cache
(R72, R73). -/

namespace Sys2Proof.Machine

/-! ### Views and masks -/

/-- Settles O30, from the laws of the mask and of the uncached view. -/
theorem peripheralMaskLaws : Obligations.PeripheralMaskLaws := by
  intro c a off
  refine ⟨ramPhys_lt a, physical_physical a, fun hl ha => physical_uncached hl ha, fun hl hoff => ?_⟩
  have hbridge := Config.legal_bridge hl
  exact physical_regAddr_toNat hl (by omega)

/-! ### A byte of a line -/

/-- A place inside a line holds the line's byte there. -/
theorem Line.getElem?_eq_byte {l : Line} {k : Nat} (hk : k < l.data.length) : l.data[k]? = some (l.byte k) := by
  simp [Line.byte, hk]

/-- A store replaces the byte at its own place alone (20_memory R73). -/
theorem Line.byte_store {l : Line} {k : Nat} (hk : k < l.data.length) (v : Byte) (j : Nat) :
    (l.store k v).byte j = if j = k then v else l.byte j := by
  unfold Line.store Line.byte
  by_cases hj : j = k
  · subst hj
    simp [hk]
  · rw [if_neg hj, List.getElem?_set_ne (Ne.symm hj)]

/-- An address's place in its line is a place that the line has. -/
theorem lineOffset_lt (c : Config) (a : Word) : lineOffset c a < c.lineSize := Nat.mod_lt _ (lineSize_pos c)

/-- Two addresses name one RAM byte exactly if they name one place of one line (41_cache_coherence R151). -/
theorem ramPhys_eq_iff_line (c : Config) (a b : Word) :
    ramPhys b = ramPhys a ↔ lineIndex c b = lineIndex c a ∧ lineOffset c b = lineOffset c a := by
  constructor
  · intro h
    exact ⟨congrArg (· / c.lineSize) h, congrArg (· % c.lineSize) h⟩
  · rintro ⟨hline, hplace⟩
    calc ramPhys b = lineIndex c b * c.lineSize + lineOffset c b := (line_place _).symm
      _ = lineIndex c a * c.lineSize + lineOffset c a := by rw [hline, hplace]
      _ = ramPhys a := line_place _

/-! ### What CLIENT reads after a load and after a store -/

@[simp] theorem cpuRead_cache (a : Word) (s : State) :
    (cpuRead a s).cache = keySet (lineIndex s.cfg a) (lineFor (lineIndex s.cfg a) s) s.cache := rfl

@[simp] theorem cpuWrite_cache (a : Word) (v : Byte) (s : State) :
    (cpuWrite a v s).cache =
      keySet (lineIndex s.cfg a) ((lineFor (lineIndex s.cfg a) s).store (lineOffset s.cfg a) v) s.cache := rfl

/-- A load leaves its line in the cache, as it found it there or filled it in (20_memory R72). -/
theorem cpuRead_line (a : Word) (s : State) :
    keyGet (lineIndex s.cfg a) (cpuRead a s).cache = some (lineFor (lineIndex s.cfg a) s) := keyGet_keySet_self _ _ _

/-- A store leaves its line in the cache with the byte replaced (20_memory R73). -/
theorem cpuWrite_line (a : Word) (v : Byte) (s : State) :
    keyGet (lineIndex s.cfg a) (cpuWrite a v s).cache =
      some ((lineFor (lineIndex s.cfg a) s).store (lineOffset s.cfg a) v) := keyGet_keySet_self _ _ _

/-- With one line put into the cache and RAM as it was, CLIENT reads that line's bytes there and what it read before
elsewhere. -/
theorem cpuByte_of_keySet {s t : State} {l : Nat} {ln : Line} (hcfg : t.cfg = s.cfg) (hmem : t.mem = s.mem)
    (hcache : t.cache = keySet l ln s.cache) (b : Word) :
    cpuByte t b = if lineIndex s.cfg b = l then ln.byte (lineOffset s.cfg b) else cpuByte s b := by
  by_cases hb : lineIndex s.cfg b = l
  · subst hb
    have hget : keyGet (lineIndex t.cfg b) t.cache = some ln := by
      rw [hcfg, hcache, keyGet_keySet_self]
    rw [if_pos rfl, cpuByte_present hget, hcfg]
  · rw [if_neg hb]
    exact cpuByte_congr hcfg (by rw [hcache, keyGet_keySet_other hb]) (fun _ => by rw [hmem])

/-- A load changes nothing of what CLIENT reads: it leaves in the cache the line that it found (20_memory R72). -/
theorem cpuRead_cpuByte (a b : Word) (s : State) : cpuByte (cpuRead a s) b = cpuByte s b := by
  rw [cpuByte_of_keySet (s := s) (cpuRead_cfg a s) (cpuRead_mem a s) (cpuRead_cache a s)]
  by_cases hb : lineIndex s.cfg b = lineIndex s.cfg a
  · rw [if_pos hb, ← hb]
    rfl
  · exact if_neg hb

/-- A store changes the byte at its own address alone of what CLIENT reads (20_memory R73). -/
theorem cpuWrite_cpuByte {s : State} (hf : cacheFits s.cfg s.cache = true) (a b : Word) (v : Byte) :
    cpuByte (cpuWrite a v s) b = if ramPhys b = ramPhys a then v else cpuByte s b := by
  have hplace : lineOffset s.cfg a < (lineFor (lineIndex s.cfg a) s).data.length := by
    rw [lineFor_length hf]
    exact lineOffset_lt s.cfg a
  rw [cpuByte_of_keySet (s := s) (cpuWrite_cfg a v s) (cpuWrite_mem a v s) (cpuWrite_cache a v s),
    Line.byte_store hplace]
  simp only [ramPhys_eq_iff_line s.cfg a b]
  by_cases hline : lineIndex s.cfg b = lineIndex s.cfg a
  · simp only [hline, true_and, if_true]
    rw [← hline]
    rfl
  · simp only [hline, false_and, if_false]

/-- A byte whose line is in the cache is that line's byte at its place. -/
theorem cpuByte_of_cached {s : State} (hf : cacheFits s.cfg s.cache = true) {a : Word} {ln : Line}
    (hk : keyGet (lineIndex s.cfg a) s.cache = some ln) : ln.data[lineOffset s.cfg a]? = some (cpuByte s a) := by
  rw [cpuByte_present hk]
  refine Line.getElem?_eq_byte ?_
  rw [cacheFits_line hf hk]
  exact lineOffset_lt s.cfg a

/-! ### CLIENT's access as a step -/

/-- An access to a byte that RAM has takes effect (log 19). -/
theorem clientAccess_inRam {a : Word} {s : State} (h : ramPhys a < s.cfg.ramSize) (f : State → State) :
    clientAccess a f s = .next (f s) := if_pos h

theorem step_cpuRead {s : State} {es : List Event} {a : Word} (h : s.sched = .cpuRead a :: es)
    (ha : ramPhys a < s.cfg.ramSize) : step s = .next (cpuRead a (s.setSched es)) :=
  (step_listed h).trans (clientAccess_inRam (s := s.setSched es) ha (cpuRead a))

theorem step_cpuWrite {s : State} {es : List Event} {a : Word} {v : Byte} (h : s.sched = .cpuWrite a v :: es)
    (ha : ramPhys a < s.cfg.ramSize) : step s = .next (cpuWrite a v (s.setSched es)) :=
  (step_listed h).trans (clientAccess_inRam (s := s.setSched es) ha (cpuWrite a v))

/-- Settles O46, by the access: the line that CLIENT's view finds is put into the cache, by a store with its byte
replaced. -/
theorem clientAccessGoesThroughCache : Obligations.ClientAccessGoesThroughCache := by
  intro s es a v _ hdata ha
  obtain ⟨-, hfits, -⟩ := (State.dataOk_iff s).1 hdata
  constructor
  · intro hsched
    have hline := cpuRead_line a (s.setSched es)
    exact ⟨_, cpuByte s a, step_cpuRead hsched ha, rfl, cpuByte_absent, fun _ hk => cpuByte_of_cached hfits hk,
      fun habsent => Option.some_ne_none _ (hline.symm.trans habsent), fun b _ => cpuRead_cpuByte a b (s.setSched es)⟩
  · intro hsched
    have hline := cpuWrite_line a v (s.setSched es)
    exact ⟨_, step_cpuWrite hsched ha, rfl, ⟨_, hline, rfl⟩,
      fun b _ => cpuWrite_cpuByte (s := s.setSched es) hfits a b v⟩

end Sys2Proof.Machine
end

section
/-! PROOFS. Encoding (30_encoding): the decoder reads back what the encoder writes, the encoder writes back what the decoder
reads, and how many words a descriptor has. -/

namespace Sys2Proof

/-! ### What is encoded is read back -/

/-- Settles O1, by the instruction's own law of Laws/PerInstr.lean. -/
theorem decodeReadsEncodedInstruction : Obligations.DecodeReadsEncodedInstruction := by
  intro c i hwf
  cases i with
  | new => exact Laws.RoundTrip.new c hwf
  | init => exact Laws.RoundTrip.init c hwf
  | read buf len => exact Laws.RoundTrip.read buf len c hwf
  | write buf len => exact Laws.RoundTrip.write buf len c hwf
  | rdReg off => exact Laws.RoundTrip.rdReg off c hwf
  | wrReg off value => exact Laws.RoundTrip.wrReg off value c hwf
  | cacheWb addr len => exact Laws.RoundTrip.cacheWb addr len c hwf
  | cacheWbinv addr len => exact Laws.RoundTrip.cacheWbinv addr len c hwf
  | dmaXfer ram periph len dir => exact Laws.RoundTrip.dmaXfer ram periph len dir c hwf
  | waitNotBusy => exact Laws.RoundTrip.waitNotBusy c hwf
  | canRead => exact Laws.RoundTrip.canRead c hwf
  | canWrite => exact Laws.RoundTrip.canWrite c hwf
  | dmaWaitIdle => exact Laws.RoundTrip.dmaWaitIdle c hwf
  | usbCmdRdNop => exact Laws.RoundTrip.usbCmdRdNop c hwf
  | usbCmdRd off => exact Laws.RoundTrip.usbCmdRd off c hwf
  | usbCmdWrNop => exact Laws.RoundTrip.usbCmdWrNop c hwf
  | usbCmdWr off => exact Laws.RoundTrip.usbCmdWr off c hwf
  | keyUnlock ignored => exact Laws.RoundTrip.keyUnlock ignored c hwf
  | sysCfgClear ignored => exact Laws.RoundTrip.sysCfgClear ignored c hwf
  | saveOff ignored => exact Laws.RoundTrip.saveOff ignored c hwf
  | usbStatus => exact Laws.RoundTrip.usbStatus c hwf
  | dmaArm => exact Laws.RoundTrip.dmaArm c hwf
  | dmaSetRam ram => exact Laws.RoundTrip.dmaSetRam ram c hwf
  | dmaSetPeriph periph => exact Laws.RoundTrip.dmaSetPeriph periph c hwf
  | dmaStartIn lenMinus1 => exact Laws.RoundTrip.dmaStartIn lenMinus1 c hwf
  | dmaStartOut lenMinus1 => exact Laws.RoundTrip.dmaStartOut lenMinus1 c hwf
  | dmaStatus => exact Laws.RoundTrip.dmaStatus c hwf
  | dom1Set i => exact Laws.RoundTrip.dom1Set i c hwf

/-- Settles O3: each word is the encoding of the instruction it decodes to. -/
theorem specWordsDecode : Obligations.SpecWordsDecode := by
  have h : ∀ i, i.wellFormed Config.reference = true →
      decode Config.reference (encode Config.reference i) = .ok i := decodeReadsEncodedInstruction Config.reference
  exact ⟨h (.read 0x80300000#32 1300#32) rfl, h (.wrReg 0x8004#32 0xAA55#32) rfl,
    h (.dmaXfer 0x80200400#32 0xBF8004EC#32 276#32 .incoming) rfl, h (.usbCmdRd 507#9) rfl, h .usbCmdWrNop rfl,
    h (.keyUnlock 0#16) rfl, h (.dmaStartIn 0x113#32) rfl, h (.dom1Set 1) rfl⟩

/-! ### Words put together from the parts that the decoder takes them apart into -/

/-- A word with a zero upper half is its lower half. -/
theorem setWidth_low16 {v : Word} (h : v.high16 = 0#16) : v.low16.setWidth 32 = v := by
  rw [← Word.ofHalves_halves (v.low16.setWidth 32), high16_setWidth, low16_setWidth, ← h, Word.ofHalves_halves]

/-- A command word is its flags and its offset field (30_encoding R101, R103). -/
theorem flags_or_commandOffset {w f : BitVec 16} (h : w &&& 0xFE00#16 = f) : f ||| (commandOffset w).setWidth 16 = w := by
  subst h
  have hflags : ∀ i, i < 16 → (0xFE00#16).getLsbD i = decide (9 ≤ i) := by decide
  apply BitVec.eq_of_getLsbD_eq
  intro i hi
  simp only [BitVec.getLsbD_or, BitVec.getLsbD_and, hflags i hi, BitVec.getLsbD_setWidth, commandOffset,
    BitVec.getLsbD_extractLsb', Nat.zero_add, hi, decide_true, Bool.true_and]
  by_cases hoff : i < 9
  · simp [hoff]
  · simp [hoff, Nat.le_of_not_lt hoff]

/-- An address below 2^29 is its bits 28 to 0. -/
theorem setWidth_extract29 {v : Word} (h : v.toNat < 0x20000000) : (v.extractLsb' 0 29).setWidth 32 = v := by
  apply BitVec.eq_of_toNat_eq
  rw [BitVec.toNat_setWidth, BitVec.extractLsb'_toNat]
  omega

/-! ### What is read is encoded back -/

theorem decodeDir_eq_some {d : Word} {dir : Dir} (h : decodeDir d = some dir) : encodeDir dir = d := by
  unfold decodeDir at h
  split at h
  · next hd => cases h; exact hd.symm
  · split at h
    · next hd => cases h; exact hd.symm
    · cases h

/-- An instruction of one operand, encoded as its opcode word and the operand, with the words that the decoder leaves. -/
theorem oneOperand_encoded {c : Config} {w : Word} {mk : Word → Instr} {ops rest : List Word} {i : Instr}
    (hmk : ∀ a, encode c (mk a) = ⟨.opd, [w, a]⟩) (h : oneOperand mk ops = .ok (i, rest)) :
    (encode c i).fmt = .opd ∧ w :: ops = (encode c i).words ++ rest := by
  unfold oneOperand at h
  split at h
  · cases h; rw [hmk]; exact ⟨rfl, rfl⟩
  · cases h

/-- An instruction of two operands. -/
theorem twoOperands_encoded {c : Config} {w : Word} {mk : Word → Word → Instr} {ops rest : List Word} {i : Instr}
    (hmk : ∀ a b, encode c (mk a b) = ⟨.opd, [w, a, b]⟩) (h : twoOperands mk ops = .ok (i, rest)) :
    (encode c i).fmt = .opd ∧ w :: ops = (encode c i).words ++ rest := by
  unfold twoOperands at h
  split at h
  · cases h; rw [hmk]; exact ⟨rfl, rfl⟩
  · cases h

/-- DMA_XFER, its direction word with it (30_encoding R113). -/
theorem dmaOperands_encoded {c : Config} {ops rest : List Word} {i : Instr} (h : dmaOperands ops = .ok (i, rest)) :
    (encode c i).fmt = .opd ∧ 0x8#32 :: ops = (encode c i).words ++ rest := by
  unfold dmaOperands at h
  split at h
  · split at h
    · next hdir => cases h; rw [← decodeDir_eq_some hdir]; exact ⟨rfl, rfl⟩
    · cases h
  · cases h

theorem word_of_toNat {w : Word} {n : Nat} (h : w.toNat = n) : w = BitVec.ofNat 32 n := by
  subst h; simp

/-- A descriptor is the encoding of what it decodes to, and then the words that the decoder leaves (30_encoding R114). -/
theorem decodeOpd_ok {ws rest : List Word} {i : Instr} (h : decodeOpd ws = .ok (i, rest)) (c : Config) :
    (encode c i).fmt = .opd ∧ ws = (encode c i).words ++ rest := by
  unfold decodeOpd at h
  split at h
  · cases h
  split at h
  · cases h
  split at h
  next hw => rw [word_of_toNat hw]; cases h; exact ⟨rfl, rfl⟩
  next hw => rw [word_of_toNat hw]; cases h; exact ⟨rfl, rfl⟩
  next hw => rw [word_of_toNat hw]; exact twoOperands_encoded (fun _ _ => rfl) h
  next hw => rw [word_of_toNat hw]; exact twoOperands_encoded (fun _ _ => rfl) h
  next hw => rw [word_of_toNat hw]; exact oneOperand_encoded (fun _ => rfl) h
  next hw => rw [word_of_toNat hw]; exact twoOperands_encoded (fun _ _ => rfl) h
  next hw => rw [word_of_toNat hw]; exact twoOperands_encoded (fun _ _ => rfl) h
  next hw => rw [word_of_toNat hw]; exact twoOperands_encoded (fun _ _ => rfl) h
  next hw => rw [word_of_toNat hw]; exact dmaOperands_encoded h
  next hw => rw [word_of_toNat hw]; cases h; exact ⟨rfl, rfl⟩
  next hw => rw [word_of_toNat hw]; cases h; exact ⟨rfl, rfl⟩
  next hw => rw [word_of_toNat hw]; cases h; exact ⟨rfl, rfl⟩
  next hw => rw [word_of_toNat hw]; cases h; exact ⟨rfl, rfl⟩
  next => cases h

/-- The one word of a CMD16 row is the encoding of what it decodes to (30_encoding R102). -/
theorem decodeCommand_ok {v : Word} {i : Instr} (hhigh : v.high16 = 0#16) (h : decodeCommand v.low16 = .ok i) (c : Config) :
    encode c i = ⟨.cmd16, [v]⟩ := by
  have hv := setWidth_low16 hhigh
  unfold decodeCommand at h
  split at h
  · next hw => cases h; rw [← hv, hw]; rfl
  split at h
  · next hw =>
    cases h
    have hword : commandRead (commandOffset v.low16) = v.low16 := flags_or_commandOffset hw
    simp only [encode, hword, hv]
  split at h
  · next hw => cases h; rw [← hv, hw]; rfl
  split at h
  · next hw =>
    cases h
    have hword : commandWrite (commandOffset v.low16) = v.low16 := flags_or_commandOffset hw
    simp only [encode, hword, hv]
  · cases h

/-- The value of a BRG_WR row is the encoding of what it decodes to, its ignored half with it (30_encoding R106, R121). -/
theorem decodeBridgeWrite_ok {c : Config} {off : Nat} {v : Word} {i : Instr} (h : decodeBridgeWrite c off v = .ok i) :
    encode c i = ⟨.brgWr off, [v]⟩ := by
  have hv := Word.ofHalves_halves v
  unfold decodeBridgeWrite at h
  split at h
  · next hoff =>
    split at h
    · next hlow => cases h; rw [hoff, ← hv, hlow, Word.high16_ofHalves]; rfl
    · cases h
  split at h
  · next hoff =>
    split at h
    · next hlow => cases h; rw [hoff, ← hv, hlow, Word.high16_ofHalves]; rfl
    · cases h
  split at h
  · next hoff =>
    split at h
    · next hlow => cases h; rw [hoff, ← hv, hlow, Word.high16_ofHalves]; rfl
    · cases h
  · cases h

/-- The value of a DMA_WR row is the encoding of what it decodes to (30_encoding R107, R121). -/
theorem decodeDmaWrite_ok {c : Config} {off : Nat} {v : Word} {i : Instr} (h : decodeDmaWrite c off v = .ok i) :
    encode c i = ⟨.dmaWr off, [v]⟩ := by
  unfold decodeDmaWrite at h
  split at h
  · next hoff =>
    split at h
    · next hv => cases h; rw [hoff, hv]; rfl
    · cases h
  split at h
  · next hoff => cases h; rw [hoff]; rfl
  split at h
  · next hoff =>
    split at h
    · next hv => cases h; simp only [encode, setWidth_extract29 hv, hoff]
    · cases h
  split at h
  · next hoff => cases h; rw [hoff]; rfl
  split at h
  · next hoff => cases h; rw [hoff]; rfl
  · cases h

/-- The value of a TIM_WR row is the encoding of what it decodes to (30_encoding R108, R121). -/
theorem decodeTimingWrite_ok {c : Config} {n : Nat} {v : Word} {i : Instr} (h : decodeTimingWrite c n v = .ok i) :
    encode c i = ⟨.timWr n, [v]⟩ := by
  unfold decodeTimingWrite at h
  split at h
  · next e he =>
    split at h
    · next hv => cases h; simp [encode, timingValue, he, hv]
    · cases h
  · cases h

/-- A row that writes one value is encoded as that value, the first of the words. -/
theorem oneValue_encoded {c : Config} {f : Format} {k : Word → Except Reject Instr} {ws : List Word} {i : Instr}
    (hk : ∀ v, k v = .ok i → encode c i = ⟨f, [v]⟩) (h : oneValue k ws = .ok i) :
    (encode c i).fmt = f ∧ (encode c i).words <+: ws := by
  cases ws with
  | nil => cases h
  | cons v rest =>
    rw [hk v h]
    exact ⟨rfl, rest, rfl⟩

/-- Settles O2, by the format. -/
theorem decodedWordsAreEncoded : Obligations.DecodedWordsAreEncoded := by
  rintro c ⟨f, ws⟩ i h
  cases f with
  | opd =>
    change (decodeOpd ws).map (·.1) = .ok i at h
    cases hd : decodeOpd ws with
    | error why => rw [hd] at h; cases h
    | ok p =>
      obtain ⟨j, rest⟩ := p
      rw [hd] at h
      cases h
      obtain ⟨hfmt, hwords⟩ := decodeOpd_ok hd c
      exact ⟨hfmt, rest, hwords.symm⟩
  | cmd16 =>
    refine oneValue_encoded (fun v hv => ?_) h
    split at hv
    · next hhigh => exact decodeCommand_ok hhigh hv c
    · cases hv
  | brgWr off => exact oneValue_encoded (fun v hv => decodeBridgeWrite_ok hv) h
  | brgRd off =>
    change (if off = 0x0004 then _ else _) = _ at h
    split at h
    · next hoff => cases h; exact ⟨by rw [hoff]; rfl, List.nil_prefix⟩
    · cases h
  | dmaWr off => exact oneValue_encoded (fun v hv => decodeDmaWrite_ok hv) h
  | dmaRd off =>
    change (if off = 0x10 then _ else _) = _ at h
    split at h
    · next hoff => cases h; exact ⟨by rw [hoff]; rfl, List.nil_prefix⟩
    · cases h
  | timWr n => exact oneValue_encoded (fun v hv => decodeTimingWrite_ok hv) h

/-! ### The length of a descriptor (30_encoding R114) -/

/-- Words after a descriptor's last operand are not looked at (log 25). -/
theorem decode_encode_append {c : Config} {i : Instr} (h : (encode c i).fmt = .opd) (more : List Word) :
    decode c ⟨.opd, (encode c i).words ++ more⟩ = .ok i := by
  cases i with
  | new | init | waitNotBusy | canRead | canWrite | dmaWaitIdle => rfl
  | rdReg off => rfl
  | read a b | write a b | wrReg a b | cacheWb a b | cacheWbinv a b => rfl
  | dmaXfer ram periph len dir => cases dir <;> rfl
  | _ => cases h

/-- A descriptor that ends before its last operand is none (log 27). -/
theorem decode_encode_take {c : Config} {i : Instr} (h : (encode c i).fmt = .opd) {k : Nat}
    (hk : k < (encode c i).words.length) : decode c ⟨.opd, (encode c i).words.take k⟩ = .error .truncated := by
  cases i with
  | new | init | waitNotBusy | canRead | canWrite | dmaWaitIdle =>
    match k, hk with
    | 0, _ => rfl
  | rdReg off =>
    match k, hk with
    | 0, _ => rfl
    | 1, _ => rfl
  | read a b | write a b | wrReg a b | cacheWb a b | cacheWbinv a b =>
    match k, hk with
    | 0, _ => rfl
    | 1, _ => rfl
    | 2, _ => rfl
  | dmaXfer ram periph len dir =>
    match k, hk with
    | 0, _ => rfl
    | 1, _ => rfl
    | 2, _ => rfl
    | 3, _ => rfl
    | 4, _ => rfl
  | _ => cases h

/-- Settles O4: the words of each descriptor, as the encoder writes them. -/
theorem descriptorLengthFollowsOpcode : Obligations.DescriptorLengthFollowsOpcode := by
  intro c i more h
  refine ⟨decode_encode_append h more, fun k hk => decode_encode_take h hk, ?_⟩
  cases i with
  | new | init | waitNotBusy | canRead | canWrite | dmaWaitIdle => exact ⟨_, [], rfl, rfl⟩
  | rdReg off => exact ⟨_, [off], rfl, rfl⟩
  | read a b | write a b | wrReg a b | cacheWb a b | cacheWbinv a b => exact ⟨_, [a, b], rfl, rfl⟩
  | dmaXfer ram periph len dir => exact ⟨_, [ram, periph, len, encodeDir dir], rfl, rfl⟩
  | _ => cases h

end Sys2Proof

namespace Sys2Proof.Machine

/-! ### Descriptors refused (30_encoding R115) -/

/-- An offer whose words the decoder rejects is refused by the decoder's reason. -/
theorem step_offer_rejected {s : State} {es : List Event} {r : Request} {why : Reject} (h : s.sched = .offer r :: es)
    (hp : placeable r.fmt = true) (hd : decode s.cfg r = .error why) : step s = .refused (.badDescriptor why) := by
  rw [step_listed h]
  simp [runMove, placedStep, hp, offerStep, fetchInstr, hd]

theorem decode_nonzeroHighBits (c : Config) {w : Word} (h : 16 ≤ w.toNat) (rest : List Word) :
    decode c ⟨.opd, w :: rest⟩ = .error .nonzeroHighBits := by
  simp [decode, decodeOpd, h, Except.map]

theorem decode_badDirection (c : Config) {d : Word} (h0 : d ≠ 0#32) (h1 : d ≠ 1#32) (ram periph len : Word)
    (more : List Word) : decode c ⟨.opd, 0x8#32 :: ram :: periph :: len :: d :: more⟩ = .error .badDirection := by
  have hd : decodeDir d = none := by simp [decodeDir, h0, h1]
  simp [decode, decodeOpd, dmaOperands, hd, Except.map]

/-- Settles O5: the decoder's three rejections, each reached by a step. -/
theorem reservedDescriptorsRefused : Obligations.ReservedDescriptorsRefused := by
  intro s es w rest hsched
  refine ⟨fun hw => step_offer_rejected hsched rfl (decode_nonzeroHighBits s.cfg hw rest), ?_, ?_⟩
  · rintro (rfl | rfl | rfl) <;> exact step_offer_rejected hsched rfl rfl
  · rintro ram periph len d more rfl rfl h0 h1
    exact step_offer_rejected hsched rfl (decode_badDirection s.cfg h0 h1 ram periph len more)

end Sys2Proof.Machine
end

section
/-! PROOFS. WR_REG and the pseudo-operations on the bridge's registers (40_register_access R131, 30_encoding R121), and what
the bridge makes of a command word (43_handshake R202 to R204, R217). -/

namespace Sys2Proof.Machine

/-! ### The pseudo-operations' values -/

/-- A value with a zero upper half is its lower half, zero-extended (30_encoding R106). -/
theorem ofHalves_zero (lo : BitVec 16) : Word.ofHalves 0#16 lo = lo.setWidth 32 := by
  rw [← Word.ofHalves_halves (lo.setWidth 32), high16_setWidth, low16_setWidth]

/-- Settles O11: each row's value is that of the operation it expands to. -/
theorem pseudoOperationsExpand : Obligations.PseudoOperationsExpand := by
  intro s off
  have written : ∀ {r v w : Word}, v = w → exec (.wrReg r v) s = exec (.wrReg r w) s := fun h => by rw [h]
  exact ⟨rfl, written (setWidth_or_offset 0xC600#16 off), rfl, written (setWidth_or_offset 0xC200#16 off), rfl, rfl,
    written (ofHalves_zero s.cfg.ramCfgSaveOff), rfl⟩

/-! ### WR_REG as one transaction -/

/-- WR_REG is its write's effect, the transaction in the trace, and the answer Ok (40_register_access R131). -/
theorem exec_wrReg {s : State} (h : s.seq.op = .idle) (off v : Word) :
    exec (.wrReg off v) s =
      .next (((registerEffect off v s).transacted (.busWrite (regAddr s.cfg off) v)).ended [off, v] ⟨0#32, 0#32⟩) := by
  have hexec : exec (.wrReg off v) s =
      .next (sequencerStep ((s.latch .wrReg [off, v]).jump (.wrReg off v) [])) := whenIdle_idle h _
  have hstep : sequencerStep ((s.latch .wrReg [off, v]).jump (.wrReg off v) []) =
      answer 0#32 0#32 (registerWrite off v ((s.latch .wrReg [off, v]).jump (.wrReg off v) [])) := rfl
  rw [hexec, hstep, State.jump, State.latch, State.setSeq_setSeq, registerWrite_setSeq, registerWrite]
  simp only [State.ended, State.transacted, registerEffect_seq]
  rfl

/-- A write to a register that is there reaches the bridge alone, locked or not (40_register_access R136, R138). -/
theorem bridgeWrite_setBrg {r : BridgeReg} (h : r ≠ .other) (v : Word) (s : State) :
    ∃ b, bridgeWrite r v s = s.setBrg b := by
  have unlocked : ∀ f : State → State, (∃ b, f s = s.setBrg b) → ∃ b, whenUnlocked f s = s.setBrg b := fun f hf => by
    unfold whenUnlocked
    split
    · exact hf
    · exact ⟨_, rfl⟩
  have hcommand : ∃ b, command v.low16 s = s.setBrg b := by
    unfold command
    (repeat' split) <;> exact ⟨_, rfl⟩
  cases r with
  | usbCfg => exact unlocked _ hcommand
  | sysCfg | ramCfg | window =>
    simp only [bridgeWrite]
    exact unlocked _ ⟨_, rfl⟩
  | key => exact ⟨_, rfl⟩
  | other => exact absurd rfl h

theorem bridgeReg_eq_other {off : Nat} : bridgeReg off = .other ↔
    ¬ (off = 0x0004 ∨ off = 0x8000 ∨ off = 0x8004 ∨ off = 0x8018 ∨ (0x0400 ≤ off ∧ off ≤ 0x05FF)) := by
  unfold bridgeReg
  (repeat' split) <;> simp <;> omega

/-- A register write reaches the bridge, and the DMA block only at an offset that no register has (30_encoding R118). -/
theorem registerEffect_frame {s : State} (hl : s.cfg.legal = true) (off v : Word) : ∃ b d,
    registerEffect off v s = { s with brg := b, dma := d } ∧ (bridgeReg off.toNat ≠ .other → d = s.dma) := by
  by_cases hoff : off.toNat ≤ bridgeTop
  · rw [registerEffect_bridge hl hoff]
    by_cases hreg : bridgeReg off.toNat = .other
    · rw [hreg]
      exact ⟨_, _, rfl, fun h => absurd rfl h⟩
    · obtain ⟨b, hb⟩ := bridgeWrite_setBrg hreg v s
      exact ⟨b, s.dma, hb, fun _ => rfl⟩
  · have hreg : bridgeReg off.toNat = .other := by
      rw [bridgeReg_eq_other]
      unfold bridgeTop at hoff
      omega
    exact ⟨_, _, if_neg hoff, fun h => absurd hreg h⟩

/-- Settles O14, from the write's frame. -/
theorem writeRegisterIsOneWrite : Obligations.WriteRegisterIsOneWrite := by
  intro s off v hl hop
  obtain ⟨b, d, heffect, hdma⟩ := registerEffect_frame hl off v
  refine ⟨b, d, ?_, fun hdocumented => hdma fun hother => bridgeReg_eq_other.1 hother hdocumented⟩
  rw [exec_wrReg hop, heffect]
  rfl

/-! ### A command word, by what the bridge makes of it -/

/-- An activate command finds the bridge idle (43_handshake R203). -/
theorem command_activate {w : BitVec 16} {s : State} (hd : commandDefined w = true) (hact : commandActivates w = true)
    (ha : s.brg.active = false) : command w s = s.setBrg (activate w { s.brg with cmd := w }) := by
  simp [command, hd, hact, ha]

/-- A no-op command (43_handshake R204). -/
theorem command_noOperation {w : BitVec 16} (hd : commandDefined w = true) (hact : commandActivates w = false)
    (s : State) : command w s = s.setBrg (noOperation s.draws w { s.brg with cmd := w }) := by
  simp [command, hd, hact]

/-- A word that R202 gives no effect, or an activate command to an active bridge (43_handshake R202, R217). -/
theorem command_undefined {w : BitVec 16} {s : State}
    (h : commandDefined w = false ∨ commandActivates w = true ∧ s.brg.active = true) :
    command w s = s.setBrg (freeHandshake s.cfg s.draws { s.brg with cmd := w }) := by
  rcases h with hd | ⟨hact, ha⟩
  · simp [command, hd]
  · simp [command, hact, ha]

/-- The state after WR_REG of `v` to USB_CFG, the bridge being `b` then. -/
def State.commanded (s : State) (b : Bridge) (v : Word) : State :=
  (({ s with brg := b } : State).transacted (.busWrite (regAddr s.cfg 0x0004#32) v)).ended [0x0004#32, v] ⟨0#32, 0#32⟩

/-- WR_REG of USB_CFG gives an unlocked bridge the value's low half as a command (40_register_access R136). -/
theorem exec_command {s : State} (hr : s.bridgeReady) (hop : s.seq.op = .idle) {v : Word} {b : Bridge}
    (hb : command v.low16 s = s.setBrg b) : exec (.wrReg 0x0004#32 v) s = .next (s.commanded b v) := by
  have heffect : registerEffect 0x0004#32 v s = command v.low16 s := registerEffect_usbCfg hr.1 hr.2 v
  rw [exec_wrReg hop, heffect, hb]
  rfl

/-- An activate command by WR_REG, the word's fields being known. -/
theorem exec_activate {s : State} (hr : s.bridgeReady) (hop : s.seq.op = .idle) (ha : s.brg.active = false) {v : Word}
    {w : BitVec 16} {dir : BrgDir} {off : BitVec 9} (hv : v.low16 = w)
    (hw : commandDefined w = true ∧ commandActivates w = true ∧ commandDir w = dir ∧ commandOffset w = off) :
    exec (.wrReg 0x0004#32 v) s = .next (s.commanded
      { s.brg with cmd := w, active := true, dir := dir, ptr := ⟨off.toNat, Nat.lt_trans off.isLt (by decide)⟩ } v) := by
  obtain ⟨hdefined, hactivates, rfl, rfl⟩ := hw
  subst hv
  exact exec_command hr hop (command_activate hdefined hactivates ha)

/-- Settles O17, from the fields of the two activate commands. -/
theorem activateCommandStartsPacket : Obligations.ActivateCommandStartsPacket := by
  intro s off hr hop ha
  refine ⟨⟨off.toNat, Nat.lt_trans off.isLt (by decide)⟩, rfl, ?_⟩
  intro started
  have read : ∀ {v : Word}, v.low16 = commandRead off →
      exec (.wrReg 0x0004#32 v) s = .next (started (commandRead off) .rd v) :=
    fun hv => exec_activate hr hop ha hv (commandRead_fields off)
  have write : ∀ {v : Word}, v.low16 = commandWrite off →
      exec (.wrReg 0x0004#32 v) s = .next (started (commandWrite off) .wr v) :=
    fun hv => exec_activate hr hop ha hv (commandWrite_fields off)
  refine ⟨read (low16_setWidth _), write (low16_setWidth _), fun v => ⟨fun hv => ?_, fun hv => ?_⟩⟩
  · rw [hv]; exact read hv
  · rw [hv]; exact write hv

/-- A no-op command by WR_REG, the word's fields being known. -/
theorem exec_noOperation {s : State} (hr : s.bridgeReady) (hop : s.seq.op = .idle) {v : Word} {w : BitVec 16}
    {dir : BrgDir} (hv : v.low16 = w) (hdefined : commandDefined w = true) (hno : commandActivates w = false)
    (hdir : commandDir w = dir) : exec (.wrReg 0x0004#32 v) s = .next (s.commanded
      { s.brg with cmd := w, active := false, dir := dir, ptr := Config.freePtr s.draws } v) := by
  subst hv hdir
  exact exec_command hr hop (command_noOperation hdefined hno s)

/-- Settles O18, from the fields of the two no-op commands. -/
theorem noOpCommandIdlesBridge : Obligations.NoOpCommandIdlesBridge := by
  intro s hr hop
  refine ⟨Config.freePtr s.draws, ?_⟩
  intro idled
  have read : ∀ v : Word, v.low16 = 0xC400#16 → exec (.wrReg 0x0004#32 v) s = .next (idled 0xC400#16 .rd v) :=
    fun v hv => exec_noOperation hr hop hv rfl rfl rfl
  have write : ∀ v : Word, v.low16 = 0xC000#16 → exec (.wrReg 0x0004#32 v) s = .next (idled 0xC000#16 .wr v) :=
    fun v hv => exec_noOperation hr hop hv rfl rfl rfl
  exact ⟨read _ rfl, write _ rfl, fun v => ⟨read v, write v⟩⟩

theorem low16_getLsbD (v : Word) {i : Nat} (hi : i < 16) : v.low16.getLsbD i = v.getLsbD i := by
  simp [Word.low16, hi]

theorem low16_extract (v : Word) {start len : Nat} (h : start + len ≤ 16) :
    v.low16.extractLsb' start len = v.extractLsb' start len := by
  apply BitVec.eq_of_getLsbD_eq
  intro i hi
  rw [BitVec.getLsbD_extractLsb', BitVec.getLsbD_extractLsb', low16_getLsbD v (by omega)]

/-- The words that R202 gives an effect, by the bits of the value that carries the word (30_encoding R116). -/
theorem commandDefined_low16 (v : Word) : commandDefined v.low16 = true ↔
    v.getLsbD 15 = true ∧ v.getLsbD 14 = true ∧ v.extractLsb' 11 3 = 0#3 ∧
      (v.getLsbD 9 = true ∨ v.extractLsb' 0 9 = 0#9) := by
  simp only [commandDefined, commandActivates, commandOffset, low16_getLsbD v (by decide : 15 < 16),
    low16_getLsbD v (by decide : 14 < 16), low16_getLsbD v (by decide : 9 < 16),
    low16_extract v (by decide : 11 + 3 ≤ 16), low16_extract v (by decide : 0 + 9 ≤ 16), Bool.and_eq_true,
    Bool.or_eq_true, decide_eq_true_eq, and_assoc]

/-- Bytes only leave the receive FIFO at its front and join the transmit FIFO at its end (log 13). -/
theorem freeHandshake_fifos (c : Config) (n : Nat) (b : Bridge) :
    (freeHandshake c n b).rxFifo <:+ b.rxFifo ∧ b.txFifo <+: (freeHandshake c n b).txFifo :=
  ⟨List.drop_suffix _ _, List.prefix_append _ _⟩

/-- Settles O19: each of the words leaves the handshake at draws. -/
theorem undefinedCommandStaysInBridge : Obligations.UndefinedCommandStaysInBridge := by
  intro s v hr hop hword
  have hundefined : commandDefined v.low16 = false ∨ commandActivates v.low16 = true ∧ s.brg.active = true := by
    rw [← Bool.not_eq_true, commandDefined_low16, commandActivates, low16_getLsbD v (by decide)]
    rcases hword with h15 | h14 | hmid | ⟨h9, hoff⟩ | hactive
    · exact .inl fun ⟨h, _⟩ => Bool.false_ne_true (h15.symm.trans h)
    · exact .inl fun ⟨_, h, _⟩ => Bool.false_ne_true (h14.symm.trans h)
    · exact .inl fun ⟨_, _, h, _⟩ => hmid h
    · exact .inl fun ⟨_, _, _, h⟩ => h.elim (fun h => Bool.false_ne_true (h9.symm.trans h)) hoff
    · exact .inr hactive
  obtain ⟨hrx, htx⟩ := freeHandshake_fifos s.cfg s.draws { s.brg with cmd := v.low16 }
  exact ⟨_, exec_command hr hop (command_undefined hundefined), rfl, rfl, rfl, rfl, hrx, htx⟩

end Sys2Proof.Machine
end

section
/-! PROOFS. The pseudo-operations on the DMA block and the timing registers (30_encoding R121): one bus transaction each, with
an idle engine and with a busy one (42_dma R174, R175, R179, R180, R185). -/

namespace Sys2Proof.Machine

/-! ### The transaction of each pseudo-operation -/

/-- A write to a DMA register by a pseudo-operation: the instruction, its register and the value written. -/
inductive WritesDma (c : Config) : Instr → DmaReg → Word → Prop
  | arm : WritesDma c .dmaArm .status c.dmaArm
  | setRam (v : Word) : WritesDma c (.dmaSetRam v) .ramAddr v
  | setPeriph (p : BitVec 29) : WritesDma c (.dmaSetPeriph p) .peripheralAddr (p.setWidth 32)
  | startIn (v : Word) : WritesDma c (.dmaStartIn v) .readLen v
  | startOut (v : Word) : WritesDma c (.dmaStartOut v) .writeLen v

/-- The pseudo-operation is that one bus write, with no answer (log 9). -/
theorem WritesDma.exec_write {i : Instr} {r : DmaReg} {v : Word} {s : State} (h : WritesDma s.cfg i r v)
    (hop : s.seq.op = .idle) : exec i s = .next (busWrite (dmaAddr s.cfg r) v s) := by
  cases h <;> exact whenIdle_idle hop _

/-- Only the arm value goes to `status`. -/
theorem WritesDma.status {c : Config} {i : Instr} {r : DmaReg} {v : Word} (h : WritesDma c i r v) (hr : r = .status) :
    v = c.dmaArm := by
  cases h with
  | arm => rfl
  | setRam | setPeriph | startIn | startOut => cases hr

/-! ### An idle engine -/

/-- To an idle engine: the register written, a job started by a length. -/
theorem WritesDma.exec_idle {i : Instr} {r : DmaReg} {v : Word} {s : State} (h : WritesDma s.cfg i r v)
    (hl : s.cfg.legal = true) (hop : s.seq.op = .idle) (hb : s.dma.busy = false) :
    exec i s = .next (({ s with dma := dmaAfter r v s.dma } : State).transacted (.busWrite (dmaAddr s.cfg r) v)) := by
  rw [h.exec_write hop, busWrite_dma_idle hl hb r v h.status]

/-- Settles O35: the three writes that start nothing. -/
theorem dmaAddressRegistersStore : Obligations.DmaAddressRegistersStore := by
  intro s ram p hl hop hb
  exact ⟨WritesDma.arm.exec_idle hl hop hb, (WritesDma.setRam ram).exec_idle hl hop hb,
    (WritesDma.setPeriph p).exec_idle hl hop hb⟩

/-- Settles O36: the two writes that start a job. -/
theorem lengthWriteStartsJob : Obligations.LengthWriteStartsJob := by
  intro s n hl hop hb
  exact ⟨_, count_toNat n, (WritesDma.startIn n).exec_idle hl hop hb, (WritesDma.startOut n).exec_idle hl hop hb⟩

/-- Settles O37, by the law of the status word. -/
theorem dmaStatusReportsIdle : Obligations.DmaStatusReportsIdle := by
  intro s hl hop
  exact ⟨dmaStatusWord s, status_word hl, whenIdle_idle hop _⟩

/-! ### The timing registers -/

/-- DOM1_SET of an entry is one bus write of its value at its address. -/
theorem exec_dom1Set {s : State} (hop : s.seq.op = .idle) {n : Nat} {e : Word × Word}
    (he : s.cfg.dom1Timing[n]? = some e) :
    exec (.dom1Set n) s = .next (busWrite (uncached s.cfg e.1) e.2 s) := by
  have hindex : timingIndexOk s.cfg n = true := decide_eq_true (List.getElem?_eq_some_iff.1 he).1
  refine (whenIdleAnd_idle hop hindex _ _).trans ?_
  simp only [timingValue, he, Option.map_some, Option.getD_some]

/-- An index past the list is refused (log 9). -/
theorem exec_dom1Set_past {s : State} (hop : s.seq.op = .idle) {n : Nat} (hn : s.cfg.dom1Timing.length ≤ n) :
    exec (.dom1Set n) s = .refused .noTimingRegister := by
  have hindex : timingIndexOk s.cfg n = false := decide_eq_false (by omega)
  change whenIdleAnd (timingIndexOk s.cfg n) _ _ s = _
  simp [whenIdleAnd, hop, hindex]

/-- Settles O39: the entry's address is its timing register's. -/
theorem timingWriteStores : Obligations.TimingWriteStores := by
  intro s n hl hop
  refine ⟨fun a v he => ⟨keySet a.toNat v s.dma.timing, ?_, fun p => keyGet_keySet p a.toNat v _⟩,
    fun hn => exec_dom1Set_past hop hn⟩
  rw [exec_dom1Set hop he, busWrite, busEffect_timing hl (List.mem_of_getElem? he)]
  rfl

/-! ### A busy engine -/

/-- The DMA block with a register written while the engine is busy: an address is stored, a length leaves a draw (log 31). -/
def dmaStored (r : DmaReg) (v : Word) (s : State) : Dma :=
  match r with
  | .ramAddr => { s.dma with ramAddr := v }
  | .peripheralAddr => { s.dma with peripheralAddr := v }
  | .readLen => { s.dma with readLen := lengthAfter 6 v s }
  | .writeLen => { s.dma with writeLen := lengthAfter 7 v s }
  | .status => s.dma

/-- A write to a busy engine's register stores it and disturbs the engine (42_dma R174, R180). -/
theorem dmaWrite_busy {s : State} (hb : s.dma.busy = true) (r : DmaReg) (v : Word) :
    dmaWrite r v s = disturbEngine (s.setDma (dmaStored r v s)) := by
  have disturbed : ∀ (f : State → State) (t : State), t.dma.busy = true → whenEngineIdle f t = disturbEngine t :=
    fun f t h => if_pos h
  cases r with
  | ramAddr | peripheralAddr | readLen | writeLen => exact disturbed _ _ hb
  | status => exact if_neg fun h => by simp [hb] at h

@[simp] theorem dmaStored_job (r : DmaReg) (v : Word) (s : State) : (dmaStored r v s).job = s.dma.job := by
  cases r <;> rfl

@[simp] theorem dmaStored_timing (r : DmaReg) (v : Word) (s : State) : (dmaStored r v s).timing = s.dma.timing := by
  cases r <;> rfl

theorem dmaStored_ramAddr (r : DmaReg) (v : Word) (s : State) :
    (dmaStored r v s).ramAddr = if r.offset = 0x00#32 then v else s.dma.ramAddr := by
  cases r <;> rfl

theorem dmaStored_peripheralAddr (r : DmaReg) (v : Word) (s : State) :
    (dmaStored r v s).peripheralAddr = if r.offset = 0x04#32 then v else s.dma.peripheralAddr := by
  cases r <;> rfl

theorem dmaStored_readLen {r : DmaReg} (h : r.offset ≠ 0x08#32) (v : Word) (s : State) :
    (dmaStored r v s).readLen = s.dma.readLen := by
  cases r with
  | readLen => exact absurd rfl h
  | ramAddr | peripheralAddr | writeLen | status => rfl

theorem dmaStored_writeLen {r : DmaReg} (h : r.offset ≠ 0x0C#32) (v : Word) (s : State) :
    (dmaStored r v s).writeLen = s.dma.writeLen := by
  cases r with
  | writeLen => exact absurd rfl h
  | ramAddr | peripheralAddr | readLen | status => rfl

/-- A disturbed engine's block keeps its registers (42_dma R180). -/
theorem disturbEngine_dma (s : State) : (disturbEngine s).dma =
    { s.dma with busy := Config.freeBit s.draws 3, job := freeJob s.draws } := by
  simp [disturbEngine]

@[simp] theorem disturbEngine_brg (s : State) : (disturbEngine s).brg = (freeDestination s.dma.job s).brg := rfl

@[simp] theorem disturbEngine_mem (s : State) : (disturbEngine s).mem = (freeDestination s.dma.job s).mem := rfl

/-- The bytes of RAM outside a block of draws stay. -/
theorem freeRam_read_other {d a n x : Nat} (h : x < a ∨ a + n ≤ x) (s : State) :
    (freeRam d a n s).mem.read x = s.mem.read x := by
  induction n with
  | zero => rfl
  | succ n ih => rw [freeRam, ramWrite_read, if_neg (by omega), ih (by omega)]

/-- The window bytes outside a block of draws stay. -/
theorem freeWindowPart_other {d lo n : Nat} {j : Fin 512} (h : j.val < lo ∨ lo + n ≤ j.val) (w : Vector Byte 512) :
    (freeWindowPart d lo n w)[j] = w[j] := by
  have hout : ¬ (lo ≤ j.val ∧ j.val < lo + n) := by omega
  simp [freeWindowPart, hout]

/-- An incoming job's destination is in RAM (log 15). -/
theorem freeDestination_incoming {j : Job} (hd : j.dir = .incoming) (s : State) :
    (freeDestination j s).brg = s.brg ∧
      (ramPhys j.ram + j.count.toNat ≤ s.cfg.ramSize →
        ∀ x, x < ramPhys j.ram ∨ ramPhys j.ram + j.count.toNat ≤ x →
          (freeDestination j s).mem.read x = s.mem.read x) := by
  simp only [freeDestination, hd]
  by_cases hram : ramPhys j.ram + j.count.toNat ≤ s.cfg.ramSize
  · simp only [if_pos hram]
    exact ⟨freeRam_brg _ _ _ s, fun _ x hx => freeRam_read_other hx s⟩
  · simp only [if_neg hram]
    exact ⟨rfl, fun h => absurd h hram⟩

theorem freeDestination_outgoing_mem {j : Job} (hd : j.dir = .outgoing) (s : State) :
    (freeDestination j s).mem = s.mem := by
  simp only [freeDestination, hd]
  split
  · split <;> exact State.setBrg_mem s _
  · exact State.setBrg_mem s _

theorem freeDestination_window {j : Job} (hd : j.dir = .outgoing) {s : State} {k : Fin 512}
    (hk : windowIndex s.cfg j.periph = some k) (hblock : k.val + j.count.toNat ≤ 512) :
    freeDestination j s = s.setBrg { s.brg with pkt := freeWindowPart s.draws k.val j.count.toNat s.brg.pkt } := by
  simp only [freeDestination, hd, hk, if_pos hblock]

/-- An outgoing job's destination is in the packet window (log 15). -/
theorem freeDestination_outgoing {j : Job} (hd : j.dir = .outgoing) (s : State) :
    (freeDestination j s).mem = s.mem ∧
      ∀ k : Fin 512, windowIndex s.cfg j.periph = some k → k.val + j.count.toNat ≤ 512 →
        (freeDestination j s).brg = { s.brg with pkt := (freeDestination j s).brg.pkt } ∧
          ∀ i : Fin 512, i.val < k.val ∨ k.val + j.count.toNat ≤ i.val →
            (freeDestination j s).brg.pkt[i] = s.brg.pkt[i] := by
  refine ⟨freeDestination_outgoing_mem hd s, fun k hk hblock => ?_⟩
  rw [freeDestination_window hd hk hblock]
  exact ⟨rfl, fun i hi => freeWindowPart_other hi s.brg.pkt⟩

/-- The instructions that O38 names are the writes to DMA registers, each register by its offset. -/
theorem writesDma_of_offset {c : Config} {i : Instr} {o v : Word}
    (h : (i = .dmaArm ∧ o = 0x10#32 ∧ v = c.dmaArm) ∨ (i = .dmaSetRam v ∧ o = 0x00#32) ∨
      ((∃ p : BitVec 29, i = .dmaSetPeriph p ∧ v = p.setWidth 32) ∧ o = 0x04#32) ∨
      (i = .dmaStartIn v ∧ o = 0x08#32) ∨ (i = .dmaStartOut v ∧ o = 0x0C#32)) :
    ∃ r : DmaReg, WritesDma c i r v ∧ r.offset = o := by
  rcases h with ⟨rfl, rfl, rfl⟩ | ⟨rfl, rfl⟩ | ⟨⟨p, rfl, rfl⟩, rfl⟩ | ⟨rfl, rfl⟩ | ⟨rfl, rfl⟩
  · exact ⟨.status, .arm, rfl⟩
  · exact ⟨.ramAddr, .setRam v, rfl⟩
  · exact ⟨.peripheralAddr, .setPeriph p, rfl⟩
  · exact ⟨.readLen, .startIn v, rfl⟩
  · exact ⟨.writeLen, .startOut v, rfl⟩

/-- Settles O38: the register is stored, the engine disturbed, and the disturbance ends at the job's destination. -/
theorem busyEngineDisturbanceIsBounded : Obligations.BusyEngineDisturbanceIsBounded := by
  intro s i o v hl hop hb hi
  obtain ⟨r, hwrites, rfl⟩ := writesDma_of_offset hi
  refine ⟨_, hwrites.exec_write hop, busWrite_trace _ _ s, busWrite_seq _ _ s, busWrite_cache _ _ s, busWrite_host _ _ s,
    busWrite_client _ _ s, busWrite_cfg _ _ s, busWrite_sched _ _ s, ?_⟩
  rw [busWrite, busEffect_dma hl, dmaWrite_busy hb]
  simp only [writeDone_dma, writeDone_brg, writeDone_mem, disturbEngine_dma, disturbEngine_brg, disturbEngine_mem,
    State.setDma_dma, dmaStored_timing, dmaStored_job]
  exact ⟨trivial, dmaStored_ramAddr r v s, dmaStored_peripheralAddr r v s, fun h => dmaStored_readLen h v s,
    fun h => dmaStored_writeLen h v s, fun hd => freeDestination_incoming hd (s.setDma (dmaStored r v s)),
    fun hd => freeDestination_outgoing hd (s.setDma (dmaStored r v s))⟩

end Sys2Proof.Machine
end

section
/-! PROOFS. RD_REG as one bus read (40_register_access R130), and DMA_XFER's programming of an engine found idle alone
(70_reset_and_hazards R319; 42_dma R166, R167). -/

namespace Sys2Proof.Machine

/-! ### RD_REG as one transaction -/

/-- RD_REG is its read in the trace and the word read as its answer (40_register_access R130). -/
theorem exec_rdReg {s : State} (hop : s.seq.op = .idle) (off : Word) :
    exec (.rdReg off) s =
      .next ((s.transacted (.busRead (regAddr s.cfg off) (registerData off s).value)).ended [off]
        ⟨0#32, (registerData off s).value⟩) :=
  whenIdle_idle hop _

/-- Settles O12: the word is what the register's read returns. -/
theorem readRegisterIsOneRead : Obligations.ReadRegisterIsOneRead := by
  intro s off hop
  exact ⟨(registerData off s).value, exec_rdReg hop off⟩

/-! ### Requests that CLIENT has no operation for -/

/-- CLIENT's offer in a format it cannot place is refused before it is decoded (log 9). -/
theorem step_offer_unplaceable {s : State} {r : Request} {es : List Event} (hs : s.sched = .offer r :: es)
    (hr : placeable r.fmt = false) : step s = .refused .wrongPlacer := by
  simp [step_listed hs, runMove, placedStep, hr]

/-! ### Where a first wait's frame can stand

SEQ's invariant puts DMA_XFER's first wait on the return stack only at its own poll: none of the other routines is called
from there. -/

theorem noFirstWait_cons {f : Frame} {k : List Frame} (hf : noFirstWait [f] = true) (hk : noFirstWait k = true) :
    noFirstWait (f :: k) = true := by
  simp only [noFirstWait, List.all_cons, List.all_nil, Bool.and_true, Bool.and_eq_true] at hf hk ⊢
  exact ⟨hf, hk⟩

theorem noFirstWait_readCallers {op : Op} {k : List Frame} (h : readCallers op k = true) : noFirstWait k = true := by
  rcases readCallers_cases h with ⟨rfl, -⟩ | ⟨rfl, -⟩ <;> rfl

theorem noFirstWait_writeCallers {op : Op} {k : List Frame} (h : writeCallers op k = true) : noFirstWait k = true := by
  obtain ⟨rfl, -⟩ := writeCallers_cases h
  rfl

theorem noFirstWait_transferCallers {op : Op} {k : List Frame} (h : transferCallers op k = true) :
    noFirstWait k = true := by
  unfold transferCallers at h
  split at h
  · rfl
  · exact noFirstWait_cons rfl (noFirstWait_readCallers h)
  · exact noFirstWait_cons rfl (noFirstWait_writeCallers h)
  · cases h

theorem noFirstWait_waitCallers {op : Op} {k : List Frame} (h : waitCallers op k = true) : noFirstWait k = true := by
  unfold waitCallers at h
  split at h
  · rfl
  · exact noFirstWait_cons rfl (noFirstWait_readCallers h)
  · exact noFirstWait_cons rfl (noFirstWait_readCallers h)
  · exact noFirstWait_cons rfl (noFirstWait_writeCallers h)
  · cases h

theorem noFirstWait_readRegCallers {op : Op} {k : List Frame} (h : readRegCallers op k = true) :
    noFirstWait k = true := by
  unfold readRegCallers at h
  split at h
  · rfl
  · exact noFirstWait_cons rfl (noFirstWait_waitCallers h)
  · rfl
  · rfl
  · rfl
  · cases h

theorem noFirstWait_writeRegCallers {op : Op} {k : List Frame} (h : writeRegCallers op k = true) :
    noFirstWait k = true := by
  unfold writeRegCallers at h
  split at h
  · rfl
  · exact noFirstWait_cons rfl (noFirstWait_waitCallers h)
  · exact noFirstWait_cons rfl (noFirstWait_readCallers h)
  · exact noFirstWait_cons rfl (noFirstWait_writeCallers h)
  · exact noFirstWait_cons rfl (noFirstWait_writeCallers h)
  · rfl
  · rfl
  · rfl
  · cases h

theorem noFirstWait_walkCallers {op : Op} {kind : CacheKind} {k : List Frame} (h : walkCallers op kind k = true) :
    noFirstWait k = true := by
  unfold walkCallers at h
  split at h
  · rfl
  · rfl
  · exact noFirstWait_cons rfl (noFirstWait_readCallers h)
  · exact noFirstWait_cons rfl (noFirstWait_writeCallers h)
  · cases h

theorem noFirstWait_of_controlOk {q : Sequencer} (h : q.controlOk = true) (hp : q.phase ≠ .dmaPoll) :
    noFirstWait q.stack = true := by
  unfold Sequencer.controlOk at h
  cases hphase : q.phase with
  | dmaPoll => exact absurd hphase hp
  | idle | initTiming i =>
    rw [hphase] at h
    obtain ⟨-, hk⟩ := Bool.and_eq_true_iff.1 h
    rw [List.isEmpty_iff.1 hk]
    rfl
  | rdReg off => rw [hphase] at h; exact noFirstWait_readRegCallers h
  | wrReg off v => rw [hphase] at h; exact noFirstWait_writeRegCallers h
  | line kind a last => rw [hphase] at h; exact noFirstWait_walkCallers h
  | dmaArm x | dmaRam x | dmaPeriph x | dmaLen x => rw [hphase] at h; exact noFirstWait_transferCallers h

/-! ### The engine is idle at every programming write (70_reset_and_hazards R319) -/

/-- While SEQ stands at one of DMA_XFER's programming writes, the engine is idle. -/
def State.ProgramsIdleEngine (s : State) : Prop := s.seq.phase.programs = true → s.dma.busy = false

/-- A move that leaves SEQ where it is, and an idle engine idle. -/
theorem State.ProgramsIdleEngine.of_seq {s t : State} (h : s.ProgramsIdleEngine) (hseq : t.seq = s.seq)
    (hidle : s.dma.busy = false → t.dma.busy = false) : t.ProgramsIdleEngine := by
  intro hp
  rw [hseq] at hp
  exact hidle (h hp)

theorem sequencerStep_programsIdleEngine {s : State} (hl : s.cfg.legal = true) (hs : s.seqOk = true)
    (h : s.ProgramsIdleEngine) : (sequencerStep s).ProgramsIdleEngine := by
  obtain ⟨hflow, -⟩ := (State.seqOk_iff s).1 hs
  exact sequencerStep_programs hl h (noFirstWait_of_controlOk (flowOk_split.1 hflow).1)

/-- An accepted operation begins at a point that programs nothing, called by no first wait, or at the poll of DMA_XFER's
own. -/
theorem Opens.plain_or_firstWait {op : Op} {args : List Word} {routine : State → Flow} (h : Opens op args routine)
    (t : State) : (routine t).plain = true ∨ ∃ x, routine t = .goto .dmaPoll [.dmaFirstWait x] t := by
  cases h with
  | dmaXfer ram periph len dir => exact .inr ⟨_, rfl⟩
  | init => left; unfold initFrom; split <;> rfl
  | cacheWb addr len | cacheWbinv addr len => left; unfold walkRange; split <;> rfl
  | new | read | write | rdReg | wrReg | waitNotBusy | canRead | canWrite | dmaWaitIdle => exact .inl rfl

theorem launch_programsIdleEngine {op : Op} {args : List Word} {routine : State → Flow} (h : Opens op args routine)
    {s : State} (hl : s.cfg.legal = true) : (launch op args routine s).ProgramsIdleEngine := by
  have hcfg := (h.seqOnly (s.latch op args)).cfg
  have hplain := h.plain_or_firstWait (s.latch op args)
  cases hf : routine (s.latch op args) with
  | goto p k u =>
    rw [hf] at hcfg hplain
    have hlegal : (u.jump p k).cfg.legal = true := (congrArg Config.legal hcfg).trans hl
    rw [launch_goto hf]
    rcases hplain with hplain | ⟨x, hpoll⟩
    · obtain ⟨hp, hk⟩ : p.programs = false ∧ noFirstWait k = true := by simpa [Flow.plain] using hplain
      exact sequencerStep_programs hlegal (fun hprograms => absurd hprograms (by simp [hp])) fun _ => hk
    · cases hpoll
      exact sequencerStep_programs hlegal nofun fun hne => absurd rfl hne
  | ret r u =>
    rw [launch_ret hf]
    exact fun hp => absurd hp (by cases r <;> exact Bool.false_ne_true)

/-- What is accepted finds SEQ idle, so a single transaction leaves it at the idle point. -/
theorem exec_programsIdleEngine {i : Instr} {s t : State} (hl : s.cfg.legal = true) (hs : s.seqOk = true)
    (h : exec i s = .next t) : t.ProgramsIdleEngine := by
  obtain ⟨hop, haccepts⟩ := exec_accepts h
  obtain ⟨hphase, -⟩ := idle_of_op hs hop
  have atRest : ∀ {u : State}, u.seq = s.seq → u.ProgramsIdleEngine := fun hseq hp => by
    rw [hseq, hphase] at hp
    cases hp
  cases haccepts with
  | opened ho => exact launch_programsIdleEngine ho hl
  | wrote a v => exact atRest (busWrite_seq a v s)
  | looked a d => exact atRest (readDone_seq a d s)

/-- Only a busy engine moves a byte or completes (42_dma R176, R178). -/
theorem dmaMove_of_idle {s : State} (hb : s.dma.busy = false) (i : Nat) : dmaMove i s = s := by
  simp [dmaMove, moveEnabled, hb]

theorem dmaComplete_of_idle {s : State} (hb : s.dma.busy = false) : dmaComplete s = s := by
  simp [dmaComplete, hb]

theorem placedStep_programsIdleEngine {ok : Bool} {r : Request} {s t : State} (hl : s.cfg.legal = true)
    (hs : s.seqOk = true) (h : placedStep ok r s = .next t) : t.ProgramsIdleEngine := by
  obtain ⟨-, i, -, hi⟩ := placedStep_next h
  exact exec_programsIdleEngine hl hs hi

theorem runMove_programsIdleEngine {e : Event} {s t : State} (hl : s.cfg.legal = true) (hs : s.seqOk = true)
    (hprograms : s.ProgramsIdleEngine) (h : runMove e s = .next t) : t.ProgramsIdleEngine := by
  have sameDma : ∀ {u : State}, u.seq = s.seq → u.dma = s.dma → u.ProgramsIdleEngine := fun hseq hdma =>
    hprograms.of_seq hseq fun hb => by rw [hdma, hb]
  cases e with
  | offer r => exact placedStep_programsIdleEngine hl hs h
  | bare r => exact placedStep_programsIdleEngine hl hs h
  | seq => cases h; exact sequencerStep_programsIdleEngine hl hs hprograms
  | dmaMove i =>
    cases h
    exact hprograms.of_seq (dmaMove_seq i s) fun hb => by rw [dmaMove_of_idle hb, hb]
  | dmaComplete =>
    cases h
    exact hprograms.of_seq (dmaComplete_seq s) fun hb => by rw [dmaComplete_of_idle hb, hb]
  | bridge => cases h; exact sameDma (bridgeStep_seq s) (bridgeStep_dma s)
  | evict l => cases h; exact sameDma (evictLine_seq l s) (evictLine_dma l s)
  | hostSend b => cases h; exact sameDma (hostSend_seq b s) (hostSend_dma b s)
  | hostTake => cases h; exact sameDma (hostTake_seq s) (hostTake_dma s)
  | hostPower v => cases h; exact sameDma (hostPower_seq v s) (hostPower_dma v s)
  | hostLoopback => cases h; exact sameDma (hostLoopback_seq s) (hostLoopback_dma s)
  | cpuRead a =>
    obtain ⟨-, rfl⟩ := clientAccess_next h
    exact sameDma (cpuRead_seq a s) (cpuRead_dma a s)
  | cpuWrite a b =>
    obtain ⟨-, rfl⟩ := clientAccess_next h
    exact sameDma (cpuWrite_seq a b s) (cpuWrite_dma a b s)

/-- The default order moves a busy engine first, and then SEQ programs nothing (log 7). -/
theorem defaultMove_programsIdleEngine {s : State} (hl : s.cfg.legal = true) (hs : s.seqOk = true)
    (h : s.ProgramsIdleEngine) : (defaultMove s).ProgramsIdleEngine := by
  unfold defaultMove
  split
  · next hbusy => exact h.of_seq (engineDefault_seq s) fun hidle => absurd hidle (by simp [hbusy])
  · split
    · exact h.of_seq (bridgeStep_seq s) fun hidle => by rw [bridgeStep_dma, hidle]
    · exact sequencerStep_programsIdleEngine hl hs h

theorem step_programsIdleEngine {s t : State} (hl : s.cfg.legal = true) (hs : s.seqOk = true)
    (hstep : step s = .next t) (h : s.ProgramsIdleEngine) : t.ProgramsIdleEngine := by
  rcases step_cases hstep with rfl | ⟨e, u, -, ⟨es, l, rfl⟩, hmove⟩
  · exact defaultMove_programsIdleEngine hl hs h
  · exact runMove_programsIdleEngine (s := (s.setSched es).setTail l) hl hs h hmove

/-! ### DMA_XFER's first wait (42_dma R167, line P_dx_w1) -/

/-- The read that a poll of `status` makes. -/
def statusRead (s : State) : Transaction := .busRead (dmaAddr s.cfg .status) (dmaStatusWord s)

/-- A poll of a first wait, whoever called the transfer: busy, the read is all; idle, the arm write is next. -/
theorem sequencerStep_firstWait {s : State} (hl : s.cfg.legal = true) {x : Xfer} {k : List Frame}
    (hp : s.seq.phase = .dmaPoll) (hk : s.seq.stack = .dmaFirstWait x :: k) :
    sequencerStep s = if s.dma.busy then s.transacted (statusRead s)
      else (s.transacted (statusRead s)).within s.seq.op s.seq.args (.dmaArm x) k := by
  cases hb : s.dma.busy with
  | true => exact dmaPoll_busy hl hb hp
  | false =>
    rw [dmaPoll_idle hl hb hp, hk, resume_cons]
    rfl

/-- DMA_XFER begins with the first poll of its first wait (42_dma R167). -/
theorem exec_dmaXfer {s : State} (hop : s.seq.op = .idle) {len : Word} (hlen : len ≠ 0#32) (ram periph : Word)
    (dir : Dir) : exec (.dmaXfer ram periph len dir) s = .next (sequencerStep
      (s.within .dmaXfer [ram, periph, len, encodeDir dir] .dmaPoll [.dmaFirstWait ⟨ram, physical periph, len, dir⟩])) :=
  whenIdleAnd_idle hop (decide_eq_true hlen) _ _

/-- Settles O32: the refusal by format, the step lemma by whose move the step is, and the first wait by whether the engine is
busy. -/
theorem dmaTransferWaitsForIdle : Obligations.DmaTransferWaitsForIdle := by
  refine ⟨fun s r es hs hr => ?_, fun s t hl hs hstep h => step_programsIdleEngine hl hs hstep h, fun s hl => ?_⟩
  · refine step_offer_unplaceable hs ?_
    obtain ⟨k, hk | hk | hk⟩ := hr <;> rw [hk] <;> rfl
  · refine ⟨dmaStatusWord s, status_word hl, fun ram periph len dir hop hlen => ?_, fun es x k hs hp hk => ?_⟩
    · rw [exec_dmaXfer hop hlen, sequencerStep_firstWait (by exact hl) rfl rfl]
      rfl
    · rw [step_seq hs, sequencerStep_firstWait (s := s.setSched es) hl hp hk]
      rfl

end Sys2Proof.Machine
end

section
/-! PROOFS. Cache coherence (41_cache_coherence): one cache operation (R152), what CLIENT reads after it and after an eviction
(R159), and the walks CACHE_WB and CACHE_WBINV over a range (R151, R153, R154). -/

namespace Sys2Proof.Machine

/-! ### What CLIENT reads -/

/-- What CLIENT reads depends on RAM and the cache alone (20_memory R72). -/
theorem cpuByte_of_same {s t : State} (hcfg : t.cfg = s.cfg) (hmem : t.mem = s.mem) (hcache : t.cache = s.cache) (b : Word) :
    cpuByte t b = cpuByte s b :=
  cpuByte_congr hcfg (by rw [hcache]) fun _ => by rw [hmem]

/-! ### One cache operation on a line of RAM (41_cache_coherence R152) -/

/-- The line that a cache operation names: cleaned or dropped if it is in the cache (41_cache_coherence R152). -/
theorem cacheEffect_line {kind : CacheKind} {a : Word} {s : State} {ln : Line}
    (h : keyGet (lineIndex s.cfg a) s.cache = some ln) :
    keyGet (lineIndex s.cfg a) (cacheEffect kind a s).cache =
      match kind with | .wb => some { ln with dirty := false } | .wbinv => none := by
  rw [cacheEffect_present h]
  exact cacheAfter_self kind _ ln s.cache

/-- RAM after a cache operation on a line that is in the cache and lies in RAM: a dirty line's bytes, all of them. -/
theorem cacheEffect_read {kind : CacheKind} {a : Word} {s : State} {ln : Line} (hl : s.cfg.legal = true)
    (hf : cacheFits s.cfg s.cache = true) (ha : ramPhys a < s.cfg.ramSize)
    (h : keyGet (lineIndex s.cfg a) s.cache = some ln) (x : Nat) :
    (cacheEffect kind a s).mem.read x =
      if ln.dirty = true ∧ lineIndex s.cfg a * s.cfg.lineSize ≤ x ∧
        x < lineIndex s.cfg a * s.cfg.lineSize + s.cfg.lineSize
      then ln.byte (x - lineIndex s.cfg a * s.cfg.lineSize) else s.mem.read x := by
  have hline : lineIndex s.cfg a * s.cfg.lineSize + s.cfg.lineSize ≤ s.cfg.ramSize := line_in_ram hl ha
  have hplace : x / s.cfg.lineSize = lineIndex s.cfg a ∧ x < s.cfg.ramSize ↔
      lineIndex s.cfg a * s.cfg.lineSize ≤ x ∧ x < lineIndex s.cfg a * s.cfg.lineSize + s.cfg.lineSize := by
    rw [← in_line_iff]
    omega
  rw [cacheEffect_present h, State.setCache_mem, writeBackLine_read (cacheFits_line hf h)]
  simp only [hplace]

/-- A step of SEQ at a line of a walk: its cache operation, and otherwise only SEQ's registers and CLIENT's answers. -/
theorem step_line {s : State} {es : List Event} {kind : CacheKind} {a last : Word} (hs : s.sched = .seq :: es)
    (hp : s.seq.phase = .line kind a last) : ∃ q rs, step s = .next { s with
      sched := es, seq := q, client := { s.client with responses := rs }
      mem := (cacheEffect kind a s).mem, cache := (cacheEffect kind a s).cache
      trace := .cacheOp kind a :: s.trace } := by
  obtain ⟨q, rs, hstep⟩ := sequencerStep_outside (s.setSched es)
  have htransaction : (s.setSched es).transaction = (cacheOp kind a s).setSched es := by
    rw [← cacheOp_setSched]
    simp only [State.transaction, State.setSched, hp]
  refine ⟨q, rs, ?_⟩
  rw [step_seq hs, hstep, htransaction, cacheOp_shape]
  rfl

/-- Settles O42, by whether the line is in the cache. -/
theorem cacheOperationActsOnOneLine : Obligations.CacheOperationActsOnOneLine := by
  intro s es kind a last hl hdata hs hp ha
  obtain ⟨-, hfits, -⟩ := (State.dataOk_iff s).1 hdata
  obtain ⟨q, rs, hstep⟩ := step_line hs hp
  refine ⟨_, hstep, rfl, rfl, rfl, fun _ hline => cacheEffect_other hline, fun habsent => ?_, fun ln hpresent => ?_⟩
  · rw [cacheEffect_absent habsent]
    exact ⟨rfl, rfl⟩
  · exact ⟨cacheEffect_line hpresent, cacheEffect_read hl hfits ha hpresent⟩

/-- Settles O43: the step is the cache operation, or the eviction, and neither changes what CLIENT reads. -/
theorem cacheMaintenanceKeepsClientView : Obligations.CacheMaintenanceKeepsClientView := by
  intro s t es _ hdata hstep
  obtain ⟨-, hfits, -⟩ := (State.dataOk_iff s).1 hdata
  constructor
  · intro kind a last hs hp hview b hb
    obtain ⟨q, rs, hline⟩ := step_line hs hp
    cases hstep.symm.trans hline
    refine Eq.trans ?_ (cacheEffect_cpuByte hfits hview hb)
    apply cpuByte_of_same
    · exact (cacheEffect_cfg kind a s).symm
    · rfl
    · rfl
  · intro l hs
    have hevict : step s = .next (evictLine l (s.setSched es)) := step_listed hs
    cases hstep.symm.trans hevict
    refine ⟨?_, fun j hj => ?_, fun hview b hb => evictLine_cpuByte (s := s.setSched es) hfits hview hb⟩
    · rw [evictLine_get, if_pos rfl]
    · rw [evictLine_get, if_neg hj]
      rfl

/-! ### How a walk begins (41_cache_coherence R153, R154) -/

/-- The instruction whose walk makes this kind of cache operation. -/
def walkInstr : CacheKind → Word → Word → Instr
  | .wb => .cacheWb
  | .wbinv => .cacheWbinv

/-- The operation of that instruction. -/
def walkOp : CacheKind → Op
  | .wb => .cacheWb
  | .wbinv => .cacheWbinv

/-- CACHE_WB and CACHE_WBINV, accepted, are the walk of their kind. -/
theorem exec_walkInstr {s : State} (hop : s.seq.op = .idle) {addr len : Word}
    (hrange : addr.toNat + len.toNat ≤ 0x100000000) (kind : CacheKind) :
    exec (walkInstr kind addr len) s = .next (launch (walkOp kind) [addr, len] (walkRange kind addr len) s) := by
  have hok : rangeOk addr len = true := decide_eq_true hrange
  cases kind with
  | wb => exact whenIdleAnd_idle hop hok _ _
  | wbinv => exact whenIdleAnd_idle hop hok _ _

/-- The walk of an empty range is answered with no transaction. -/
theorem launch_walkRange_empty (kind : CacheKind) (addr : Word) (s : State) :
    launch (walkOp kind) [addr, 0#32] (walkRange kind addr 0#32) s = s.ended [addr, 0#32] ⟨0#32, 0#32⟩ :=
  launch_ret (r := .ok) (u := s.latch (walkOp kind) [addr, 0#32]) (if_pos rfl)

/-- A cache operation acts on the same RAM and the same lines whatever SEQ's registers hold. -/
theorem cacheOp_within (kind : CacheKind) (a : Word) (s : State) (op : Op) (args : List Word) (p : Phase)
    (k : List Frame) :
    cacheOp kind a (s.within op args p k) = ({ s with
      mem := (cacheEffect kind a s).mem, cache := (cacheEffect kind a s).cache
      trace := .cacheOp kind a :: s.trace } : State).within op args p k := by
  have hwithin : s.within op args p k = s.setSeq { s.seq with op := op, args := args, phase := p, stack := k } := rfl
  rw [hwithin, cacheOp_setSeq, cacheOp_shape]
  rfl

/-- SEQ in the walk of a range, before its first operation: its first line and its last are known (R151). -/
def State.walkAccepted (s : State) (kind : CacheKind) (addr len : Word) : State :=
  s.within (walkOp kind) [addr, len] (.line kind
    (BitVec.ofNat 32 (addr.toNat / s.cfg.lineSize * s.cfg.lineSize))
    (BitVec.ofNat 32 ((addr.toNat + len.toNat - 1) / s.cfg.lineSize * s.cfg.lineSize))) []

/-- The walk of any other range begins with the operation on its first line. -/
theorem launch_walkRange {addr len : Word} (hlen : len ≠ 0#32) (hrange : addr.toNat + len.toNat ≤ 0x100000000)
    (kind : CacheKind) (s : State) :
    launch (walkOp kind) [addr, len] (walkRange kind addr len) s = sequencerStep (s.walkAccepted kind addr len) := by
  rw [launch_goto (if_neg hlen), State.walkAccepted, ← lineFirst_eq, ← lineLast_eq s.cfg hlen hrange]
  rfl

/-- A walk's operation on its last line ends it. -/
theorem lineStep_last (kind : CacheKind) (a : Word) (s : State) :
    lineStep kind a a s = resume s.seq.stack .ok (cacheOp kind a s) := if_pos rfl

/-- A walk's operation on an earlier line leads to the next line. -/
theorem lineStep_next {a last : Word} (h : a ≠ last) (kind : CacheKind) (s : State) :
    lineStep kind a last s = (cacheOp kind a s).jump (.line kind (lineNext s.cfg a) last) s.seq.stack := if_neg h

/-- Two first bytes of lines below 2^32 are one word exactly if they are one number. -/
theorem ofNat_line_eq_iff {x y n : Nat} (hx : x < 0x100000000) (hy : y < 0x100000000) :
    BitVec.ofNat 32 (x / n * n) = BitVec.ofNat 32 (y / n * n) ↔ x / n * n = y / n * n := by
  have hx' : x / n * n < 2 ^ 32 := lt_of_le_of_lt (Nat.div_mul_le_self x n) hx
  have hy' : y / n * n < 2 ^ 32 := lt_of_le_of_lt (Nat.div_mul_le_self y n) hy
  rw [← BitVec.toNat_inj, BitVec.toNat_ofNat, BitVec.toNat_ofNat, Nat.mod_eq_of_lt hx', Nat.mod_eq_of_lt hy']

/-- Settles O44: an empty range launches nothing, any other the operation on its first line, by whether it is the last. -/
theorem cacheWalkBegins : Obligations.CacheWalkBegins := by
  intro s addr len kind hop hrange i op first last
  have hi : i = walkInstr kind addr len := by cases kind <;> rfl
  have hop' : op = walkOp kind := by cases kind <;> rfl
  rw [hi, exec_walkInstr hop hrange, hop']
  refine ⟨fun hlen => ?_, fun hlen => ?_⟩
  · rw [hlen, launch_walkRange_empty]
  · have hpos := toNat_pos hlen
    have heq : BitVec.ofNat 32 first = BitVec.ofNat 32 last ↔ first = last :=
      ofNat_line_eq_iff addr.isLt (by omega)
    have hstep : sequencerStep (s.walkAccepted kind addr len) =
        lineStep kind (BitVec.ofNat 32 first) (BitVec.ofNat 32 last) (s.walkAccepted kind addr len) := rfl
    rw [launch_walkRange hlen hrange, hstep]
    by_cases hlast : first = last
    · rw [← hlast, lineStep_last, State.walkAccepted, cacheOp_within, if_pos rfl]
      rfl
    · rw [lineStep_next (mt heq.1 hlast), lineNext, ← BitVec.ofNat_add, State.walkAccepted, cacheOp_within, if_neg hlast]
      rfl

/-! ### A whole walk (41_cache_coherence R151, R153, R154; R159) -/

/-- The descriptor of a walk, as CLIENT offers it (30_encoding R110). -/
def walkRequest (kind : CacheKind) (addr len : Word) : Request :=
  ⟨.opd, [match kind with | .wb => 0x6#32 | .wbinv => 0x7#32, addr, len]⟩

theorem decode_walkRequest (c : Config) (kind : CacheKind) (addr len : Word) :
    decode c (walkRequest kind addr len) = .ok (walkInstr kind addr len) := by
  cases kind with
  | wb => rfl
  | wbinv => rfl

/-- A step in which CLIENT offers a walk of a range and the block accepts it: SEQ's first step in the walk (log 8). -/
theorem step_walkRequest {s : State} {es : List Event} {addr len : Word} {kind : CacheKind} (hop : s.seq.op = .idle)
    (hlen : len ≠ 0#32) (hrange : addr.toNat + len.toNat ≤ 0x100000000)
    (hs : s.sched = .offer (walkRequest kind addr len) :: es) :
    step s = step ((s.setSched (.seq :: es)).walkAccepted kind addr len) := by
  have hseq : step ((s.setSched (.seq :: es)).walkAccepted kind addr len) =
      .next (sequencerStep ((s.setSched es).walkAccepted kind addr len)) := step_seq rfl
  rw [hseq, step_offer hs rfl (decode_walkRequest s.cfg kind addr len), exec_walkInstr (s := s.setSched es) hop hrange,
    launch_walkRange hlen hrange]

/-- A walk's transactions are its operations, line by line in ascending order, the newest first. -/
theorem walkOps_trace (kind : CacheKind) (q n : Nat) (s : State) :
    (walkOps kind q n s).trace = (List.range n).reverse.map (fun j =>
      Transaction.cacheOp kind (BitVec.ofNat 32 ((q + j) * s.cfg.lineSize))) ++ s.trace :=
  congrArg State.trace (walkOps_shape kind q n s)

/-- A whole walk, only SEQ moving: `walkOps` on the lines of the range, and the answer. -/
theorem walkRequest_run {s : State} {es : List Event} {addr len : Word} {kind : CacheKind} {m : Nat}
    (hop : s.seq.op = .idle) (hlen : len ≠ 0#32) (hrange : addr.toNat + len.toNat ≤ 0x100000000)
    (hm : (addr.toNat + len.toNat - 1) / s.cfg.lineSize = addr.toNat / s.cfg.lineSize + m)
    (hs : s.sched = .offer (walkRequest kind addr len) :: (List.replicate m Event.seq ++ es)) :
    ∃ t, runSteps (m + 1) s = .next t ∧ t.answered ⟨0#32, 0#32⟩ ∧ t.cfg = s.cfg ∧
      t.mem = (walkOps kind (addr.toNat / s.cfg.lineSize) (m + 1) s).mem ∧
      t.cache = (walkOps kind (addr.toNat / s.cfg.lineSize) (m + 1) s).cache ∧
      t.trace = (walkOps kind (addr.toNat / s.cfg.lineSize) (m + 1) s).trace := by
  have hfirst := step_walkRequest hop hlen hrange hs
  have hlt : (addr.toNat / s.cfg.lineSize + m) * s.cfg.lineSize < 0x100000000 := by
    have hpos := toNat_pos hlen
    rw [← hm]
    exact lt_of_le_of_lt (Nat.div_mul_le_self _ _) (by omega)
  have hrun := walk_run true (s := (s.setSched (List.replicate (m + 1) Event.seq ++ es)).walkAccepted kind addr len)
    (kind := kind) (q := addr.toNat / s.cfg.lineSize) (m := m) (es := es) (by rw [← hm]; rfl) hlt nofun rfl
  obtain ⟨hmem, hcache⟩ := walkOps_congr (s := s)
    (t := (s.setSched (List.replicate (m + 1) Event.seq ++ es)).walkAccepted kind addr len) rfl rfl rfl kind
    (addr.toNat / s.cfg.lineSize) (m + 1)
  refine ⟨_, (runSteps_same hfirst m).trans hrun, ⟨rfl, rfl, rfl, rfl⟩, walkOps_cfg _ _ _ _, hmem, hcache, ?_⟩
  exact (walkOps_trace _ _ _ _).trans (walkOps_trace kind _ _ s).symm

/-- Settles O45: the run is the operations on the range's lines, whose effect is `walk_range_effect`. -/
theorem cacheWalkCoversRange : Obligations.CacheWalkCoversRange := by
  intro s es addr len kind m hl hdata hop hlen hrange hram hm hs
  obtain ⟨-, hfits, -⟩ := (State.dataOk_iff s).1 hdata
  have hlines : (addr.toNat + len.toNat - 1) / s.cfg.lineSize = addr.toNat / s.cfg.lineSize + m := by
    have hpos := toNat_pos hlen
    have : addr.toNat / s.cfg.lineSize ≤ (addr.toNat + len.toNat - 1) / s.cfg.lineSize :=
      Nat.div_le_div_right (by omega)
    omega
  obtain ⟨t, hrun, hanswered, hcfg, hmem, hcache, htrace⟩ := walkRequest_run hop hlen hrange hlines hs
  obtain ⟨-, hline, hread, -, hview⟩ := walk_range_effect (kind := kind) hl hfits hlen hrange hram hlines
  refine ⟨t, hrun, hanswered, ?_, fun j hj => ?_, fun b hb hkind => ?_⟩
  · rw [htrace, walkOps_trace]
  · have hin : ramPhys addr / s.cfg.lineSize ≤ (ramPhys addr + j) / s.cfg.lineSize ∧
        (ramPhys addr + j) / s.cfg.lineSize ≤ (ramPhys addr + len.toNat - 1) / s.cfg.lineSize :=
      ⟨Nat.div_le_div_right (by omega), Nat.div_le_div_right (by omega)⟩
    have hj' := hline ((ramPhys addr + j) / s.cfg.lineSize)
    rw [if_pos hin] at hj'
    rw [hmem, hcache, hj']
    refine ⟨hread j hj, ?_, ?_⟩
    · rintro rfl
      rfl
    · rintro rfl
      rfl
  · exact (cpuByte_of_same (hcfg.trans (walkOps_cfg _ _ _ _).symm) hmem hcache b).trans (hview b hb hkind)

end Sys2Proof.Machine
end

section
/-! PROOFS. DMA (42_dma): the engine's own steps (R176 to R178), DMA_XFER's programming (R167 to R171) and its whole run, and
the polls of DMA_WAIT_IDLE (R166, R172); the operands that are refused (R173, 00_scope R13); INIT's first transaction
(45_init_lifecycle R261). -/

namespace Sys2Proof.Machine

/-! ### Operands refused (60_exceptions R297 (c), (d)) -/

theorem whenIdleAnd_refused {s : State} (hop : s.seq.op = .idle) {ok : Bool} (hok : ok = false) (why : Refusal)
    (f : State → State) : whenIdleAnd ok why f s = .refused why := by
  simp [whenIdleAnd, hop, hok]

theorem runTransfer_refused {s : State} (hop : s.seq.op = .idle) (hinit : s.seq.initialized = true) {buf len : Word}
    (hrange : rangeOk buf len = false) (op : Op) (routine : State → Flow) :
    runTransfer op buf len routine s = .refused .rangeCrosses := by
  have hready : ¬ (s.seq.op = .idle ∧ s.seq.initialized = false) := by simp [hinit]
  rw [runTransfer, if_neg hready]
  exact whenIdleAnd_refused hop hrange _ _

/-- Settles O10: the range test fails, or the length test does. -/
theorem badOperandsRefused : Obligations.BadOperandsRefused := by
  intro s hop
  refine ⟨fun addr len hcrosses => ?_, fun ram periph dir => whenIdleAnd_refused hop rfl _ _⟩
  have hrange : rangeOk addr len = false := decide_eq_false (Nat.not_le.2 hcrosses)
  exact ⟨whenIdleAnd_refused hop hrange _ _, whenIdleAnd_refused hop hrange _ _, fun hinit =>
    ⟨runTransfer_refused hop hinit hrange _ _, runTransfer_refused hop hinit hrange _ _⟩⟩

/-! ### The engine's own steps (42_dma R176 to R178) -/

/-- A byte of the job not yet moved is moved and noted (42_dma R176). -/
theorem dmaMove_enabled {s : State} {i : Nat} (hb : s.dma.busy = true) (hi : i < s.dma.job.count.toNat)
    (hdone : i ∉ s.dma.job.done) :
    dmaMove i s = ((transferByte s.dma.job i s).setDma
      { s.dma with job := { s.dma.job with done := indexInsert i s.dma.job.done } }).tick := by
  have henabled : moveEnabled i s.dma = true := by simp [moveEnabled, hb, hi, hdone]
  rw [dmaMove, if_pos henabled]

/-- Settles O40, by the job's direction. -/
theorem engineMovesAnyByte : Obligations.EngineMovesAnyByte := by
  intro s es i k hk hs halign hb hi hdone hactive hperiph hram
  have hwindow : windowIndex s.cfg (jobPeriph s.dma.job i) = some ⟨k, hk⟩ := windowIndex_at hperiph hk
  have hstep : step s = .next (dmaMove i (s.setSched es)) := step_listed hs
  rw [dmaMove_enabled (s := s.setSched es) hb hi hdone] at hstep
  have hmem : ∀ j, j ∈ indexInsert i s.dma.job.done ↔ j = i ∨ j ∈ s.dma.job.done := fun j =>
    mem_indexInsert i j s.dma.job.done
  cases hdir : s.dma.job.dir with
  | incoming =>
    rw [transferByte_incoming (s := s.setSched es) (j := (s.setSched es).dma.job) hdir halign hactive hwindow hram] at hstep
    exact ⟨_, _, s.brg.pkt, _, hstep, rfl, hmem, fun _ => ⟨rfl, fun a => Memory.read_write s.mem _ a _⟩, nofun⟩
  | outgoing =>
    rw [transferByte_outgoing (s := s.setSched es) (j := (s.setSched es).dma.job) hdir halign hactive hwindow hram] at hstep
    exact ⟨_, s.mem, _, _, hstep, rfl, hmem, nofun, fun _ => ⟨rfl, rfl⟩⟩

theorem Job.fits_done {j : Job} (h : j.fits = true) :
    indicesRising j.done = true ∧ ∀ i ∈ j.done, i < j.count.toNat := by
  simp only [Job.fits, Bool.and_eq_true, List.all_eq_true, decide_eq_true_eq] at h
  obtain ⟨⟨-, hrising⟩, hbelow⟩ := h
  exact ⟨hrising, hbelow⟩

/-- A job with every index done is complete: `done` holds at least `count` indices. -/
theorem jobComplete_of_all_done {j : Job} (h : ∀ i, i < j.count.toNat → i ∈ j.done) : jobComplete j = true := by
  have hsubset : List.range j.count.toNat ⊆ j.done := fun i hi => h i (List.mem_range.1 hi)
  have hlength := (List.nodup_range.subperm hsubset).length_le
  rw [List.length_range] at hlength
  exact decide_eq_true hlength

/-- A job with an index not done is not complete: there is room in `done` for one more. -/
theorem jobComplete_of_missing {j : Job} (hfits : j.fits = true) {i : Nat} (hi : i < j.count.toNat) (hdone : i ∉ j.done) :
    jobComplete j = false := by
  obtain ⟨hrising, hbelow⟩ := Job.fits_done hfits
  have hmore : (indexInsert i j.done).length ≤ j.count.toNat - 0 :=
    indicesRising_length_le (indicesRising_indexInsert i hrising) (fun _ _ => Nat.zero_le _) (fun m hm => by
      rcases (mem_indexInsert i m j.done).1 hm with rfl | hm
      · exact hi
      · exact hbelow m hm) (Nat.zero_le _)
  rw [length_indexInsert hdone] at hmore
  exact decide_eq_false (by omega)

/-- Settles O41, by whether an index is missing. -/
theorem engineCompletesWhenAllMoved : Obligations.EngineCompletesWhenAllMoved := by
  intro s es hs hb hfits
  have hstep : step s = .next (dmaComplete (s.setSched es)) := step_listed hs
  rw [hstep]
  refine ⟨fun hall => ?_, fun ⟨i, hi, hdone⟩ => ?_⟩
  · have hcomplete := jobComplete_of_all_done hall
    simp [dmaComplete, hb, hcomplete, State.setDma, State.setSched]
  · have hcomplete := jobComplete_of_missing hfits hi hdone
    simp [dmaComplete, hcomplete, State.setSched]

/-! ### DMA_XFER accepted (42_dma R167) -/

/-- DMA_XFER's descriptor, as CLIENT offers it (30_encoding R110). -/
def transferRequest (ram periph len : Word) (dir : Dir) : Request := ⟨.opd, [0x8#32, ram, periph, len, encodeDir dir]⟩

theorem decode_transferRequest (c : Config) (ram periph len : Word) (dir : Dir) :
    decode c (transferRequest ram periph len dir) = .ok (.dmaXfer ram periph len dir) := by
  cases dir with
  | incoming => rfl
  | outgoing => rfl

/-- The operands of a DMA_XFER as it keeps them: the peripheral address masked (42_dma R167, line P_dx). -/
def maskedXfer (ram periph len : Word) (dir : Dir) : Xfer := ⟨ram, physical periph, len, dir⟩

/-- SEQ in a DMA_XFER, before the first poll of its first wait. -/
def State.transferAccepted (s : State) (ram periph len : Word) (dir : Dir) : State :=
  s.within .dmaXfer [ram, periph, len, encodeDir dir] .dmaPoll [.dmaFirstWait (maskedXfer ram periph len dir)]

/-- A step in which CLIENT offers a DMA_XFER and the block accepts it: SEQ's first step in it (log 8). -/
theorem step_transferRequest {s : State} {es : List Event} {ram periph len : Word} {dir : Dir} (hop : s.seq.op = .idle)
    (hlen : len ≠ 0#32) (hs : s.sched = .offer (transferRequest ram periph len dir) :: es) :
    step s = .next (sequencerStep ((s.setSched es).transferAccepted ram periph len dir)) := by
  rw [step_offer hs rfl (decode_transferRequest s.cfg ram periph len dir)]
  exact exec_dmaXfer (s := s.setSched es) hop hlen ram periph dir

/-! ### The engine programmed (42_dma R167 to R171) -/

/-- What SEQ does from the first wait to the second does not look at the moves to come. -/
theorem transferStates_setSched (x : Xfer) (k : List Frame) (s : State) (es : List Event) :
    ∀ i, transferStates x k (s.setSched es) i = (transferStates x k s i).setSched es
  | 0 | 1 | 2 | 3 | 4 | _ + 5 => rfl

/-- DMA_XFER from its first wait to the programmed engine, SEQ's moves listed. -/
theorem transfer_program_listed {s : State} {x : Xfer} {k : List Frame} {es : List Event} (hl : s.cfg.legal = true)
    (hb : s.dma.busy = false) (hp : s.seq.phase = .dmaPoll) (hk : s.seq.stack = .dmaFirstWait x :: k)
    (hs : s.sched = List.replicate 5 .seq ++ es) :
    runSteps 5 s = .next ((transferStates x k s 5).setSched es) := by
  have hrun := runSteps_states (fun i => (transferStates x k s i).setSched (List.replicate (5 - i) .seq ++ es)) 5
    fun i hi => by
      have hcons : List.replicate (5 - i) Event.seq ++ es = .seq :: (List.replicate (5 - (i + 1)) .seq ++ es) := by
        rw [show 5 - i = (5 - (i + 1)) + 1 by omega, List.replicate_succ, List.cons_append]
      have hstates := transferStates_step (s := s.setSched (List.replicate (5 - (i + 1)) .seq ++ es)) hl hb hp hk hi
      rw [transferStates_setSched, transferStates_setSched] at hstates
      rw [← hstates]
      exact step_seq hcons
  have hstart : (transferStates x k s 0).setSched (List.replicate 5 .seq ++ es) = s := by rw [← hs]; rfl
  exact hstart ▸ hrun

/-- Settles O33: the states of a programming run, the last of them field by field. -/
theorem dmaTransferProgramsEngine : Obligations.DmaTransferProgramsEngine := by
  intro s es ram periph len dir hl hop hlen hb hs
  generalize hu : (s.setSched (List.replicate 5 .seq ++ es)).transferAccepted ram periph len dir = u
  have hfirst : step s = step u := by
    have hlisted : u.sched = .seq :: (List.replicate 4 .seq ++ es) := by subst hu; rfl
    rw [step_transferRequest hop hlen hs, step_seq hlisted, ← hu]
    rfl
  have hrun := (runSteps_same hfirst 4).trans (transfer_program_listed (s := u) (x := maskedXfer ram periph len dir)
    (k := []) (es := es) (by subst hu; exact hl) (by subst hu; exact hb) (by subst hu; rfl) (by subst hu; rfl)
    (by subst hu; rfl))
  refine ⟨dmaStatusWord u, _, ?_, hrun, ?_⟩
  · subst hu
    exact (status_word (by exact hl)).2 hb
  · subst hu
    refine ⟨?_, rfl, rfl, rfl, rfl, rfl, rfl, rfl, rfl, count_of_len hlen, rfl, rfl, rfl, rfl, rfl, rfl, rfl⟩
    cases dir with
    | incoming => rfl
    | outgoing => rfl

/-! ### A whole DMA_XFER (42_dma R176, R178; R187) -/

/-- Settles O34: the run is `transfer_run`, whose block is read off byte by byte. -/
theorem dmaTransferMovesBlock : Obligations.DmaTransferMovesBlock := by
  intro s ram periph len dir k hl halign hop hlen hb hactive hplace hwindow hram hs htail
  generalize hu : (s.setSched []).transferAccepted ram periph len dir = u
  have hdefault : u.atDefault := by subst hu; exact ⟨rfl, htail⟩
  have hidle : u.dma.busy = false := by subst hu; exact hb
  have hinactive : u.brg.active = false := by subst hu; exact hactive
  have hfirst : step s = step u := by
    rw [step_transferRequest hop hlen hs, hu, step_default_seq hdefault hidle (bridgeEnabled_inactive hinactive)]
  obtain ⟨n, d, m, w, tr, dr, hrun, hdone, -, hin, hout⟩ := transfer_run (s := u) (x := maskedXfer ram periph len dir)
    (c := []) (k := k) (by subst hu; exact hl) (by subst hu; exact halign) hidle hinactive hdefault (by subst hu; rfl)
    (by subst hu; rfl) hlen (by subst hu; exact hplace) hwindow (by subst hu; exact hram)
  subst hu
  refine ⟨n + 1, _, (runSteps_same hfirst n).trans hrun, ⟨rfl, rfl, rfl, rfl⟩, hdone, rfl, fun hdir => ?_, fun hdir => ?_⟩
  · obtain ⟨rfl, rfl⟩ := hin hdir
    exact ⟨rfl, fun a => ramAfter_read s.mem s.brg.pkt (ramPhys ram) k len.toNat a⟩
  · obtain ⟨rfl, rfl⟩ := hout hdir
    exact ⟨rfl, rfl, fun j => windowAfter_get s.mem s.brg.pkt (ramPhys ram) k len.toNat j⟩

/-! ### The polls of DMA_WAIT_IDLE (42_dma R166, R172) -/

/-- A poll of `status`, whoever waits: busy, the read is all; idle, the wait returns. -/
theorem sequencerStep_dmaPoll {s : State} (hl : s.cfg.legal = true) (hp : s.seq.phase = .dmaPoll) :
    sequencerStep s = if s.dma.busy then s.transacted (statusRead s)
      else resume s.seq.stack .ok (s.transacted (statusRead s)) := by
  cases hb : s.dma.busy with
  | true => exact dmaPoll_busy hl hb hp
  | false => exact dmaPoll_idle hl hb hp

/-- The wait of an engine that is never scheduled has no end (60_exceptions R301 (a)). -/
theorem dmaPoll_hangs (n : Nat) {s : State} (hl : s.cfg.legal = true) (hs : s.sched = [])
    (ht : s.tail = .cycle .seq []) (hp : s.seq.phase = .dmaPoll) (hb : s.dma.busy = true) :
    ∃ tr dr, runSteps n s = .next { s with trace := tr, draws := dr } := by
  induction n generalizing s with
  | zero => exact ⟨s.trace, s.draws, rfl⟩
  | succ n ih =>
    have hsame : s.setSched [] = s := by rw [← hs]; rfl
    have hstep : step s = .next (s.transacted (statusRead s)) := by
      rw [step_cycle hs ht, hsame]
      exact congrArg _ (dmaPoll_busy hl hb hp)
    obtain ⟨tr, dr, hrun⟩ := ih (s := s.transacted (statusRead s)) hl hs ht hp hb
    exact ⟨tr, dr, (runSteps_step hstep n).trans hrun⟩

/-- DMA_WAIT_IDLE begins with its first poll (42_dma R166). -/
theorem exec_dmaWaitIdle {s : State} (hop : s.seq.op = .idle) :
    exec .dmaWaitIdle s = .next (sequencerStep (s.within .dmaWaitIdle [] .dmaPoll [])) := whenIdle_idle hop _

/-- A packet's incoming job over: the cursor goes on, and the next packet, if any, begins (44_packet_transfer R232). -/
theorem resume_readDma (k : List Frame) (s : State) :
    resume (.dmaLastWait :: .readDma :: k) .ok s = follow k (readLoop (advanceCursor s)) := by
  rw [resume_cons, afterCall, follow_ret, resume_cons, afterCall]

/-- A packet's outgoing job over: its "write + activate" command is next (44_packet_transfer R238). -/
theorem resume_writeDma (k : List Frame) (s : State) :
    resume (.dmaLastWait :: .writeDma :: k) .ok s =
      s.jump (.wrReg offUsbCfg (commandValue 0xC200#32 s.seq.baseOffset)) (.writeCommand :: k) := by
  rw [resume_cons, afterCall, follow_ret, resume_cons]
  rfl

theorem readLoop_done {s : State} (h : s.seq.remaining = 0#32) : readLoop s = .ret .ok s := if_pos h

theorem readLoop_next {s : State} (h : s.seq.remaining ≠ 0#32) :
    readLoop s = .goto (.wrReg offUsbCfg (commandValue 0xC600#32 (nextPacket s).seq.baseOffset)) [.readCommand]
      (nextPacket s) := if_neg h

/-- Settles O31: every poll is `sequencerStep_dmaPoll`, and what an idle engine's poll returns to is its caller. -/
theorem dmaWaitIdlePolls : Obligations.DmaWaitIdlePolls := by
  intro s hl
  refine ⟨fun hs ht hp hb n => ?_, dmaStatusWord s, status_word hl, fun hop => ?_, fun es hs hp => ?_⟩
  · obtain ⟨tr, dr, hrun⟩ := dmaPoll_hangs n hl hs ht hp hb
    exact ⟨_, hrun, rfl, rfl, rfl⟩
  · rw [exec_dmaWaitIdle hop, sequencerStep_dmaPoll (by exact hl) rfl]
    rfl
  · have hpoll : sequencerStep (s.setSched es) = _ := sequencerStep_dmaPoll (s := s.setSched es) hl hp
    refine ⟨fun hb => ?_, fun hb => ?_⟩
    · rw [step_seq hs, hpoll, if_pos (by exact hb)]
      rfl
    · have hreturn : step s = .next (resume s.seq.stack .ok ((s.setSched es).transacted (statusRead s))) := by
        rw [step_seq hs, hpoll, if_neg (by simp [hb])]
        rfl
      refine ⟨fun hk => ?_, fun k hk => ?_, fun k hk => ⟨fun hleft hnone => ?_, fun hleft => ?_⟩⟩
      · rcases hk with hk | hk
        · rw [hreturn, hk]
          rfl
        · rw [hreturn, hk, resume_cons]
          rfl
      · rw [hreturn, hk, resume_writeDma]
        rfl
      · rw [hreturn, hk, resume_readDma, readLoop_done (by exact hleft), hnone]
        rfl
      · rw [hreturn, hk, resume_readDma, readLoop_next (by exact hleft)]
        rfl

/-! ### INIT's first transaction (45_init_lifecycle R261, R262) -/

theorem exec_init {s : State} (hop : s.seq.op = .idle) : exec .init s = .next (launch .init [] (initFrom 0) s) :=
  whenIdle_idle hop _

theorem initFrom_timing {i : Nat} {s : State} (h : i < s.cfg.dom1Timing.length) :
    initFrom i s = .goto (.initTiming i) [] s := if_pos h

theorem initFrom_key {i : Nat} {s : State} (h : s.cfg.dom1Timing.length ≤ i) : initFrom i s = initKey s :=
  if_neg (Nat.not_lt.2 h)

/-- A timing write of INIT, by its entry of DOM1_TIMING: the value is stored there and nowhere else (42_dma R185). -/
theorem sequencerStep_initTiming {s : State} {i : Nat} {e : Word × Word} (hl : s.cfg.legal = true)
    (hp : s.seq.phase = .initTiming i) (he : s.cfg.dom1Timing[i]? = some e) :
    sequencerStep s = follow s.seq.stack (initFrom (i + 1)
      (({ s with dma := { s.dma with timing := keySet e.1.toNat e.2 s.dma.timing } } : State).transacted
        (.busWrite (uncached s.cfg e.1) e.2))) := by
  have hstep : sequencerStep s =
      follow s.seq.stack (initFrom (i + 1) (busWrite (uncached s.cfg e.1) e.2 s)) := by
    unfold sequencerStep
    simp only [hp, initTimingStep, he]
  rw [hstep, busWrite, busEffect_timing hl (List.mem_of_getElem? he)]
  rfl

/-- The key's value written to KEY unlocks the bridge (45_init_lifecycle R269). -/
theorem registerWrite_key {s : State} (hl : s.cfg.legal = true) :
    registerWrite 0x8004#32 0x0000AA55#32 s =
      ({ s with brg := { s.brg with unlocked := true } } : State).transacted
        (.busWrite (regAddr s.cfg 0x8004#32) 0x0000AA55#32) := by
  rw [registerWrite, registerEffect_bridge hl (by decide)]
  rfl

/-- Settles O54, by whether DOM1_TIMING has an entry, and a second. -/
theorem initBeginsWithTimingWrites : Obligations.InitBeginsWithTimingWrites := by
  intro s hl hop
  rw [exec_init hop]
  refine ⟨fun a v rest hlist => ⟨keySet a.toNat v s.dma.timing, fun p => keyGet_keySet p a.toNat v _, ?_⟩,
    fun hempty => ?_⟩
  · have hhead : s.cfg.dom1Timing[0]? = some (a, v) := by rw [hlist]; rfl
    have hfirst : 0 < s.cfg.dom1Timing.length := by rw [hlist]; exact Nat.succ_pos _
    rw [launch_goto (initFrom_timing (by exact hfirst)), 
      sequencerStep_initTiming (by exact hl) rfl (by exact hhead)]
    cases rest with
    | nil =>
      rw [initFrom_key (by exact (congrArg List.length hlist).le)]
      rfl
    | cons e more =>
      have hsecond : 1 < s.cfg.dom1Timing.length := by rw [hlist]; exact Nat.succ_lt_succ (Nat.succ_pos _)
      rw [initFrom_timing (by exact hsecond)]
      rfl
  · have hnone : s.cfg.dom1Timing.length ≤ 0 := (congrArg List.length hempty).le
    rw [launch_goto ((initFrom_key (by exact hnone)).trans rfl), sequencerStep_wrReg (f := .initKey) rfl rfl nofun,
      registerWrite_key (by exact hl)]
    rfl

end Sys2Proof.Machine
end

section
/-! PROOFS. The handshake (43_handshake): the status word and the predicates on it (R200, R201, R209), the busy-wait and its
timeout (R197 to R199), the bridge's and HOST's own steps (R205 to R208, R219), and INIT's drain, which is built of waits and
packets (45_init_lifecycle R265; 60_exceptions R288). -/

namespace Sys2Proof.Machine

/-! ### Room in a FIFO -/

theorem hasRoom_iff {depth : Option Nat} {q : List Byte} :
    hasRoom depth q = true ↔ ∀ d, depth = some d → q.length < d := by
  cases depth <;> simp [hasRoom]

/-! ### The bridge's own steps (43_handshake R205 to R208) -/

/-- A move of a bridge that is active in a read command. -/
theorem step_bridge_read {s : State} {es : List Event} (hs : s.sched = .bridge :: es) (ha : s.brg.active = true)
    (hd : s.brg.dir = .rd) : step s = .next { s with sched := es, brg := bridgeReadStep s.brg } := by
  rw [step_listed hs]
  simp only [runMove, bridgeStep, State.setSched, ha, hd, if_true, State.setBrg]

/-- A move of a bridge that is active in a write command. -/
theorem step_bridge_write {s : State} {es : List Event} (hs : s.sched = .bridge :: es) (ha : s.brg.active = true)
    (hd : s.brg.dir = .wr) :
    step s = .next { s with sched := es, brg := bridgeWriteStep s.cfg.txDepth s.brg } := by
  rw [step_listed hs]
  simp only [runMove, bridgeStep, State.setSched, ha, hd, if_true, State.setBrg]

theorem bridgeReadStep_empty {b : Bridge} (h : b.ptr.val < 512) (hq : b.rxFifo = []) : bridgeReadStep b = b := by
  unfold bridgeReadStep
  rw [dif_pos h, hq]

theorem bridgeWriteStep_full {depth : Option Nat} {b : Bridge} (h : b.ptr.val < 512)
    (hq : hasRoom depth b.txFifo = false) : bridgeWriteStep depth b = b := by
  unfold bridgeWriteStep
  rw [dif_pos h, if_neg (by simp [hq])]

/-- Settles O27, by the command's direction and by what the bridge finds: a byte, none, room, none, or the end. -/
theorem bridgeStepMovesOneByte : Obligations.BridgeStepMovesOneByte := by
  intro s es hs ha
  refine ⟨fun h x rest hd hq => ?_, fun h hd hq => ?_, fun h hd hroom => ?_, fun d h hd hdepth hfull => ?_, fun hend => ?_⟩
  · rw [step_bridge_read hs ha hd, bridgeReadStep_byte h hq]
    rfl
  · rw [step_bridge_read hs ha hd, bridgeReadStep_empty h hq]
  · rw [step_bridge_write hs ha hd, bridgeWriteStep_byte h (hasRoom_iff.2 hroom)]
    rfl
  · have hnone : hasRoom s.cfg.txDepth s.brg.txFifo = false := by
      rw [hdepth]
      exact decide_eq_false (Nat.not_lt.2 hfull)
    rw [step_bridge_write hs ha hd, bridgeWriteStep_full h hnone]
  · cases hd : s.brg.dir with
    | rd => rw [step_bridge_read hs ha hd, bridgeReadStep_done hend]
    | wr => rw [step_bridge_write hs ha hd, bridgeWriteStep_done hend]

/-- Settles O28: the run of a read packet's bytes, each named by the schedule. -/
theorem bridgeFillsWindow : Obligations.BridgeFillsWindow := by
  intro s es off hoff ha hd hp hq hs
  obtain ⟨w, hrun, hw⟩ := read_packet_run true ha hd (n := 512 - off) (by omega) hq nofun hs
  refine ⟨_, hrun, rfl, fun k => (hw k).trans ?_⟩
  rw [hp]
  by_cases hk : k.val < off
  · rw [if_neg (by omega), if_pos hk]
  · rw [if_pos (by omega), if_neg hk]

/-! ### HOST's steps (43_handshake R219) -/

theorem hostSend_room {s : State} (h : hasRoom s.cfg.rxDepth s.brg.rxFifo = true) (b : Byte) :
    hostSend b s =
      { s with
        brg := { s.brg with rxFifo := s.brg.rxFifo ++ [b] }, host := { s.host with sent := s.host.sent ++ [b] } } :=
  if_pos h

theorem hostTake_byte {s : State} {b : Byte} {rest : List Byte} (h : s.brg.txFifo = b :: rest) :
    hostTake s =
      { s with
        brg := { s.brg with txFifo := rest }, host := { s.host with received := s.host.received ++ [b] } } := by
  simp only [hostTake, h]
  rfl

theorem hostLoopback_byte {s : State} {b : Byte} {rest : List Byte} (h : s.brg.txFifo = b :: rest)
    (hroom : hasRoom s.cfg.rxDepth s.brg.rxFifo = true) : hostLoopback s = hostSend b (hostTake s) := by
  simp only [hostLoopback, h, hroom, if_true]

/-- Settles O29, by HOST's step; the loopback's is a take and a push. -/
theorem hostStepsMoveBytes : Obligations.HostStepsMoveBytes := by
  intro s es b
  refine ⟨fun hs hroom => ?_, fun rest hs hq => ?_, fun v hs => ?_, fun rest hs hq hroom => ?_⟩
  · rw [step_listed hs]
    exact congrArg _ (hostSend_room (s := s.setSched es) (hasRoom_iff.2 hroom) b)
  · rw [step_listed hs]
    exact congrArg _ (hostTake_byte (s := s.setSched es) hq)
  · rw [step_listed hs]
    rfl
  · have hroom' : hasRoom s.cfg.rxDepth s.brg.rxFifo = true := hasRoom_iff.2 hroom
    have hmove : hostLoopback (s.setSched es) = hostSend b (hostTake (s.setSched es)) := hostLoopback_byte hq hroom'
    rw [hostTake_byte (s := s.setSched es) hq, hostSend_room (by exact hroom')] at hmove
    refine ⟨⟨s.host.powered, s.host.sent ++ [b], s.host.received ++ [b]⟩, rfl, ?_⟩
    rw [step_listed hs]
    exact congrArg _ hmove

/-! ### The status word and the predicates on it (43_handshake R200, R201, R209) -/

/-- Settles O13: both are RD_REG of USB_CFG. -/
theorem statusWordReadsBridge : Obligations.StatusWordReadsBridge := by
  intro s hop hr
  exact ⟨statusWord s, statusWord_reads hr, exec_rdReg hop offUsbCfg, exec_rdReg hop offUsbCfg⟩

/-- A register read of SEQ: the one bus read, its data to the callers. -/
theorem sequencerStep_rdReg {s : State} {off : Word} (hp : s.seq.phase = .rdReg off) :
    sequencerStep s = resume s.seq.stack (.data (registerData off s)) (registerRead off s) := by
  unfold sequencerStep
  rw [hp]

/-- SEQ's read of USB_CFG, in the trace. -/
def State.statusTransacted (s : State) : State := s.transacted (.busRead (regAddr s.cfg offUsbCfg) (statusWord s))

/-- CAN_READ's read returns whether POWERED is set and RXF clear in the word (43_handshake R200). -/
theorem sequencerStep_canRead {s : State} {k : List Frame} (hp : s.seq.phase = .rdReg offUsbCfg)
    (hk : s.seq.stack = .canRead :: k) :
    sequencerStep s = resume k (.flag (canReadBits (statusWord s))) s.statusTransacted := by
  rw [sequencerStep_rdReg hp, hk, resume_cons, afterCall, follow_ret, Result.readable, BusData.canReadSet_eq]
  rfl

/-- CAN_WRITE's read returns whether POWERED is set and TXF clear in the word, or CAN_READ's test (43_handshake R201). -/
theorem sequencerStep_canWrite {s : State} {k : List Frame} (hp : s.seq.phase = .rdReg offUsbCfg)
    (hk : s.seq.stack = .canWrite :: k) :
    sequencerStep s = resume k (.flag (if s.cfg.canWriteAsSource then canReadBits (statusWord s)
      else canWriteBits (statusWord s))) s.statusTransacted := by
  rw [sequencerStep_rdReg hp, hk, resume_cons, afterCall, follow_ret, canWriteResult, Result.readable, Result.writable,
    BusData.canReadSet_eq, BusData.canWriteSet_eq]
  rfl

/-- Settles O20: the word is what SEQ reads of USB_CFG. -/
theorem canReadTestsStatus : Obligations.CanReadTestsStatus := by
  intro s hop
  refine ⟨statusWord s, statusWord_reads, ?_⟩
  have hexec : exec .canRead s = .next (sequencerStep (s.within .canRead [] (.rdReg offUsbCfg) [.canRead])) :=
    whenIdle_idle hop _
  rw [hexec, sequencerStep_canRead rfl rfl, canReadBits]
  simp only [resume_nil, finish, decide_eq_true_eq]
  rfl

/-- Settles O21, by the parameter CAN_WRITE_AS_SOURCE. -/
theorem canWriteTestsStatus : Obligations.CanWriteTestsStatus := by
  intro s hop
  refine ⟨statusWord s, statusWord_reads, ?_⟩
  have hexec : exec .canWrite s = .next (sequencerStep (s.within .canWrite [] (.rdReg offUsbCfg) [.canWrite])) :=
    whenIdle_idle hop _
  rw [hexec, sequencerStep_canWrite rfl rfl]
  change Host.Outcome.next (resume [] (.flag (if s.cfg.canWriteAsSource then _ else _)) _) = _
  cases s.cfg.canWriteAsSource with
  | true =>
    simp only [if_true, canReadBits, resume_nil, finish, decide_eq_true_eq]
    rfl
  | false =>
    simp only [Bool.false_eq_true, if_false, canWriteBits, resume_nil, finish, decide_eq_true_eq]
    rfl

/-! ### What a wait returns to (43_handshake R197; 44_packet_transfer R232, R238) -/

/-- A packet's wait in READ over: the invalidate of its lines is next. -/
theorem resume_readWait (k : List Frame) (s : State) :
    resume (.readWait :: k) .ok s =
      s.jump (.line .wbinv (lineFirst s.cfg (packetRam s)) (lineLast s.cfg (packetRam s) (packetLen s)))
        (.readInvalidate :: k) := by
  rw [resume_cons]
  rfl

/-- A packet's wait in WRITE over: the cursor advances, and the next packet, if any, begins. -/
theorem resume_writeWait (k : List Frame) (s : State) :
    resume (.writeWait :: k) .ok s = follow k (writeLoop (advanceCursor s)) := by
  rw [resume_cons]
  rfl

theorem writeLoop_done {s : State} (h : s.seq.remaining = 0#32) : writeLoop s = .ret .ok s := if_pos h

theorem writeLoop_next {s : State} (h : s.seq.remaining ≠ 0#32) :
    writeLoop s = callWalk .wb (packetRam (nextPacket s)) (packetLen (nextPacket s)) [.writeBack] (nextPacket s) :=
  if_neg h

/-- The waits of READ and WRITE pass their error on to whoever called the transfer (44_packet_transfer R234; 60_exceptions
R285). -/
theorem resume_wait_timeout {f : Frame} (hf : (∃ buf len, f = .readFirstWait buf len) ∨ f = .readWait ∨ f = .writeWait)
    (k : List Frame) (s : State) : resume (f :: k) .timeout s = resume k .timeout s := by
  rw [resume_cons]
  rcases hf with ⟨buf, len, rfl⟩ | rfl | rfl <;> rfl

/-- INIT's drain drops the error: the save-emulation write is next (60_exceptions R288). -/
theorem resume_initDrain_timeout (k : List Frame) (s : State) :
    resume (.initDrain :: k) .timeout s =
      s.jump (.wrReg 0x8018#32 (s.cfg.ramCfgSaveOff.setWidth 32)) (.initRamCfg :: k) := by
  rw [resume_cons]
  rfl

/-! ### The polls of WAIT_NOT_BUSY (43_handshake R197, R198) -/

/-- WAIT_NOT_BUSY accepted, before its first status read: the poll count is 0. -/
def State.waitAccepted (s : State) : State :=
  ({ s with seq := { s.seq with poll := 0#14 } } : State).within .waitNotBusy [] (.rdReg offUsbCfg) [.waitRead]

/-- WAIT_NOT_BUSY begins with its first status read. -/
theorem exec_waitNotBusy {s : State} (hop : s.seq.op = .idle) :
    exec .waitNotBusy s = .next (sequencerStep s.waitAccepted) := whenIdle_idle hop _

/-- Settles O22: the first poll's outcome, by the word read. -/
theorem waitNotBusyFirstPoll : Obligations.WaitNotBusyFirstPoll := by
  intro s hop
  refine ⟨statusWord s.waitAccepted, fun hr => statusWord_reads (s := s.waitAccepted) hr, ?_⟩
  rw [exec_waitNotBusy hop, poll_cases (s := s.waitAccepted) rfl rfl]
  generalize statusWord s.waitAccepted = v
  by_cases hv : v &&& 0x0200#32 = 0#32
  · simp only [if_pos hv]
    rfl
  · have hagain : s.waitAccepted.seq.poll + 1#14 < pollLimit := (by decide : (0#14 : BitVec 14) + 1#14 < pollLimit)
    simp only [if_neg hv, if_pos hagain]
    rfl

/-- Below 8192 reads the count after one more is under the limit exactly when it is not the 8192nd. -/
theorem poll_below_limit_iff {p : BitVec 14} (h : p.toNat < 8192) : p + 1#14 < pollLimit ↔ p.toNat + 1 < 8192 := by
  unfold pollLimit
  rw [BitVec.lt_def, BitVec.toNat_add]
  simp only [BitVec.toNat_ofNat]
  omega

/-- Settles O23: the poll's outcomes by `poll_cases`, and what the wait returns to by its caller. -/
theorem waitNotBusyPollStep : Obligations.WaitNotBusyPollStep := by
  intro s es k hs hp hk hpoll
  generalize hv : statusWord (s.setSched es) = v
  have hcases := poll_cases (s := s.setSched es) hp hk
  rw [hv] at hcases
  refine ⟨v, _, fun hr => hv ▸ statusWord_reads (s := s.setSched es) hr, step_seq hs, ?_⟩
  rw [hcases]
  have hlimit : (s.setSched es).seq.poll + 1#14 < pollLimit ↔ s.seq.poll.toNat + 1 < 8192 := poll_below_limit_iff hpoll
  refine ⟨fun hset => ⟨fun hbelow => ?_, fun hlast => ?_⟩,
    fun hclear => ⟨?_, fun buf len k' hcaller => ⟨?_, ?_⟩, ?_, fun k' hcaller => ⟨?_, ?_⟩⟩⟩
  · simp only [if_neg hset, if_pos (hlimit.2 hbelow)]
    rfl
  · simp only [if_neg hset, if_neg (mt hlimit.1 (by omega))]
    rfl
  · rintro rfl
    simp only [if_pos hclear]
    rfl
  · rintro rfl rfl
    simp only [if_pos hclear, hcaller, resume_readFirstWait_empty]
    rfl
  · intro hlen
    simp only [if_pos hclear, hcaller, resume_readFirstWait_packet hlen]
    rfl
  · rintro k' rfl
    simp only [if_pos hclear, resume_readWait]
    rfl
  · rintro hleft rfl
    simp only [if_pos hclear, hcaller, resume_writeWait]
    rw [writeLoop_done (by exact hleft)]
    rfl
  · intro hleft
    simp only [if_pos hclear, hcaller, resume_writeWait]
    rw [writeLoop_next (by exact hleft)]
    rfl

/-! ### The timeout (43_handshake R198 (b), R199; 60_exceptions R284, R285) -/

/-- A step in which CLIENT offers WAIT_NOT_BUSY and the block accepts it. -/
theorem step_waitNotBusy {s : State} {es : List Event} (hop : s.seq.op = .idle)
    (hs : s.sched = .offer ⟨.opd, [0x9#32]⟩ :: es) : step s = .next (sequencerStep (s.setSched es).waitAccepted) :=
  (step_offer hs rfl rfl).trans (exec_waitNotBusy (s := s.setSched es) hop)

/-- WAIT_NOT_BUSY offered with ACTIVE set and only SEQ moving: its `m` reads and the recovery write, which leaves the
window. -/
theorem waitNotBusy_timeout_run {s : State} {es : List Event} {m : Nat} (hm : m = 8192) (hr : s.bridgeReady)
    (hop : s.seq.op = .idle) (hactive : s.brg.active = true)
    (hs : s.sched = .offer ⟨.opd, [0x9#32]⟩ :: (List.replicate m .seq ++ es)) :
    ∃ (vs : List Word) (p : Fin 513), vs.length = m ∧ runSteps (m + 1) s = .next (raiseTimeout { s with
      sched := es
      seq := { s.seq with
        op := .waitNotBusy, args := [], poll := 8192#14
        phase := .wrReg offUsbCfg (commandReadNop.setWidth 32), stack := [.waitRecovery] }
      brg := { s.brg with cmd := commandReadNop, active := false, dir := .rd, ptr := p }
      draws := s.draws + (m + 1)
      trace := .busWrite (regAddr s.cfg offUsbCfg) (commandReadNop.setWidth 32) ::
        (vs.map (fun v => Transaction.busRead (regAddr s.cfg offUsbCfg) v) ++ s.trace) }) := by
  generalize hu : (s.setSched (List.replicate m .seq ++ es)).waitAccepted = u
  have hstep : step s = .next (sequencerStep u) := by
    rw [← hu]
    exact step_waitNotBusy hop hs
  obtain ⟨vs, p, w, hlength, -, hwindow, hrun⟩ := first_wait_times_out hstep (by subst hu; exact hr)
    (by subst hu; exact hactive) (by subst hu; rfl) (k := []) (by subst hu; rfl) (by subst hu; rfl)
    m hm (es := es) (by subst hu; rfl)
  have hpkt : w = u.brg.pkt := hwindow rfl
  subst hpkt hu
  exact ⟨vs, p, hlength, hrun⟩

/-- Settles O24: the run of the wait gives each field of the last state. -/
theorem waitNotBusyTimesOut : Obligations.WaitNotBusyTimesOut := by
  intro s es hr hop hactive hs
  obtain ⟨vs, p, hlength, hrun⟩ := waitNotBusy_timeout_run rfl hr hop hactive hs
  generalize ht : raiseTimeout _ = t at hrun
  refine ⟨t, vs, hrun, ?_⟩
  subst ht
  exact ⟨⟨rfl, rfl, rfl, rfl⟩, rfl, rfl, rfl, hlength, rfl⟩

/-- The state after the recovery write of a wait, which left these pointer and window. -/
def State.recovered (s : State) (p : Fin 513) (w : Vector Byte 512) : State :=
  ({ s with brg := { s.brg with cmd := 0xC400#16, pkt := w, active := false, dir := .rd, ptr := p } } : State).transacted
    (.busWrite (regAddr s.cfg 0x0004#32) 0x0000C400#32)

/-- The step that makes a wait's recovery write hands the error to the wait's caller; a wait outside a packet leaves the
window, a packet's wait leaves it below `seq.base_offset` (43_handshake R199, R204; 60_exceptions R285). -/
theorem step_recovery {s : State} {es : List Event} {k : List Frame} (hr : s.bridgeReady) (hs : s.sched = .seq :: es)
    (hp : s.seq.phase = .wrReg 0x0004#32 0x0000C400#32) (hk : s.seq.stack = .waitRecovery :: k) :
    ∃ (p : Fin 513) (w : Vector Byte 512), s.keepsBelow w ∧ (packetWait k = false → w = s.brg.pkt) ∧
      step s = .next (resume k .timeout ((s.setSched es).recovered p w)) := by
  obtain ⟨w, hbelow, hsame, hwrite⟩ := recovery_write (s := s.setSched es) hr hp hk
  refine ⟨Config.freePtr s.draws, w, ?_, hsame, (step_seq hs).trans (congrArg _ hwrite)⟩
  cases hw : packetWait k with
  | true => exact hbelow hw
  | false =>
    have hpkt : w = s.brg.pkt := hsame hw
    subst hpkt
    exact fun _ _ => rfl

/-- Settles O25, by the wait's caller. -/
theorem timeoutEndsOperation : Obligations.TimeoutEndsOperation := by
  intro s es k hr hs hp hk hcaller
  obtain ⟨p, w, hbelow, hsame, hstep⟩ := step_recovery hr hs hp hk
  refine ⟨p, w, hbelow, fun hfirst => hsame ?_, hstep.trans ?_⟩
  · rcases hfirst with rfl | ⟨buf, len, rfl⟩ <;> rfl
  · have hend : resume k .timeout ((s.setSched es).recovered p w) =
        raiseTimeout ((s.setSched es).recovered p w) := by
      rcases hcaller with rfl | ⟨buf, len, rfl⟩ | rfl | rfl
      · rfl
      · exact resume_wait_timeout (.inl ⟨buf, len, rfl⟩) [] _
      · exact resume_wait_timeout (.inr (.inl rfl)) [] _
      · exact resume_wait_timeout (.inr (.inr rfl)) [] _
    rw [hend]
    rfl

/-! ### INIT's drain (45_init_lifecycle R265; 60_exceptions R288, R301 (b)) -/

/-- `n` passes of the drain, with the bytes for each waiting, bring INIT back to its check. -/
theorem drain_passes (n : Nat) {s : State} (hs : ReadReady s) (hrx : s.cfg.rxfActiveLow = true)
    (hpow : s.host.powered = true) (hp : s.seq.phase = .rdReg offUsbCfg) (hk : s.seq.stack = [.canRead, .initCheck])
    (hq : 512 * n ≤ s.brg.rxFifo.length) :
    ∃ (k : Nat) (t : State), n ≤ k ∧ runSteps k s = .next t ∧ t.seq.phase = .rdReg offUsbCfg ∧
      t.seq.stack = [.canRead, .initCheck] ∧ t.brg.rxFifo = s.brg.rxFifo.drop (512 * n) := by
  induction n generalizing s with
  | zero => exact ⟨0, s, le_rfl, rfl, hp, hk, rfl⟩
  | succ n ih =>
    obtain ⟨k, u, hrun, hu, hcfg, hhost, hup, huk, hurx⟩ := drain_pass hs hrx hpow hp hk (by omega)
    obtain ⟨k', t, hle, hrun', htp, htk, htrx⟩ := ih hu (by rw [hcfg]; exact hrx) (by rw [hhost]; exact hpow) hup huk
      (by rw [hurx, List.length_drop]; omega)
    refine ⟨k + 1 + k', t, by omega, runSteps_trans hrun hrun', htp, htk, ?_⟩
    rw [htrx, hurx, List.drop_drop]
    congr 1
    omega

/-- The check of the drain, by the word read: a pass begins at its first wait, or the save-emulation write is next. -/
theorem sequencerStep_initCheck {s : State} (hp : s.seq.phase = .rdReg offUsbCfg)
    (hk : s.seq.stack = [.canRead, .initCheck]) :
    sequencerStep s =
      if statusWord s &&& 0x1400#32 = 0x1000#32 then
        follow [] (callRead s.cfg.scratchAddr 512#32 [.initDrain] s.statusTransacted)
      else follow [] (initRamCfg s.statusTransacted) := by
  rw [sequencerStep_canRead hp hk, resume_cons, afterCall, afterInitCheck, Result.holds, canReadBits]
  simp only [decide_eq_true_eq]
  by_cases hv : statusWord s &&& 0x1400#32 = 0x1000#32
  · rw [if_pos hv, if_pos hv]
    rfl
  · rw [if_neg hv, if_neg hv]

/-- A pass whose last packet's job has ended goes back to the check. -/
theorem resume_drain_done {s : State} (h : s.seq.remaining = s.seq.chunk.setWidth 32) :
    resume [.dmaLastWait, .readDma, .initDrain] .ok s =
      ({ s with seq := { s.seq with cursor := s.seq.cursor + s.seq.remaining, remaining := 0#32 } } : State).jump
        (.rdReg offUsbCfg) [.canRead, .initCheck] := by
  have hleft : (advanceCursor s).seq.remaining = 0#32 := by
    change s.seq.remaining - s.seq.chunk.setWidth 32 = 0#32
    rw [h, BitVec.sub_self]
  have hadvance : advanceCursor s =
      { s with seq := { s.seq with cursor := s.seq.cursor + s.seq.remaining, remaining := 0#32 } } := by
    rw [h, ← hleft]
    rfl
  rw [resume_readDma, readLoop_done hleft, follow_ret, resume_cons, hadvance]
  rfl

/-- Settles O26: the passes by induction, and the branches by where INIT stands in its drain. -/
theorem drainTimeoutIsDropped : Obligations.DrainTimeoutIsDropped := by
  refine ⟨fun s n hr halign hdata hrx hpow hidle hinactive hp hk hsched htail hq => ?_, fun s es hr hs => ⟨?_, ?_, ?_⟩⟩
  · obtain ⟨-, hcache, -⟩ := (State.dataOk_iff s).1 hdata
    exact drain_passes n ⟨hr, halign, hcache, hidle, hinactive, hsched, htail⟩ hrx hpow hp hk hq
  · intro hp hk
    refine ⟨statusWord (s.setSched es), statusWord_reads (s := s.setSched es) hr, ?_⟩
    rw [step_seq hs, sequencerStep_initCheck (s := s.setSched es) hp hk]
    by_cases hv : statusWord (s.setSched es) &&& 0x1400#32 = 0x1000#32
    · simp only [if_pos hv]
      rfl
    · simp only [if_neg hv]
      rfl
  · intro hp hk hidle hlast
    refine ⟨dmaStatusWord (s.setSched es), (status_word (s := s.setSched es) hr.1).2 hidle, ?_⟩
    rw [step_seq hs, dmaPoll_idle (s := s.setSched es) hr.1 hidle hp,
      show (s.setSched es).seq.stack = _ from hk, resume_drain_done (by exact hlast)]
    rfl
  · intro k hp hk hcaller
    obtain ⟨p, w, hbelow, hsame, hstep⟩ := step_recovery hr hs hp hk
    refine ⟨p, w, hbelow, fun ⟨buf, len, hfirst⟩ => hsame (by rw [hfirst]; rfl), hstep.trans ?_⟩
    have hdrop : resume k .timeout ((s.setSched es).recovered p w) =
        resume [.initDrain] .timeout ((s.setSched es).recovered p w) := by
      rcases hcaller with ⟨buf, len, rfl⟩ | rfl
      · exact resume_wait_timeout (.inl ⟨buf, len, rfl⟩) _ _
      · exact resume_wait_timeout (.inr (.inl rfl)) _ _
    rw [hdrop, resume_initDrain_timeout]
    rfl

end Sys2Proof.Machine
end

section
/-! PROOFS. Packet transfer (44_packet_transfer): a packet's length and place (R235), WRITE's arming no-op (R238, R241), and
what a whole READ and a whole WRITE deliver (R244, R245). -/

namespace Sys2Proof.Machine

/-! ### A packet's length and place (44_packet_transfer R235) -/

/-- Settles O47, from the two values as numbers. -/
theorem chunkArithmetic : Obligations.ChunkArithmetic := by
  intro remaining hremaining
  have hchunk := chunkOf_toNat remaining
  obtain ⟨hbase, -⟩ := baseOffsetOf_toNat hremaining
  have hpos := toNat_pos hremaining
  omega

theorem chunkOf_setWidth (remaining : Word) :
    (chunkOf remaining).setWidth 32 = BitVec.ofNat 32 (min 512 remaining.toNat) := by
  apply BitVec.eq_of_toNat_eq
  rw [setWidth_chunk, chunkOf_toNat, BitVec.toNat_ofNat]
  omega

/-! ### The start of a transfer -/

theorem packetRam_startTransfer (buf len : Word) (s : State) : packetRam (startTransfer buf len s) = buf :=
  BitVec.add_zero buf

/-- The cursor, set to 0 at the start of a transfer, after all its bytes. -/
theorem cursor_at_end (len : Word) : 0#32 + BitVec.ofNat 32 len.toNat = len := by
  rw [BitVec.ofNat_toNat, BitVec.setWidth_eq, BitVec.zero_add]

/-- What READ and WRITE need of a state depends on none of the registers that the start of a transfer sets. -/
theorem ReadReady.startTransfer {s : State} (h : ReadReady s) (buf len : Word) : ReadReady (startTransfer buf len s) :=
  ⟨h.bridge, h.aligns, h.cache, h.idle, h.inactive, h.sched⟩

/-! ### WRITE's arming no-op (44_packet_transfer R238, R241) -/

/-- WRITE accepted, before its arming write: its operands and `seq.buf` latched. -/
def State.writeAccepted (s : State) (buf len : Word) : State :=
  ({ s with seq := { s.seq with buf := buf } } : State).within .write [buf, len]
    (.wrReg offUsbCfg (commandWriteNop.setWidth 32)) [.writeArm buf len]

/-- The arming no-op written: an idle bridge (43_handshake R204) and one more transaction. -/
def State.armed (s : State) : State :=
  ({ s with brg := { s.brg with
    cmd := commandWriteNop, active := false, dir := .wr, ptr := Config.freePtr s.draws } } : State).transacted
      (.busWrite (regAddr s.cfg offUsbCfg) (commandWriteNop.setWidth 32))

/-- WRITE begins with the arming no-op. -/
theorem exec_write {s : State} (hop : s.seq.op = .idle) (hinit : s.seq.initialized = true) {buf len : Word}
    (hrange : buf.toNat + len.toNat ≤ 0x100000000) :
    exec (.write buf len) s = .next (sequencerStep (s.writeAccepted buf len)) :=
  runTransfer_ready hop hinit hrange .write (callWrite buf len [])

theorem registerWrite_writeNop {s : State} (hr : s.bridgeReady) :
    registerWrite offUsbCfg (commandWriteNop.setWidth 32) s = s.armed := by
  unfold registerWrite
  rw [registerEffect_usbCfg hr.1 hr.2, low16_setWidth, command_noOperation rfl rfl]
  rfl

/-- The arming write made: WRITE's loop begins. -/
theorem sequencerStep_writeAccepted {s : State} (hr : s.bridgeReady) (buf len : Word) :
    sequencerStep (s.writeAccepted buf len) =
      follow [] (writeLoop (startTransfer buf len (s.writeAccepted buf len).armed)) := by
  rw [sequencerStep_wrReg (s := s.writeAccepted buf len) rfl rfl (fun h => nomatch h),
    registerWrite_writeNop (s := s.writeAccepted buf len) hr]
  exact resume_cons (.writeArm buf len) [] .ok (s.writeAccepted buf len).armed

/-- Settles O49, by whether there is a packet. -/
theorem writeBeginsWithArming : Obligations.WriteBeginsWithArming := by
  intro s buf len hr hop hinit hrange
  refine ⟨Config.freePtr s.draws, ?_⟩
  rw [exec_write hop hinit hrange, sequencerStep_writeAccepted hr]
  by_cases hlen : len = 0#32
  · simp only [if_pos hlen]
    rw [writeLoop_done hlen]
    rfl
  · simp only [if_neg hlen]
    generalize hu : startTransfer buf len (s.writeAccepted buf len).armed = u
    have hram : packetRam (nextPacket u) = buf := by
      rw [← hu]; exact packetRam_startTransfer buf len (s.writeAccepted buf len).armed
    have hpacket : packetLen (nextPacket u) = BitVec.ofNat 32 (min 512 len.toNat) := by
      rw [← hu]; exact chunkOf_setWidth len
    rw [writeLoop_next (s := u) (by rw [← hu]; exact hlen), hram, hpacket, ← hu]
    rfl

/-! ### A whole READ (44_packet_transfer R244) -/

/-- The bytes delivered are in RAM, no line of theirs being in the cache. -/
theorem Delivered.read {s t : State} {a : Word} {n : Nat} (h : Delivered s t a n) {b : Word}
    (hb : ramPhys b < s.cfg.ramSize) (hfrom : ramPhys a ≤ ramPhys b) (hto : ramPhys b < ramPhys a + n) :
    t.mem.read (ramPhys b) = (s.brg.rxFifo[ramPhys b - ramPhys a]?).getD 0#8 := by
  have habsent : keyGet (lineIndex t.cfg b) t.cache = .none := by
    rw [h.lines, h.cfg]
    exact if_pos ⟨by omega, Nat.div_le_div_right hfrom, Nat.div_le_div_right (by omega)⟩
  rw [← cpuByte_absent habsent, h.bytes b hb hfrom hto]

/-- Byte `i` delivered is byte `i` of the receive FIFO, in RAM and as CLIENT reads it. -/
theorem Delivered.byte {s t : State} {a : Word} {n : Nat} (h : Delivered s t a n) (hl : s.cfg.legal = true)
    (h32 : a.toNat + n ≤ 0x100000000) (hram : ramPhys a + n ≤ s.cfg.ramSize) (hq : n ≤ s.brg.rxFifo.length) {i : Nat}
    (hi : i < n) :
    s.brg.rxFifo[i]? = some (t.mem.read (ramPhys a + i)) ∧
      s.brg.rxFifo[i]? = some (cpuByte t (a + BitVec.ofNat 32 i)) := by
  have hplace : ramPhys (a + BitVec.ofNat 32 i) = ramPhys a + i := ramPhys_add hl (by omega) (by omega)
  have hmem := h.read (b := a + BitVec.ofNat 32 i) (by omega) (by omega) (by omega)
  have hview := h.bytes (a + BitVec.ofNat 32 i) (by omega) (by omega) (by omega)
  rw [hplace, Nat.add_sub_cancel_left] at hmem hview
  rw [hmem, hview, List.getElem?_eq_getElem (by omega)]
  exact ⟨rfl, rfl⟩

/-- READ's first wait over: one status read, ACTIVE being clear. -/
def State.firstWaitDone (s : State) (buf len : Word) : State :=
  let u := s.readAccepted buf len
  ({ u with seq := { u.seq with poll := u.seq.poll + 1#14 } } : State).transacted
    (.busRead (regAddr u.cfg offUsbCfg) (statusWord u))

/-- READ accepted with ACTIVE clear: one status read, and READ's loop begins. -/
theorem sequencerStep_readAccepted {s : State} (hr : s.bridgeReady) (ha : s.brg.active = false) (buf len : Word) :
    sequencerStep (s.readAccepted buf len) = follow [] (readLoop (startTransfer buf len (s.firstWaitDone buf len))) :=
  (poll_done (s := s.readAccepted buf len) hr ha rfl rfl).trans
    (resume_cons (.readFirstWait buf len) [] .ok (s.firstWaitDone buf len))

/-- READ offered to an idle block, from its acceptance to its answer. -/
theorem read_run {s : State} {buf len : Word} (hs : ReadReady (s.setSched [])) (hop : s.seq.op = .idle)
    (hinit : s.seq.initialized = true) (hrange : buf.toNat + len.toNat ≤ 0x100000000)
    (hram : ramPhys buf + len.toNat ≤ s.cfg.ramSize) (hq : len.toNat ≤ s.brg.rxFifo.length)
    (hsched : s.sched = [.offer ⟨.opd, [0x2#32, buf, len]⟩]) :
    ∃ (n : Nat) (t : State), runSteps n s = .next (answer 0#32 0#32 t) ∧
      Delivered (startTransfer buf len ((s.setSched []).firstWaitDone buf len)) t buf len.toNat ∧
      t.seq.remaining = 0#32 := by
  generalize hv : startTransfer buf len ((s.setSched []).firstWaitDone buf len) = v
  have hstep : step s = .next (follow [] (readLoop v)) := by
    rw [step_read hop hinit hrange hsched, sequencerStep_readAccepted hs.bridge hs.inactive, hv]
  have hready : ReadReady v := by
    rw [← hv]
    exact ReadReady.startTransfer (s := (s.setSched []).firstWaitDone buf len)
      ⟨hs.bridge, hs.aligns, hs.cache, hs.idle, hs.inactive, hs.sched⟩ buf len
  have hbuf : packetRam v = buf := by rw [← hv]; exact packetRam_startTransfer buf len _
  have hlen : v.seq.remaining = len := by rw [← hv]; rfl
  obtain ⟨k, t, hrun, hdelivered, hremaining, -⟩ := read_loop len.toNat (s := v) (c := []) (by rw [hlen]) hready
    (by rw [hlen, ← hv]; exact hq) (by rw [hlen, hbuf]; exact hrange) (by rw [hlen, hbuf, ← hv]; exact hram)
  rw [hbuf, hlen] at hdelivered
  exact ⟨k + 1, t, (runSteps_step hstep k).trans hrun, hdelivered, hremaining⟩

/-- Settles O51: the run of READ delivers the buffer, packet by packet. -/
theorem readDeliversFifoBytes : Obligations.ReadDeliversFifoBytes := by
  intro s buf len hr halign hdata hop hinit hidle hinactive hrange hram hq hsched htail
  obtain ⟨-, hcache, -⟩ := (State.dataOk_iff s).1 hdata
  obtain ⟨n, t, hrun, hdelivered, hremaining⟩ :=
    read_run ⟨hr, halign, hcache, hidle, hinactive, rfl, htail⟩ hop hinit hrange hram hq hsched
  have hcursor : t.seq.cursor = len := hdelivered.cursor.trans (cursor_at_end len)
  refine ⟨n, answer 0#32 0#32 t, hrun, ⟨rfl, rfl, rfl, rfl⟩,
    fun i hi => hdelivered.byte hr.1 hrange hram hq hi, hdelivered.rx, hdelivered.tx, hdelivered.ready.inactive,
    hcursor, hremaining, fun b hb hout hfresh => ?_⟩
  exact hdelivered.others b hb (by omega) hfresh

/-! ### A whole WRITE (44_packet_transfer R245) -/

/-- A step in which CLIENT offers WRITE and the block accepts it: the arming write is made, and WRITE's loop begins. -/
theorem step_write {s : State} {es : List Event} (hr : s.bridgeReady) (hop : s.seq.op = .idle)
    (hinit : s.seq.initialized = true) {buf len : Word} (hrange : buf.toNat + len.toNat ≤ 0x100000000)
    (hsched : s.sched = .offer ⟨.opd, [0x3#32, buf, len]⟩ :: es) :
    step s = .next (follow [] (writeLoop (startTransfer buf len ((s.setSched es).writeAccepted buf len).armed))) := by
  rw [step_offer hsched rfl rfl, exec_write (s := s.setSched es) hop hinit hrange,
    sequencerStep_writeAccepted (s := s.setSched es) hr]

/-- WRITE offered to an idle block, from its acceptance to its answer; the arming no-op idles the bridge. -/
theorem write_run {s : State} {buf len : Word} (hr : s.bridgeReady) (halign : s.cfg.alignsAll)
    (hcache : cacheFits s.cfg s.cache = true) (hidle : s.dma.busy = false) (htail : s.tail = .default)
    (hop : s.seq.op = .idle) (hinit : s.seq.initialized = true) (hrange : buf.toNat + len.toNat ≤ 0x100000000)
    (hram : ramPhys buf + len.toNat ≤ s.cfg.ramSize)
    (hroom : ∀ d, s.cfg.txDepth = some d → s.brg.txFifo.length + len.toNat ≤ d)
    (hfresh : ∀ i, i < len.toNat → s.notStale ((ramPhys buf + i) / s.cfg.lineSize))
    (hsched : s.sched = [.offer ⟨.opd, [0x3#32, buf, len]⟩]) :
    ∃ (n : Nat) (t : State), runSteps n s = .next (answer 0#32 0#32 t) ∧
      Sent (startTransfer buf len ((s.setSched []).writeAccepted buf len).armed) t buf len.toNat ∧
      t.seq.remaining = 0#32 := by
  have hstep := step_write hr hop hinit hrange hsched
  generalize hv : startTransfer buf len ((s.setSched []).writeAccepted buf len).armed = v at hstep ⊢
  have hready : ReadReady v := by
    rw [← hv]
    exact ReadReady.startTransfer (s := ((s.setSched []).writeAccepted buf len).armed)
      ⟨hr, halign, hcache, hidle, rfl, rfl, htail⟩ buf len
  have hbuf : packetRam v = buf := by rw [← hv]; exact packetRam_startTransfer buf len _
  have hlen : v.seq.remaining = len := by rw [← hv]; rfl
  obtain ⟨k, t, hrun, hsent, hremaining, -⟩ := write_loop len.toNat (s := v) (c := []) (by rw [hlen]) hready
    (by rw [hlen, ← hv]; exact hroom) (by rw [hlen, hbuf]; exact hrange) (by rw [hlen, hbuf, ← hv]; exact hram)
    (by rw [hlen, hbuf, ← hv]; exact hfresh)
  rw [hbuf, hlen] at hsent
  exact ⟨k + 1, t, (runSteps_step hstep k).trans hrun, hsent, hremaining⟩

/-- Settles O52: the run of WRITE sends the buffer, packet by packet. -/
theorem writeDeliversBufferBytes : Obligations.WriteDeliversBufferBytes := by
  intro s buf len hr halign hdata hop hinit hidle hrange hram hroom hfresh hsched htail
  obtain ⟨-, hcache, -⟩ := (State.dataOk_iff s).1 hdata
  obtain ⟨n, t, hrun, hsent, hremaining⟩ :=
    write_run hr halign hcache hidle htail hop hinit hrange hram hroom hfresh hsched
  have hcursor : t.seq.cursor = len := hsent.cursor.trans (cursor_at_end len)
  exact ⟨n, answer 0#32 0#32 t, hrun, ⟨rfl, rfl, rfl, rfl⟩, hsent.tx, hsent.rx, hsent.ready.inactive, hcursor, hremaining,
    hsent.view⟩

end Sys2Proof.Machine
end

section
/-! PROOFS. INIT and the lifecycle (45_init_lifecycle): NEW (R260), READ and WRITE before INIT (R272), the key and the
configuration registers (R269, R270), and a whole INIT that finds nothing to drain (R261, R262; 70_reset_and_hazards
R314). -/

namespace Sys2Proof.Machine

/-! ### NEW, and a transfer before INIT (45_init_lifecycle R260, R272) -/

/-- Settles O53: NEW is its end, the flag cleared, and no transaction before it. -/
theorem newClearsLifecycleFlag : Obligations.NewClearsLifecycleFlag := by
  intro s hop
  have hend : launch .new [] (fun t => .ret .ok (setInitialized false t)) s =
      finish .ok (setInitialized false (s.latch .new [])) := launch_ret rfl
  exact (whenIdle_idle hop _).trans (congrArg _ hend)

/-- A transfer while the lifecycle flag is 0 is refused before its range is looked at. -/
theorem runTransfer_uninitialised {s : State} (hop : s.seq.op = .idle) (hinit : s.seq.initialized = false) (op : Op)
    (buf len : Word) (routine : State → Flow) : runTransfer op buf len routine s = .refused .notInitialised :=
  if_pos ⟨hop, hinit⟩

/-- Settles O9: both transfers test the flag first. -/
theorem transferBeforeInitRefused : Obligations.TransferBeforeInitRefused := by
  intro s buf len hop hinit
  exact ⟨runTransfer_uninitialised hop hinit .read buf len _, runTransfer_uninitialised hop hinit .write buf len _⟩

/-! ### The key and the configuration registers (45_init_lifecycle R269, R270) -/

theorem registerEffect_key {s : State} (hl : s.cfg.legal = true) (v : Word) :
    registerEffect 0x8004#32 v s = keyWrite v s :=
  registerEffect_bridge hl (by decide) v

theorem registerEffect_sysCfg {s : State} (hr : s.bridgeReady) (v : Word) :
    registerEffect 0x8000#32 v s = s.setBrg { s.brg with sysCfg := v.low16 } :=
  (registerEffect_bridge hr.1 (by decide) v).trans (if_pos hr.2)

theorem registerEffect_ramCfg {s : State} (hr : s.bridgeReady) (v : Word) :
    registerEffect 0x8018#32 v s = s.setBrg { s.brg with ramCfg := v.low16 } :=
  (registerEffect_bridge hr.1 (by decide) v).trans (if_pos hr.2)

/-- The lock after a write to KEY: the key opens it, another value leaves a draw. -/
def lockAfter (v : Word) (s : State) : Bool := if v.low16 = 0xAA55#16 then true else Config.freeBit s.draws 0

theorem lockAfter_key {v : Word} (h : v.low16 = 0xAA55#16) (s : State) : lockAfter v s = true := if_pos h

/-- WR_REG of KEY changes the lock alone, on a locked bridge too. -/
theorem exec_wrReg_key {s : State} (hl : s.cfg.legal = true) (hop : s.seq.op = .idle) (v : Word) :
    exec (.wrReg 0x8004#32 v) s =
      .next ((({ s with brg := { s.brg with unlocked := lockAfter v s } } : State).transacted
        (.busWrite (regAddr s.cfg 0x8004#32) v)).ended [0x8004#32, v] ⟨0#32, 0#32⟩) := by
  rw [exec_wrReg hop, registerEffect_key hl]
  rfl

/-- Settles O15: KEY_UNLOCK is WR_REG of KEY with the key in its low half. -/
theorem keyWriteUnlocks : Obligations.KeyWriteUnlocks := by
  intro s v hi hl hop
  refine ⟨⟨lockAfter v s, fun h => lockAfter_key h s, exec_wrReg_key hl hop v⟩, ?_⟩
  have hkey := exec_wrReg_key hl hop (Word.ofHalves hi 0xAA55#16)
  rw [lockAfter_key (Word.low16_ofHalves hi 0xAA55#16)] at hkey
  exact hkey

/-- WR_REG of SYS_CFG stores the low half of the value. -/
theorem exec_wrReg_sysCfg {s : State} (hr : s.bridgeReady) (hop : s.seq.op = .idle) {v : Word} {w : BitVec 16}
    (hv : v.low16 = w) :
    exec (.wrReg 0x8000#32 v) s =
      .next ((({ s with brg := { s.brg with sysCfg := w } } : State).transacted
        (.busWrite (regAddr s.cfg 0x8000#32) v)).ended [0x8000#32, v] ⟨0#32, 0#32⟩) := by
  rw [exec_wrReg hop, registerEffect_sysCfg hr, hv]
  rfl

/-- WR_REG of RAM_CFG stores the low half of the value. -/
theorem exec_wrReg_ramCfg {s : State} (hr : s.bridgeReady) (hop : s.seq.op = .idle) {v : Word} {w : BitVec 16}
    (hv : v.low16 = w) :
    exec (.wrReg 0x8018#32 v) s =
      .next ((({ s with brg := { s.brg with ramCfg := w } } : State).transacted
        (.busWrite (regAddr s.cfg 0x8018#32) v)).ended [0x8018#32, v] ⟨0#32, 0#32⟩) := by
  rw [exec_wrReg hop, registerEffect_ramCfg hr, hv]
  rfl

/-- Settles O16: the pseudo-operations are WR_REG of a value whose low half is theirs. -/
theorem configurationRegistersStore : Obligations.ConfigurationRegistersStore := by
  intro s v hi hr hop
  exact ⟨exec_wrReg_sysCfg hr hop rfl, exec_wrReg_ramCfg hr hop rfl,
    exec_wrReg_sysCfg hr hop (Word.low16_ofHalves hi 0#16),
    exec_wrReg_ramCfg hr hop (Word.low16_ofHalves hi s.cfg.ramCfgSaveOff)⟩

/-! ### INIT's timing writes (45_init_lifecycle R262; 42_dma R185) -/

/-- The timing registers after these entries are written in order. -/
def timingAfter : List (Word × Word) → List (Nat × Word) → List (Nat × Word)
  | [], tm => tm
  | e :: l, tm => timingAfter l (keySet e.1.toNat e.2 tm)

/-- A timing register that no entry names stays. -/
theorem timingAfter_other {l : List (Word × Word)} {p : Nat} (h : ∀ e ∈ l, e.1.toNat ≠ p) (tm : List (Nat × Word)) :
    keyGet p (timingAfter l tm) = keyGet p tm := by
  induction l generalizing tm with
  | nil => rfl
  | cons e l ih =>
    obtain ⟨he, hrest⟩ := List.forall_mem_cons.1 h
    rw [timingAfter, ih hrest, keyGet_keySet_other he.symm]

/-- Each entry's register holds its value, no address being listed twice. -/
theorem timingAfter_entry {l : List (Word × Word)} (h : (l.map (·.1)).Nodup) {e : Word × Word} (he : e ∈ l)
    (tm : List (Nat × Word)) : keyGet e.1.toNat (timingAfter l tm) = some e.2 := by
  induction l generalizing tm with
  | nil => nomatch he
  | cons a l ih =>
    obtain ⟨hfresh, hrest⟩ := List.nodup_cons.1 h
    rcases List.mem_cons.1 he with rfl | hin
    · have hother : ∀ x ∈ l, x.1.toNat ≠ e.1.toNat := fun x hx hxe =>
        hfresh (List.mem_map.2 ⟨x, hx, BitVec.eq_of_toNat_eq hxe⟩)
      rw [timingAfter, timingAfter_other hother, keyGet_keySet_self]
    · exact ih hrest hin _

/-- The state after the bus write of one timing entry. -/
def State.timedEntry (s : State) (e : Word × Word) : State :=
  ({ s with dma := { s.dma with timing := keySet e.1.toNat e.2 s.dma.timing } } : State).transacted
    (.busWrite (uncached s.cfg e.1) e.2)

/-- The state after the bus writes of these timing entries. -/
def State.timed (s : State) (l : List (Word × Word)) : State :=
  { s with
    dma := { s.dma with timing := timingAfter l s.dma.timing }
    trace := (l.map (fun e => Transaction.busWrite (uncached s.cfg e.1) e.2)).reverse ++ s.trace
    draws := s.draws + l.length }

/-- The first entry's write, then those of the rest. -/
theorem State.timed_cons (s : State) (e : Word × Word) (l : List (Word × Word)) :
    s.timed (e :: l) = (s.timedEntry e).timed l := by
  simp [State.timed, State.timedEntry, State.transacted, timingAfter, Nat.add_assoc, Nat.add_comm]

/-- SEQ before the first of INIT's writes that is left: timing entry `i`, or the key. -/
def State.initAt (s : State) (i : Nat) : State := follow [] (initFrom i s)

theorem State.initAt_timing {s : State} {i : Nat} (h : i < s.cfg.dom1Timing.length) :
    s.initAt i = s.jump (.initTiming i) [] := by
  rw [State.initAt, initFrom_timing h]
  rfl

theorem State.initAt_key {s : State} {i : Nat} (h : s.cfg.dom1Timing.length ≤ i) :
    s.initAt i = s.jump (.wrReg 0x8004#32 0x0000AA55#32) [.initKey] := by
  rw [State.initAt, initFrom_key h]
  rfl

/-- The schedule does not matter for where INIT stands. -/
theorem State.initAt_setSched (s : State) (i : Nat) (es : List Event) :
    (s.initAt i).setSched es = (s.setSched es).initAt i := by
  rcases Nat.lt_or_ge i s.cfg.dom1Timing.length with h | h
  · rw [initAt_timing h, initAt_timing (s := s.setSched es) h]
    rfl
  · rw [initAt_key h, initAt_key (s := s.setSched es) h]
    rfl

theorem State.initAt_sched (s : State) (i : Nat) : (s.initAt i).sched = s.sched := by
  have h : (s.initAt i).setSched s.sched = s.initAt i := s.initAt_setSched i s.sched
  rw [← h]
  rfl

/-- SEQ's step at timing entry `i`: its write, and on to what is left. -/
theorem step_initAt {s : State} {es : List Event} {i : Nat} {e : Word × Word} (hl : s.cfg.legal = true)
    (he : s.cfg.dom1Timing[i]? = some e) (hs : s.sched = .seq :: es) :
    step (s.initAt i) = .next ((((s.setSched es).timedEntry e).jump (.initTiming i) []).initAt (i + 1)) := by
  rw [State.initAt_timing (List.getElem?_eq_some_iff.1 he).1, step_seq (s := s.jump (.initTiming i) []) hs,
    sequencerStep_initTiming (s := (s.jump (.initTiming i) []).setSched es) hl rfl he]
  rfl

/-- SEQ makes the timing writes from entry `i` on, in list order, and comes to the key. -/
theorem timing_run {l : List (Word × Word)} {es : List Event} {s : State} {i : Nat} (hl : s.cfg.legal = true)
    (hleft : s.cfg.dom1Timing.drop i = l) (hs : s.sched = List.replicate l.length .seq ++ es) :
    runSteps l.length (s.initAt i) =
      .next (((s.setSched es).timed l).jump (.wrReg 0x8004#32 0x0000AA55#32) [.initKey]) := by
  induction l generalizing s i with
  | nil =>
    have hsched : s.setSched es = s := by rw [← (show s.sched = es from hs)]; rfl
    rw [State.initAt_key (List.drop_eq_nil_iff.1 hleft), hsched]
    rfl
  | cons e l ih =>
    have hget : s.cfg.dom1Timing[i]? = some e := by
      rw [← List.head?_drop, hleft]
      rfl
    have hrest : s.cfg.dom1Timing.drop (i + 1) = l := by rw [← List.tail_drop, hleft]; rfl
    have hlisted : s.sched = .seq :: (List.replicate l.length .seq ++ es) := hs
    have hrun := ih (i := i + 1) (s :=
      ((s.setSched (List.replicate l.length .seq ++ es)).timedEntry e).jump (.initTiming i) []) hl hrest rfl
    rw [List.length_cons, runSteps_step (step_initAt hl hget hlisted), hrun, State.timed_cons]
    rfl

/-! ### From the key to INIT's end (45_init_lifecycle R261, R265 to R267) -/

/-- CAN_READ fails on the status word: HOST is off, or RXF is set, by an empty receive FIFO where the bit is active-low
and by a byte in it where it is active-high (43_handshake R200, R211, R215). -/
def State.nothingToDrain (s : State) : Prop :=
  s.host.powered = false ∨ (s.cfg.rxfActiveLow = true ∧ s.brg.rxFifo = []) ∨
    (s.cfg.rxfActiveLow = false ∧ s.brg.rxFifo ≠ [])

theorem statusWord_nothingToDrain {s : State} (hr : s.bridgeReady) (h : s.nothingToDrain) :
    ¬ statusWord s &&& 0x1400#32 = 0x1000#32 := by
  intro hword
  obtain ⟨-, hpowered, hrxHigh, hrxLow, -⟩ := statusWord_reads hr
  have h12 : (statusWord s).getLsbD 12 = true := by simpa using congrArg (·.getLsbD 12) hword
  have h10 : (statusWord s).getLsbD 10 = false := by simpa using congrArg (·.getLsbD 10) hword
  rcases h with hoff | ⟨hlow, hempty⟩ | ⟨hhigh, hbytes⟩
  · exact Bool.false_ne_true (hoff.symm.trans (hpowered.symm.trans h12))
  · exact (hrxLow hlow).1 h10 hempty
  · exact Bool.false_ne_true (h10.symm.trans ((hrxHigh hhigh).2 hbytes))

/-- A register write of SEQ inside INIT: the bus write, and on to what INIT does after it. -/
theorem step_initWrite {s : State} {es : List Event} {off v : Word} {f : Frame} (hs : s.sched = .seq :: es)
    (hf : f ≠ .waitRecovery) :
    step (s.jump (.wrReg off v) [f]) =
      .next (follow [] (afterCall f .ok (registerWrite off v ((s.setSched es).jump (.wrReg off v) [f])))) := by
  rw [step_seq (s := s.jump (.wrReg off v) [f]) hs,
    sequencerStep_wrReg (s := (s.jump (.wrReg off v) [f]).setSched es) rfl rfl hf]
  exact congrArg _ (resume_cons f [] .ok _)

/-- The bridge unlocked by INIT's key. -/
def State.keyWritten (s : State) : State :=
  ({ s with brg := { s.brg with unlocked := true } } : State).transacted
    (.busWrite (regAddr s.cfg 0x8004#32) 0x0000AA55#32)

/-- SYS_CFG cleared by INIT. -/
def State.sysCfgCleared (s : State) : State :=
  ({ s with brg := { s.brg with sysCfg := 0#16 } } : State).transacted (.busWrite (regAddr s.cfg 0x8000#32) 0#32)

/-- RAM_CFG set to the save-off value by INIT. -/
def State.saveEmulationOff (s : State) : State :=
  ({ s with brg := { s.brg with ramCfg := s.cfg.ramCfgSaveOff } } : State).transacted
    (.busWrite (regAddr s.cfg 0x8018#32) (s.cfg.ramCfgSaveOff.setWidth 32))

theorem step_initKey {s : State} {es : List Event} (hl : s.cfg.legal = true) (hs : s.sched = .seq :: es) :
    step (s.jump (.wrReg 0x8004#32 0x0000AA55#32) [.initKey]) =
      .next ((s.setSched es).keyWritten.jump (.wrReg 0x8000#32 0#32) [.initSysCfg]) := by
  rw [step_initWrite (f := .initKey) hs nofun, registerWrite_key (by exact hl)]
  rfl

theorem step_initSysCfg {s : State} {es : List Event} (hr : s.bridgeReady) (hs : s.sched = .seq :: es) :
    step (s.jump (.wrReg 0x8000#32 0#32) [.initSysCfg]) =
      .next ((s.setSched es).sysCfgCleared.jump (.rdReg offUsbCfg) [.canRead, .initCheck]) := by
  rw [step_initWrite (f := .initSysCfg) hs nofun, registerWrite, registerEffect_sysCfg (by exact hr)]
  rfl

/-- A status read does not look at the schedule. -/
theorem State.statusTransacted_setSched (s : State) (es : List Event) :
    (s.setSched es).statusTransacted = s.statusTransacted.setSched es := by
  have hword : statusWord (s.setSched es) = statusWord s := rfl
  rw [statusTransacted, hword]
  rfl

/-- INIT's check finds nothing to drain: the save-emulation write is next. -/
theorem step_initCheck {s : State} {es : List Event} (hr : s.bridgeReady) (hnone : s.nothingToDrain)
    (hs : s.sched = .seq :: es) :
    step (s.jump (.rdReg offUsbCfg) [.canRead, .initCheck]) =
      .next ((s.setSched es).statusTransacted.jump (.wrReg 0x8018#32 (s.cfg.ramCfgSaveOff.setWidth 32))
        [.initRamCfg]) := by
  generalize hu : (s.jump (.rdReg offUsbCfg) [.canRead, .initCheck]).setSched es = u
  have hword : ¬ statusWord u &&& 0x1400#32 = 0x1000#32 :=
    statusWord_nothingToDrain (by subst hu; exact hr) (by subst hu; exact hnone)
  rw [step_seq (s := s.jump (.rdReg offUsbCfg) [.canRead, .initCheck]) hs, hu,
    sequencerStep_initCheck (by subst hu; rfl) (by subst hu; rfl), if_neg hword, ← hu]
  rfl

/-- INIT's last transaction, the flag, and the answer. -/
theorem step_initRamCfg {s : State} {es : List Event} (hr : s.bridgeReady) (hs : s.sched = .seq :: es) :
    step (s.jump (.wrReg 0x8018#32 (s.cfg.ramCfgSaveOff.setWidth 32)) [.initRamCfg]) =
      .next (answer 0#32 0#32 (setInitialized true (s.setSched es).saveEmulationOff)) := by
  rw [step_initWrite (f := .initRamCfg) hs nofun, registerWrite, registerEffect_ramCfg (by exact hr), low16_setWidth]
  rfl

/-- From the check to the answer, nothing being there to drain. -/
theorem init_check_run {s : State} {es : List Event} (hr : s.bridgeReady) (hnone : s.nothingToDrain)
    (hs : s.sched = .seq :: .seq :: es) :
    runSteps 2 (s.jump (.rdReg offUsbCfg) [.canRead, .initCheck]) =
      .next (answer 0#32 0#32 (setInitialized true (s.setSched es).statusTransacted.saveEmulationOff)) := by
  have hcheck := step_initCheck hr hnone hs
  rw [State.statusTransacted_setSched] at hcheck
  have hram := step_initRamCfg (s := s.statusTransacted.setSched (.seq :: es)) hr rfl
  rw [State.setSched_setSched, ← State.statusTransacted_setSched] at hram
  exact (runSteps_step hcheck 1).trans (runSteps_one hram)

/-- From the write of SYS_CFG to the answer. -/
theorem init_sysCfg_run {s : State} {es : List Event} (hr : s.bridgeReady) (hnone : s.nothingToDrain)
    (hs : s.sched = .seq :: .seq :: .seq :: es) :
    runSteps 3 (s.jump (.wrReg 0x8000#32 0#32) [.initSysCfg]) = .next (answer 0#32 0#32 (setInitialized true
      (s.setSched es).sysCfgCleared.statusTransacted.saveEmulationOff)) :=
  (runSteps_step (step_initSysCfg hr hs) 2).trans
    (init_check_run (s := (s.setSched (.seq :: .seq :: es)).sysCfgCleared) hr hnone rfl)

/-- From the key to the answer. -/
theorem init_key_run {s : State} {es : List Event} (hl : s.cfg.legal = true) (hnone : s.nothingToDrain)
    (hs : s.sched = .seq :: .seq :: .seq :: .seq :: es) :
    runSteps 4 (s.jump (.wrReg 0x8004#32 0x0000AA55#32) [.initKey]) = .next (answer 0#32 0#32 (setInitialized true
      (s.setSched es).keyWritten.sysCfgCleared.statusTransacted.saveEmulationOff)) :=
  (runSteps_step (step_initKey hl hs) 3).trans
    (init_sysCfg_run (s := (s.setSched (.seq :: .seq :: .seq :: es)).keyWritten) ⟨hl, rfl⟩ hnone rfl)

/-! ### A whole INIT that drains nothing (45_init_lifecycle R261; 70_reset_and_hazards R314) -/

/-- INIT launched is SEQ's first step from where INIT begins. -/
theorem launch_init (s : State) : launch .init [] (initFrom 0) s = sequencerStep ((s.latch .init []).initAt 0) := by
  rcases Nat.lt_or_ge 0 s.cfg.dom1Timing.length with h | h
  · rw [launch_goto (initFrom_timing (s := s.latch .init []) h), State.initAt_timing (s := s.latch .init []) h]
  · rw [launch_goto ((initFrom_key (s := s.latch .init []) h).trans rfl), State.initAt_key (s := s.latch .init []) h]

/-- A step in which CLIENT offers INIT and the block accepts it: SEQ's first step in INIT (log 8). -/
theorem step_init {s : State} {es : List Event} (hop : s.seq.op = .idle)
    (hs : s.sched = .offer ⟨.opd, [0x1#32]⟩ :: es) :
    step s = step (((s.setSched (.seq :: es)).latch .init []).initAt 0) := by
  have hinit : step s = .next (sequencerStep (((s.setSched es).latch .init []).initAt 0)) := by
    rw [step_offer hs rfl rfl, exec_init (s := s.setSched es) hop, launch_init]
  rw [hinit, step_seq (State.initAt_sched _ _), State.initAt_setSched]
  rfl

/-- INIT offered with nothing to drain and only SEQ moving, from its acceptance to its answer. -/
theorem init_run {s : State} {es : List Event} (hl : s.cfg.legal = true) (hop : s.seq.op = .idle)
    (hnone : s.nothingToDrain)
    (hs : s.sched = .offer ⟨.opd, [0x1#32]⟩ :: (List.replicate (s.cfg.dom1Timing.length + 3) Event.seq ++ es)) :
    runSteps (s.cfg.dom1Timing.length + 4) s = .next (answer 0#32 0#32 (setInitialized true
      ((((s.latch .init []).setSched es).timed s.cfg.dom1Timing).keyWritten.sysCfgCleared.statusTransacted
        ).saveEmulationOff)) := by
  generalize hu : (s.setSched (List.replicate (s.cfg.dom1Timing.length + 4) Event.seq ++ es)).latch .init [] = u
  have hfirst : step s = step (u.initAt 0) := by rw [← hu]; exact step_init hop hs
  have hsched : u.sched = List.replicate s.cfg.dom1Timing.length .seq ++ (List.replicate 4 .seq ++ es) := by
    rw [← List.append_assoc, List.replicate_append_replicate, ← hu]
    rfl
  have htiming := timing_run (s := u) (i := 0) (l := s.cfg.dom1Timing) (by subst hu; exact hl) (by subst hu; rfl) hsched
  have hend := init_key_run (s := (u.setSched (List.replicate 4 .seq ++ es)).timed s.cfg.dom1Timing) (es := es)
    (by subst hu; exact hl) (by subst hu; exact hnone) rfl
  refine (runSteps_same hfirst _).trans ((runSteps_trans htiming hend).trans ?_)
  subst hu
  rfl

/-- Settles O55: the run of INIT, its last state read off field by field. -/
theorem initWithNothingToDrain : Obligations.InitWithNothingToDrain := by
  intro s es hl hop hnone hs
  have hrun := init_run hl hop hnone hs
  generalize ht : answer _ _ _ = t at hrun
  refine ⟨t, statusWord (((s.latch .init []).setSched es).timed s.cfg.dom1Timing).keyWritten.sysCfgCleared,
    timingAfter s.cfg.dom1Timing s.dma.timing, hrun, ?_⟩
  subst ht
  exact ⟨⟨rfl, rfl, rfl, rfl⟩, rfl, rfl, rfl, rfl, rfl, rfl, fun _ hp => timingAfter_other hp _,
    fun hnodup _ he => timingAfter_entry hnodup he _⟩

end Sys2Proof.Machine
end

section
/-! PROOFS. The refusals (60_exceptions R297; 70_reset_and_hazards R321): the grounds on which port CMD refuses an
instruction, while SEQ is busy and while it is idle. -/

namespace Sys2Proof.Machine

/-! ### What an offered instruction is answered -/

/-- The grounds on which an idle block refuses an instruction: 60_exceptions R297 (b), (c), (d), and an index past
`DOM1_TIMING` (log 9). -/
inductive State.Rejects (s : State) : Instr → Refusal → Prop
  | readBeforeInit (buf len : Word) (h : s.seq.initialized = false) : s.Rejects (.read buf len) .notInitialised
  | writeBeforeInit (buf len : Word) (h : s.seq.initialized = false) : s.Rejects (.write buf len) .notInitialised
  | readRange {buf len : Word} (h : rangeOk buf len = false) : s.Rejects (.read buf len) .rangeCrosses
  | writeRange {buf len : Word} (h : rangeOk buf len = false) : s.Rejects (.write buf len) .rangeCrosses
  | wbRange {addr len : Word} (h : rangeOk addr len = false) : s.Rejects (.cacheWb addr len) .rangeCrosses
  | wbinvRange {addr len : Word} (h : rangeOk addr len = false) : s.Rejects (.cacheWbinv addr len) .rangeCrosses
  | zeroLength (ram periph : Word) {len : Word} (dir : Dir) (h : lengthOk len = false) :
    s.Rejects (.dmaXfer ram periph len dir) .zeroLength
  | pastTimings {k : Nat} (h : timingIndexOk s.cfg k = false) : s.Rejects (.dom1Set k) .noTimingRegister

/-- The answers an instruction can get: refused by a busy block, refused by an idle one on one of its grounds, or
accepted by an idle one. None is a fault. -/
inductive State.Answers (s : State) (i : Instr) : Host.Outcome State Fault Refusal → Prop
  | busy (h : s.seq.op ≠ .idle) : s.Answers i (.refused .busy)
  | rejected {why : Refusal} (hop : s.seq.op = .idle) (h : s.Rejects i why) : s.Answers i (.refused why)
  | accepted (hop : s.seq.op = .idle) (t : State) : s.Answers i (.next t)

theorem whenIdle_answers (i : Instr) (f : State → State) (s : State) : s.Answers i (whenIdle f s) := by
  unfold whenIdle
  split
  · next hop => exact .accepted hop _
  · next hbusy => exact .busy hbusy

theorem whenIdleAnd_answers {ok : Bool} {why : Refusal} {i : Instr} {s : State} (hbad : ok = false → s.Rejects i why)
    (f : State → State) : s.Answers i (whenIdleAnd ok why f s) := by
  cases ok with
  | true => exact whenIdle_answers i f s
  | false =>
    by_cases hop : s.seq.op = .idle
    · rw [whenIdleAnd_refused hop rfl]
      exact .rejected hop (hbad rfl)
    · rw [whenIdleAnd, if_neg hop]
      exact .busy hop

theorem runTransfer_answers {buf len : Word} {i : Instr} {s : State}
    (huninit : s.seq.initialized = false → s.Rejects i .notInitialised)
    (hrange : rangeOk buf len = false → s.Rejects i .rangeCrosses) (op : Op) (routine : State → Flow) :
    s.Answers i (runTransfer op buf len routine s) := by
  unfold runTransfer
  split
  · next h =>
    obtain ⟨hop, hinit⟩ := h
    exact .rejected hop (huninit hinit)
  · exact whenIdleAnd_answers hrange _

/-- Every instruction passes one of three gates: READ and WRITE the transfers', those with an operand check of their own
the gate with that check, and all others the test that SEQ is idle. -/
theorem exec_answers (i : Instr) (s : State) : s.Answers i (exec i s) := by
  cases i with
  | read buf len => exact runTransfer_answers (.readBeforeInit buf len) .readRange .read _
  | write buf len => exact runTransfer_answers (.writeBeforeInit buf len) .writeRange .write _
  | cacheWb addr len => exact whenIdleAnd_answers .wbRange _
  | cacheWbinv addr len => exact whenIdleAnd_answers .wbinvRange _
  | dmaXfer ram periph len dir => exact whenIdleAnd_answers (.zeroLength ram periph dir) _
  | dom1Set k => exact whenIdleAnd_answers .pastTimings _
  | new | init | rdReg | wrReg | waitNotBusy | canRead | canWrite | dmaWaitIdle | usbCmdRdNop | usbCmdRd | usbCmdWrNop
  | usbCmdWr | keyUnlock | sysCfgClear | saveOff | usbStatus | dmaArm | dmaSetRam | dmaSetPeriph | dmaStartIn
  | dmaStartOut | dmaStatus => exact whenIdle_answers _ _ s

/-! ### The refusals (60_exceptions R297) -/

/-- Settles O7: the only answer of a busy block is the refusal. -/
theorem busyBlockRefusesEveryRequest : Obligations.BusyBlockRefusesEveryRequest := by
  intro i s hbusy
  have hanswer := exec_answers i s
  generalize exec i s = answer at hanswer ⊢
  cases hanswer with
  | busy => rfl
  | rejected hop => exact absurd hop hbusy
  | accepted hop => exact absurd hop hbusy

theorem exec_ne_fault (i : Instr) (s : State) (f : Fault) : exec i s ≠ .fault f := by
  intro h
  have hanswer := exec_answers i s
  rw [h] at hanswer
  nomatch hanswer

/-- A refusal is the busy block's, or on one of the instruction's own grounds. -/
theorem exec_refused {i : Instr} {s : State} {why : Refusal} (h : exec i s = .refused why) :
    (why = .busy ∧ s.seq.op ≠ .idle) ∨ s.Rejects i why := by
  have hanswer := exec_answers i s
  rw [h] at hanswer
  cases hanswer with
  | busy hbusy => exact .inl ⟨rfl, hbusy⟩
  | rejected _ hground => exact .inr hground

theorem crosses_of_rangeOk {addr len : Word} (h : rangeOk addr len = false) :
    0x100000000 < addr.toNat + len.toNat :=
  Nat.not_le.1 (of_decide_eq_false h)

/-- Settles O8, by the ground of the refusal. -/
theorem execRefusesOnlyAsListed : Obligations.ExecRefusesOnlyAsListed := by
  refine fun i s => ⟨exec_ne_fault i s, fun why h => (exec_refused h).imp_right fun hground => ?_⟩
  cases hground with
  | readBeforeInit buf len hinit => exact .inl ⟨rfl, hinit, buf, len, .inl rfl⟩
  | writeBeforeInit buf len hinit => exact .inl ⟨rfl, hinit, buf, len, .inr rfl⟩
  | readRange hrange => exact .inr (.inl ⟨rfl, _, _, crosses_of_rangeOk hrange, .inl rfl⟩)
  | writeRange hrange => exact .inr (.inl ⟨rfl, _, _, crosses_of_rangeOk hrange, .inr (.inl rfl)⟩)
  | wbRange hrange => exact .inr (.inl ⟨rfl, _, _, crosses_of_rangeOk hrange, .inr (.inr (.inl rfl))⟩)
  | wbinvRange hrange => exact .inr (.inl ⟨rfl, _, _, crosses_of_rangeOk hrange, .inr (.inr (.inr rfl))⟩)
  | zeroLength ram periph dir hlen =>
    obtain rfl := not_not.1 (of_decide_eq_false hlen)
    exact .inr (.inr (.inl ⟨rfl, ram, periph, dir, rfl⟩))
  | pastTimings hindex => exact .inr (.inr (.inr ⟨rfl, _, rfl, Nat.not_lt.1 (of_decide_eq_false hindex)⟩))

end Sys2Proof.Machine
end
